-- ==== Sys2Proof/Word.lean ====
section
/-! DEFINITION. The words of the machine: a byte of memory and the 64-bit cell that holds a
register or an address of either `XLEN` (00 R6, R11; notes/assumptions/1.md). -/

namespace Sys2Proof

/-- One byte (20 R80). -/
abbrev Byte := BitVec 8

/-- The cell of an `XLEN`-bit value. On RV32 the upper 32 bits are zero: every register is read and
written through the accessors of Machine/Ops.lean, which keep them so. -/
abbrev Word := BitVec 64

/-- A 32-bit instruction word (30 R121). -/
abbrev InsnWord := BitVec 32

end Sys2Proof
end

