-- ==== Sys2Proof/Syntax.lean ====
section
/-! DEFINITION. The instruction set as syntax: one constructor per row of spec/opcode_table.json,
operands in the order of the assembler form (30 R146). Register operands are the 5-bit numbers of
30 R134 and immediates the bit fields of 30 R135; ranges and reserved combinations are WellFormed's. -/

namespace Sys2Proof

/-- A register number, 5 bits (10 R30, 30 R134). -/
abbrev Reg := BitVec 5

/-- The 113 instructions of the collection (00 R4; 30 R136 to R140). -/
inductive Instr where
  -- XTheadCmo: 40_xtheadcmo.md
  /-- `th.dcache.call`, format `Z`; R175. -/
  | dcacheCall
  /-- `th.dcache.ciall`, format `Z`; R176. -/
  | dcacheCiall
  /-- `th.dcache.iall`, format `Z`; R177. -/
  | dcacheIall
  /-- `th.dcache.cpa`, format `A`; R178. -/
  | dcacheCpa (rs1 : Reg)
  /-- `th.dcache.cipa`, format `A`; R179. -/
  | dcacheCipa (rs1 : Reg)
  /-- `th.dcache.ipa`, format `A`; R180. -/
  | dcacheIpa (rs1 : Reg)
  /-- `th.dcache.cva`, format `A`; R181. -/
  | dcacheCva (rs1 : Reg)
  /-- `th.dcache.civa`, format `A`; R182. -/
  | dcacheCiva (rs1 : Reg)
  /-- `th.dcache.iva`, format `A`; R183. -/
  | dcacheIva (rs1 : Reg)
  /-- `th.dcache.csw`, format `A`; R184. -/
  | dcacheCsw (rs1 : Reg)
  /-- `th.dcache.cisw`, format `A`; R185. -/
  | dcacheCisw (rs1 : Reg)
  /-- `th.dcache.isw`, format `A`; R186. -/
  | dcacheIsw (rs1 : Reg)
  /-- `th.dcache.cpal1`, format `A`; R187. -/
  | dcacheCpal1 (rs1 : Reg)
  /-- `th.dcache.cval1`, format `A`; R188. -/
  | dcacheCval1 (rs1 : Reg)
  /-- `th.icache.iall`, format `Z`; R189. -/
  | icacheIall
  /-- `th.icache.ialls`, format `Z`; R190. -/
  | icacheIalls
  /-- `th.icache.ipa`, format `A`; R191. -/
  | icacheIpa (rs1 : Reg)
  /-- `th.icache.iva`, format `A`; R192. -/
  | icacheIva (rs1 : Reg)
  /-- `th.l2cache.call`, format `Z`; R193. -/
  | l2cacheCall
  /-- `th.l2cache.ciall`, format `Z`; R194. -/
  | l2cacheCiall
  /-- `th.l2cache.iall`, format `Z`; R195. -/
  | l2cacheIall
  -- XTheadSync: 41_xtheadsync.md
  /-- `th.sfence.vmas`, format `F`; R212. -/
  | sfenceVmas (rs1 rs2 : Reg)
  /-- `th.sync`, format `Z`; R213. -/
  | sync
  /-- `th.sync.s`, format `Z`; R214. -/
  | syncS
  /-- `th.sync.i`, format `Z`; R215. -/
  | syncI
  /-- `th.sync.is`, format `Z`; R216. -/
  | syncIs
  -- XTheadBa: 42_xtheadba_bb_bs_condmov.md
  /-- `th.addsl`, format `RS`; R231. -/
  | addsl (rd rs1 rs2 : Reg) (imm2 : BitVec 2)
  -- XTheadBb: 42_xtheadba_bb_bs_condmov.md
  /-- `th.srri`, format `I6`; R232. -/
  | srri (rd rs1 : Reg) (imm6 : BitVec 6)
  /-- `th.srriw`, format `I5`; R233. -/
  | srriw (rd rs1 : Reg) (imm5 : BitVec 5)
  /-- `th.ext`, format `X`; R234. -/
  | ext (rd rs1 : Reg) (imm1 imm2 : BitVec 6)
  /-- `th.extu`, format `X`; R235. -/
  | extu (rd rs1 : Reg) (imm1 imm2 : BitVec 6)
  /-- `th.ff0`, format `U`; R236. -/
  | ff0 (rd rs1 : Reg)
  /-- `th.ff1`, format `U`; R237. -/
  | ff1 (rd rs1 : Reg)
  /-- `th.rev`, format `U`; R238. -/
  | rev (rd rs1 : Reg)
  /-- `th.revw`, format `U`; R239. -/
  | revw (rd rs1 : Reg)
  /-- `th.tstnbz`, format `U`; R240. -/
  | tstnbz (rd rs1 : Reg)
  -- XTheadBs: 42_xtheadba_bb_bs_condmov.md
  /-- `th.tst`, format `I6`; R241. -/
  | tst (rd rs1 : Reg) (imm6 : BitVec 6)
  -- XTheadCondMov: 42_xtheadba_bb_bs_condmov.md
  /-- `th.mveqz`, format `R`; R242. -/
  | mveqz (rd rs1 rs2 : Reg)
  /-- `th.mvnez`, format `R`; R243. -/
  | mvnez (rd rs1 rs2 : Reg)
  -- XTheadMemIdx: 43_xtheadmemidx_increment.md
  /-- `th.lbia`, format `MI`; R263. -/
  | lbia (rd rs1 : Reg) (imm5 : BitVec 5) (imm2 : BitVec 2)
  /-- `th.lbib`, format `MI`; R264. -/
  | lbib (rd rs1 : Reg) (imm5 : BitVec 5) (imm2 : BitVec 2)
  /-- `th.lbuia`, format `MI`; R265. -/
  | lbuia (rd rs1 : Reg) (imm5 : BitVec 5) (imm2 : BitVec 2)
  /-- `th.lbuib`, format `MI`; R266. -/
  | lbuib (rd rs1 : Reg) (imm5 : BitVec 5) (imm2 : BitVec 2)
  /-- `th.lhia`, format `MI`; R267. -/
  | lhia (rd rs1 : Reg) (imm5 : BitVec 5) (imm2 : BitVec 2)
  /-- `th.lhib`, format `MI`; R268. -/
  | lhib (rd rs1 : Reg) (imm5 : BitVec 5) (imm2 : BitVec 2)
  /-- `th.lhuia`, format `MI`; R269. -/
  | lhuia (rd rs1 : Reg) (imm5 : BitVec 5) (imm2 : BitVec 2)
  /-- `th.lhuib`, format `MI`; R270. -/
  | lhuib (rd rs1 : Reg) (imm5 : BitVec 5) (imm2 : BitVec 2)
  /-- `th.lwia`, format `MI`; R271. -/
  | lwia (rd rs1 : Reg) (imm5 : BitVec 5) (imm2 : BitVec 2)
  /-- `th.lwib`, format `MI`; R272. -/
  | lwib (rd rs1 : Reg) (imm5 : BitVec 5) (imm2 : BitVec 2)
  /-- `th.lwuia`, format `MI`; R273. -/
  | lwuia (rd rs1 : Reg) (imm5 : BitVec 5) (imm2 : BitVec 2)
  /-- `th.lwuib`, format `MI`; R274. -/
  | lwuib (rd rs1 : Reg) (imm5 : BitVec 5) (imm2 : BitVec 2)
  /-- `th.ldia`, format `MI`; R275. -/
  | ldia (rd rs1 : Reg) (imm5 : BitVec 5) (imm2 : BitVec 2)
  /-- `th.ldib`, format `MI`; R276. -/
  | ldib (rd rs1 : Reg) (imm5 : BitVec 5) (imm2 : BitVec 2)
  /-- `th.sbia`, format `MI`; R277. -/
  | sbia (rd rs1 : Reg) (imm5 : BitVec 5) (imm2 : BitVec 2)
  /-- `th.sbib`, format `MI`; R278. -/
  | sbib (rd rs1 : Reg) (imm5 : BitVec 5) (imm2 : BitVec 2)
  /-- `th.shia`, format `MI`; R279. -/
  | shia (rd rs1 : Reg) (imm5 : BitVec 5) (imm2 : BitVec 2)
  /-- `th.shib`, format `MI`; R280. -/
  | shib (rd rs1 : Reg) (imm5 : BitVec 5) (imm2 : BitVec 2)
  /-- `th.swia`, format `MI`; R281. -/
  | swia (rd rs1 : Reg) (imm5 : BitVec 5) (imm2 : BitVec 2)
  /-- `th.swib`, format `MI`; R282. -/
  | swib (rd rs1 : Reg) (imm5 : BitVec 5) (imm2 : BitVec 2)
  /-- `th.sdia`, format `MI`; R283. -/
  | sdia (rd rs1 : Reg) (imm5 : BitVec 5) (imm2 : BitVec 2)
  /-- `th.sdib`, format `MI`; R284. -/
  | sdib (rd rs1 : Reg) (imm5 : BitVec 5) (imm2 : BitVec 2)
  /-- `th.lrb`, format `RS`; R302. -/
  | lrb (rd rs1 rs2 : Reg) (imm2 : BitVec 2)
  /-- `th.lrbu`, format `RS`; R303. -/
  | lrbu (rd rs1 rs2 : Reg) (imm2 : BitVec 2)
  /-- `th.lrh`, format `RS`; R304. -/
  | lrh (rd rs1 rs2 : Reg) (imm2 : BitVec 2)
  /-- `th.lrhu`, format `RS`; R305. -/
  | lrhu (rd rs1 rs2 : Reg) (imm2 : BitVec 2)
  /-- `th.lrw`, format `RS`; R306. -/
  | lrw (rd rs1 rs2 : Reg) (imm2 : BitVec 2)
  /-- `th.lrwu`, format `RS`; R307. -/
  | lrwu (rd rs1 rs2 : Reg) (imm2 : BitVec 2)
  /-- `th.lrd`, format `RS`; R308. -/
  | lrd (rd rs1 rs2 : Reg) (imm2 : BitVec 2)
  /-- `th.srb`, format `RS`; R309. -/
  | srb (rd rs1 rs2 : Reg) (imm2 : BitVec 2)
  /-- `th.srh`, format `RS`; R310. -/
  | srh (rd rs1 rs2 : Reg) (imm2 : BitVec 2)
  /-- `th.srw`, format `RS`; R311. -/
  | srw (rd rs1 rs2 : Reg) (imm2 : BitVec 2)
  /-- `th.srd`, format `RS`; R312. -/
  | srd (rd rs1 rs2 : Reg) (imm2 : BitVec 2)
  /-- `th.lurb`, format `RS`; R313. -/
  | lurb (rd rs1 rs2 : Reg) (imm2 : BitVec 2)
  /-- `th.lurbu`, format `RS`; R314. -/
  | lurbu (rd rs1 rs2 : Reg) (imm2 : BitVec 2)
  /-- `th.lurh`, format `RS`; R315. -/
  | lurh (rd rs1 rs2 : Reg) (imm2 : BitVec 2)
  /-- `th.lurhu`, format `RS`; R316. -/
  | lurhu (rd rs1 rs2 : Reg) (imm2 : BitVec 2)
  /-- `th.lurw`, format `RS`; R317. -/
  | lurw (rd rs1 rs2 : Reg) (imm2 : BitVec 2)
  /-- `th.lurwu`, format `RS`; R318. -/
  | lurwu (rd rs1 rs2 : Reg) (imm2 : BitVec 2)
  /-- `th.lurd`, format `RS`; R319. -/
  | lurd (rd rs1 rs2 : Reg) (imm2 : BitVec 2)
  /-- `th.surb`, format `RS`; R320. -/
  | surb (rd rs1 rs2 : Reg) (imm2 : BitVec 2)
  /-- `th.surh`, format `RS`; R321. -/
  | surh (rd rs1 rs2 : Reg) (imm2 : BitVec 2)
  /-- `th.surw`, format `RS`; R322. -/
  | surw (rd rs1 rs2 : Reg) (imm2 : BitVec 2)
  /-- `th.surd`, format `RS`; R323. -/
  | surd (rd rs1 rs2 : Reg) (imm2 : BitVec 2)
  -- XTheadMemPair: 45_xtheadmempair.md
  /-- `th.ldd`, format `MP`; R342. -/
  | ldd (rd1 rd2 rs1 : Reg) (imm2 : BitVec 2)
  /-- `th.lwd`, format `MP`; R343. -/
  | lwd (rd1 rd2 rs1 : Reg) (imm2 : BitVec 2)
  /-- `th.lwud`, format `MP`; R344. -/
  | lwud (rd1 rd2 rs1 : Reg) (imm2 : BitVec 2)
  /-- `th.sdd`, format `MP`; R345. -/
  | sdd (rd1 rd2 rs1 : Reg) (imm2 : BitVec 2)
  /-- `th.swd`, format `MP`; R346. -/
  | swd (rd1 rd2 rs1 : Reg) (imm2 : BitVec 2)
  -- XTheadFMemIdx: 46_xtheadfmemidx.md
  /-- `th.flrd`, format `RS`; R360. -/
  | flrd (rd rs1 rs2 : Reg) (imm2 : BitVec 2)
  /-- `th.flrw`, format `RS`; R361. -/
  | flrw (rd rs1 rs2 : Reg) (imm2 : BitVec 2)
  /-- `th.flurd`, format `RS`; R362. -/
  | flurd (rd rs1 rs2 : Reg) (imm2 : BitVec 2)
  /-- `th.flurw`, format `RS`; R363. -/
  | flurw (rd rs1 rs2 : Reg) (imm2 : BitVec 2)
  /-- `th.fsrd`, format `RS`; R364. -/
  | fsrd (rd rs1 rs2 : Reg) (imm2 : BitVec 2)
  /-- `th.fsrw`, format `RS`; R365. -/
  | fsrw (rd rs1 rs2 : Reg) (imm2 : BitVec 2)
  /-- `th.fsurd`, format `RS`; R366. -/
  | fsurd (rd rs1 rs2 : Reg) (imm2 : BitVec 2)
  /-- `th.fsurw`, format `RS`; R367. -/
  | fsurw (rd rs1 rs2 : Reg) (imm2 : BitVec 2)
  -- XTheadMac: 47_xtheadmac.md
  /-- `th.mula`, format `R`; R381. -/
  | mula (rd rs1 rs2 : Reg)
  /-- `th.mulah`, format `R`; R382. -/
  | mulah (rd rs1 rs2 : Reg)
  /-- `th.mulaw`, format `R`; R383. -/
  | mulaw (rd rs1 rs2 : Reg)
  /-- `th.muls`, format `R`; R384. -/
  | muls (rd rs1 rs2 : Reg)
  /-- `th.mulsh`, format `R`; R385. -/
  | mulsh (rd rs1 rs2 : Reg)
  /-- `th.mulsw`, format `R`; R386. -/
  | mulsw (rd rs1 rs2 : Reg)
  -- XTheadFmv: 48_xtheadfmv_int.md
  /-- `th.fmv.x.hw`, format `U`; R400. -/
  | fmvXHw (rd fs1 : Reg)
  /-- `th.fmv.hw.x`, format `U`; R401. -/
  | fmvHwX (rd fs1 : Reg)
  -- XTheadInt: 48_xtheadfmv_int.md
  /-- `th.ipush`, format `Z`; R404. -/
  | ipush
  /-- `th.ipop`, format `Z`; R405. -/
  | ipop
  -- XTheadVdot: 49_xtheadvdot_vector.md
  /-- `th.vmaqa.vv`, format `V`; R421. -/
  | vmaqaVv (vd vs1 vs2 : Reg) (vm : Bool)
  /-- `th.vmaqa.vx`, format `V`; R422. -/
  | vmaqaVx (vd rs1 vs2 : Reg) (vm : Bool)
  /-- `th.vmaqau.vv`, format `V`; R423. -/
  | vmaqauVv (vd vs1 vs2 : Reg) (vm : Bool)
  /-- `th.vmaqau.vx`, format `V`; R424. -/
  | vmaqauVx (vd rs1 vs2 : Reg) (vm : Bool)
  /-- `th.vmaqasu.vv`, format `V`; R425. -/
  | vmaqasuVv (vd vs1 vs2 : Reg) (vm : Bool)
  /-- `th.vmaqasu.vx`, format `V`; R426. -/
  | vmaqasuVx (vd rs1 vs2 : Reg) (vm : Bool)
  /-- `th.vmaqaus.vx`, format `V`; R427. -/
  | vmaqausVx (vd rs1 vs2 : Reg) (vm : Bool)
  deriving DecidableEq, Repr

end Sys2Proof
end

