-- ==== Sys2Proof/WellFormed.lean ====
section
/-! DEFINITION. Which instructions the spec gives a meaning: the operand combinations it reserves
(30 R142; 42 R234, R235) are not well formed. Every other combination of operands is. -/

namespace Sys2Proof

/-- An increment load whose destination is its base is reserved (30 R142 a; 43 R261). -/
def incLoadOk (rd rs1 : Reg) : Bool := rd != rs1

/-- A pair load whose three registers are not pairwise different is reserved (30 R142 b; 45 R341). -/
def pairLoadOk (rd1 rd2 rs1 : Reg) : Bool := rd1 != rd2 && rd1 != rs1 && rd2 != rs1

/-- A bit field is named from its most significant bit `imm1` down to its least significant bit
`imm2` (42 R234, R235; decision D14). -/
def fieldOk (imm1 imm2 : BitVec 6) : Bool := imm2.toNat ≤ imm1.toNat

/-- The instruction is none of the reserved combinations. -/
def Instr.wellFormed : Instr → Bool
  | .dcacheCall => true
  | .dcacheCiall => true
  | .dcacheIall => true
  | .dcacheCpa _ => true
  | .dcacheCipa _ => true
  | .dcacheIpa _ => true
  | .dcacheCva _ => true
  | .dcacheCiva _ => true
  | .dcacheIva _ => true
  | .dcacheCsw _ => true
  | .dcacheCisw _ => true
  | .dcacheIsw _ => true
  | .dcacheCpal1 _ => true
  | .dcacheCval1 _ => true
  | .icacheIall => true
  | .icacheIalls => true
  | .icacheIpa _ => true
  | .icacheIva _ => true
  | .l2cacheCall => true
  | .l2cacheCiall => true
  | .l2cacheIall => true
  | .sfenceVmas _ _ => true
  | .sync => true
  | .syncS => true
  | .syncI => true
  | .syncIs => true
  | .addsl _ _ _ _ => true
  | .srri _ _ _ => true
  | .srriw _ _ _ => true
  | .ext _ _ imm1 imm2 => fieldOk imm1 imm2
  | .extu _ _ imm1 imm2 => fieldOk imm1 imm2
  | .ff0 _ _ => true
  | .ff1 _ _ => true
  | .rev _ _ => true
  | .revw _ _ => true
  | .tstnbz _ _ => true
  | .tst _ _ _ => true
  | .mveqz _ _ _ => true
  | .mvnez _ _ _ => true
  | .lbia rd rs1 _ _ => incLoadOk rd rs1
  | .lbib rd rs1 _ _ => incLoadOk rd rs1
  | .lbuia rd rs1 _ _ => incLoadOk rd rs1
  | .lbuib rd rs1 _ _ => incLoadOk rd rs1
  | .lhia rd rs1 _ _ => incLoadOk rd rs1
  | .lhib rd rs1 _ _ => incLoadOk rd rs1
  | .lhuia rd rs1 _ _ => incLoadOk rd rs1
  | .lhuib rd rs1 _ _ => incLoadOk rd rs1
  | .lwia rd rs1 _ _ => incLoadOk rd rs1
  | .lwib rd rs1 _ _ => incLoadOk rd rs1
  | .lwuia rd rs1 _ _ => incLoadOk rd rs1
  | .lwuib rd rs1 _ _ => incLoadOk rd rs1
  | .ldia rd rs1 _ _ => incLoadOk rd rs1
  | .ldib rd rs1 _ _ => incLoadOk rd rs1
  | .sbia _ _ _ _ => true
  | .sbib _ _ _ _ => true
  | .shia _ _ _ _ => true
  | .shib _ _ _ _ => true
  | .swia _ _ _ _ => true
  | .swib _ _ _ _ => true
  | .sdia _ _ _ _ => true
  | .sdib _ _ _ _ => true
  | .lrb _ _ _ _ => true
  | .lrbu _ _ _ _ => true
  | .lrh _ _ _ _ => true
  | .lrhu _ _ _ _ => true
  | .lrw _ _ _ _ => true
  | .lrwu _ _ _ _ => true
  | .lrd _ _ _ _ => true
  | .srb _ _ _ _ => true
  | .srh _ _ _ _ => true
  | .srw _ _ _ _ => true
  | .srd _ _ _ _ => true
  | .lurb _ _ _ _ => true
  | .lurbu _ _ _ _ => true
  | .lurh _ _ _ _ => true
  | .lurhu _ _ _ _ => true
  | .lurw _ _ _ _ => true
  | .lurwu _ _ _ _ => true
  | .lurd _ _ _ _ => true
  | .surb _ _ _ _ => true
  | .surh _ _ _ _ => true
  | .surw _ _ _ _ => true
  | .surd _ _ _ _ => true
  | .ldd rd1 rd2 rs1 _ => pairLoadOk rd1 rd2 rs1
  | .lwd rd1 rd2 rs1 _ => pairLoadOk rd1 rd2 rs1
  | .lwud rd1 rd2 rs1 _ => pairLoadOk rd1 rd2 rs1
  | .sdd _ _ _ _ => true
  | .swd _ _ _ _ => true
  | .flrd _ _ _ _ => true
  | .flrw _ _ _ _ => true
  | .flurd _ _ _ _ => true
  | .flurw _ _ _ _ => true
  | .fsrd _ _ _ _ => true
  | .fsrw _ _ _ _ => true
  | .fsurd _ _ _ _ => true
  | .fsurw _ _ _ _ => true
  | .mula _ _ _ => true
  | .mulah _ _ _ => true
  | .mulaw _ _ _ => true
  | .muls _ _ _ => true
  | .mulsh _ _ _ => true
  | .mulsw _ _ _ => true
  | .fmvXHw _ _ => true
  | .fmvHwX _ _ => true
  | .ipush => true
  | .ipop => true
  | .vmaqaVv _ _ _ _ => true
  | .vmaqaVx _ _ _ _ => true
  | .vmaqauVv _ _ _ _ => true
  | .vmaqauVx _ _ _ _ => true
  | .vmaqasuVv _ _ _ _ => true
  | .vmaqasuVx _ _ _ _ => true
  | .vmaqausVx _ _ _ _ => true

end Sys2Proof
end

