-- ==== Sys2Proof/Decode.lean ====
section
/-! DEFINITION. Decoding the 32-bit words of custom-0 (spec/30_encoding.md), total on any bytes and
rejecting by name, and the encoder. The fields are cut out of the word once, below; the decoder then
follows the opcode map of 30 R136 to R140 table by table. No two rows overlap (30 R148). -/

namespace Sys2Proof

/-! ## The fields of a word (30 R122) -/

/-- `insn[6:0]`, the major opcode. -/
def opcodeF (w : InsnWord) : BitVec 7 := w.extractLsb' 0 7
/-- `insn[11:7]`: `rd`, `rd1`, `vd` or a store's data register (30 R134). -/
def rdF (w : InsnWord) : Reg := w.extractLsb' 7 5
/-- `insn[14:12]`, the group. -/
def funct3F (w : InsnWord) : BitVec 3 := w.extractLsb' 12 3
/-- `insn[19:15]`: `rs1`, `fs1` or `vs1`. -/
def rs1F (w : InsnWord) : Reg := w.extractLsb' 15 5
/-- `insn[24:20]`: `rs2`, `rd2`, `vs2`, a 5-bit immediate or a selector (30 R138). -/
def rs2F (w : InsnWord) : BitVec 5 := w.extractLsb' 20 5
/-- `insn[26:25]`, the 2-bit immediate (30 R135). -/
def imm2F (w : InsnWord) : BitVec 2 := w.extractLsb' 25 2
/-- `insn[25:20]`: `imm6` of format `I6`, `imm2` of format `X` (30 R135). -/
def imm6F (w : InsnWord) : BitVec 6 := w.extractLsb' 20 6
/-- `insn[31:26]`: `imm1` of format `X`, `funct6` of formats `I6` and `V`. -/
def imm1F (w : InsnWord) : BitVec 6 := w.extractLsb' 26 6
/-- `insn[31:27]`, the 5-bit function code. -/
def funct5F (w : InsnWord) : BitVec 5 := w.extractLsb' 27 5
/-- `insn[31:25]`, the 7-bit function code. -/
def funct7F (w : InsnWord) : BitVec 7 := w.extractLsb' 25 7
/-- `insn[25]`: 1 is unmasked (30 R133). -/
def vmF (w : InsnWord) : Bool := w.extractLsb' 25 1 == 1#1

/-- Why bytes are not an instruction of the collection. -/
inductive DecodeError where
  /-- Fewer than four bytes. -/
  | tooShort
  /-- The major opcode is not custom-0: a word of the base machine (00 R5). -/
  | notCustom0 (w : InsnWord)
  /-- A custom-0 word that no row of the opcode table lists (30 R141). -/
  | unlisted (w : InsnWord)
  deriving DecidableEq, Repr

/-! ## The opcode map -/

/-- Format `Z`: the selectors of 30 R136. -/
def decodeZ (w : InsnWord) : Option Instr :=
  match (rs2F w).toNat with
  | 0b00001 => some (.dcacheCall)
  | 0b00010 => some (.dcacheIall)
  | 0b00011 => some (.dcacheCiall)
  | 0b00100 => some (.ipush)
  | 0b00101 => some (.ipop)
  | 0b10000 => some (.icacheIall)
  | 0b10001 => some (.icacheIalls)
  | 0b10101 => some (.l2cacheCall)
  | 0b10110 => some (.l2cacheIall)
  | 0b10111 => some (.l2cacheCiall)
  | 0b11000 => some (.sync)
  | 0b11001 => some (.syncS)
  | 0b11010 => some (.syncI)
  | 0b11011 => some (.syncIs)
  | _ => none

/-- Format `A`: the selectors of 30 R137. -/
def decodeA (w : InsnWord) : Option Instr :=
  match (rs2F w).toNat with
  | 0b00001 => some (.dcacheCsw (rs1F w))
  | 0b00010 => some (.dcacheIsw (rs1F w))
  | 0b00011 => some (.dcacheCisw (rs1F w))
  | 0b00100 => some (.dcacheCval1 (rs1F w))
  | 0b00101 => some (.dcacheCva (rs1F w))
  | 0b00110 => some (.dcacheIva (rs1F w))
  | 0b00111 => some (.dcacheCiva (rs1F w))
  | 0b01000 => some (.dcacheCpal1 (rs1F w))
  | 0b01001 => some (.dcacheCpa (rs1F w))
  | 0b01010 => some (.dcacheIpa (rs1F w))
  | 0b01011 => some (.dcacheCipa (rs1F w))
  | 0b10000 => some (.icacheIva (rs1F w))
  | 0b11000 => some (.icacheIpa (rs1F w))
  | _ => none

/-- `funct3 = 000`: cache, synchronisation and interrupt-stack instructions; the fields a format
leaves without an operand must be zero (30 R123 to R125). -/
def decodeMisc (w : InsnWord) : Option Instr :=
  match (funct7F w).toNat with
  | 0b0000000 => if rs1F w = 0#5 ∧ rdF w = 0#5 then decodeZ w else none
  | 0b0000001 => if rdF w = 0#5 then decodeA w else none
  | 0b0000010 => if rdF w = 0#5 then some (.sfenceVmas (rs1F w) (rs2F w)) else none
  | _ => none

/-- `funct3 = 001`: register arithmetic, by `insn[31:25]` (30 R139). A row with operand bits among
these seven stands once for each of their values; the unary rows need `insn[24:20] = 00000`. -/
def decodeArith (w : InsnWord) : Option Instr :=
  match (funct7F w).toNat with
  | 0b0000000 | 0b0000001 | 0b0000010 | 0b0000011 => some (.addsl (rdF w) (rs1F w) (rs2F w) (imm2F w))
  | 0b0001000 | 0b0001001 => some (.srri (rdF w) (rs1F w) (imm6F w))
  | 0b0001010 => some (.srriw (rdF w) (rs1F w) (rs2F w))
  | 0b0010000 => some (.mula (rdF w) (rs1F w) (rs2F w))
  | 0b0010001 => some (.muls (rdF w) (rs1F w) (rs2F w))
  | 0b0010010 => some (.mulaw (rdF w) (rs1F w) (rs2F w))
  | 0b0010011 => some (.mulsw (rdF w) (rs1F w) (rs2F w))
  | 0b0010100 => some (.mulah (rdF w) (rs1F w) (rs2F w))
  | 0b0010101 => some (.mulsh (rdF w) (rs1F w) (rs2F w))
  | 0b0100000 => some (.mveqz (rdF w) (rs1F w) (rs2F w))
  | 0b0100001 => some (.mvnez (rdF w) (rs1F w) (rs2F w))
  | 0b1000000 => if rs2F w = 0#5 then some (.tstnbz (rdF w) (rs1F w)) else none
  | 0b1000001 => if rs2F w = 0#5 then some (.rev (rdF w) (rs1F w)) else none
  | 0b1000010 => if rs2F w = 0#5 then some (.ff0 (rdF w) (rs1F w)) else none
  | 0b1000011 => if rs2F w = 0#5 then some (.ff1 (rdF w) (rs1F w)) else none
  | 0b1000100 | 0b1000101 => some (.tst (rdF w) (rs1F w) (imm6F w))
  | 0b1001000 => if rs2F w = 0#5 then some (.revw (rdF w) (rs1F w)) else none
  | 0b1010000 => if rs2F w = 0#5 then some (.fmvHwX (rdF w) (rs1F w)) else none
  | 0b1100000 => if rs2F w = 0#5 then some (.fmvXHw (rdF w) (rs1F w)) else none
  | _ => none

/-- `funct3 = 100`: integer loads, by `insn[31:27]` (30 R140). -/
def decodeLoad (w : InsnWord) : Option Instr :=
  match (funct5F w).toNat with
  | 0b00000 => some (.lrb (rdF w) (rs1F w) (rs2F w) (imm2F w))
  | 0b00001 => some (.lbib (rdF w) (rs1F w) (rs2F w) (imm2F w))
  | 0b00010 => some (.lurb (rdF w) (rs1F w) (rs2F w) (imm2F w))
  | 0b00011 => some (.lbia (rdF w) (rs1F w) (rs2F w) (imm2F w))
  | 0b00100 => some (.lrh (rdF w) (rs1F w) (rs2F w) (imm2F w))
  | 0b00101 => some (.lhib (rdF w) (rs1F w) (rs2F w) (imm2F w))
  | 0b00110 => some (.lurh (rdF w) (rs1F w) (rs2F w) (imm2F w))
  | 0b00111 => some (.lhia (rdF w) (rs1F w) (rs2F w) (imm2F w))
  | 0b01000 => some (.lrw (rdF w) (rs1F w) (rs2F w) (imm2F w))
  | 0b01001 => some (.lwib (rdF w) (rs1F w) (rs2F w) (imm2F w))
  | 0b01010 => some (.lurw (rdF w) (rs1F w) (rs2F w) (imm2F w))
  | 0b01011 => some (.lwia (rdF w) (rs1F w) (rs2F w) (imm2F w))
  | 0b01100 => some (.lrd (rdF w) (rs1F w) (rs2F w) (imm2F w))
  | 0b01101 => some (.ldib (rdF w) (rs1F w) (rs2F w) (imm2F w))
  | 0b01110 => some (.lurd (rdF w) (rs1F w) (rs2F w) (imm2F w))
  | 0b01111 => some (.ldia (rdF w) (rs1F w) (rs2F w) (imm2F w))
  | 0b10000 => some (.lrbu (rdF w) (rs1F w) (rs2F w) (imm2F w))
  | 0b10001 => some (.lbuib (rdF w) (rs1F w) (rs2F w) (imm2F w))
  | 0b10010 => some (.lurbu (rdF w) (rs1F w) (rs2F w) (imm2F w))
  | 0b10011 => some (.lbuia (rdF w) (rs1F w) (rs2F w) (imm2F w))
  | 0b10100 => some (.lrhu (rdF w) (rs1F w) (rs2F w) (imm2F w))
  | 0b10101 => some (.lhuib (rdF w) (rs1F w) (rs2F w) (imm2F w))
  | 0b10110 => some (.lurhu (rdF w) (rs1F w) (rs2F w) (imm2F w))
  | 0b10111 => some (.lhuia (rdF w) (rs1F w) (rs2F w) (imm2F w))
  | 0b11000 => some (.lrwu (rdF w) (rs1F w) (rs2F w) (imm2F w))
  | 0b11001 => some (.lwuib (rdF w) (rs1F w) (rs2F w) (imm2F w))
  | 0b11010 => some (.lurwu (rdF w) (rs1F w) (rs2F w) (imm2F w))
  | 0b11011 => some (.lwuia (rdF w) (rs1F w) (rs2F w) (imm2F w))
  | 0b11100 => some (.lwd (rdF w) (rs2F w) (rs1F w) (imm2F w))
  | 0b11110 => some (.lwud (rdF w) (rs2F w) (rs1F w) (imm2F w))
  | 0b11111 => some (.ldd (rdF w) (rs2F w) (rs1F w) (imm2F w))
  | _ => none

/-- `funct3 = 101`: integer stores, by `insn[31:27]` (30 R140). -/
def decodeStore (w : InsnWord) : Option Instr :=
  match (funct5F w).toNat with
  | 0b00000 => some (.srb (rdF w) (rs1F w) (rs2F w) (imm2F w))
  | 0b00001 => some (.sbib (rdF w) (rs1F w) (rs2F w) (imm2F w))
  | 0b00010 => some (.surb (rdF w) (rs1F w) (rs2F w) (imm2F w))
  | 0b00011 => some (.sbia (rdF w) (rs1F w) (rs2F w) (imm2F w))
  | 0b00100 => some (.srh (rdF w) (rs1F w) (rs2F w) (imm2F w))
  | 0b00101 => some (.shib (rdF w) (rs1F w) (rs2F w) (imm2F w))
  | 0b00110 => some (.surh (rdF w) (rs1F w) (rs2F w) (imm2F w))
  | 0b00111 => some (.shia (rdF w) (rs1F w) (rs2F w) (imm2F w))
  | 0b01000 => some (.srw (rdF w) (rs1F w) (rs2F w) (imm2F w))
  | 0b01001 => some (.swib (rdF w) (rs1F w) (rs2F w) (imm2F w))
  | 0b01010 => some (.surw (rdF w) (rs1F w) (rs2F w) (imm2F w))
  | 0b01011 => some (.swia (rdF w) (rs1F w) (rs2F w) (imm2F w))
  | 0b01100 => some (.srd (rdF w) (rs1F w) (rs2F w) (imm2F w))
  | 0b01101 => some (.sdib (rdF w) (rs1F w) (rs2F w) (imm2F w))
  | 0b01110 => some (.surd (rdF w) (rs1F w) (rs2F w) (imm2F w))
  | 0b01111 => some (.sdia (rdF w) (rs1F w) (rs2F w) (imm2F w))
  | 0b11100 => some (.swd (rdF w) (rs2F w) (rs1F w) (imm2F w))
  | 0b11111 => some (.sdd (rdF w) (rs2F w) (rs1F w) (imm2F w))
  | _ => none

/-- `funct3 = 110` with `insn[31] = 0`: floating-point loads, by `insn[31:27]` (30 R140). -/
def decodeFload (w : InsnWord) : Option Instr :=
  match (funct5F w).toNat with
  | 0b01000 => some (.flrw (rdF w) (rs1F w) (rs2F w) (imm2F w))
  | 0b01010 => some (.flurw (rdF w) (rs1F w) (rs2F w) (imm2F w))
  | 0b01100 => some (.flrd (rdF w) (rs1F w) (rs2F w) (imm2F w))
  | 0b01110 => some (.flurd (rdF w) (rs1F w) (rs2F w) (imm2F w))
  | _ => none

/-- `funct3 = 110` with `insn[31] = 1`: vector dot products, by `insn[31:26]` (30 R133, R140). -/
def decodeVdot (w : InsnWord) : Option Instr :=
  match (imm1F w).toNat with
  | 0b100000 => some (.vmaqaVv (rdF w) (rs1F w) (rs2F w) (vmF w))
  | 0b100001 => some (.vmaqaVx (rdF w) (rs1F w) (rs2F w) (vmF w))
  | 0b100010 => some (.vmaqauVv (rdF w) (rs1F w) (rs2F w) (vmF w))
  | 0b100011 => some (.vmaqauVx (rdF w) (rs1F w) (rs2F w) (vmF w))
  | 0b100100 => some (.vmaqasuVv (rdF w) (rs1F w) (rs2F w) (vmF w))
  | 0b100101 => some (.vmaqasuVx (rdF w) (rs1F w) (rs2F w) (vmF w))
  | 0b100111 => some (.vmaqausVx (rdF w) (rs1F w) (rs2F w) (vmF w))
  | _ => none

/-- `funct3 = 111`: floating-point stores, by `insn[31:27]` (30 R140). -/
def decodeFstore (w : InsnWord) : Option Instr :=
  match (funct5F w).toNat with
  | 0b01000 => some (.fsrw (rdF w) (rs1F w) (rs2F w) (imm2F w))
  | 0b01010 => some (.fsurw (rdF w) (rs1F w) (rs2F w) (imm2F w))
  | 0b01100 => some (.fsrd (rdF w) (rs1F w) (rs2F w) (imm2F w))
  | 0b01110 => some (.fsurd (rdF w) (rs1F w) (rs2F w) (imm2F w))
  | _ => none

/-- The instruction a custom-0 word stands for, if any: the group is `insn[14:12]` (30 R122). -/
def decodeCustom0 (w : InsnWord) : Option Instr :=
  match (funct3F w).toNat with
  | 0b000 => decodeMisc w
  | 0b001 => decodeArith w
  | 0b010 => some (.ext (rdF w) (rs1F w) (imm1F w) (imm6F w))
  | 0b011 => some (.extu (rdF w) (rs1F w) (imm1F w) (imm6F w))
  | 0b100 => decodeLoad w
  | 0b101 => decodeStore w
  | 0b110 => if w.msb then decodeVdot w else decodeFload w
  | _ => decodeFstore w

/-- The instruction of a 32-bit word (30 R121, R141). -/
def decodeWord (w : InsnWord) : Except DecodeError Instr :=
  if opcodeF w = 0b0001011#7 then
    match decodeCustom0 w with
    | some i => .ok i
    | none => .error (.unlisted w)
  else .error (.notCustom0 w)

/-- The word four bytes make, the lowest address first (20 R85). -/
def wordOfBytes (b0 b1 b2 b3 : Byte) : InsnWord := b3 ++ b2 ++ b1 ++ b0

/-- The four bytes of a word, the lowest address first (20 R85). -/
def bytesOfWord (w : InsnWord) : List Byte :=
  [w.extractLsb' 0 8, w.extractLsb' 8 8, w.extractLsb' 16 8, w.extractLsb' 24 8]

/-- Decode the first instruction of a run of bytes and answer what is left. -/
def decode : List Byte → Except DecodeError (Instr × List Byte)
  | b0 :: b1 :: b2 :: b3 :: rest =>
    match decodeWord (wordOfBytes b0 b1 b2 b3) with
    | .ok i => .ok (i, rest)
    | .error e => .error e
  | _ => .error .tooShort

/-- The instruction the decoder reads from an instruction whose bits are `w`, bit 0 the least
significant bit of its one word; every bit above `nbits` is 0. -/
def decodeTableWord (nbits w : Nat) : Option Instr :=
  match decode (bytesOfWord (BitVec.ofNat 32 (w % 2 ^ nbits))) with
  | .ok (i, _) => some i
  | .error _ => none

/-! ## The encoder, from the format tables 30 R123 to R133 -/

/-- Format `R`, and with a constant in a register field formats `Z`, `A`, `F`, `I5` and `U`. -/
def wordR (funct7 : BitVec 7) (rs2 rs1 : BitVec 5) (funct3 : BitVec 3) (rd : BitVec 5) : InsnWord :=
  funct7 ++ rs2 ++ rs1 ++ funct3 ++ rd ++ 0b0001011#7
/-- Formats `RS`, `MI` and `MP` (30 R127, R131, R132). -/
def wordRS (funct5 : BitVec 5) (imm2 : BitVec 2) (rs2 rs1 : BitVec 5) (funct3 : BitVec 3)
    (rd : BitVec 5) : InsnWord :=
  funct5 ++ imm2 ++ rs2 ++ rs1 ++ funct3 ++ rd ++ 0b0001011#7
/-- Formats `I6` and `X` (30 R128, R130). -/
def wordI6 (hi lo : BitVec 6) (rs1 : BitVec 5) (funct3 : BitVec 3) (rd : BitVec 5) : InsnWord :=
  hi ++ lo ++ rs1 ++ funct3 ++ rd ++ 0b0001011#7
/-- Format `V` (30 R133). -/
def wordV (funct6 : BitVec 6) (vm : Bool) (vs2 vs1 vd : BitVec 5) : InsnWord :=
  funct6 ++ BitVec.ofBool vm ++ vs2 ++ vs1 ++ 0b110#3 ++ vd ++ 0b0001011#7

/-- The word of an instruction. -/
def encode : Instr → InsnWord
  | .dcacheCall => wordR 0b0000000#7 0b00001#5 0#5 0b000#3 0#5
  | .dcacheCiall => wordR 0b0000000#7 0b00011#5 0#5 0b000#3 0#5
  | .dcacheIall => wordR 0b0000000#7 0b00010#5 0#5 0b000#3 0#5
  | .dcacheCpa rs1 => wordR 0b0000001#7 0b01001#5 rs1 0b000#3 0#5
  | .dcacheCipa rs1 => wordR 0b0000001#7 0b01011#5 rs1 0b000#3 0#5
  | .dcacheIpa rs1 => wordR 0b0000001#7 0b01010#5 rs1 0b000#3 0#5
  | .dcacheCva rs1 => wordR 0b0000001#7 0b00101#5 rs1 0b000#3 0#5
  | .dcacheCiva rs1 => wordR 0b0000001#7 0b00111#5 rs1 0b000#3 0#5
  | .dcacheIva rs1 => wordR 0b0000001#7 0b00110#5 rs1 0b000#3 0#5
  | .dcacheCsw rs1 => wordR 0b0000001#7 0b00001#5 rs1 0b000#3 0#5
  | .dcacheCisw rs1 => wordR 0b0000001#7 0b00011#5 rs1 0b000#3 0#5
  | .dcacheIsw rs1 => wordR 0b0000001#7 0b00010#5 rs1 0b000#3 0#5
  | .dcacheCpal1 rs1 => wordR 0b0000001#7 0b01000#5 rs1 0b000#3 0#5
  | .dcacheCval1 rs1 => wordR 0b0000001#7 0b00100#5 rs1 0b000#3 0#5
  | .icacheIall => wordR 0b0000000#7 0b10000#5 0#5 0b000#3 0#5
  | .icacheIalls => wordR 0b0000000#7 0b10001#5 0#5 0b000#3 0#5
  | .icacheIpa rs1 => wordR 0b0000001#7 0b11000#5 rs1 0b000#3 0#5
  | .icacheIva rs1 => wordR 0b0000001#7 0b10000#5 rs1 0b000#3 0#5
  | .l2cacheCall => wordR 0b0000000#7 0b10101#5 0#5 0b000#3 0#5
  | .l2cacheCiall => wordR 0b0000000#7 0b10111#5 0#5 0b000#3 0#5
  | .l2cacheIall => wordR 0b0000000#7 0b10110#5 0#5 0b000#3 0#5
  | .sfenceVmas rs1 rs2 => wordR 0b0000010#7 rs2 rs1 0b000#3 0#5
  | .sync => wordR 0b0000000#7 0b11000#5 0#5 0b000#3 0#5
  | .syncS => wordR 0b0000000#7 0b11001#5 0#5 0b000#3 0#5
  | .syncI => wordR 0b0000000#7 0b11010#5 0#5 0b000#3 0#5
  | .syncIs => wordR 0b0000000#7 0b11011#5 0#5 0b000#3 0#5
  | .addsl rd rs1 rs2 imm2 => wordRS 0b00000#5 imm2 rs2 rs1 0b001#3 rd
  | .srri rd rs1 imm6 => wordI6 0b000100#6 imm6 rs1 0b001#3 rd
  | .srriw rd rs1 imm5 => wordR 0b0001010#7 imm5 rs1 0b001#3 rd
  | .ext rd rs1 imm1 imm2 => wordI6 imm1 imm2 rs1 0b010#3 rd
  | .extu rd rs1 imm1 imm2 => wordI6 imm1 imm2 rs1 0b011#3 rd
  | .ff0 rd rs1 => wordR 0b1000010#7 0#5 rs1 0b001#3 rd
  | .ff1 rd rs1 => wordR 0b1000011#7 0#5 rs1 0b001#3 rd
  | .rev rd rs1 => wordR 0b1000001#7 0#5 rs1 0b001#3 rd
  | .revw rd rs1 => wordR 0b1001000#7 0#5 rs1 0b001#3 rd
  | .tstnbz rd rs1 => wordR 0b1000000#7 0#5 rs1 0b001#3 rd
  | .tst rd rs1 imm6 => wordI6 0b100010#6 imm6 rs1 0b001#3 rd
  | .mveqz rd rs1 rs2 => wordR 0b0100000#7 rs2 rs1 0b001#3 rd
  | .mvnez rd rs1 rs2 => wordR 0b0100001#7 rs2 rs1 0b001#3 rd
  | .lbia rd rs1 imm5 imm2 => wordRS 0b00011#5 imm2 imm5 rs1 0b100#3 rd
  | .lbib rd rs1 imm5 imm2 => wordRS 0b00001#5 imm2 imm5 rs1 0b100#3 rd
  | .lbuia rd rs1 imm5 imm2 => wordRS 0b10011#5 imm2 imm5 rs1 0b100#3 rd
  | .lbuib rd rs1 imm5 imm2 => wordRS 0b10001#5 imm2 imm5 rs1 0b100#3 rd
  | .lhia rd rs1 imm5 imm2 => wordRS 0b00111#5 imm2 imm5 rs1 0b100#3 rd
  | .lhib rd rs1 imm5 imm2 => wordRS 0b00101#5 imm2 imm5 rs1 0b100#3 rd
  | .lhuia rd rs1 imm5 imm2 => wordRS 0b10111#5 imm2 imm5 rs1 0b100#3 rd
  | .lhuib rd rs1 imm5 imm2 => wordRS 0b10101#5 imm2 imm5 rs1 0b100#3 rd
  | .lwia rd rs1 imm5 imm2 => wordRS 0b01011#5 imm2 imm5 rs1 0b100#3 rd
  | .lwib rd rs1 imm5 imm2 => wordRS 0b01001#5 imm2 imm5 rs1 0b100#3 rd
  | .lwuia rd rs1 imm5 imm2 => wordRS 0b11011#5 imm2 imm5 rs1 0b100#3 rd
  | .lwuib rd rs1 imm5 imm2 => wordRS 0b11001#5 imm2 imm5 rs1 0b100#3 rd
  | .ldia rd rs1 imm5 imm2 => wordRS 0b01111#5 imm2 imm5 rs1 0b100#3 rd
  | .ldib rd rs1 imm5 imm2 => wordRS 0b01101#5 imm2 imm5 rs1 0b100#3 rd
  | .sbia rd rs1 imm5 imm2 => wordRS 0b00011#5 imm2 imm5 rs1 0b101#3 rd
  | .sbib rd rs1 imm5 imm2 => wordRS 0b00001#5 imm2 imm5 rs1 0b101#3 rd
  | .shia rd rs1 imm5 imm2 => wordRS 0b00111#5 imm2 imm5 rs1 0b101#3 rd
  | .shib rd rs1 imm5 imm2 => wordRS 0b00101#5 imm2 imm5 rs1 0b101#3 rd
  | .swia rd rs1 imm5 imm2 => wordRS 0b01011#5 imm2 imm5 rs1 0b101#3 rd
  | .swib rd rs1 imm5 imm2 => wordRS 0b01001#5 imm2 imm5 rs1 0b101#3 rd
  | .sdia rd rs1 imm5 imm2 => wordRS 0b01111#5 imm2 imm5 rs1 0b101#3 rd
  | .sdib rd rs1 imm5 imm2 => wordRS 0b01101#5 imm2 imm5 rs1 0b101#3 rd
  | .lrb rd rs1 rs2 imm2 => wordRS 0b00000#5 imm2 rs2 rs1 0b100#3 rd
  | .lrbu rd rs1 rs2 imm2 => wordRS 0b10000#5 imm2 rs2 rs1 0b100#3 rd
  | .lrh rd rs1 rs2 imm2 => wordRS 0b00100#5 imm2 rs2 rs1 0b100#3 rd
  | .lrhu rd rs1 rs2 imm2 => wordRS 0b10100#5 imm2 rs2 rs1 0b100#3 rd
  | .lrw rd rs1 rs2 imm2 => wordRS 0b01000#5 imm2 rs2 rs1 0b100#3 rd
  | .lrwu rd rs1 rs2 imm2 => wordRS 0b11000#5 imm2 rs2 rs1 0b100#3 rd
  | .lrd rd rs1 rs2 imm2 => wordRS 0b01100#5 imm2 rs2 rs1 0b100#3 rd
  | .srb rd rs1 rs2 imm2 => wordRS 0b00000#5 imm2 rs2 rs1 0b101#3 rd
  | .srh rd rs1 rs2 imm2 => wordRS 0b00100#5 imm2 rs2 rs1 0b101#3 rd
  | .srw rd rs1 rs2 imm2 => wordRS 0b01000#5 imm2 rs2 rs1 0b101#3 rd
  | .srd rd rs1 rs2 imm2 => wordRS 0b01100#5 imm2 rs2 rs1 0b101#3 rd
  | .lurb rd rs1 rs2 imm2 => wordRS 0b00010#5 imm2 rs2 rs1 0b100#3 rd
  | .lurbu rd rs1 rs2 imm2 => wordRS 0b10010#5 imm2 rs2 rs1 0b100#3 rd
  | .lurh rd rs1 rs2 imm2 => wordRS 0b00110#5 imm2 rs2 rs1 0b100#3 rd
  | .lurhu rd rs1 rs2 imm2 => wordRS 0b10110#5 imm2 rs2 rs1 0b100#3 rd
  | .lurw rd rs1 rs2 imm2 => wordRS 0b01010#5 imm2 rs2 rs1 0b100#3 rd
  | .lurwu rd rs1 rs2 imm2 => wordRS 0b11010#5 imm2 rs2 rs1 0b100#3 rd
  | .lurd rd rs1 rs2 imm2 => wordRS 0b01110#5 imm2 rs2 rs1 0b100#3 rd
  | .surb rd rs1 rs2 imm2 => wordRS 0b00010#5 imm2 rs2 rs1 0b101#3 rd
  | .surh rd rs1 rs2 imm2 => wordRS 0b00110#5 imm2 rs2 rs1 0b101#3 rd
  | .surw rd rs1 rs2 imm2 => wordRS 0b01010#5 imm2 rs2 rs1 0b101#3 rd
  | .surd rd rs1 rs2 imm2 => wordRS 0b01110#5 imm2 rs2 rs1 0b101#3 rd
  | .ldd rd1 rd2 rs1 imm2 => wordRS 0b11111#5 imm2 rd2 rs1 0b100#3 rd1
  | .lwd rd1 rd2 rs1 imm2 => wordRS 0b11100#5 imm2 rd2 rs1 0b100#3 rd1
  | .lwud rd1 rd2 rs1 imm2 => wordRS 0b11110#5 imm2 rd2 rs1 0b100#3 rd1
  | .sdd rd1 rd2 rs1 imm2 => wordRS 0b11111#5 imm2 rd2 rs1 0b101#3 rd1
  | .swd rd1 rd2 rs1 imm2 => wordRS 0b11100#5 imm2 rd2 rs1 0b101#3 rd1
  | .flrd rd rs1 rs2 imm2 => wordRS 0b01100#5 imm2 rs2 rs1 0b110#3 rd
  | .flrw rd rs1 rs2 imm2 => wordRS 0b01000#5 imm2 rs2 rs1 0b110#3 rd
  | .flurd rd rs1 rs2 imm2 => wordRS 0b01110#5 imm2 rs2 rs1 0b110#3 rd
  | .flurw rd rs1 rs2 imm2 => wordRS 0b01010#5 imm2 rs2 rs1 0b110#3 rd
  | .fsrd rd rs1 rs2 imm2 => wordRS 0b01100#5 imm2 rs2 rs1 0b111#3 rd
  | .fsrw rd rs1 rs2 imm2 => wordRS 0b01000#5 imm2 rs2 rs1 0b111#3 rd
  | .fsurd rd rs1 rs2 imm2 => wordRS 0b01110#5 imm2 rs2 rs1 0b111#3 rd
  | .fsurw rd rs1 rs2 imm2 => wordRS 0b01010#5 imm2 rs2 rs1 0b111#3 rd
  | .mula rd rs1 rs2 => wordR 0b0010000#7 rs2 rs1 0b001#3 rd
  | .mulah rd rs1 rs2 => wordR 0b0010100#7 rs2 rs1 0b001#3 rd
  | .mulaw rd rs1 rs2 => wordR 0b0010010#7 rs2 rs1 0b001#3 rd
  | .muls rd rs1 rs2 => wordR 0b0010001#7 rs2 rs1 0b001#3 rd
  | .mulsh rd rs1 rs2 => wordR 0b0010101#7 rs2 rs1 0b001#3 rd
  | .mulsw rd rs1 rs2 => wordR 0b0010011#7 rs2 rs1 0b001#3 rd
  | .fmvXHw rd fs1 => wordR 0b1100000#7 0#5 fs1 0b001#3 rd
  | .fmvHwX rd fs1 => wordR 0b1010000#7 0#5 fs1 0b001#3 rd
  | .ipush => wordR 0b0000000#7 0b00100#5 0#5 0b000#3 0#5
  | .ipop => wordR 0b0000000#7 0b00101#5 0#5 0b000#3 0#5
  | .vmaqaVv vd vs1 vs2 vm => wordV 0b100000#6 vm vs2 vs1 vd
  | .vmaqaVx vd rs1 vs2 vm => wordV 0b100001#6 vm vs2 rs1 vd
  | .vmaqauVv vd vs1 vs2 vm => wordV 0b100010#6 vm vs2 vs1 vd
  | .vmaqauVx vd rs1 vs2 vm => wordV 0b100011#6 vm vs2 rs1 vd
  | .vmaqasuVv vd vs1 vs2 vm => wordV 0b100100#6 vm vs2 vs1 vd
  | .vmaqasuVx vd rs1 vs2 vm => wordV 0b100101#6 vm vs2 rs1 vd
  | .vmaqausVx vd rs1 vs2 vm => wordV 0b100111#6 vm vs2 rs1 vd

/-- The bytes of an instruction, the lowest address first (20 R85). -/
def encodeBytes (i : Instr) : List Byte := bytesOfWord (encode i)

end Sys2Proof
end

