-- ==== Sys2Proof/Config.lean ====
section
/-! DEFINITION. What an implementation fixes: the parameters of 00 R6 and 92 section 2, as plain
data, and the free values, which have no body. A `Config` stands in the state and no step changes it,
so that a statement about every state is a statement about every configuration
(notes/assumptions/1.md). Its defaults and the checks on it stand in Machine/Platform.lean. -/

namespace Sys2Proof

/-- `XLEN` (00 R6). -/
inductive Xlen where
  | rv32
  | rv64
  deriving DecidableEq, Repr

/-- The fourteen extensions of 00 R1, and the vector extension V, which XTheadVdot depends on and
which excludes XTheadVector (30 R145). -/
inductive Ext where
  | xTheadCmo | xTheadSync | xTheadBa | xTheadBb | xTheadBs | xTheadCondMov | xTheadMemIdx
  | xTheadMemPair | xTheadFMemIdx | xTheadMac | xTheadFmv | xTheadInt | xTheadVdot | xTheadVector
  | v
  deriving DecidableEq, Repr

/-- `MISALIGNED` (20 R88, decision D2). -/
inductive MisalignedPolicy where
  | trap
  | emulate
  deriving DecidableEq, Repr

/-- `SIB_SAME_REG` (43 R261, decision D16). -/
inductive SibPolicy where
  | new
  | old
  | refuse
  deriving DecidableEq, Repr

/-- `VA_OPS_WITHOUT_MMU` (40 R173, decision D35). -/
inductive VaOpsPolicy where
  | noop
  | identity
  deriving DecidableEq, Repr

/-- `VDOT_TAIL` (49 R428, decision D32). -/
inductive TailPolicy where
  | zero
  | undisturbed
  | ones
  deriving DecidableEq, Repr

/-- Where mask bit `j` of the 8-bit source elements lies in `vreg[0]`: at `j`, or, as in V 0.7.1, at
`j` times `MLEN` = 8 / LMUL (10 R50; 49 R428; notes/assumptions/21.md). -/
inductive MaskLayout where
  | dense
  | mlen
  deriving DecidableEq, Repr

/-- `INT_SP_REG`: the interrupt stack pointer is an integer register or one of its own (10 R52,
decision D17). -/
inductive IntSp where
  | gpr (r : BitVec 5)
  | dedicated
  deriving DecidableEq, Repr

/-- The shape of one cache: log2 of the number of ways, of the number of sets and of the line size
in bytes, the `w`, `s` and `l` of 40 R172. -/
structure CacheGeom where
  w : Nat
  s : Nat
  l : Nat
  deriving DecidableEq, Repr

/-- The three kinds of access a platform may allow (20 R83). -/
inductive AccessKind where
  | load
  | store
  | fetch
  deriving DecidableEq, Repr

/-- A range of physical addresses that responds to the kinds of access listed (20 R83). -/
structure Region where
  base : Nat
  size : Nat
  kinds : List AccessKind
  deriving DecidableEq, Repr

/-- The parameters of 00 R6 and 92 section 2, and those of the interfaces the spec leaves to the
base machine (20 R98, 49 R428, R429). -/
structure Config where
  xlen : Xlen
  hasF : Bool
  hasD : Bool
  ext : List Ext
  hasU : Bool
  hasS : Bool
  hasDCache : Bool
  hasICache : Bool
  hasL2 : Bool
  hasMmu : Bool
  multicore : Bool
  dcGeom : CacheGeom
  icGeom : CacheGeom
  l2Geom : CacheGeom
  nharts : Nat
  vlen : Nat
  theadisaeeGated : Bool
  ucmeGated : Bool
  intSpReg : IntSp
  misaligned : MisalignedPolicy
  /-- With `MISALIGNED = emulate`, whether a store that faults may have written single bytes of a misaligned
  access, as 20 R88 allows, or writes nothing of the access that faults, as decision D5 and 43 R262, 44 R301
  say (notes/assumptions/46.md). -/
  misalignedPartial : Bool
  resetVector : Word
  mulswOnRv32 : Bool
  fmemidxUOnRv32 : Bool
  fmvHwXSwapped : Bool
  ipushSetsMie : Bool
  xtheadintOnRv64 : Bool
  /-- `IALIGN = 16`: the base machine has the compressed extension (10 R36). -/
  ialign16 : Bool
  fsGated : Bool
  palen : Nat
  dcacheOpsReachL2 : Bool
  dcacheCoherent : Bool
  syncISufficient : Bool
  vaOpsWithoutMmu : VaOpsPolicy
  sibSameReg : SibPolicy
  vdotTail : TailPolicy
  maskLayout : MaskLayout
  /-- `mstatus.VS` gates the vector unit, and is set to Dirty by a write of it (49 R429, 70 R522). -/
  vsGated : Bool
  /-- The trap value of an illegal instruction is its word rather than 0 (60 R451). -/
  mtvalHoldsInsn : Bool
  /-- The platform's map: `accessible` (20 R83). -/
  regions : List Region
  /-- log2 of the page size of the translation scheme in force (20 R98, R99). -/
  pageBits : Nat
  /-- Width of an address space identifier (20 R99). -/
  asidBits : Nat
  /-- The identification registers. 10 R46 gives them no width: 32 bits for this one, as the privileged architecture
  has it, and 64-bit cells for the other two (PRESUMED, notes/assumptions/55.md). -/
  mvendorid : BitVec 32
  mimpid : Word
  misa : Word
  /-- The causes `mcause` can hold without, and with, its Interrupt flag (10 R42). -/
  legalExceptions : List Nat
  legalInterrupts : List Nat
  deriving DecidableEq, Repr

/-! ## Free values

Each has no body, so that no proof can use what it is, and is applied to the counter `freeCount` of
the state, so that one use says nothing of the next. -/

/-- Which of the accesses of an instruction whose store faults were performed all the same: bit `8 j + k` for
byte `k` of the `j`th, or, where an access is performed whole or not at all, bit `8 j` for the `j`th
(20 R88, R92; decisions D21, D44; notes/assumptions/15.md). -/
opaque Config.freeMask : Nat → BitVec 256

/-- Which legal value `mcause` takes when `th.ipop` loads one it cannot hold (10 R42; 93 U21;
notes/assumptions/17.md). -/
opaque Config.freeIndex : Nat → Nat

end Sys2Proof
end

