-- ==== Sys2Proof/Machine/Platform.lean ====
section
/-! DEFINITION. The platform the reset state stands for, the check of a configuration, and the
values of reset that the spec leaves unspecified (10 R59; notes/assumptions/1.md to 3.md). -/

namespace Sys2Proof.Machine

/-- The causes of the traps the collection and its fetches raise (60 R451, R452, R454). -/
def trapCodes : List Nat := [1, 2, 4, 5, 6, 7, 12, 13, 15]

/-- A cache the set/way operand of 40 R172 can name: lines of at least 16 bytes (decision D35), the
set field below the way field. -/
def geomWf (g : CacheGeom) : Bool := 4 ≤ g.l && g.w + g.s + g.l ≤ 32

/-- XTheadVector is present exactly where the identification registers say so (10 R46; 49 R432). -/
def identifiesVector (c : Config) : Bool :=
  c.mvendorid == 0x5b7#32 && c.misa.getLsbD 21 && c.mimpid == 0#64

/-- The configurations the spec allows: `HAS_D` implies `HAS_F`, `NHARTS` at least 1 (00 R6);
XTheadVector excludes V (30 R145) and is identified by its registers (10 R46); XTheadVdot has a vector
base; the caches have a shape of 40 R172; the reset vector is an address `pc` can hold (10 R36). The bounds the
spec does not state are the model's (DESIGN CHOICE, notes/assumptions/38.md): a line has at least 16 bytes, a
set/way operand 32 bits, `VLEN` is a multiple of 32 and not 0, where 10 R49 gives it no bound, a page has at least
16 bytes and so holds every aligned access, and the causes a trap writes are legal. -/
def configWf (c : Config) : Bool :=
  List.all [
    !c.hasD || c.hasF,
    decide (1 ≤ c.nharts),
    !(c.ext.contains .xTheadVector && c.ext.contains .v),
    c.ext.contains .xTheadVector == identifiesVector c,
    !c.ext.contains .xTheadVdot || c.ext.contains .xTheadVector || c.ext.contains .v,
    geomWf c.dcGeom, geomWf c.icGeom, geomWf c.l2Geom,
    decide (c.resetVector.toNat % (if c.ialign16 then 2 else 4) = 0),
    c.xlen == .rv64 || decide (c.resetVector.toNat < 2 ^ 32),
    decide (32 ≤ c.vlen), decide (c.vlen % 32 = 0),
    decide (4 ≤ c.pageBits),
    trapCodes.all fun k => c.legalExceptions.contains k] id

/-- The platform of `State.reset`: an RV64 hart with all fourteen extensions, XTheadVector being
Vdot's vector base, F and D, U and S, two levels of cache, an MMU, two harts, and every optional
instruction available (DESIGN CHOICE, notes/assumptions/1.md and 19.md). `VDOT_TAIL`, which decision D32
leaves open, is `zero` (DESIGN CHOICE, notes/assumptions/49.md), and of `misa` every bit but bit 21, the
only one 10 R46 gives, is 0 (DESIGN CHOICE, notes/assumptions/41.md). Pages have 2^12 bytes and address space
identifiers 16 bits, both of which 20 R99 and 93 U15 leave open (DESIGN CHOICE, notes/assumptions/54.md). -/
def platform : Config where
  xlen := .rv64
  hasF := true
  hasD := true
  ext := [.xTheadCmo, .xTheadSync, .xTheadBa, .xTheadBb, .xTheadBs, .xTheadCondMov, .xTheadMemIdx,
    .xTheadMemPair, .xTheadFMemIdx, .xTheadMac, .xTheadFmv, .xTheadInt, .xTheadVdot, .xTheadVector]
  hasU := true
  hasS := true
  hasDCache := true
  hasICache := true
  hasL2 := true
  hasMmu := true
  multicore := true
  dcGeom := ⟨1, 9, 6⟩
  icGeom := ⟨1, 9, 6⟩
  l2Geom := ⟨4, 10, 6⟩
  nharts := 2
  vlen := 128
  theadisaeeGated := true
  ucmeGated := true
  intSpReg := .gpr 2
  misaligned := .trap
  misalignedPartial := false
  resetVector := 0x1000
  mulswOnRv32 := true
  fmemidxUOnRv32 := true
  fmvHwXSwapped := false
  ipushSetsMie := false
  xtheadintOnRv64 := true
  ialign16 := true
  fsGated := true
  palen := 64
  dcacheOpsReachL2 := false
  dcacheCoherent := false
  syncISufficient := false
  vaOpsWithoutMmu := .noop
  sibSameReg := .new
  vdotTail := .zero
  maskLayout := .mlen
  vsGated := true
  mtvalHoldsInsn := true
  regions := [⟨0, 2 ^ 64, [.load, .store, .fetch]⟩]
  pageBits := 12
  asidBits := 16
  mvendorid := 0x5b7
  mimpid := 0
  misa := 0x200000
  legalExceptions := [0, 1, 2, 3, 4, 5, 6, 7, 8, 9, 11, 12, 13, 15]
  legalInterrupts := [1, 3, 5, 7, 9, 11]

/-! ## Values at reset that the spec leaves unspecified

10 R59 asks for "an arbitrary value", "never zero": each is named here and none is 0 where the
register can hold another value (DESIGN CHOICE, unsafe). -/

/-- `x[i]` at reset (notes/assumptions/2.md). -/
def resetX (i : Nat) : Word := BitVec.ofNat 64 (0x1000 * i)
/-- `f[i]` at reset (notes/assumptions/2.md). -/
def resetF (i : Nat) : Word := BitVec.ofNat 64 (0x3ff0000000000000 + i)
/-- Every 32-bit word of the vector registers at reset (notes/assumptions/2.md). -/
def resetVregWord : BitVec 32 := 0xa5a5a5a5
/-- `mepc`, `mtvec`, `mtval` at reset (notes/assumptions/3.md). -/
def resetMepc : Word := 0x100
/-- See `resetMepc`. -/
def resetMtvec : Word := 0x800
/-- See `resetMepc`. -/
def resetMtval : Word := 0x200
/-- `mie` at reset: the software, timer and external interrupts of M mode enabled (notes/assumptions/47.md). -/
def resetMie : Word := 0x888
/-- `mcause` at reset: 0, reset causes not being distinguished (10 R59). -/
def resetMcause : Word := 0
/-- `th.vl` at reset (notes/assumptions/3.md). -/
def resetVl : Word := 4
/-- `th.vtype` at reset: `vsew = 0b010`, `LMUL = 1` (notes/assumptions/3.md). -/
def resetVtype : Word := 8
/-- `int_sp` at reset where it is a register of its own (notes/assumptions/3.md). -/
def resetIntSp : Word := 0x2000

end Sys2Proof.Machine
end

