-- ==== Sys2Proof/Machine/State.lean ====
section
/-! DEFINITION. The state of the machine as plain data: everything spec/10_state.md names, and the
model's own inputs and counter; the reasons a step can stop; the state after reset. -/

namespace Sys2Proof.Machine

/-- The privilege levels (10 R51). -/
inductive Priv where
  | u
  | s
  | m
  deriving DecidableEq, Repr

/-- The fields of `mstatus` the collection uses (10 R44; 70 R522 for `VS`). -/
structure Mstatus where
  mie : Bool
  mpie : Bool
  mpp : Priv
  fs : BitVec 2
  vs : BitVec 2
  mprv : Bool
  deriving DecidableEq, Repr

/-- The two fields of `mxstatus` the source names (10 R41). -/
structure Mxstatus where
  theadisaee : Bool
  ucme : Bool
  deriving DecidableEq, Repr

/-- A line a cache holds (20 R94): its line-aligned physical address, the way it sits in, whether it
is dirty, and its bytes, the lowest address first. -/
structure Line where
  addr : Nat
  way : Nat
  dirty : Bool
  data : List Byte
  deriving DecidableEq, Repr

/-- A translation (20 R99): of a virtual page under an address space identifier, the physical page,
and which accesses it allows at which privilege level (20 R98; notes/assumptions/12.md). -/
structure MapEntry where
  vpn : Nat
  asid : Word
  ppn : Nat
  allow : List (Priv × AccessKind)
  deriving DecidableEq, Repr

/-- A word the hart has fetched but not yet retired (10 R56). -/
structure Fetched where
  va : Word
  word : InsnWord
  deriving DecidableEq, Repr

/-- What a broadcast does to a hart it reaches (41 R211). -/
inductive Broadcast where
  /-- `th.icache.ialls` (40 R190). -/
  | invalidateICache
  /-- `th.sfence.vmas` with these two register values (41 R212). -/
  | invalidateTlb (va asid : Word)
  deriving DecidableEq, Repr

/-- A broadcast on its way to a hart: the `mhartid` of the hart that sent it, and what it does
(41 R211). -/
structure Pending where
  sender : Word
  op : Broadcast
  deriving DecidableEq, Repr

/-- A cache that a hart reaches: its own two, and the shared `L2` (20 R94). -/
inductive CacheId where
  | dc
  | ic
  | l2
  deriving DecidableEq, Repr

/-- What a hart, or an agent that is no hart, may do beside its instructions (20 R94, R99, R100 e, R103;
notes/assumptions/6.md). -/
inductive AgentAct where
  /-- `fill(c, a)` of 20 R94: the line of byte address `pa`, into a way. -/
  | fill (c : CacheId) (pa way : Nat)
  /-- `writeback(c, a)` of 20 R94. -/
  | writeback (c : CacheId) (pa : Nat)
  /-- `evict(c, a)` of 20 R94. -/
  | evict (c : CacheId) (pa : Nat)
  /-- The hart fills its TLB from the page tables (20 R99). -/
  | tlbFill (va asid : Word)
  /-- The hart drops a TLB entry, for want of room or at will (DESIGN CHOICE, notes/assumptions/42.md). -/
  | tlbDrop (vpn : Nat) (asid : Word)
  /-- The hart fetches ahead (10 R56). -/
  | prefetch (va : Word)
  /-- The `j`th of the broadcasts on their way to the hart is performed on it, in any order
  (41 R211; notes/assumptions/11.md). -/
  | deliver (j : Nat)
  /-- An agent on the bus writes a byte (20 R100 e). -/
  | extStore (pa : Nat) (b : Byte)
  /-- Software elsewhere changes the page tables (20 R98). -/
  | remap (map : List MapEntry)
  deriving DecidableEq, Repr

/-- An action of the running hart, or of one of the others. -/
structure HartAct where
  hart : Option Nat
  act : AgentAct
  deriving DecidableEq, Repr

/-- How the accesses of one instruction lie among the activity of the other agents (20 R92; 45 R340; 70 R535;
notes/assumptions/45.md): the order in which they are performed, each number the place of the next one among
those left, and what happens between them, one list for each gap. -/
structure Interleave where
  order : List Nat
  gaps : List (List HartAct)
  deriving DecidableEq, Repr

/-- The inputs of one instruction boundary: the hart that goes on, the present one if none is named
(60 R484; notes/assumptions/50.md); the activity before its instruction, in order; the interrupts the oracle
presents to it, by their cause codes (60 R475); and how the accesses of its instruction lie. -/
structure Slot where
  run : Option Nat
  acts : List HartAct
  irqs : List Nat
  inter : Interleave
  deriving DecidableEq, Repr

/-- Memory by physical address: (address, byte) in rising order, no entry equal to what an unlisted
address reads as (Machine/Memory.lean; notes/assumptions/5.md). -/
abbrev Memory := List Host.Cell

/-- What each hart has of its own (60 R484). -/
structure Hart where
  /-- The number of the hart, which nothing writes (60 R484). -/
  mhartid : Word
  /-- `x[0..31]` (10 R30). Slot 0 is neither read nor written. -/
  x : Vector Word 32
  pc : Word
  /-- `f[0..31]`, the low `FLEN` bits of each (10 R38). -/
  f : Vector Word 32
  /-- `vreg[0..31]` one after the other, each as `VLEN`/32 words, the least significant first (10 R49). -/
  vregs : List (BitVec 32)
  priv : Priv
  mstatus : Mstatus
  /-- The enable bit of each interrupt source, by cause code (60 R475; notes/assumptions/47.md). -/
  mie : Word
  mcause : Word
  mepc : Word
  mtvec : Word
  mtval : Word
  mxstatus : Mxstatus
  /-- The vector CSRs (10 R47). The spec gives none a width (49 R431): 64-bit cells for these three, 1 and 2
  bits for the next two, as V 0.7.1 has them (PRESUMED, notes/assumptions/40.md). -/
  vstart : Word
  vl : Word
  vtype : Word
  vxsat : BitVec 1
  vxrm : BitVec 2
  /-- `int_sp` where it is a register of its own (10 R52). -/
  intSp : Word
  /-- Address translation is on (20 R98; `satp` in 70 R522). -/
  xlateOn : Bool
  /-- The address space identifier in force. -/
  asid : Word
  /-- `DC[h]` (20 R94). -/
  dc : List Line
  /-- `IC[h]` (20 R94). -/
  ic : List Line
  /-- `TLB[h]` (10 R55). -/
  tlb : List MapEntry
  /-- `pipeline[h]` (10 R56). -/
  pipeline : List Fetched
  /-- The broadcasts on their way to this hart (41 R211). -/
  pending : List Pending
  deriving DecidableEq, Repr

/-- The machine: the hart that executes, the others, and what all share. -/
structure State extends Hart where
  /-- The parameters of the implementation (00 R6). No step changes them. -/
  cfg : Config
  /-- The other harts, `NHARTS` - 1 of them (60 R484). -/
  others : List Hart
  /-- `MEM` (20 R94). -/
  mem : Memory
  /-- The shared `L2` (20 R94). -/
  l2 : List Line
  /-- What the page tables say (20 R98): one list for all harts, told apart by the address space identifier
  alone (DESIGN CHOICE, notes/assumptions/52.md). -/
  pageMap : List MapEntry
  /-- The model's own: the inputs to come, one slot an instruction boundary. -/
  oracle : List Slot
  /-- The model's own: how the accesses of the present instruction lie, from the slot of its boundary. -/
  inter : Interleave
  /-- The model's own: how many free values have been used. -/
  freeCount : Nat
  deriving DecidableEq, Repr

/-- Why the machine stops with a fault. -/
inductive Fault where
  /-- `pc` is not a multiple of `IALIGN`/8. 10 R36 says it always is, and every step keeps it so; raised
  by the fetch in a state that no run reaches. Safe. -/
  | pcMisaligned
  deriving DecidableEq, Repr

/-- Why a step is refused. -/
inductive Refusal where
  /-- An instruction this model does not give its meaning. No arm raises it. Safe. -/
  | notModelled (mnemonic : String)
  /-- An increment load with `rd = rs1` or a pair load with two equal registers: reserved, no
  behaviour given (30 R142, decision D6). Raised by those 17 instructions. Safe. -/
  | reservedOperands
  /-- `th.ext`, `th.extu` with `imm1 < imm2`: reserved (42 R234, R235, decision D14). Safe. -/
  | reservedField
  /-- A bit index of 32 or more on RV32 in `th.tst`, `th.ext`, `th.extu`: reserved (30 R144,
  decision D15). Safe. -/
  | reservedBitIndex
  /-- An increment-before store with `rd = rs1` under `SIB_SAME_REG = refuse` (43 R261, decision
  D16). Safe. -/
  | sibSameReg
  /-- A set/way operand with a reserved bit set (40 R172, 93 U6). Raised by `th.dcache.csw`, `cisw`,
  `isw`. Safe. -/
  | setWayReserved
  /-- A physical-address operand beyond `PALEN` (20 R81, 93 U9). Raised by the five `pa` cache
  instructions. Safe. -/
  | paTooWide
  /-- `th.ipush`, `th.ipop` on RV64 with `XTHEADINT_ON_RV64 = false`: effect undefined (48 R402,
  decision D19). Safe. -/
  | rv64Frame
  /-- The word at `pc` is not in custom-0: an instruction of the base machine, outside the spec
  (00 R5). Raised by the step. Safe. -/
  | baseInstruction
  /-- The configuration is not one the spec allows (`configWf`; 30 R145). Raised by the step. Safe. -/
  | illFormedConfig
  deriving DecidableEq, Repr

/-- The outcome of an instruction or a step. -/
abbrev Result := Host.Outcome State Fault Refusal

/-- A hart right after reset (10 R59; 70 R520), on the platform of Machine/Platform.lean. -/
def resetHart (id : Nat) : Hart where
  mhartid := BitVec.ofNat 64 id
  x := Vector.ofFn fun i => resetX i.val
  pc := platform.resetVector
  f := Vector.ofFn fun i => resetF i.val
  vregs := List.replicate (32 * (platform.vlen / 32)) resetVregWord
  priv := .m
  mstatus := { mie := false, mpie := true, mpp := .m, fs := 1, vs := 1, mprv := false }
  mie := resetMie
  mcause := resetMcause
  mepc := resetMepc
  mtvec := resetMtvec
  mtval := resetMtval
  mxstatus := { theadisaee := true, ucme := true }
  vstart := 0
  vl := resetVl
  vtype := resetVtype
  vxsat := 1
  vxrm := 1
  intSp := resetIntSp
  xlateOn := false
  asid := 1
  dc := []
  ic := []
  tlb := []
  pipeline := []
  pending := []

/-- The machine right after reset: every hart in the reset state, at the reset vector, numbered from 0
(60 R484, decision D25; the numbers are PRESUMED, notes/assumptions/50.md). -/
def State.reset : State where
  toHart := resetHart 0
  cfg := platform
  others := (List.range (platform.nharts - 1)).map fun k => resetHart (k + 1)
  mem := []
  l2 := []
  pageMap := []
  oracle := []
  inter := ⟨[], []⟩
  freeCount := 0

end Sys2Proof.Machine
end

