-- ==== Sys2Proof/Machine/Memory.lean ====
section
/-! DEFINITION. `MEM`: reading and writing one byte, and the canonical form (20 R80, R94). -/

namespace Sys2Proof.Machine

/-- What an address that is not listed reads as: memory's content at reset is unspecified (10 R59), and
the model takes 0x00 (DESIGN CHOICE, unsafe; notes/assumptions/5.md). -/
def unlistedByte : Byte := 0

/-- The byte at an address. -/
def memRead : Memory → Nat → Byte
  | [], _ => unlistedByte
  | (k, b) :: m, a => if k = a then b else memRead m a

/-- Put a cell in front, unless it says what an unlisted address says. -/
def memCons (a : Nat) (b : Byte) (m : Memory) : Memory :=
  if b = unlistedByte then m else (a, b) :: m

/-- Write a byte, keeping the canonical form. -/
def memWrite : Memory → Nat → Byte → Memory
  | [], a, b => memCons a b []
  | (k, c) :: m, a, b =>
    if a < k then memCons a b ((k, c) :: m)
    else if a = k then memCons a b m
    else (k, c) :: memWrite m a b

/-- Every cell lies above `lo`, in strictly rising order, and says something. -/
def memWfFrom : Nat → Memory → Bool
  | _, [] => true
  | lo, (k, b) :: m => decide (lo ≤ k) && b != unlistedByte && memWfFrom (k + 1) m

/-- The canonical form: addresses strictly rising, no cell equal to what an unlisted address reads as. -/
def memWf (m : Memory) : Bool := memWfFrom 0 m

/-- The canonical form of a memory (the name the task gives it). -/
abbrev Memory.wf (m : Memory) : Bool := memWf m

end Sys2Proof.Machine
end

