-- ==== Sys2Proof/Machine/Cache.lean ====
section
/-! DEFINITION. The storage levels (20 R94): what a data access and a fetch read, what a store writes,
the moves of lines between levels, and the three cache operations (20 R95). All by physical address,
byte by byte. -/

namespace Sys2Proof.Machine

/-! ## Caches and their lines -/

/-- The hardware parameter of a cache (00 R6). -/
def cachePresent (c : Config) : CacheId → Bool
  | .dc => c.hasDCache
  | .ic => c.hasICache
  | .l2 => c.hasL2

/-- The shape of a cache; every hart's caches have the same (40 R172). -/
def cacheGeom (c : Config) : CacheId → CacheGeom
  | .dc => c.dcGeom
  | .ic => c.icGeom
  | .l2 => c.l2Geom

/-- The lines field of a cache of this hart, or of `L2`. -/
def storedLines (s : State) : CacheId → List Line
  | .dc => s.dc
  | .ic => s.ic
  | .l2 => s.l2

/-- The lines a cache holds: none when the hardware has no such cache. -/
def cacheLines (s : State) (c : CacheId) : List Line :=
  if cachePresent s.cfg c then storedLines s c else []

/-- Replace the lines of a cache. -/
def setLines (s : State) (c : CacheId) (ls : List Line) : State :=
  match c with
  | .dc => { s with dc := ls }
  | .ic => { s with ic := ls }
  | .l2 => { s with l2 := ls }

/-- The line address of a byte address: the low log2(linesize) bits cleared (40 R173). -/
def lineAddr (g : CacheGeom) (pa : Nat) : Nat := pa / 2 ^ g.l * 2 ^ g.l

/-- The set a line belongs to: bits `l+s-1:l` of its address (PRESUMED, notes/assumptions/8.md). -/
def setIndex (g : CacheGeom) (a : Nat) : Nat := a / 2 ^ g.l % 2 ^ g.s

/-- The line of a cache that holds a byte, if any. -/
def heldLine (s : State) (c : CacheId) (pa : Nat) : Option Line :=
  (cacheLines s c).find? fun ln => ln.addr == lineAddr (cacheGeom s.cfg c) pa

/-- The byte of a line at a byte address of it. -/
def lineByte (g : CacheGeom) (ln : Line) (pa : Nat) : Byte :=
  ln.data.getD (pa % 2 ^ g.l) unlistedByte

/-! ## What an access reads and writes (20 R94) -/

/-- What the storage below the level-1 caches holds: `L2` if it holds the line, else `MEM`. -/
def lowerByte (s : State) (pa : Nat) : Byte :=
  match heldLine s .l2 pa with
  | some ln => lineByte s.cfg.l2Geom ln pa
  | none => memRead s.mem pa

/-- The line of another hart's D-cache that holds a byte, if any: looked for only with `DCACHE_COHERENT`
(20 R100 e; notes/assumptions/32.md). -/
def peerLine (s : State) (pa : Nat) : Option Line :=
  if s.cfg.dcacheCoherent && s.cfg.hasDCache then
    s.others.findSome? fun h => h.dc.find? fun ln => ln.addr == lineAddr s.cfg.dcGeom pa
  else none

/-- What a D-cache that does not hold a line finds of it: with `DCACHE_COHERENT` the copy of another hart's
D-cache, else what `L2` or `MEM` holds. -/
def belowByte (s : State) (pa : Nat) : Byte :=
  match peerLine s pa with
  | some ln => lineByte s.cfg.dcGeom ln pa
  | none => lowerByte s pa

/-- A data access reads the first of `DC[h]`, `L2`, `MEM` that holds the line (20 R94), the other harts'
D-caches standing between the first two with `DCACHE_COHERENT`. -/
def dataByte (s : State) (pa : Nat) : Byte :=
  match heldLine s .dc pa with
  | some ln => lineByte s.cfg.dcGeom ln pa
  | none => belowByte s pa

/-- A fetch reads the first of `IC[h]`, `L2`, `MEM` that holds the line; it does not look in `DC[h]`. -/
def fetchByte (s : State) (pa : Nat) : Byte :=
  match heldLine s .ic pa with
  | some ln => lineByte s.cfg.icGeom ln pa
  | none => lowerByte s pa

/-- Write a byte of `MEM`. -/
def memSet (s : State) (pa : Nat) (b : Byte) : State := { s with mem := memWrite s.mem pa b }

/-- Write a byte into the line of a cache that holds it and mark the line dirty. -/
def cacheSet (s : State) (c : CacheId) (pa : Nat) (b : Byte) : State :=
  let g := cacheGeom s.cfg c
  setLines s c ((cacheLines s c).map fun ln =>
    if ln.addr == lineAddr g pa then
      { ln with dirty := true, data := ln.data.set (pa % 2 ^ g.l) b }
    else ln)

/-- Write a byte below the level-1 caches: into `L2` if it holds the line, else into `MEM`. -/
def lowerSet (s : State) (pa : Nat) (b : Byte) : State :=
  match heldLine s .l2 pa with
  | some _ => cacheSet s .l2 pa b
  | none => memSet s pa b

/-- The byte replaced in a line that holds it, the line staying as clean or dirty as it is. -/
def putByte (g : CacheGeom) (pa : Nat) (b : Byte) (ln : Line) : Line :=
  if ln.addr == lineAddr g pa then { ln with data := ln.data.set (pa % 2 ^ g.l) b } else ln

/-- With `DCACHE_COHERENT` a byte stored reaches every other hart's D-cache that holds its line (20 R100 e;
notes/assumptions/32.md). -/
def peersSet (s : State) (pa : Nat) (b : Byte) : State :=
  if s.cfg.dcacheCoherent then
    { s with others := s.others.map fun h => { h with dc := h.dc.map (putByte s.cfg.dcGeom pa b) } }
  else s

/-- A store updates the first level that holds the line, and `MEM` if no cache does (20 R94), and with
`DCACHE_COHERENT` the other harts' copies. The choice of filling a line first is the background agent's
`fill` (notes/assumptions/10.md). A store is performed in its own step, so that every hart it reaches sees a
hart's stores in program order, where 20 R100 d leaves the order open (DESIGN CHOICE, notes/assumptions/51.md). -/
def dataSet (s : State) (pa : Nat) (b : Byte) : State :=
  match heldLine s .dc pa with
  | some _ => peersSet (cacheSet s .dc pa b) pa b
  | none => peersSet (lowerSet s pa b) pa b

/-- Write several bytes of data, in order. -/
def dataSetAll (s : State) : List (Nat × Byte) → State
  | [] => s
  | (pa, b) :: rest => dataSetAll (dataSet s pa b) rest

/-! ## Moving lines (20 R94) -/

/-- Write the bytes of a line into `MEM`. -/
def memSetLine (m : Memory) (a : Nat) : List Byte → Memory
  | [] => m
  | b :: bs => memSetLine (memWrite m a b) (a + 1) bs

/-- Mark a line clean. -/
def markClean (s : State) (c : CacheId) (a : Nat) : State :=
  setLines s c ((cacheLines s c).map fun ln =>
    if ln.addr == a then { ln with dirty := false } else ln)

/-- Remove a line. -/
def dropLine (s : State) (c : CacheId) (a : Nat) : State :=
  setLines s c ((cacheLines s c).filter fun ln => ln.addr != a)

/-- The dirty line of a cache at a line address, if there is one. -/
def dirtyLine (s : State) (c : CacheId) (a : Nat) : Option Line :=
  (cacheLines s c).find? fun ln => ln.addr == a && ln.dirty

/-- `writeback(L2, a)`: the next-level storage of `L2` is `MEM`. -/
def writebackL2 (s : State) (a : Nat) : State :=
  match dirtyLine s .l2 a with
  | some ln => markClean { s with mem := memSetLine s.mem a ln.data } .l2 a
  | none => s

/-- `evict(L2, a)`. -/
def evictL2 (s : State) (a : Nat) : State := dropLine (writebackL2 s a) .l2 a

/-- The line sitting at a set and way, if any. -/
def occupant (s : State) (c : CacheId) (set way : Nat) : Option Line :=
  (cacheLines s c).find? fun ln =>
    setIndex (cacheGeom s.cfg c) ln.addr == set && ln.way == way

/-- The lowest way of a set that no line sits in, or 0 (notes/assumptions/9.md). -/
def freeWay (s : State) (c : CacheId) (set : Nat) : Nat :=
  ((List.range (2 ^ (cacheGeom s.cfg c).w)).find? fun way =>
    (occupant s c set way).isNone).getD 0

/-- The byte that a cache fills a line with. -/
def sourceByte (s : State) (c : CacheId) (pa : Nat) : Byte :=
  match c with
  | .dc => belowByte s pa
  | .ic => lowerByte s pa
  | .l2 => memRead s.mem pa

/-- The bytes of a line as a level below the cache holds them. -/
def bytesBelow (s : State) (c : CacheId) (a : Nat) : List Byte :=
  (List.range (2 ^ (cacheGeom s.cfg c).l)).map fun k => sourceByte s c (a + k)

/-- Put a clean copy of a line into a way that is free. -/
def addLine (s : State) (c : CacheId) (a way : Nat) : State :=
  setLines s c ({ addr := a, way := way, dirty := false, data := bytesBelow s c a } :: cacheLines s c)

/-- Bring a line into `L2`, evicting what sits in its way. -/
def fillL2 (s : State) (a way : Nat) : State :=
  match occupant s .l2 (setIndex s.cfg.l2Geom a) way with
  | some ln => addLine (evictL2 s ln.addr) .l2 a way
  | none => addLine s .l2 a way

/-- Write a byte into `L2`, bringing its line in first if `L2` does not hold it. -/
def writeL2 (s : State) (pa : Nat) (b : Byte) : State :=
  let a := lineAddr s.cfg.l2Geom pa
  match heldLine s .l2 pa with
  | some _ => cacheSet s .l2 pa b
  | none => cacheSet (fillL2 s a (freeWay s .l2 (setIndex s.cfg.l2Geom a))) .l2 pa b

/-- Write the bytes of a line into the next-level storage of `DC[h]`: `L2` if there is one, marking it
dirty there, else `MEM`. -/
def nextLevelSet (s : State) (a : Nat) : List Byte → State
  | [] => s
  | b :: bs =>
    nextLevelSet (if s.cfg.hasL2 then writeL2 s a b else memSet s a b) (a + 1) bs

/-- `writeback(c, a)`: a dirty line goes to the next-level storage and stays, clean. A line of an
instruction cache is never dirty. -/
def writeback (s : State) (c : CacheId) (a : Nat) : State :=
  match c with
  | .dc => match dirtyLine s .dc a with
    | some ln => markClean (nextLevelSet s a ln.data) .dc a
    | none => s
  | .l2 => writebackL2 s a
  | .ic => s

/-- `evict(c, a)`: `writeback(c, a)`, then remove the line. -/
def evict (s : State) (c : CacheId) (a : Nat) : State := dropLine (writeback s c a) c a

/-- `fill(c, a)`: if `c` is there and does not hold the line, copy it, clean, from the first lower
level that holds it, evicting what sits in its way. -/
def fill (s : State) (c : CacheId) (pa way : Nat) : State :=
  let g := cacheGeom s.cfg c
  let a := lineAddr g pa
  let k := way % 2 ^ g.w
  if cachePresent s.cfg c && (heldLine s c pa).isNone then
    match occupant s c (setIndex g a) k with
    | some ln => addLine (evict s c ln.addr) c a k
    | none => addLine s c a k
  else s

/-! ## Clean, invalidate, clean and invalidate (20 R95) -/

/-- The three cache operations. -/
inductive CacheOp where
  | clean
  | invalidate
  | cleanInvalidate
  deriving DecidableEq, Repr

/-- Clean: write back each dirty line of the set; the lines stay. -/
def cleanLines (s : State) (c : CacheId) : List Nat → State
  | [] => s
  | a :: as => cleanLines (writeback s c a) c as

/-- Invalidate: remove each line of the set without writing it back. -/
def invalidateLines (s : State) (c : CacheId) (as : List Nat) : State :=
  setLines s c ((cacheLines s c).filter fun ln => !as.contains ln.addr)

/-- A cache operation on a set of lines, given by their line addresses; lines not held are not touched. -/
def cacheOp (op : CacheOp) (s : State) (c : CacheId) (as : List Nat) : State :=
  match op with
  | .clean => cleanLines s c as
  | .invalidate => invalidateLines s c as
  | .cleanInvalidate => invalidateLines (cleanLines s c as) c as

/-- All lines of a cache. -/
def allLines (s : State) (c : CacheId) : List Nat := (cacheLines s c).map Line.addr

/-- The line that contains a byte: at most the one (40 R173). -/
def lineAt (s : State) (c : CacheId) (pa : Nat) : List Nat := [lineAddr (cacheGeom s.cfg c) pa]

/-- The line at a set and way, if the cache holds one there (40 R172). -/
def lineAtSetWay (s : State) (c : CacheId) (set way : Nat) : List Nat :=
  match occupant s c set way with
  | some ln => [ln.addr]
  | none => []

end Sys2Proof.Machine
end

