-- ==== Sys2Proof/Machine/Flags.lean ====
section
/-! DEFINITION. The collection has no condition flags (10 R37). What stands here is what its status
registers say: the privilege order, the whole `mstatus` and `mxstatus` words, the unit-enable fields and
the fields of `th.vtype`. -/

namespace Sys2Proof.Machine

/-- U = 0, S = 1, M = 3 (10 R51). -/
def privCode : Priv → BitVec 2
  | .u => 0
  | .s => 1
  | .m => 3

/-- `mstatus` as a word: `MIE` bit 3, `MPIE` bit 7, `VS` bits 10:9, `MPP` bits 12:11, `FS` bits 14:13,
`MPRV` bit 17 (10 R44; the place of `VS` is PRESUMED, notes/assumptions/21.md). -/
def mstatusWord (m : Mstatus) : Word :=
  (BitVec.ofBool m.mie).setWidth 64 <<< 3 ||| (BitVec.ofBool m.mpie).setWidth 64 <<< 7
    ||| m.vs.setWidth 64 <<< 9 ||| (privCode m.mpp).setWidth 64 <<< 11
    ||| m.fs.setWidth 64 <<< 13 ||| (BitVec.ofBool m.mprv).setWidth 64 <<< 17

/-- `mxstatus`' two named fields as a word: `ucme` bit 16, `theadisaee` bit 22 (10 R41). -/
def mxstatusWord (m : Mxstatus) : Word :=
  (BitVec.ofBool m.ucme).setWidth 64 <<< 16 ||| (BitVec.ofBool m.theadisaee).setWidth 64 <<< 22

/-- A unit-enable field is Off (10 R40; 49 R429). -/
def unitOff (field : BitVec 2) : Bool := field == 0

/-- A unit-enable field is Dirty (10 R40). -/
def unitDirty : BitVec 2 := 3

/-- `th.vtype.vsew`, bits 4:2 (10 R48). -/
def vsew (vtype : Word) : BitVec 3 := vtype.extractLsb' 2 3

/-- log2 of `LMUL`, `th.vtype` bits 1:0 (10 R48). -/
def vlmulLog (vtype : Word) : Nat := (vtype.extractLsb' 0 2).toNat

/-- `LMUL`, the number of registers of a group. -/
def lmul (vtype : Word) : Nat := 2 ^ vlmulLog vtype

/-- `th.vtype.vill`, bit `XLEN`-1 (10 R48). -/
def vill (c : Config) (vtype : Word) : Bool :=
  match c.xlen with
  | .rv32 => vtype.getLsbD 31
  | .rv64 => vtype.getLsbD 63

end Sys2Proof.Machine
end

