-- ==== Sys2Proof/Machine/Access.lean ====
section
/-! DEFINITION. Memory accesses: address arithmetic (20 R82), translation and its stale copies
(20 R98, R99), the platform's map (20 R83), and the exceptions of one access with their codes and priority
(60 R452, R455). -/

namespace Sys2Proof.Machine

/-- The low `XLEN` bits of a value (00 R12: register arithmetic is modulo 2^`XLEN`). -/
def truncX (c : Config) (v : Word) : Word :=
  match c.xlen with
  | .rv32 => (v.setWidth 32).setWidth 64
  | .rv64 => v

/-- `XLEN` as a number. -/
def xlenBits (c : Config) : Nat :=
  match c.xlen with
  | .rv32 => 32
  | .rv64 => 64

/-! ## Translation -/

/-- The privilege level of a data access: with `MPRV` set in M mode, `MPP`'s (10 R44; PRESUMED,
notes/assumptions/12.md). -/
def dataPriv (s : State) : Priv :=
  if s.mstatus.mprv && s.priv == .m then s.mstatus.mpp else s.priv

/-- Whether an access at a level goes through the page tables: with an MMU, with translation on, and
below M (20 R98; the last is PRESUMED, notes/assumptions/12.md). -/
def translated (s : State) (p : Priv) : Bool := s.cfg.hasMmu && s.xlateOn && p != .m

/-- The virtual page number of an address. -/
def vpnOf (c : Config) (va : Word) : Nat := va.toNat / 2 ^ c.pageBits

/-- A translation of the page that holds `va`, in the address space in force. -/
def entryMatches (s : State) (va : Word) (e : MapEntry) : Bool :=
  e.vpn == vpnOf s.cfg va && e.asid == s.asid

/-- The translation in use: the TLB's copy, be it stale, and without one the page tables' (20 R99). -/
def lookupEntry (s : State) (va : Word) : Option MapEntry :=
  match s.tlb.find? (entryMatches s va) with
  | some e => some e
  | none => s.pageMap.find? (entryMatches s va)

/-- The physical address an entry gives. -/
def entryPa (c : Config) (e : MapEntry) (va : Word) : Nat :=
  e.ppn * 2 ^ c.pageBits + va.toNat % 2 ^ c.pageBits

/-- `translate(va, kind, priv)` (20 R98): the physical address, or none for a page fault. -/
def translate (s : State) (p : Priv) (k : AccessKind) (va : Word) : Option Nat :=
  if translated s p then
    match lookupEntry s va with
    | some e => if e.allow.contains (p, k) then some (entryPa s.cfg e va) else none
    | none => none
  else some va.toNat

/-- `translate(va)` of a `va` cache instruction: no permission is asked for (40 R173, 60 R481;
notes/assumptions/39.md). -/
def translateForCache (s : State) (va : Word) : Option Nat :=
  if translated s (dataPriv s) then (lookupEntry s va).map fun e => entryPa s.cfg e va
  else some va.toNat

/-! ## One access -/

/-- `accessible(pa, n, kind)` (20 R83). -/
def accessible (c : Config) (pa n : Nat) (k : AccessKind) : Bool :=
  c.regions.any fun r => decide (r.base ≤ pa) && decide (pa + n ≤ r.base + r.size) && r.kinds.contains k

/-- An exception of a memory access: its cause code and trap value (60 R452), and the address of the
access it belongs to, which decides what is reported (60 R455). -/
structure AccessFault where
  code : Nat
  va : Word
  access : Word
  deriving DecidableEq, Repr

/-- Address misaligned (60 R452); for a fetch, the base machine's code 0, which the fetch of
Machine/Fetch.lean never raises. -/
def misalignedCode : AccessKind → Nat
  | .load => 4
  | .store => 6
  | .fetch => 0

/-- Access fault (60 R452, R454). -/
def accessFaultCode : AccessKind → Nat
  | .load => 5
  | .store => 7
  | .fetch => 1

/-- Page fault (60 R452, R454). -/
def pageFaultCode : AccessKind → Nat
  | .load => 13
  | .store => 15
  | .fetch => 12

/-- The physical address of `n` bytes at `va` on behalf of the access at `access`: page fault before
access fault (60 R455). -/
def resolve (s : State) (p : Priv) (k : AccessKind) (access va : Word) (n : Nat) :
    Except AccessFault Nat :=
  match translate s p k va with
  | none => .error ⟨pageFaultCode k, va, access⟩
  | some pa => if accessible s.cfg pa n k then .ok pa else .error ⟨accessFaultCode k, va, access⟩

/-- The address of byte `k` of an access, modulo 2^`XLEN` (20 R82). -/
def byteVa (s : State) (va : Word) (k : Nat) : Word := truncX s.cfg (va + BitVec.ofNat 64 k)

end Sys2Proof.Machine
end

