-- ==== Sys2Proof/Machine/Agents.lean ====
section
/-! DEFINITION. What happens beside the instruction stream: the actions of the harts' own agents and of the
agents on the bus (20 R94, R99, R100; 41 R211; notes/assumptions/6.md), which hart goes on (60 R484), and
the interrupts of the platform's oracle (60 R456, R475). -/

namespace Sys2Proof.Machine

/-! ## Harts -/

/-- The machine with the `k`th other hart as the one that executes; without such a hart, as it is. -/
def switchTo (k : Nat) (s : State) : State :=
  match s.others[k]? with
  | some h => { s with toHart := h, others := s.others.set k s.toHart }
  | none => s

/-- An operation on behalf of the executing hart, or of another one. -/
def onHart (k : Option Nat) (f : State → State) (s : State) : State :=
  match k with
  | none => f s
  | some k => switchTo k (f (switchTo k s))

/-! ## TLB invalidation and broadcasts -/

/-- An entry that an invalidation by the register values `va` and `asid` removes: of the page containing
`va`, any page when it is 0; of the address space in the low bits of `asid`, any when it is 0 (41 R212,
decision D12). -/
def tlbHit (c : Config) (va asid : Word) (e : MapEntry) : Bool :=
  (va == 0 || e.vpn == vpnOf c va)
  && (asid == 0 || e.asid.toNat % 2 ^ c.asidBits == asid.toNat % 2 ^ c.asidBits)

/-- What is left of a TLB after an invalidation. -/
def tlbWithout (c : Config) (va asid : Word) (t : List MapEntry) : List MapEntry :=
  t.filter fun e => !tlbHit c va asid e

/-- A broadcast performed on the hart it reaches, which executes nothing on account of it (41 R211). -/
def performBroadcast (c : Config) (h : Hart) : Broadcast → Hart
  | .invalidateICache => { h with ic := [] }
  | .invalidateTlb va asid => { h with tlb := tlbWithout c va asid h.tlb }

/-- One of the broadcasts on their way to this hart, performed. -/
def deliver (s : State) (j : Nat) : State :=
  match s.pending[j]? with
  | some p =>
    { s with toHart := { performBroadcast s.cfg s.toHart p.op with pending := s.pending.eraseIdx j } }
  | none => s

/-! ## The TLB -/

/-- The translation the page tables give a page in an address space. -/
def pageEntry (s : State) (va asid : Word) : Option MapEntry :=
  s.pageMap.find? fun e => e.vpn == vpnOf s.cfg va && e.asid == asid

/-- A TLB filled with what the page tables say of a page, unless it has a translation of it. -/
def tlbFilled (s : State) (va asid : Word) (t : List MapEntry) : List MapEntry :=
  match pageEntry s va asid with
  | some e => if t.any (fun e' => e'.vpn == e.vpn && e'.asid == e.asid) then t else e :: t
  | none => t

/-- A TLB without its translation of a page in an address space. -/
def tlbDropped (vpn : Nat) (asid : Word) (t : List MapEntry) : List MapEntry :=
  t.filter fun e => !(e.vpn == vpn && e.asid == asid)

/-! ## Stores of other agents -/

/-- The byte of a held line replaced, the line staying as clean or dirty as it is. -/
def snoopSet (s : State) (c : CacheId) (pa : Nat) (b : Byte) : State :=
  setLines s c ((cacheLines s c).map (putByte (cacheGeom s.cfg c) pa b))

/-- A byte written by an agent on the bus reaches the storage below the D-caches and, with
`DCACHE_COHERENT`, every hart's copy as well (20 R100 e; notes/assumptions/32.md). -/
def externalStore (s : State) (pa : Nat) (b : Byte) : State :=
  let s' := lowerSet s pa b
  if s.cfg.dcacheCoherent then peersSet (snoopSet s' .dc pa b) pa b else s'

/-! ## Fetching -/

/-- The halves of the word at an address as a fetch at the current privilege level reads them: the low
one, and the high one when the low one says that the instruction is 32 bits long (30 R121; 20 R89). -/
def fetchParcel (s : State) (access va : Word) : Except AccessFault (BitVec 16) :=
  match resolve s s.priv .fetch access va 2 with
  | .ok pa => .ok (fetchByte s (pa + 1) ++ fetchByte s pa)
  | .error e => .error e

/-- What is at an address for the fetch. -/
inductive Fetch where
  /-- A 32-bit instruction word. -/
  | word (w : InsnWord)
  /-- A 16-bit parcel of the base machine. -/
  | short (p : BitVec 16)
  /-- The fetch raises an exception. -/
  | fault (e : AccessFault)
  deriving DecidableEq, Repr

/-- Read an instruction word from `IC[h]`, `L2` or `MEM` (20 R85, R103). -/
def readInsn (s : State) (va : Word) : Fetch :=
  match fetchParcel s va va with
  | .error e => .fault e
  | .ok lo =>
    if lo.extractLsb' 0 2 = 0b11#2 then
      match fetchParcel s va (byteVa s va 2) with
      | .error e => .fault e
      | .ok hi => .word (hi ++ lo)
    else .short lo

/-- The hart fetches ahead: a word that can be read is kept until it is executed or flushed (10 R56). -/
def prefetch (s : State) (va : Word) : State :=
  match readInsn s va with
  | .word w =>
    if s.pipeline.any (fun p => p.va == va) then s
    else { s with pipeline := ⟨va, w⟩ :: s.pipeline }
  | _ => s

/-! ## Actions -/

/-- One action of the executing hart, or of an agent on the bus. -/
def applyAct (s : State) : AgentAct → State
  | .fill c pa way => fill s c pa way
  | .writeback c pa => writeback s c (lineAddr (cacheGeom s.cfg c) pa)
  | .evict c pa => evict s c (lineAddr (cacheGeom s.cfg c) pa)
  | .tlbFill va asid => { s with tlb := tlbFilled s va asid s.tlb }
  | .tlbDrop vpn asid => { s with tlb := tlbDropped vpn asid s.tlb }
  | .prefetch va => prefetch s va
  | .deliver j => deliver s j
  | .extStore pa b => externalStore s pa b
  | .remap map => { s with pageMap := map }

/-- Actions, each on behalf of its hart, in order. -/
def applyActs (s : State) : List HartAct → State
  | [] => s
  | a :: as => applyActs (onHart a.hart (fun u => applyAct u a.act) s) as

/-! ## The boundary of an instruction -/

/-- The inputs of this instruction boundary, and the state that has taken them from the list; none are
left at its end. -/
def takeSlot (s : State) : Slot × State :=
  match s.oracle with
  | [] => (⟨none, [], [], ⟨[], []⟩⟩, s)
  | o :: rest => (o, { s with oracle := rest })

/-- The hart that goes on. -/
def chooseHart (run : Option Nat) (s : State) : State :=
  match run with
  | none => s
  | some k => switchTo k s

/-- The state in which the next instruction starts: the hart that goes on is chosen, the inputs of its
accesses are known, and the activity of this boundary is over. -/
def background (s : State) : State :=
  let slot := (takeSlot s).1
  applyActs { chooseHart slot.run (takeSlot s).2 with inter := slot.inter } slot.acts

/-- The enable bit of a cause in `mie`; a cause that has none there, being `XLEN` or more, is the oracle's
affair (60 R475; DESIGN CHOICE, notes/assumptions/47.md). -/
def mieAllows (s : State) (cause : Nat) : Bool :=
  decide (xlenBits s.cfg ≤ cause) || s.mie.getLsbD cause

/-- An interrupt is taken below M, and in M when `mstatus.MIE` is 1, if its source is enabled (60 R475). -/
def interruptible (s : State) (cause : Nat) : Bool :=
  (s.priv != .m || s.mstatus.mie) && mieAllows s cause

/-- The order among interrupts: external, software, timer (60 R456), then the same of S mode (PRESUMED,
notes/assumptions/48.md). -/
def interruptOrder : List Nat := [11, 3, 7, 9, 1, 5]

/-- The first of several interrupts: in that order, and then as the oracle lists them. -/
def firstInterrupt (causes : List Nat) : Option Nat :=
  (interruptOrder ++ causes).find? fun c => causes.contains c

/-- The interrupt to take before the next instruction, if one is presented and may be taken: judged after
the background activity. -/
def takenInterrupt (s : State) : Option Nat :=
  firstInterrupt ((takeSlot s).1.irqs.filter (interruptible (background s)))

end Sys2Proof.Machine
end

