-- ==== Sys2Proof/Machine/Transfer.lean ====
section
/-! DEFINITION. The loads and stores of one instruction (20 R84, R87, R88, R92): the parts they are performed
in, one after another in an order the inputs choose, with the activity of other agents between them
(45 R340; 70 R535; notes/assumptions/45.md). -/

namespace Sys2Proof.Machine

/-! ## Bytes of a value -/

/-- The little-endian value of a run of bytes, at most eight (20 R84). -/
def leValue : List Byte → Word
  | [] => 0
  | b :: bs => b.setWidth 64 ||| leValue bs <<< 8

/-- The `n` bytes of a value, the lowest address first (20 R84). -/
def leBytes (n : Nat) (v : Word) : List Byte := (List.range n).map fun k => v.extractLsb' (8 * k) 8

/-! ## Accesses and their parts -/

/-- One access of an instruction: its address, its number of bytes and, of a store, the value, whose low
bytes are stored. -/
structure Req where
  va : Word
  n : Nat
  value : Word
  deriving DecidableEq, Repr

/-- What an access is performed in: bytes `off` to `off + n - 1` of the `req`th access, which is at
`access`; their address and, of a store, their value; or an access that is misaligned and traps. -/
structure Part where
  req : Nat
  access : Word
  off : Nat
  va : Word
  n : Nat
  value : Word
  bad : Bool
  deriving DecidableEq, Repr

/-- The parts of an access: one when it is aligned; when it is misaligned, by `MISALIGNED` either the
exception or one part a byte (20 R87, R88). An aligned access is one part whatever its size, the 8 bytes of a
floating-point access on RV32 included, of which 20 R92 does not speak (DESIGN CHOICE, notes/assumptions/53.md). -/
def partsOf (s : State) (q : Req) (j : Nat) : List Part :=
  if q.va.toNat % q.n = 0 then [⟨j, q.va, 0, q.va, q.n, q.value, false⟩]
  else
    match s.cfg.misaligned with
    | .trap => [⟨j, q.va, 0, q.va, q.n, q.value, true⟩]
    | .emulate => (List.range q.n).map fun k =>
        ⟨j, q.va, k, byteVa s q.va k, 1, q.value >>> (8 * k), false⟩

/-- The parts of all accesses of an instruction. -/
def allParts (s : State) (qs : List Req) : List Part := qs.zipIdx.flatMap fun p => partsOf s p.1 p.2

/-- A list in another order: each number is the place of the next element among those left; what the
numbers do not reach keeps its order. -/
def arrange {α : Type} : List Nat → List α → List α
  | [], l => l
  | i :: is, l =>
    match l[i]? with
    | some a => a :: arrange is (l.eraseIdx i)
    | none => arrange is l

/-- The physical address of a part, or its exception: misaligned, then page fault, then access fault
(60 R455, decision D42). -/
def resolvePart (s : State) (k : AccessKind) (p : Part) : Except AccessFault Nat :=
  if p.bad then .error ⟨misalignedCode k, p.va, p.access⟩
  else resolve s (dataPriv s) k p.access p.va p.n

/-- A part and what came of it: the bytes read, none of a store, or an exception. -/
abbrev PartOutcome := Part × Except AccessFault (List Byte)

/-- Perform parts one after another, the activity of its gap before each: what came of them, and the state
at the end. -/
def performParts (f : State → Part → Except AccessFault (List Byte) × State) :
    State → List (List HartAct) → List Part → List PartOutcome × State
  | s, _, [] => ([], s)
  | s, gaps, p :: ps =>
    let r := f (applyActs s (gaps.headD [])) p
    let rest := performParts f r.2 gaps.tail ps
    ((p, r.1) :: rest.1, rest.2)

/-- Perform the parts of an instruction's accesses in the order of its inputs: no gap before the first. -/
def performAccesses (f : State → Part → Except AccessFault (List Byte) × State) (s : State)
    (qs : List Req) : List PartOutcome × State :=
  performParts f s ([] :: s.inter.gaps) (arrange s.inter.order (allParts s qs))

/-- Of two exceptions of one instruction, the one of the access at the lower address (60 R455, decision
D44); of one access, the one met first (notes/assumptions/14.md). -/
def lowerFault (a b : AccessFault) : AccessFault :=
  if b.access.toNat < a.access.toNat then b else a

/-- The exception of the access at the lowest address, if any part raises one. -/
def lowestFault : List PartOutcome → Option AccessFault
  | [] => none
  | (_, .ok _) :: rest => lowestFault rest
  | (_, .error e) :: rest =>
    match lowestFault rest with
    | none => some e
    | some e' => some (lowerFault e e')

/-! ## Loads -/

/-- A part of a load. -/
def readPart (s : State) (p : Part) : Except AccessFault (List Byte) × State :=
  match resolvePart s .load p with
  | .ok pa => (.ok ((List.range p.n).map fun k => dataByte s (pa + k)), s)
  | .error e => (.error e, s)

/-- Byte `k` of the `j`th access, from the part that read it. -/
def loadedByte (outs : List PartOutcome) (j k : Nat) : Byte :=
  match outs.find? fun o => o.1.req == j && decide (o.1.off ≤ k) && decide (k < o.1.off + o.1.n) with
  | some (p, .ok bs) => bs.getD (k - p.off) 0
  | _ => 0

/-- The value of the `j`th access, of `n` bytes. -/
def loadedValue (outs : List PartOutcome) (j n : Nat) : Word :=
  leValue ((List.range n).map (loadedByte outs j))

/-- `MemRead(addr, n)` for each access of an instruction: the zero-extended values, or the exception to
report (20 R84, R90), and the state at the end. -/
def loadAll (s : State) (qs : List Req) : Except AccessFault (List Word) × State :=
  let r := performAccesses readPart s qs
  match lowestFault r.1 with
  | none => (.ok (qs.zipIdx.map fun p => loadedValue r.1 p.2 p.1.n), r.2)
  | some e => (.error e, r.2)

/-! ## Stores -/

/-- The cells of a part at a physical address. -/
def partCells (p : Part) (pa : Nat) : List (Nat × Byte) :=
  ((List.range p.n).map (pa + ·)).zip (leBytes p.n p.value)

/-- A part of a store, written if `write` says so. -/
def writePart (write : Part → Bool) (s : State) (p : Part) : Except AccessFault (List Byte) × State :=
  match resolvePart s .store p with
  | .ok pa => (.ok [], if write p then dataSetAll s (partCells p pa) else s)
  | .error e => (.error e, s)

/-- Whether a part of an access that faults came out so. -/
def reqFaulted (outs : List PartOutcome) (j : Nat) : Bool :=
  outs.any fun o => o.1.req == j && match o.2 with
    | .ok _ => false
    | .error _ => true

/-- Whether a part may have been written though the instruction raises an exception: of another access than
the one that raises (decisions D5, D44), of any with `misalignedPartial` (20 R88). -/
def mayRemain (c : Config) (outs : List PartOutcome) (p : Part) : Bool :=
  c.misalignedPartial || !reqFaulted outs p.req

/-- Whether it was: a free choice, for each part with `misalignedPartial`, else for each access as a whole
(20 R88, R92; decisions D21, D44; notes/assumptions/15.md and 46.md). -/
def remains (s : State) (outs : List PartOutcome) (p : Part) : Bool :=
  mayRemain s.cfg outs p &&
    (Config.freeMask s.freeCount).getLsbD (8 * p.req + (if s.cfg.misalignedPartial then p.off else 0))

/-- Whether any part was open to that choice. -/
def anyRemain (c : Config) (outs : List PartOutcome) : Bool :=
  outs.any fun o => mayRemain c outs o.1 && match o.2 with
    | .ok _ => true
    | .error _ => false

/-- What the stores of an instruction leave that raises an exception. -/
def partialStore (s : State) (qs : List Req) (outs : List PartOutcome) : State :=
  let s' := (performAccesses (writePart (remains s outs)) s qs).2
  if anyRemain s.cfg outs then { s' with freeCount := s'.freeCount + 1 } else s'

/-- `MemWrite(addr, n, v)` for each access of an instruction (20 R84, R90): all performed, or the exception to
report with the state its partial stores leave. -/
def storeAll (s : State) (qs : List Req) : Option AccessFault × State :=
  let r := performAccesses (writePart fun _ => true) s qs
  match lowestFault r.1 with
  | none => (none, r.2)
  | some e => (some e, partialStore s qs r.1)

end Sys2Proof.Machine
end

