-- ==== Sys2Proof/Machine/Ops.lean ====
section
/-! DEFINITION. The named operations over registers, `pc`, the exception registers and memory that
every meaning is written with; taking an exception (60 R470) and the trap return (60 R472). -/

namespace Sys2Proof.Machine

/-! ## Registers -/

/-- `x[i]` (10 R30, R31): register 0 reads 0. -/
def readX (s : State) (r : Reg) : Word :=
  if r = 0#5 then 0 else truncX s.cfg (s.x[r.toNat]'r.isLt)

/-- `x[i] <- v` (10 R31): a write to register 0 is discarded. -/
def writeX (s : State) (r : Reg) (v : Word) : State :=
  if r = 0#5 then s else { s with x := s.x.set r.toNat (truncX s.cfg v) r.isLt }

/-- Write several registers, in order. -/
def writeXs (s : State) : List (Reg × Word) → State
  | [] => s
  | (r, v) :: rest => writeXs (writeX s r v) rest

/-- The low `FLEN` bits of a value: `FLEN` is 64 with D, 32 with F alone, 0 with neither (00 R6). -/
def truncF (c : Config) (v : Word) : Word :=
  if c.hasD then v else if c.hasF then (v.setWidth 32).setWidth 64 else 0

/-- `f[i]` (10 R38): register 0 is an ordinary one. -/
def readF (s : State) (r : Reg) : Word := truncF s.cfg (s.f[r.toNat]'r.isLt)

/-- `f[i] <- v`: the `FLEN` bits of it. -/
def writeF (s : State) (r : Reg) (v : Word) : State :=
  { s with f := s.f.set r.toNat (truncF s.cfg v) r.isLt }

/-- `int_sp` (10 R52, decision D17). -/
def readIntSp (s : State) : Word :=
  match s.cfg.intSpReg with
  | .gpr r => readX s r
  | .dedicated => truncX s.cfg s.intSp

/-- `int_sp <- v`. -/
def writeIntSp (s : State) (v : Word) : State :=
  match s.cfg.intSpReg with
  | .gpr r => writeX s r v
  | .dedicated => { s with intSp := truncX s.cfg v }

/-- `th.vlenb`, the constant `VLEN`/8 (10 R47). The spec gives it no width (49 R431): 64 bits on RV32 and RV64
alike (PRESUMED, notes/assumptions/40.md). -/
def vlenb (s : State) : Word := BitVec.ofNat 64 (s.cfg.vlen / 8)

/-- `pc <- pc + 4`, modulo 2^`XLEN` (10 R35, R36). -/
def advance (s : State) : State := { s with pc := truncX s.cfg (s.pc + 4) }

/-- `IALIGN`/8, what `pc` is a multiple of (10 R36). -/
def pcAlign (c : Config) : Nat := if c.ialign16 then 2 else 4

/-- `mepc` as it reads and as a write leaves it: bit 0 is 0, and bit 1 when `IALIGN = 32` (10 R43). -/
def mepcValue (c : Config) (v : Word) : Word :=
  truncX c (if c.ialign16 then v &&& ~~~1#64 else v &&& ~~~3#64)

/-- `csr.mepc`. -/
def readMepc (s : State) : Word := mepcValue s.cfg s.mepc

/-! ## `mcause` -/

/-- A cause as `mcause` holds it: bit `XLEN`-1 the Interrupt flag, the rest the code (10 R42). -/
def causeWord (c : Config) (isInterrupt : Bool) (code : Nat) : Word :=
  match c.xlen with
  | .rv32 => (BitVec.ofBool isInterrupt ++ BitVec.ofNat 31 code).setWidth 64
  | .rv64 => (BitVec.ofBool isInterrupt ++ BitVec.ofNat 63 code).setWidth 64

/-- The values `mcause` can hold. -/
def legalCauses (c : Config) : List Word :=
  c.legalExceptions.map (causeWord c false) ++ c.legalInterrupts.map (causeWord c true)

/-- A write of `mcause`: a legal value is kept, any other leaves a free one of the legal values (10 R42;
93 U21; notes/assumptions/17.md). -/
def writeMcause (s : State) (v : Word) : State :=
  let w := truncX s.cfg v
  if (legalCauses s.cfg).contains w then { s with mcause := w }
  else
    { s with
      mcause := (legalCauses s.cfg).getD
        (Config.freeIndex s.freeCount % (legalCauses s.cfg).length) 0
      freeCount := s.freeCount + 1 }

/-! ## Traps -/

/-- Trap entry: `trap(code, is_interrupt, info)` of 60 R470. Every trap goes to M mode (60 R474). -/
def trap (s : State) (code : Nat) (isInterrupt : Bool) (info : Word) : State :=
  let base := s.mtvec &&& ~~~3#64
  { s with
    mepc := mepcValue s.cfg s.pc
    mcause := causeWord s.cfg isInterrupt code
    mtval := truncX s.cfg info
    mstatus := { s.mstatus with mpie := s.mstatus.mie, mie := false, mpp := s.priv }
    priv := .m
    pc := truncX s.cfg
      (if s.mtvec.extractLsb' 0 2 = 1#2 ∧ isInterrupt = true then base + BitVec.ofNat 64 (4 * code)
       else base) }

/-- Trap return: `mret` of 60 R472. -/
def mret (s : State) : State :=
  let newPriv := s.mstatus.mpp
  { s with
    mstatus := { s.mstatus with
      mie := s.mstatus.mpie
      mpie := true
      mpp := if s.cfg.hasU then .u else .m
      mprv := if newPriv != .m then false else s.mstatus.mprv }
    priv := newPriv
    pc := readMepc s }

/-- The trap value of an illegal instruction: its word, or 0, as the base machine chooses (60 R451). -/
def illegalInfo (c : Config) (w : InsnWord) : Word := if c.mtvalHoldsInsn then w.setWidth 64 else 0

/-- `raise IllegalInstruction(insn)` for a word (60 R451): cause 2. -/
def illegalWord (s : State) (w : InsnWord) : State := trap s 2 false (illegalInfo s.cfg w)

/-- `raise IllegalInstruction(insn)` for an instruction, whose word is its encoding. -/
def illegal (s : State) (i : Instr) : State := illegalWord s (encode i)

/-- Take the exception of a memory access (60 R452). -/
def accessTrap (s : State) (e : AccessFault) : State := trap s e.code false e.va

/-! ## Completing an instruction -/

/-- The instruction runs when `ok` holds; otherwise it is illegal. -/
def requireLegal (s : State) (i : Instr) (ok : Bool) (run : Result) : Result :=
  if ok then run else .next (illegal s i)

/-- `x[rd] <- v`, `pc <- pc + 4`. -/
def finishX (s : State) (rd : Reg) (v : Word) : Result := .next (advance (writeX s rd v))

/-- The loads of one instruction, and what to do with their values; an exception is taken with no register
written (60 R452, decision D5). -/
def withLoads (s : State) (qs : List Req) (k : State → List Word → Result) : Result :=
  match loadAll s qs with
  | (.ok vs, s') => k s' vs
  | (.error e, s') => .next (accessTrap s' e)

/-- One load, and what to do with its value. -/
def withLoad (s : State) (va : Word) (n : Nat) (k : State → Word → Result) : Result :=
  withLoads s [⟨va, n, 0⟩] fun s' vs => k s' (vs.getD 0 0)

/-- The stores of one instruction, and what to do after them; an exception is taken with no register
written, in the memory its partial stores leave. -/
def withStores (s : State) (qs : List Req) (k : State → Result) : Result :=
  match storeAll s qs with
  | (none, s') => k s'
  | (some e, s') => .next (accessTrap s' e)

end Sys2Proof.Machine
end

