-- ==== Sys2Proof/Machine/Operands.lean ====
section
/-! DEFINITION. Every operand form of the collection (30 R134, R135): the lift of a fixed-width
function to `XLEN`, the extensions of a loaded value, the four addressing forms, and the operands of
the cache instructions. -/

namespace Sys2Proof.Machine

/-! ## Fixed-width functions at `XLEN` -/

/-- A function of one register value, applied at width `XLEN`; the result is zero-extended to the
cell. -/
def atXlen (c : Config) (f32 : BitVec 32 → BitVec 32) (f64 : BitVec 64 → BitVec 64) (a : Word) : Word :=
  match c.xlen with
  | .rv32 => (f32 (a.setWidth 32)).setWidth 64
  | .rv64 => f64 a

/-- `sext_XLEN` of a `w`-bit value (00 R12). -/
def sextX {w : Nat} (c : Config) (v : BitVec w) : Word := truncX c (v.signExtend 64)

/-- `zext_XLEN` of a `w`-bit value (00 R12). -/
def zextX {w : Nat} (c : Config) (v : BitVec w) : Word := truncX c (v.setWidth 64)

/-! ## Loaded values (20 R91) -/

/-- How a load fills its register. -/
inductive Extend where
  | sign
  | zero
  deriving DecidableEq, Repr

/-- The `n` bytes of a load extended to `XLEN` bits; with `n` = 8 nothing is left to extend. -/
def extendLoad (c : Config) (e : Extend) (n : Nat) (v : Word) : Word :=
  match e with
  | .sign => sextX c (v.setWidth (8 * n))
  | .zero => zextX c (v.setWidth (8 * n))

/-- A 32-bit value in a floating-point register: one-extended when `FLEN` is 64 (46 R370). -/
def onesF (c : Config) (v : Word) : Word :=
  if c.hasD then 0xffffffff#32 ++ v.setWidth 32 else (v.setWidth 32).setWidth 64

/-! ## Addresses, modulo 2^`XLEN` (20 R82) -/

/-- Whether the index register of an indexed form is used whole or zero-extended from its low 32 bits
(44 R300; 46 R368). -/
inductive Index where
  | whole
  | low32
  deriving DecidableEq, Repr

/-- `x[rs2]` or `zext(x[rs2][31:0])`. -/
def indexValue (s : State) (k : Index) (rs2 : Reg) : Word :=
  match k with
  | .whole => readX s rs2
  | .low32 => ((readX s rs2).setWidth 32).setWidth 64

/-- `x[rs1] + (index << imm2)` (44 R300; 46 R368). -/
def indexedAddr (s : State) (k : Index) (rs1 rs2 : Reg) (imm2 : BitVec 2) : Word :=
  truncX s.cfg (readX s rs1 + indexValue s k rs2 <<< imm2.toNat)

/-- The increment `sext_XLEN(imm5) << imm2` (43 R260). -/
def increment (imm5 : BitVec 5) (imm2 : BitVec 2) : Word := imm5.signExtend 64 <<< imm2.toNat

/-- The new base of an increment form (43 R260). -/
def newBase (s : State) (rs1 : Reg) (imm5 : BitVec 5) (imm2 : BitVec 2) : Word :=
  truncX s.cfg (readX s rs1 + increment imm5 imm2)

/-- Increment after or before the access (43 R260). -/
inductive When where
  | after
  | before
  deriving DecidableEq, Repr

/-- The address of an increment form's access: the old base or the new one (43 R260). -/
def incAddr (s : State) (t : When) (rs1 : Reg) (imm5 : BitVec 5) (imm2 : BitVec 2) : Word :=
  match t with
  | .after => readX s rs1
  | .before => newBase s rs1 imm5 imm2

/-- The address of a pair's first element: `x[rs1] + (zext(imm2) << k)`, `k` = 4 for 8-byte and 3 for
4-byte elements, that is `imm2` times the size of the pair (45 R340). -/
def pairAddr (s : State) (n : Nat) (rs1 : Reg) (imm2 : BitVec 2) : Word :=
  truncX s.cfg (readX s rs1 + BitVec.ofNat 64 (2 * n * imm2.toNat))

/-- The address of a pair's second element. -/
def pairAddr2 (s : State) (n : Nat) (rs1 : Reg) (imm2 : BitVec 2) : Word :=
  truncX s.cfg (pairAddr s n rs1 imm2 + BitVec.ofNat 64 n)

/-! ## The set/way operand (40 R172) -/

/-- `v[3:1]`, the cache level. -/
def setWayLevel (v : Word) : Nat := (v.extractLsb' 1 3).toNat

/-- The cache of a level: 0 is `DC[h]`, 1 is `L2`; no other level selects anything. -/
def setWayCache (v : Word) : Option CacheId :=
  match setWayLevel v with
  | 0 => some .dc
  | 1 => some .l2
  | _ => none

/-- `v[31:32-w]`, the way. -/
def setWayWay (g : CacheGeom) (v : Word) : Nat := v.toNat % 2 ^ 32 / 2 ^ (32 - g.w)

/-- `v[l+s-1:l]`, the set. -/
def setWaySet (g : CacheGeom) (v : Word) : Nat := v.toNat / 2 ^ g.l % 2 ^ g.s

/-- The reserved bits are zero: `v[XLEN-1:32]`, `v[31-w:l+s]`, `v[l-1:4]` and `v[0]`; what is left is
the way, the set and the level. -/
def setWayReservedZero (g : CacheGeom) (v : Word) : Bool :=
  v.toNat == setWayWay g v * 2 ^ (32 - g.w) + setWaySet g v * 2 ^ g.l + setWayLevel v * 2

end Sys2Proof.Machine
end

