-- ==== Sys2Proof/Machine/Alu.lean ====
section
/-! DEFINITION. The values the register-to-register instructions compute, at width `XLEN`. -/

namespace Sys2Proof.Machine

/-- `a + (b << imm2)` (42 R231). The write truncates it to `XLEN`. -/
def addslValue (a b : Word) (imm2 : BitVec 2) : Word := a + b <<< imm2.toNat

/-- `ror_XLEN(a, s)`, `s` being the low log2(`XLEN`) bits of `imm6` (42 R232). -/
def srriValue (c : Config) (a : Word) (imm6 : BitVec 6) : Word :=
  atXlen c (fun v => v.rotateRight (imm6.toNat % 32)) (fun v => v.rotateRight imm6.toNat) a

/-- `sext(ror_32(a[31:0], imm5))` (42 R233). -/
def srriwValue (c : Config) (a : Word) (imm5 : BitVec 5) : Word :=
  sextX c ((a.setWidth 32).rotateRight imm5.toNat)

/-- The field `a[hi:lo]` (42 R234). -/
def fieldOf (a : Word) (hi lo : BitVec 6) : BitVec (hi.toNat + 1 - lo.toNat) :=
  a.extractLsb' lo.toNat (hi.toNat + 1 - lo.toNat)

/-- How many of the bits `n-1`, `n-2`, … 0 of a value, from the top, equal `b` before one differs. -/
def leadingRun (v : Word) (b : Bool) : Nat → Nat
  | 0 => 0
  | k + 1 => if v.getLsbD k = b then leadingRun v b k + 1 else 0

/-- The number of leading 1 bits, `XLEN` if all are 1 (42 R236). -/
def ff0Value (c : Config) (a : Word) : Word := BitVec.ofNat 64 (leadingRun a true (xlenBits c))

/-- The number of leading 0 bits, `XLEN` if all are 0 (42 R237). -/
def ff1Value (c : Config) (a : Word) : Word := BitVec.ofNat 64 (leadingRun a false (xlenBits c))

/-- The lowest `n` bytes of a value in reverse order (42 R238). -/
def reverseBytes (n : Nat) (a : Word) : Word := leValue (leBytes n a).reverse

/-- All `XLEN`/8 bytes reversed (42 R238). -/
def revValue (c : Config) (a : Word) : Word := reverseBytes (xlenBits c / 8) a

/-- The low word's bytes reversed, sign-extended (42 R239, decision D13). -/
def revwValue (c : Config) (a : Word) : Word := sextX c ((reverseBytes 4 a).setWidth 32)

/-- 0xff for each byte that is zero, 0x00 for each other (42 R240). -/
def tstnbzValue (c : Config) (a : Word) : Word :=
  leValue ((leBytes (xlenBits c / 8) a).map fun b => if b = 0#8 then 0xff#8 else 0#8)

/-- Bit `imm6` of a value as 0 or 1 (42 R241). -/
def tstValue (a : Word) (imm6 : BitVec 6) : Word :=
  (BitVec.ofBool (a.getLsbD imm6.toNat)).setWidth 64

/-- Add to the accumulator or subtract from it (47 R380). -/
inductive AccOp where
  | add
  | sub
  deriving DecidableEq, Repr

/-- The accumulator after a product. -/
def accumulate {w : Nat} (op : AccOp) (acc product : BitVec w) : BitVec w :=
  match op with
  | .add => acc + product
  | .sub => acc - product

/-- The whole-register forms, modulo 2^`XLEN` (47 R381, R384). The write truncates to `XLEN`. -/
def macValue (op : AccOp) (acc a b : Word) : Word := accumulate op acc (a * b)

/-- The word forms, modulo 2^32, then sign-extended (47 R383, R386). -/
def macwValue (c : Config) (op : AccOp) (acc a b : Word) : Word :=
  sextX c (accumulate op (acc.setWidth 32) (a.setWidth 32 * b.setWidth 32))

/-- The halfword forms: signed 16-bit factors, modulo 2^32, then sign-extended (47 R382, R385). -/
def machValue (c : Config) (op : AccOp) (acc a b : Word) : Word :=
  sextX c (accumulate op (acc.setWidth 32)
    ((a.setWidth 16).signExtend 32 * (b.setWidth 16).signExtend 32))

end Sys2Proof.Machine
end

