-- ==== Sys2Proof/Machine/Available.lean ====
section
/-! DEFINITION. Which instructions a configuration has: by extension and its enable bit (00 R9), by
`XLEN` (00 R7) and by floating-point width (00 R8). An instruction that is not available is an unlisted
encoding (30 R141). -/

namespace Sys2Proof.Machine

/-- `enabled(ext)` (00 R9; decision D9). -/
def enabled (s : State) (e : Ext) : Bool :=
  s.cfg.ext.contains e && (!s.cfg.theadisaeeGated || s.mxstatus.theadisaee)

/-- `XLEN` = 64. -/
def isRv64 (c : Config) : Bool := c.xlen == .rv64

/-- The instruction is one of the machine's, now. -/
def available (s : State) : Instr → Bool
  | .dcacheCall => enabled s .xTheadCmo
  | .dcacheCiall => enabled s .xTheadCmo
  | .dcacheIall => enabled s .xTheadCmo
  | .dcacheCpa _ => enabled s .xTheadCmo
  | .dcacheCipa _ => enabled s .xTheadCmo
  | .dcacheIpa _ => enabled s .xTheadCmo
  | .dcacheCva _ => enabled s .xTheadCmo
  | .dcacheCiva _ => enabled s .xTheadCmo
  | .dcacheIva _ => enabled s .xTheadCmo
  | .dcacheCsw _ => enabled s .xTheadCmo
  | .dcacheCisw _ => enabled s .xTheadCmo
  | .dcacheIsw _ => enabled s .xTheadCmo
  | .dcacheCpal1 _ => enabled s .xTheadCmo
  | .dcacheCval1 _ => enabled s .xTheadCmo
  | .icacheIall => enabled s .xTheadCmo
  | .icacheIalls => enabled s .xTheadCmo
  | .icacheIpa _ => enabled s .xTheadCmo
  | .icacheIva _ => enabled s .xTheadCmo
  | .l2cacheCall => enabled s .xTheadCmo
  | .l2cacheCiall => enabled s .xTheadCmo
  | .l2cacheIall => enabled s .xTheadCmo
  | .sfenceVmas _ _ => enabled s .xTheadSync
  | .sync => enabled s .xTheadSync
  | .syncS => enabled s .xTheadSync
  | .syncI => enabled s .xTheadSync
  | .syncIs => enabled s .xTheadSync
  | .addsl _ _ _ _ => enabled s .xTheadBa
  | .srri _ _ _ => enabled s .xTheadBb
  | .srriw _ _ _ => enabled s .xTheadBb && isRv64 s.cfg
  | .ext _ _ _ _ => enabled s .xTheadBb
  | .extu _ _ _ _ => enabled s .xTheadBb
  | .ff0 _ _ => enabled s .xTheadBb
  | .ff1 _ _ => enabled s .xTheadBb
  | .rev _ _ => enabled s .xTheadBb
  | .revw _ _ => enabled s .xTheadBb && isRv64 s.cfg
  | .tstnbz _ _ => enabled s .xTheadBb
  | .tst _ _ _ => enabled s .xTheadBs
  | .mveqz _ _ _ => enabled s .xTheadCondMov
  | .mvnez _ _ _ => enabled s .xTheadCondMov
  | .lbia _ _ _ _ => enabled s .xTheadMemIdx
  | .lbib _ _ _ _ => enabled s .xTheadMemIdx
  | .lbuia _ _ _ _ => enabled s .xTheadMemIdx
  | .lbuib _ _ _ _ => enabled s .xTheadMemIdx
  | .lhia _ _ _ _ => enabled s .xTheadMemIdx
  | .lhib _ _ _ _ => enabled s .xTheadMemIdx
  | .lhuia _ _ _ _ => enabled s .xTheadMemIdx
  | .lhuib _ _ _ _ => enabled s .xTheadMemIdx
  | .lwia _ _ _ _ => enabled s .xTheadMemIdx
  | .lwib _ _ _ _ => enabled s .xTheadMemIdx
  | .lwuia _ _ _ _ => enabled s .xTheadMemIdx && isRv64 s.cfg
  | .lwuib _ _ _ _ => enabled s .xTheadMemIdx && isRv64 s.cfg
  | .ldia _ _ _ _ => enabled s .xTheadMemIdx && isRv64 s.cfg
  | .ldib _ _ _ _ => enabled s .xTheadMemIdx && isRv64 s.cfg
  | .sbia _ _ _ _ => enabled s .xTheadMemIdx
  | .sbib _ _ _ _ => enabled s .xTheadMemIdx
  | .shia _ _ _ _ => enabled s .xTheadMemIdx
  | .shib _ _ _ _ => enabled s .xTheadMemIdx
  | .swia _ _ _ _ => enabled s .xTheadMemIdx
  | .swib _ _ _ _ => enabled s .xTheadMemIdx
  | .sdia _ _ _ _ => enabled s .xTheadMemIdx && isRv64 s.cfg
  | .sdib _ _ _ _ => enabled s .xTheadMemIdx && isRv64 s.cfg
  | .lrb _ _ _ _ => enabled s .xTheadMemIdx
  | .lrbu _ _ _ _ => enabled s .xTheadMemIdx
  | .lrh _ _ _ _ => enabled s .xTheadMemIdx
  | .lrhu _ _ _ _ => enabled s .xTheadMemIdx
  | .lrw _ _ _ _ => enabled s .xTheadMemIdx
  | .lrwu _ _ _ _ => enabled s .xTheadMemIdx && isRv64 s.cfg
  | .lrd _ _ _ _ => enabled s .xTheadMemIdx && isRv64 s.cfg
  | .srb _ _ _ _ => enabled s .xTheadMemIdx
  | .srh _ _ _ _ => enabled s .xTheadMemIdx
  | .srw _ _ _ _ => enabled s .xTheadMemIdx
  | .srd _ _ _ _ => enabled s .xTheadMemIdx && isRv64 s.cfg
  | .lurb _ _ _ _ => enabled s .xTheadMemIdx && isRv64 s.cfg
  | .lurbu _ _ _ _ => enabled s .xTheadMemIdx && isRv64 s.cfg
  | .lurh _ _ _ _ => enabled s .xTheadMemIdx && isRv64 s.cfg
  | .lurhu _ _ _ _ => enabled s .xTheadMemIdx && isRv64 s.cfg
  | .lurw _ _ _ _ => enabled s .xTheadMemIdx && isRv64 s.cfg
  | .lurwu _ _ _ _ => enabled s .xTheadMemIdx && isRv64 s.cfg
  | .lurd _ _ _ _ => enabled s .xTheadMemIdx && isRv64 s.cfg
  | .surb _ _ _ _ => enabled s .xTheadMemIdx && isRv64 s.cfg
  | .surh _ _ _ _ => enabled s .xTheadMemIdx && isRv64 s.cfg
  | .surw _ _ _ _ => enabled s .xTheadMemIdx && isRv64 s.cfg
  | .surd _ _ _ _ => enabled s .xTheadMemIdx && isRv64 s.cfg
  | .ldd _ _ _ _ => enabled s .xTheadMemPair && isRv64 s.cfg
  | .lwd _ _ _ _ => enabled s .xTheadMemPair
  | .lwud _ _ _ _ => enabled s .xTheadMemPair
  | .sdd _ _ _ _ => enabled s .xTheadMemPair && isRv64 s.cfg
  | .swd _ _ _ _ => enabled s .xTheadMemPair
  | .flrd _ _ _ _ => enabled s .xTheadFMemIdx && s.cfg.hasD
  | .flrw _ _ _ _ => enabled s .xTheadFMemIdx && s.cfg.hasF
  | .flurd _ _ _ _ => enabled s .xTheadFMemIdx && (isRv64 s.cfg || s.cfg.fmemidxUOnRv32) && s.cfg.hasD
  | .flurw _ _ _ _ => enabled s .xTheadFMemIdx && (isRv64 s.cfg || s.cfg.fmemidxUOnRv32) && s.cfg.hasF
  | .fsrd _ _ _ _ => enabled s .xTheadFMemIdx && s.cfg.hasD
  | .fsrw _ _ _ _ => enabled s .xTheadFMemIdx && s.cfg.hasF
  | .fsurd _ _ _ _ => enabled s .xTheadFMemIdx && (isRv64 s.cfg || s.cfg.fmemidxUOnRv32) && s.cfg.hasD
  | .fsurw _ _ _ _ => enabled s .xTheadFMemIdx && (isRv64 s.cfg || s.cfg.fmemidxUOnRv32) && s.cfg.hasF
  | .mula _ _ _ => enabled s .xTheadMac
  | .mulah _ _ _ => enabled s .xTheadMac
  | .mulaw _ _ _ => enabled s .xTheadMac && isRv64 s.cfg
  | .muls _ _ _ => enabled s .xTheadMac
  | .mulsh _ _ _ => enabled s .xTheadMac
  | .mulsw _ _ _ => enabled s .xTheadMac && (isRv64 s.cfg || s.cfg.mulswOnRv32)
  | .fmvXHw _ _ => enabled s .xTheadFmv && !isRv64 s.cfg && s.cfg.hasD
  | .fmvHwX _ _ => enabled s .xTheadFmv && !isRv64 s.cfg && s.cfg.hasD
  | .ipush => enabled s .xTheadInt
  | .ipop => enabled s .xTheadInt
  | .vmaqaVv _ _ _ _ => enabled s .xTheadVdot
  | .vmaqaVx _ _ _ _ => enabled s .xTheadVdot
  | .vmaqauVv _ _ _ _ => enabled s .xTheadVdot
  | .vmaqauVx _ _ _ _ => enabled s .xTheadVdot
  | .vmaqasuVv _ _ _ _ => enabled s .xTheadVdot
  | .vmaqasuVx _ _ _ _ => enabled s .xTheadVdot
  | .vmaqausVx _ _ _ _ => enabled s .xTheadVdot

end Sys2Proof.Machine
end

