-- ==== Sys2Proof/Machine/BitManip.lean ====
section
/-! DEFINITION. XTheadBa, XTheadBb, XTheadBs and XTheadCondMov (spec/42_xtheadba_bb_bs_condmov.md): register
arithmetic. Each reads its sources, then writes `rd` (42 R230). -/

namespace Sys2Proof.Machine

/-- An arithmetic instruction: `x[rd] <- v`, `pc <- pc + 4`. -/
def execArith (i : Instr) (rd : Reg) (v : Word) (s : State) : Result :=
  requireLegal s i (available s i) (finishX s rd v)

/-- A bit index names a bit of an `XLEN`-bit register (30 R144, decision D15). -/
def indexOk (c : Config) (k : BitVec 6) : Bool := decide (k.toNat < xlenBits c)

/-- A bit-field extraction: the two reserved cases are refused (42 R234, decisions D14, D15). -/
def execExtract (i : Instr) (rd : Reg) (imm1 imm2 : BitVec 6) (v : Word) (s : State) : Result :=
  requireLegal s i (available s i)
    (if !fieldOk imm1 imm2 then .refused .reservedField
     else if !indexOk s.cfg imm1 then .refused .reservedBitIndex
     else finishX s rd v)

/-- A conditional move: `rd` is written only when the condition holds (42 R242). -/
def execMove (i : Instr) (rd rs1 : Reg) (cond : Bool) (s : State) : Result :=
  requireLegal s i (available s i)
    (if cond then finishX s rd (readX s rs1) else .next (advance s))

/-- `th.addsl` (42 R231). -/
def execAddsl (rd rs1 rs2 : Reg) (imm2 : BitVec 2) (s : State) : Result :=
  execArith (.addsl rd rs1 rs2 imm2) rd (addslValue (readX s rs1) (readX s rs2) imm2) s

/-- `th.srri` (42 R232). -/
def execSrri (rd rs1 : Reg) (imm6 : BitVec 6) (s : State) : Result :=
  execArith (.srri rd rs1 imm6) rd (srriValue s.cfg (readX s rs1) imm6) s

/-- `th.srriw` (42 R233). -/
def execSrriw (rd rs1 : Reg) (imm5 : BitVec 5) (s : State) : Result :=
  execArith (.srriw rd rs1 imm5) rd (srriwValue s.cfg (readX s rs1) imm5) s

/-- `th.ext` (42 R234). -/
def execExt (rd rs1 : Reg) (imm1 imm2 : BitVec 6) (s : State) : Result :=
  execExtract (.ext rd rs1 imm1 imm2) rd imm1 imm2
    (sextX s.cfg (fieldOf (readX s rs1) imm1 imm2)) s

/-- `th.extu` (42 R235). -/
def execExtu (rd rs1 : Reg) (imm1 imm2 : BitVec 6) (s : State) : Result :=
  execExtract (.extu rd rs1 imm1 imm2) rd imm1 imm2
    (zextX s.cfg (fieldOf (readX s rs1) imm1 imm2)) s

/-- `th.ff0` (42 R236). -/
def execFf0 (rd rs1 : Reg) (s : State) : Result :=
  execArith (.ff0 rd rs1) rd (ff0Value s.cfg (readX s rs1)) s

/-- `th.ff1` (42 R237). -/
def execFf1 (rd rs1 : Reg) (s : State) : Result :=
  execArith (.ff1 rd rs1) rd (ff1Value s.cfg (readX s rs1)) s

/-- `th.rev` (42 R238). -/
def execRev (rd rs1 : Reg) (s : State) : Result :=
  execArith (.rev rd rs1) rd (revValue s.cfg (readX s rs1)) s

/-- `th.revw` (42 R239). -/
def execRevw (rd rs1 : Reg) (s : State) : Result :=
  execArith (.revw rd rs1) rd (revwValue s.cfg (readX s rs1)) s

/-- `th.tstnbz` (42 R240). -/
def execTstnbz (rd rs1 : Reg) (s : State) : Result :=
  execArith (.tstnbz rd rs1) rd (tstnbzValue s.cfg (readX s rs1)) s

/-- `th.tst` (42 R241). -/
def execTst (rd rs1 : Reg) (imm6 : BitVec 6) (s : State) : Result :=
  requireLegal s (.tst rd rs1 imm6) (available s (.tst rd rs1 imm6))
    (if !indexOk s.cfg imm6 then .refused .reservedBitIndex
     else finishX s rd (tstValue (readX s rs1) imm6))

/-- `th.mveqz` (42 R242). -/
def execMveqz (rd rs1 rs2 : Reg) (s : State) : Result :=
  execMove (.mveqz rd rs1 rs2) rd rs1 (readX s rs2 == 0) s

/-- `th.mvnez` (42 R243). -/
def execMvnez (rd rs1 rs2 : Reg) (s : State) : Result :=
  execMove (.mvnez rd rs1 rs2) rd rs1 (readX s rs2 != 0) s

end Sys2Proof.Machine
end

