-- ==== Sys2Proof/Machine/Cmo.lean ====
section
/-! DEFINITION. XTheadCmo (spec/40_xtheadcmo.md): the permission check, then the no-op of missing hardware, then
clean, invalidate, or both, on the lines selected (40 R170, R171). -/

namespace Sys2Proof.Machine

/-- Eighteen of the instructions, above U only (40 R174). -/
def aboveU (s : State) : Bool := s.priv != .u

/-- The other three, in U mode too unless the `ucme` gate is closed (40 R174; 00 R10). -/
def uModeOk (s : State) : Bool := s.priv != .u || !s.cfg.ucmeGated || s.mxstatus.ucme

/-- A cache instruction: the permission first (decision D11), then the hardware it needs (40 R170). -/
def execCmo (i : Instr) (permitted hardware : Bool) (s : State) (run : Result) : Result :=
  requireLegal s i (available s i && permitted) (if hardware then run else .next (advance s))

/-- A cache operation and `pc <- pc + 4`. -/
def finishCache (op : CacheOp) (s : State) (c : CacheId) (as : List Nat) : Result :=
  .next (advance (cacheOp op s c as))

/-- An operation on the line of the D-cache that contains a physical address and, with
`DCACHE_OPS_REACH_L2`, then on that of `L2` (20 R97, decision D34; notes/assumptions/26.md). -/
def dcacheAtPa (op : CacheOp) (s : State) (pa : Nat) : State :=
  let s' := cacheOp op s .dc (lineAt s .dc pa)
  if s.cfg.dcacheOpsReachL2 then cacheOp op s' .l2 (lineAt s .l2 pa) else s'

/-- A physical-address operand: the register's value, refused beyond `PALEN` (40 R173; 93 U9). -/
def withPa (s : State) (rs1 : Reg) (k : Nat → Result) : Result :=
  if (readX s rs1).toNat < 2 ^ s.cfg.palen then k (readX s rs1).toNat else .refused .paTooWide

/-- The hardware requirement "MMU" of a `va` instruction, as `VA_OPS_WITHOUT_MMU` reads it (40 R173). -/
def mmuForVa (c : Config) : Bool := c.hasMmu || c.vaOpsWithoutMmu == .identity

/-- A virtual-address operand: without a translation no line is selected (40 R173, decision D35). -/
def withVa (s : State) (rs1 : Reg) (k : Nat → Result) : Result :=
  match translateForCache s (readX s rs1) with
  | some pa => k pa
  | none => .next (advance s)

/-- A set/way instruction (40 R172): a level without a cache selects nothing; a reserved bit that is set
is refused. -/
def execSetWay (i : Instr) (op : CacheOp) (rs1 : Reg) (s : State) : Result :=
  execCmo i (aboveU s) s.cfg.hasDCache s
    (match setWayCache (readX s rs1) with
     | none => .next (advance s)
     | some c =>
       if !cachePresent s.cfg c then .next (advance s)
       else if !setWayReservedZero (cacheGeom s.cfg c) (readX s rs1) then .refused .setWayReserved
       else finishCache op s c (lineAtSetWay s c (setWaySet (cacheGeom s.cfg c) (readX s rs1))
         (setWayWay (cacheGeom s.cfg c) (readX s rs1))))

/-- The hardware requirement of the `L2` instructions: "D/I-cache, 2nd level cache" (40 R170). -/
def l2Hardware (c : Config) : Bool := (c.hasDCache || c.hasICache) && c.hasL2

/-- One more broadcast of this hart on its way to every other hart (41 R211). -/
def broadcast (s : State) (b : Broadcast) : State :=
  { s with others := s.others.map fun h => { h with pending := h.pending ++ [⟨s.mhartid, b⟩] } }

/-- `th.dcache.call` (40 R175). -/
def execDcacheCall (s : State) : Result :=
  execCmo .dcacheCall (aboveU s) s.cfg.hasDCache s (finishCache .clean s .dc (allLines s .dc))

/-- `th.dcache.ciall` (40 R176). -/
def execDcacheCiall (s : State) : Result :=
  execCmo .dcacheCiall (aboveU s) s.cfg.hasDCache s (finishCache .cleanInvalidate s .dc (allLines s .dc))

/-- `th.dcache.iall` (40 R177). -/
def execDcacheIall (s : State) : Result :=
  execCmo .dcacheIall (aboveU s) s.cfg.hasDCache s (finishCache .invalidate s .dc (allLines s .dc))

/-- `th.dcache.cpa` (40 R178). -/
def execDcacheCpa (rs1 : Reg) (s : State) : Result :=
  execCmo (.dcacheCpa rs1) (aboveU s) s.cfg.hasDCache s
    (withPa s rs1 fun pa => .next (advance (dcacheAtPa .clean s pa)))

/-- `th.dcache.cipa` (40 R179). -/
def execDcacheCipa (rs1 : Reg) (s : State) : Result :=
  execCmo (.dcacheCipa rs1) (aboveU s) s.cfg.hasDCache s
    (withPa s rs1 fun pa => .next (advance (dcacheAtPa .cleanInvalidate s pa)))

/-- `th.dcache.ipa` (40 R180). -/
def execDcacheIpa (rs1 : Reg) (s : State) : Result :=
  execCmo (.dcacheIpa rs1) (aboveU s) s.cfg.hasDCache s
    (withPa s rs1 fun pa => .next (advance (dcacheAtPa .invalidate s pa)))

/-- `th.dcache.cva` (40 R181). -/
def execDcacheCva (rs1 : Reg) (s : State) : Result :=
  execCmo (.dcacheCva rs1) (aboveU s) (s.cfg.hasDCache && mmuForVa s.cfg) s
    (withVa s rs1 fun pa => .next (advance (dcacheAtPa .clean s pa)))

/-- `th.dcache.civa` (40 R182). -/
def execDcacheCiva (rs1 : Reg) (s : State) : Result :=
  execCmo (.dcacheCiva rs1) (uModeOk s) (s.cfg.hasDCache && mmuForVa s.cfg) s
    (withVa s rs1 fun pa => .next (advance (dcacheAtPa .cleanInvalidate s pa)))

/-- `th.dcache.iva` (40 R183). -/
def execDcacheIva (rs1 : Reg) (s : State) : Result :=
  execCmo (.dcacheIva rs1) (aboveU s) (s.cfg.hasDCache && mmuForVa s.cfg) s
    (withVa s rs1 fun pa => .next (advance (dcacheAtPa .invalidate s pa)))

/-- `th.dcache.csw` (40 R184). -/
def execDcacheCsw (rs1 : Reg) (s : State) : Result :=
  execSetWay (.dcacheCsw rs1) .clean rs1 s

/-- `th.dcache.cisw` (40 R185). -/
def execDcacheCisw (rs1 : Reg) (s : State) : Result :=
  execSetWay (.dcacheCisw rs1) .cleanInvalidate rs1 s

/-- `th.dcache.isw` (40 R186). -/
def execDcacheIsw (rs1 : Reg) (s : State) : Result :=
  execSetWay (.dcacheIsw rs1) .invalidate rs1 s

/-- `th.dcache.cpal1` (40 R187). -/
def execDcacheCpal1 (rs1 : Reg) (s : State) : Result :=
  execCmo (.dcacheCpal1 rs1) (aboveU s) (s.cfg.hasDCache && s.cfg.hasL2) s
    (withPa s rs1 fun pa => finishCache .clean s .dc (lineAt s .dc pa))

/-- `th.dcache.cval1` (40 R188). -/
def execDcacheCval1 (rs1 : Reg) (s : State) : Result :=
  execCmo (.dcacheCval1 rs1) (uModeOk s) (s.cfg.hasDCache && s.cfg.hasL2 && mmuForVa s.cfg) s
    (withVa s rs1 fun pa => finishCache .clean s .dc (lineAt s .dc pa))

/-- `th.icache.iall` (40 R189). -/
def execIcacheIall (s : State) : Result :=
  execCmo .icacheIall (aboveU s) s.cfg.hasICache s (finishCache .invalidate s .ic (allLines s .ic))

/-- `th.icache.ialls` (40 R190, 41 R211). -/
def execIcacheIalls (s : State) : Result :=
  execCmo .icacheIalls (aboveU s) (s.cfg.hasICache && s.cfg.multicore) s
    (finishCache .invalidate (broadcast s .invalidateICache) .ic (allLines s .ic))

/-- `th.icache.ipa` (40 R191). -/
def execIcacheIpa (rs1 : Reg) (s : State) : Result :=
  execCmo (.icacheIpa rs1) (aboveU s) s.cfg.hasICache s
    (withPa s rs1 fun pa => finishCache .invalidate s .ic (lineAt s .ic pa))

/-- `th.icache.iva` (40 R192). -/
def execIcacheIva (rs1 : Reg) (s : State) : Result :=
  execCmo (.icacheIva rs1) (uModeOk s) (s.cfg.hasICache && mmuForVa s.cfg) s
    (withVa s rs1 fun pa => finishCache .invalidate s .ic (lineAt s .ic pa))

/-- `th.l2cache.call` (40 R193). -/
def execL2cacheCall (s : State) : Result :=
  execCmo .l2cacheCall (aboveU s) (l2Hardware s.cfg) s
    (finishCache .clean s .l2 (allLines s .l2))

/-- `th.l2cache.ciall` (40 R194). -/
def execL2cacheCiall (s : State) : Result :=
  execCmo .l2cacheCiall (aboveU s) (l2Hardware s.cfg) s
    (finishCache .cleanInvalidate s .l2 (allLines s .l2))

/-- `th.l2cache.iall` (40 R195). -/
def execL2cacheIall (s : State) : Result :=
  execCmo .l2cacheIall (aboveU s) (l2Hardware s.cfg) s
    (finishCache .invalidate s .l2 (allLines s .l2))

end Sys2Proof.Machine
end

