-- ==== Sys2Proof/Machine/FMemIdx.lean ====
section
/-! DEFINITION. XTheadFMemIdx (spec/46_xtheadfmemidx.md) and the floating-point unit's enable field (10 R40,
decision D28). -/

namespace Sys2Proof.Machine

/-- With `FS_GATED` an instruction that touches a floating-point register needs the unit on (10 R40). -/
def fpOn (s : State) : Bool := !s.cfg.fsGated || !unitOff s.mstatus.fs

/-- With `FS_GATED` a write of a floating-point register makes the unit Dirty (10 R40). -/
def markFpDirty (s : State) : State :=
  if s.cfg.fsGated then { s with mstatus := { s.mstatus with fs := unitDirty } } else s

/-- A floating-point load of 8 bytes, or of 4 one-extended into a 64-bit register (46 R368, R370, R371). -/
def execFload (i : Instr) (k : Index) (n : Nat) (rd rs1 rs2 : Reg) (imm2 : BitVec 2) (s : State) :
    Result :=
  requireLegal s i (available s i && fpOn s)
    (withLoad s (indexedAddr s k rs1 rs2 imm2) n fun s' v =>
      .next (advance (markFpDirty (writeF s' rd (if n = 4 then onesF s.cfg v else v)))))

/-- A floating-point store of the low bytes of the register (46 R368, R370, R371). -/
def execFstore (i : Instr) (k : Index) (n : Nat) (rd rs1 rs2 : Reg) (imm2 : BitVec 2) (s : State) :
    Result :=
  requireLegal s i (available s i && fpOn s)
    (withStores s [⟨indexedAddr s k rs1 rs2 imm2, n, readF s rd⟩] fun s' => .next (advance s'))

/-- `th.flrd` (46 R360). -/
def execFlrd (rd rs1 rs2 : Reg) (imm2 : BitVec 2) (s : State) : Result :=
  execFload (.flrd rd rs1 rs2 imm2) .whole 8 rd rs1 rs2 imm2 s

/-- `th.flrw` (46 R361). -/
def execFlrw (rd rs1 rs2 : Reg) (imm2 : BitVec 2) (s : State) : Result :=
  execFload (.flrw rd rs1 rs2 imm2) .whole 4 rd rs1 rs2 imm2 s

/-- `th.flurd` (46 R362). -/
def execFlurd (rd rs1 rs2 : Reg) (imm2 : BitVec 2) (s : State) : Result :=
  execFload (.flurd rd rs1 rs2 imm2) .low32 8 rd rs1 rs2 imm2 s

/-- `th.flurw` (46 R363). -/
def execFlurw (rd rs1 rs2 : Reg) (imm2 : BitVec 2) (s : State) : Result :=
  execFload (.flurw rd rs1 rs2 imm2) .low32 4 rd rs1 rs2 imm2 s

/-- `th.fsrd` (46 R364). -/
def execFsrd (rd rs1 rs2 : Reg) (imm2 : BitVec 2) (s : State) : Result :=
  execFstore (.fsrd rd rs1 rs2 imm2) .whole 8 rd rs1 rs2 imm2 s

/-- `th.fsrw` (46 R365). -/
def execFsrw (rd rs1 rs2 : Reg) (imm2 : BitVec 2) (s : State) : Result :=
  execFstore (.fsrw rd rs1 rs2 imm2) .whole 4 rd rs1 rs2 imm2 s

/-- `th.fsurd` (46 R366). -/
def execFsurd (rd rs1 rs2 : Reg) (imm2 : BitVec 2) (s : State) : Result :=
  execFstore (.fsurd rd rs1 rs2 imm2) .low32 8 rd rs1 rs2 imm2 s

/-- `th.fsurw` (46 R367). -/
def execFsurw (rd rs1 rs2 : Reg) (imm2 : BitVec 2) (s : State) : Result :=
  execFstore (.fsurw rd rs1 rs2 imm2) .low32 4 rd rs1 rs2 imm2 s

end Sys2Proof.Machine
end

