-- ==== Sys2Proof/Machine/Fmv.lean ====
section
/-! DEFINITION. XTheadFmv (spec/48_xtheadfmv_int.md): the upper half of a 64-bit floating-point register, on
RV32. -/

namespace Sys2Proof.Machine

/-- `th.fmv.x.hw` (48 R400). -/
def execFmvXHw (rd fs1 : Reg) (s : State) : Result :=
  requireLegal s (.fmvXHw rd fs1) (available s (.fmvXHw rd fs1) && fpOn s)
    (finishX s rd (readF s fs1 >>> 32))

/-- The floating-point and the integer register of `th.fmv.hw.x`, given `insn[11:7]` and `insn[19:15]`:
as printed, or exchanged by `FMV_HW_X_SWAPPED` (48 R401, decision D31). -/
def fmvHwXRegs (c : Config) (rd fs1 : Reg) : Reg × Reg :=
  if c.fmvHwXSwapped then (rd, fs1) else (fs1, rd)

/-- `th.fmv.hw.x` (48 R401). -/
def execFmvHwX (rd fs1 : Reg) (s : State) : Result :=
  let (fr, xr) := fmvHwXRegs s.cfg rd fs1
  requireLegal s (.fmvHwX rd fs1) (available s (.fmvHwX rd fs1) && fpOn s)
    (.next (advance (markFpDirty
      (writeF s fr ((readX s xr).setWidth 32 ++ (readF s fr).setWidth 32)))))

end Sys2Proof.Machine
end

