-- ==== Sys2Proof/Machine/IntStack.lean ====
section
/-! DEFINITION. XTheadInt (spec/48_xtheadfmv_int.md): the interrupt stack frame of 18 four-byte slots. -/

namespace Sys2Proof.Machine

/-- The sixteen registers of the frame, items 2 to 17 (48 R403). -/
def frameRegs : List Reg := [1, 5, 6, 7, 10, 11, 12, 13, 14, 15, 16, 17, 28, 29, 30, 31]

/-- The slot of item `k`, given the value of `int_sp` above the frame: four bytes below it and down
(48 R403, decision D18). -/
def slotAddr (s : State) (top : Word) (k : Nat) : Word :=
  truncX s.cfg (top - BitVec.ofNat 64 (4 + 4 * k))

/-- The 18 items: `mcause`, `mepc`, then the sixteen registers (48 R403). -/
def frameItems (s : State) : List Word :=
  truncX s.cfg s.mcause :: readMepc s :: frameRegs.map (readX s)

/-- The stores of a push: item `k` in its slot, `k` counted from `k0`. -/
def frameStores (s : State) (top : Word) : Nat → List Word → List Req
  | _, [] => []
  | k, v :: rest => ⟨slotAddr s top k, 4, v⟩ :: frameStores s top (k + 1) rest

/-- The loads of a pop, in the same order. -/
def frameLoads (s : State) (top : Word) : List Req :=
  (List.range 18).map fun k => ⟨slotAddr s top k, 4, 0⟩

/-- M mode only (48 R402); on RV64 the effect is defined only under `XTHEADINT_ON_RV64` (decision D19). -/
def execInM (i : Instr) (s : State) (run : Result) : Result :=
  requireLegal s i (available s i && s.priv == .m)
    (if isRv64 s.cfg && !s.cfg.xtheadintOnRv64 then .refused .rv64Frame else run)

/-- `IPUSH_SETS_MIE` (48 R404, decision D23). -/
def pushMie (s : State) : State :=
  if s.cfg.ipushSetsMie then { s with mstatus := { s.mstatus with mie := true } } else s

/-- `th.ipush` (48 R404). -/
def execIpush (s : State) : Result :=
  execInM .ipush s
    (withStores s (frameStores s (readIntSp s) 0 (frameItems s)) fun s' =>
      .next (advance (pushMie (writeIntSp s' (readIntSp s - 72)))))

/-- What a pop does with the 18 loaded values: `mcause` and `mepc` as CSR writes, the sixteen registers,
`int_sp`, and then the return (48 R405, R406). -/
def popFrame (s : State) (vs : List Word) : State :=
  let val (k : Nat) : Word := sextX s.cfg ((vs.getD k 0).setWidth 32)
  let s1 := writeMcause s (val 0)
  let s2 := { s1 with mepc := mepcValue s.cfg (val 1) }
  let s3 := writeXs s2 (frameRegs.zipIdx.map fun (r, j) => (r, val (j + 2)))
  mret (writeIntSp s3 (readIntSp s + 72))

/-- `th.ipop` (48 R405). -/
def execIpop (s : State) : Result :=
  execInM .ipop s
    (withLoads s (frameLoads s (readIntSp s + 72)) fun s' vs => .next (popFrame s' vs))

end Sys2Proof.Machine
end

