-- ==== Sys2Proof/Machine/Mac.lean ====
section
/-! DEFINITION. XTheadMac (spec/47_xtheadmac.md): all three registers are read before `rd` is written (47 R380). -/

namespace Sys2Proof.Machine

/-- A multiply-accumulate: the accumulator `x[rd]` is replaced. -/
def execMac (i : Instr) (rd : Reg) (v : Word) (s : State) : Result :=
  requireLegal s i (available s i) (finishX s rd v)

/-- `th.mula` (47 R381). -/
def execMula (rd rs1 rs2 : Reg) (s : State) : Result :=
  execMac (.mula rd rs1 rs2) rd
    (macValue .add (readX s rd) (readX s rs1) (readX s rs2)) s

/-- `th.mulah` (47 R382). -/
def execMulah (rd rs1 rs2 : Reg) (s : State) : Result :=
  execMac (.mulah rd rs1 rs2) rd
    (machValue s.cfg .add (readX s rd) (readX s rs1) (readX s rs2)) s

/-- `th.mulaw` (47 R383). -/
def execMulaw (rd rs1 rs2 : Reg) (s : State) : Result :=
  execMac (.mulaw rd rs1 rs2) rd
    (macwValue s.cfg .add (readX s rd) (readX s rs1) (readX s rs2)) s

/-- `th.muls` (47 R384). -/
def execMuls (rd rs1 rs2 : Reg) (s : State) : Result :=
  execMac (.muls rd rs1 rs2) rd
    (macValue .sub (readX s rd) (readX s rs1) (readX s rs2)) s

/-- `th.mulsh` (47 R385). -/
def execMulsh (rd rs1 rs2 : Reg) (s : State) : Result :=
  execMac (.mulsh rd rs1 rs2) rd
    (machValue s.cfg .sub (readX s rd) (readX s rs1) (readX s rs2)) s

/-- `th.mulsw` (47 R386). -/
def execMulsw (rd rs1 rs2 : Reg) (s : State) : Result :=
  execMac (.mulsw rd rs1 rs2) rd
    (macwValue s.cfg .sub (readX s rd) (readX s rs1) (readX s rs2)) s

end Sys2Proof.Machine
end

