-- ==== Sys2Proof/Machine/MemIdxInc.lean ====
section
/-! DEFINITION. XTheadMemIdx, the 22 increment forms (spec/43_xtheadmemidx_increment.md). -/

namespace Sys2Proof.Machine

/-- An increment load (43 R260 to R262): `rd` receives the extended value and `rs1` the new base; equal
`rd` and `rs1` are reserved. -/
def execLoadInc (i : Instr) (t : When) (e : Extend) (n : Nat) (rd rs1 : Reg) (imm5 : BitVec 5)
    (imm2 : BitVec 2) (s : State) : Result :=
  requireLegal s i (available s i)
    (if !incLoadOk rd rs1 then .refused .reservedOperands
     else withLoad s (incAddr s t rs1 imm5 imm2) n fun s' v =>
       finishX (writeX s' rd (extendLoad s.cfg e n v)) rs1 (newBase s rs1 imm5 imm2))

/-- The value an increment store stores: `x[rd]`, and for an increment-before form with `rd = rs1` what
`SIB_SAME_REG` says; none is a refusal (43 R261, decision D16). -/
def incStoreValue (s : State) (t : When) (rd rs1 : Reg) (base : Word) : Option Word :=
  match t with
  | .after => some (readX s rd)
  | .before =>
    if rd = rs1 then
      match s.cfg.sibSameReg with
      | .new => some (readX (writeX s rs1 base) rd)
      | .old => some (readX s rd)
      | .refuse => none
    else some (readX s rd)

/-- An increment store (43 R260 to R262). -/
def execStoreInc (i : Instr) (t : When) (n : Nat) (rd rs1 : Reg) (imm5 : BitVec 5)
    (imm2 : BitVec 2) (s : State) : Result :=
  requireLegal s i (available s i)
    (match incStoreValue s t rd rs1 (newBase s rs1 imm5 imm2) with
     | none => .refused .sibSameReg
     | some v => withStores s [⟨incAddr s t rs1 imm5 imm2, n, v⟩] fun s' =>
       finishX s' rs1 (newBase s rs1 imm5 imm2))

/-- `th.lbia` (43 R263). -/
def execLbia (rd rs1 : Reg) (imm5 : BitVec 5) (imm2 : BitVec 2) (s : State) : Result :=
  execLoadInc (.lbia rd rs1 imm5 imm2) .after .sign 1 rd rs1 imm5 imm2 s

/-- `th.lbib` (43 R264). -/
def execLbib (rd rs1 : Reg) (imm5 : BitVec 5) (imm2 : BitVec 2) (s : State) : Result :=
  execLoadInc (.lbib rd rs1 imm5 imm2) .before .sign 1 rd rs1 imm5 imm2 s

/-- `th.lbuia` (43 R265). -/
def execLbuia (rd rs1 : Reg) (imm5 : BitVec 5) (imm2 : BitVec 2) (s : State) : Result :=
  execLoadInc (.lbuia rd rs1 imm5 imm2) .after .zero 1 rd rs1 imm5 imm2 s

/-- `th.lbuib` (43 R266). -/
def execLbuib (rd rs1 : Reg) (imm5 : BitVec 5) (imm2 : BitVec 2) (s : State) : Result :=
  execLoadInc (.lbuib rd rs1 imm5 imm2) .before .zero 1 rd rs1 imm5 imm2 s

/-- `th.lhia` (43 R267). -/
def execLhia (rd rs1 : Reg) (imm5 : BitVec 5) (imm2 : BitVec 2) (s : State) : Result :=
  execLoadInc (.lhia rd rs1 imm5 imm2) .after .sign 2 rd rs1 imm5 imm2 s

/-- `th.lhib` (43 R268). -/
def execLhib (rd rs1 : Reg) (imm5 : BitVec 5) (imm2 : BitVec 2) (s : State) : Result :=
  execLoadInc (.lhib rd rs1 imm5 imm2) .before .sign 2 rd rs1 imm5 imm2 s

/-- `th.lhuia` (43 R269). -/
def execLhuia (rd rs1 : Reg) (imm5 : BitVec 5) (imm2 : BitVec 2) (s : State) : Result :=
  execLoadInc (.lhuia rd rs1 imm5 imm2) .after .zero 2 rd rs1 imm5 imm2 s

/-- `th.lhuib` (43 R270). -/
def execLhuib (rd rs1 : Reg) (imm5 : BitVec 5) (imm2 : BitVec 2) (s : State) : Result :=
  execLoadInc (.lhuib rd rs1 imm5 imm2) .before .zero 2 rd rs1 imm5 imm2 s

/-- `th.lwia` (43 R271). -/
def execLwia (rd rs1 : Reg) (imm5 : BitVec 5) (imm2 : BitVec 2) (s : State) : Result :=
  execLoadInc (.lwia rd rs1 imm5 imm2) .after .sign 4 rd rs1 imm5 imm2 s

/-- `th.lwib` (43 R272). -/
def execLwib (rd rs1 : Reg) (imm5 : BitVec 5) (imm2 : BitVec 2) (s : State) : Result :=
  execLoadInc (.lwib rd rs1 imm5 imm2) .before .sign 4 rd rs1 imm5 imm2 s

/-- `th.lwuia` (43 R273). -/
def execLwuia (rd rs1 : Reg) (imm5 : BitVec 5) (imm2 : BitVec 2) (s : State) : Result :=
  execLoadInc (.lwuia rd rs1 imm5 imm2) .after .zero 4 rd rs1 imm5 imm2 s

/-- `th.lwuib` (43 R274). -/
def execLwuib (rd rs1 : Reg) (imm5 : BitVec 5) (imm2 : BitVec 2) (s : State) : Result :=
  execLoadInc (.lwuib rd rs1 imm5 imm2) .before .zero 4 rd rs1 imm5 imm2 s

/-- `th.ldia` (43 R275). -/
def execLdia (rd rs1 : Reg) (imm5 : BitVec 5) (imm2 : BitVec 2) (s : State) : Result :=
  execLoadInc (.ldia rd rs1 imm5 imm2) .after .sign 8 rd rs1 imm5 imm2 s

/-- `th.ldib` (43 R276). -/
def execLdib (rd rs1 : Reg) (imm5 : BitVec 5) (imm2 : BitVec 2) (s : State) : Result :=
  execLoadInc (.ldib rd rs1 imm5 imm2) .before .sign 8 rd rs1 imm5 imm2 s

/-- `th.sbia` (43 R277). -/
def execSbia (rd rs1 : Reg) (imm5 : BitVec 5) (imm2 : BitVec 2) (s : State) : Result :=
  execStoreInc (.sbia rd rs1 imm5 imm2) .after 1 rd rs1 imm5 imm2 s

/-- `th.sbib` (43 R278). -/
def execSbib (rd rs1 : Reg) (imm5 : BitVec 5) (imm2 : BitVec 2) (s : State) : Result :=
  execStoreInc (.sbib rd rs1 imm5 imm2) .before 1 rd rs1 imm5 imm2 s

/-- `th.shia` (43 R279). -/
def execShia (rd rs1 : Reg) (imm5 : BitVec 5) (imm2 : BitVec 2) (s : State) : Result :=
  execStoreInc (.shia rd rs1 imm5 imm2) .after 2 rd rs1 imm5 imm2 s

/-- `th.shib` (43 R280). -/
def execShib (rd rs1 : Reg) (imm5 : BitVec 5) (imm2 : BitVec 2) (s : State) : Result :=
  execStoreInc (.shib rd rs1 imm5 imm2) .before 2 rd rs1 imm5 imm2 s

/-- `th.swia` (43 R281). -/
def execSwia (rd rs1 : Reg) (imm5 : BitVec 5) (imm2 : BitVec 2) (s : State) : Result :=
  execStoreInc (.swia rd rs1 imm5 imm2) .after 4 rd rs1 imm5 imm2 s

/-- `th.swib` (43 R282). -/
def execSwib (rd rs1 : Reg) (imm5 : BitVec 5) (imm2 : BitVec 2) (s : State) : Result :=
  execStoreInc (.swib rd rs1 imm5 imm2) .before 4 rd rs1 imm5 imm2 s

/-- `th.sdia` (43 R283). -/
def execSdia (rd rs1 : Reg) (imm5 : BitVec 5) (imm2 : BitVec 2) (s : State) : Result :=
  execStoreInc (.sdia rd rs1 imm5 imm2) .after 8 rd rs1 imm5 imm2 s

/-- `th.sdib` (43 R284). -/
def execSdib (rd rs1 : Reg) (imm5 : BitVec 5) (imm2 : BitVec 2) (s : State) : Result :=
  execStoreInc (.sdib rd rs1 imm5 imm2) .before 8 rd rs1 imm5 imm2 s

end Sys2Proof.Machine
end

