-- ==== Sys2Proof/Machine/MemIdxReg.lean ====
section
/-! DEFINITION. XTheadMemIdx, the 22 register-indexed forms (spec/44_xtheadmemidx_register.md). -/

namespace Sys2Proof.Machine

/-- A register-indexed load (44 R300, R301). -/
def execLoadIdx (i : Instr) (k : Index) (e : Extend) (n : Nat) (rd rs1 rs2 : Reg)
    (imm2 : BitVec 2) (s : State) : Result :=
  requireLegal s i (available s i)
    (withLoad s (indexedAddr s k rs1 rs2 imm2) n fun s' v =>
      finishX s' rd (extendLoad s.cfg e n v))

/-- A register-indexed store (44 R300, R301). -/
def execStoreIdx (i : Instr) (k : Index) (n : Nat) (rd rs1 rs2 : Reg) (imm2 : BitVec 2) (s : State) :
    Result :=
  requireLegal s i (available s i)
    (withStores s [⟨indexedAddr s k rs1 rs2 imm2, n, readX s rd⟩] fun s' => .next (advance s'))

/-- `th.lrb` (44 R302). -/
def execLrb (rd rs1 rs2 : Reg) (imm2 : BitVec 2) (s : State) : Result :=
  execLoadIdx (.lrb rd rs1 rs2 imm2) .whole .sign 1 rd rs1 rs2 imm2 s

/-- `th.lrbu` (44 R303). -/
def execLrbu (rd rs1 rs2 : Reg) (imm2 : BitVec 2) (s : State) : Result :=
  execLoadIdx (.lrbu rd rs1 rs2 imm2) .whole .zero 1 rd rs1 rs2 imm2 s

/-- `th.lrh` (44 R304). -/
def execLrh (rd rs1 rs2 : Reg) (imm2 : BitVec 2) (s : State) : Result :=
  execLoadIdx (.lrh rd rs1 rs2 imm2) .whole .sign 2 rd rs1 rs2 imm2 s

/-- `th.lrhu` (44 R305). -/
def execLrhu (rd rs1 rs2 : Reg) (imm2 : BitVec 2) (s : State) : Result :=
  execLoadIdx (.lrhu rd rs1 rs2 imm2) .whole .zero 2 rd rs1 rs2 imm2 s

/-- `th.lrw` (44 R306). -/
def execLrw (rd rs1 rs2 : Reg) (imm2 : BitVec 2) (s : State) : Result :=
  execLoadIdx (.lrw rd rs1 rs2 imm2) .whole .sign 4 rd rs1 rs2 imm2 s

/-- `th.lrwu` (44 R307). -/
def execLrwu (rd rs1 rs2 : Reg) (imm2 : BitVec 2) (s : State) : Result :=
  execLoadIdx (.lrwu rd rs1 rs2 imm2) .whole .zero 4 rd rs1 rs2 imm2 s

/-- `th.lrd` (44 R308). -/
def execLrd (rd rs1 rs2 : Reg) (imm2 : BitVec 2) (s : State) : Result :=
  execLoadIdx (.lrd rd rs1 rs2 imm2) .whole .sign 8 rd rs1 rs2 imm2 s

/-- `th.srb` (44 R309). -/
def execSrb (rd rs1 rs2 : Reg) (imm2 : BitVec 2) (s : State) : Result :=
  execStoreIdx (.srb rd rs1 rs2 imm2) .whole 1 rd rs1 rs2 imm2 s

/-- `th.srh` (44 R310). -/
def execSrh (rd rs1 rs2 : Reg) (imm2 : BitVec 2) (s : State) : Result :=
  execStoreIdx (.srh rd rs1 rs2 imm2) .whole 2 rd rs1 rs2 imm2 s

/-- `th.srw` (44 R311). -/
def execSrw (rd rs1 rs2 : Reg) (imm2 : BitVec 2) (s : State) : Result :=
  execStoreIdx (.srw rd rs1 rs2 imm2) .whole 4 rd rs1 rs2 imm2 s

/-- `th.srd` (44 R312). -/
def execSrd (rd rs1 rs2 : Reg) (imm2 : BitVec 2) (s : State) : Result :=
  execStoreIdx (.srd rd rs1 rs2 imm2) .whole 8 rd rs1 rs2 imm2 s

/-- `th.lurb` (44 R313). -/
def execLurb (rd rs1 rs2 : Reg) (imm2 : BitVec 2) (s : State) : Result :=
  execLoadIdx (.lurb rd rs1 rs2 imm2) .low32 .sign 1 rd rs1 rs2 imm2 s

/-- `th.lurbu` (44 R314). -/
def execLurbu (rd rs1 rs2 : Reg) (imm2 : BitVec 2) (s : State) : Result :=
  execLoadIdx (.lurbu rd rs1 rs2 imm2) .low32 .zero 1 rd rs1 rs2 imm2 s

/-- `th.lurh` (44 R315). -/
def execLurh (rd rs1 rs2 : Reg) (imm2 : BitVec 2) (s : State) : Result :=
  execLoadIdx (.lurh rd rs1 rs2 imm2) .low32 .sign 2 rd rs1 rs2 imm2 s

/-- `th.lurhu` (44 R316). -/
def execLurhu (rd rs1 rs2 : Reg) (imm2 : BitVec 2) (s : State) : Result :=
  execLoadIdx (.lurhu rd rs1 rs2 imm2) .low32 .zero 2 rd rs1 rs2 imm2 s

/-- `th.lurw` (44 R317). -/
def execLurw (rd rs1 rs2 : Reg) (imm2 : BitVec 2) (s : State) : Result :=
  execLoadIdx (.lurw rd rs1 rs2 imm2) .low32 .sign 4 rd rs1 rs2 imm2 s

/-- `th.lurwu` (44 R318). -/
def execLurwu (rd rs1 rs2 : Reg) (imm2 : BitVec 2) (s : State) : Result :=
  execLoadIdx (.lurwu rd rs1 rs2 imm2) .low32 .zero 4 rd rs1 rs2 imm2 s

/-- `th.lurd` (44 R319). -/
def execLurd (rd rs1 rs2 : Reg) (imm2 : BitVec 2) (s : State) : Result :=
  execLoadIdx (.lurd rd rs1 rs2 imm2) .low32 .sign 8 rd rs1 rs2 imm2 s

/-- `th.surb` (44 R320). -/
def execSurb (rd rs1 rs2 : Reg) (imm2 : BitVec 2) (s : State) : Result :=
  execStoreIdx (.surb rd rs1 rs2 imm2) .low32 1 rd rs1 rs2 imm2 s

/-- `th.surh` (44 R321). -/
def execSurh (rd rs1 rs2 : Reg) (imm2 : BitVec 2) (s : State) : Result :=
  execStoreIdx (.surh rd rs1 rs2 imm2) .low32 2 rd rs1 rs2 imm2 s

/-- `th.surw` (44 R322). -/
def execSurw (rd rs1 rs2 : Reg) (imm2 : BitVec 2) (s : State) : Result :=
  execStoreIdx (.surw rd rs1 rs2 imm2) .low32 4 rd rs1 rs2 imm2 s

/-- `th.surd` (44 R323). -/
def execSurd (rd rs1 rs2 : Reg) (imm2 : BitVec 2) (s : State) : Result :=
  execStoreIdx (.surd rd rs1 rs2 imm2) .low32 8 rd rs1 rs2 imm2 s

end Sys2Proof.Machine
end

