-- ==== Sys2Proof/Machine/MemPair.lean ====
section
/-! DEFINITION. XTheadMemPair (spec/45_xtheadmempair.md): two accesses in either order, each judged on its
own, with the activity of other agents between them (45 R340). -/

namespace Sys2Proof.Machine

/-- A pair load (45 R340, R341): both loads before either register; any two equal registers are
reserved. -/
def execLoadPair (i : Instr) (e : Extend) (n : Nat) (rd1 rd2 rs1 : Reg) (imm2 : BitVec 2) (s : State) :
    Result :=
  requireLegal s i (available s i)
    (if !pairLoadOk rd1 rd2 rs1 then .refused .reservedOperands
     else withLoads s [⟨pairAddr s n rs1 imm2, n, 0⟩, ⟨pairAddr2 s n rs1 imm2, n, 0⟩] fun s' vs =>
       finishX (writeX s' rd1 (extendLoad s.cfg e n (vs.getD 0 0))) rd2
         (extendLoad s.cfg e n (vs.getD 1 0)))

/-- A pair store (45 R340): if one half faults the other may or may not have been performed. -/
def execStorePair (i : Instr) (n : Nat) (rd1 rd2 rs1 : Reg) (imm2 : BitVec 2) (s : State) : Result :=
  requireLegal s i (available s i)
    (withStores s [⟨pairAddr s n rs1 imm2, n, readX s rd1⟩, ⟨pairAddr2 s n rs1 imm2, n, readX s rd2⟩]
      fun s' => .next (advance s'))

/-- `th.ldd` (45 R342). -/
def execLdd (rd1 rd2 rs1 : Reg) (imm2 : BitVec 2) (s : State) : Result :=
  execLoadPair (.ldd rd1 rd2 rs1 imm2) .sign 8 rd1 rd2 rs1 imm2 s

/-- `th.lwd` (45 R343). -/
def execLwd (rd1 rd2 rs1 : Reg) (imm2 : BitVec 2) (s : State) : Result :=
  execLoadPair (.lwd rd1 rd2 rs1 imm2) .sign 4 rd1 rd2 rs1 imm2 s

/-- `th.lwud` (45 R344). -/
def execLwud (rd1 rd2 rs1 : Reg) (imm2 : BitVec 2) (s : State) : Result :=
  execLoadPair (.lwud rd1 rd2 rs1 imm2) .zero 4 rd1 rd2 rs1 imm2 s

/-- `th.sdd` (45 R345). -/
def execSdd (rd1 rd2 rs1 : Reg) (imm2 : BitVec 2) (s : State) : Result :=
  execStorePair (.sdd rd1 rd2 rs1 imm2) 8 rd1 rd2 rs1 imm2 s

/-- `th.swd` (45 R346). -/
def execSwd (rd1 rd2 rs1 : Reg) (imm2 : BitVec 2) (s : State) : Result :=
  execStorePair (.swd rd1 rd2 rs1 imm2) 4 rd1 rd2 rs1 imm2 s

end Sys2Proof.Machine
end

