-- ==== Sys2Proof/Machine/Sync.lean ====
section
/-! DEFINITION. XTheadSync (spec/41_xtheadsync.md): the TLB invalidation on all harts, and the four barriers. -/

namespace Sys2Proof.Machine

/-- A hart with the broadcasts of a sender performed, the oldest first (they commute, each being a removal),
and those of other senders still on their way. -/
def completeFrom (c : Config) (sender : Word) (h : Hart) : Hart :=
  { (h.pending.filter (·.sender == sender)).foldl (fun u p => performBroadcast c u p.op) h with
    pending := h.pending.filter (·.sender != sender) }

/-- `complete_all_pending(h)`: the broadcasts of this hart have been performed on every other hart; every other
operation has taken effect in its own step (41 R211, R213). -/
def completeAllPending (s : State) : State :=
  { s with others := s.others.map (completeFrom s.cfg s.mhartid) }

/-- `pipeline[h] <- empty` (41 R215). -/
def flushPipeline (s : State) : State := { s with pipeline := [] }

/-- Write every line of the D-cache to the next-level storage, one marked clean too; the lines stay, clean. -/
def writeAllLines (s : State) : State :=
  let s' := { s with dc := s.dc.map fun ln => { ln with dirty := true } }
  cacheOp .clean s' .dc (allLines s' .dc)

/-- The same for the D-cache of each of the `n` first other harts. -/
def writeOthersLines : Nat → State → State
  | 0, s => s
  | n + 1, s => onHart (some n) writeAllLines (writeOthersLines n s)

/-- What this hart's data accesses read goes below the D-caches, where its fetches look: its own dirty lines
and, with `DCACHE_COHERENT`, the lines of every hart's D-cache, all of which its loads see. A clean line goes with
them then: the copies agree, and the cache that wrote one may have lost it (DESIGN CHOICE,
notes/assumptions/25.md). -/
def writeVisible (s : State) : State :=
  if s.cfg.dcacheCoherent && s.cfg.hasDCache then writeOthersLines s.others.length (writeAllLines s)
  else cacheOp .clean s .dc (allLines s .dc)

/-- With `SYNC_I_SUFFICIENT` the flush also makes what is visible to the hart visible to its fetches: that is
written below the D-caches and the instruction cache is emptied (20 R103; 41 R215; 70 R531; decision D40;
notes/assumptions/25.md). -/
def syncFetch (s : State) : State :=
  if s.cfg.syncISufficient then
    let s' := writeVisible s
    cacheOp .invalidate s' .ic (allLines s' .ic)
  else s

/-- The barrier of `th.sync` and `th.sync.s` (41 R213, R214). -/
def barrier (i : Instr) (s : State) : Result :=
  requireLegal s i (available s i) (.next (advance (completeAllPending s)))

/-- The barrier with a pipeline flush of `th.sync.i` and `th.sync.is` (41 R215, R216). -/
def barrierFlush (i : Instr) (s : State) : Result :=
  requireLegal s i (available s i) (.next (advance (syncFetch (flushPipeline (completeAllPending s)))))

/-- `th.sfence.vmas` (41 R212). -/
def execSfenceVmas (rs1 rs2 : Reg) (s : State) : Result :=
  requireLegal s (.sfenceVmas rs1 rs2) (available s (.sfenceVmas rs1 rs2) && aboveU s)
    (.next (advance (if s.cfg.hasMmu then
      broadcast { s with tlb := tlbWithout s.cfg (readX s rs1) (readX s rs2) s.tlb }
        (.invalidateTlb (readX s rs1) (readX s rs2))
    else s)))

/-- `th.sync` (41 R213). -/
def execSync (s : State) : Result :=
  barrier .sync s

/-- `th.sync.s` (41 R214). -/
def execSyncS (s : State) : Result :=
  barrier .syncS s

/-- `th.sync.i` (41 R215). -/
def execSyncI (s : State) : Result :=
  barrierFlush .syncI s

/-- `th.sync.is` (41 R216). -/
def execSyncIs (s : State) : Result :=
  barrierFlush .syncIs s

end Sys2Proof.Machine
end

