-- ==== Sys2Proof/Machine/Vdot.lean ====
section
/-! DEFINITION. XTheadVdot (spec/49_xtheadvdot_vector.md), with the vector interface of 49 R428 and R429 as V 0.7.1
gives it (notes/assumptions/21.md). -/

namespace Sys2Proof.Machine

/-- The 32-bit elements a register holds. -/
def elemsPerReg (c : Config) : Nat := c.vlen / 32

/-- `elem32(v, i)`: element `i` of the group that starts at `vreg[v]` (10 R49; 49 R428). -/
def elem32 (s : State) (v : Reg) (i : Nat) : BitVec 32 :=
  s.vregs.getD (v.toNat * elemsPerReg s.cfg + i) 0

/-- The number of elements of a group. -/
def vlmax (s : State) : Nat := elemsPerReg s.cfg * lmul s.vtype

/-- Where mask bit `j` of the 8-bit source elements lies in `vreg[0]` (10 R50; 49 R428). -/
def maskPos (s : State) (j : Nat) : Nat :=
  match s.cfg.maskLayout with
  | .dense => j
  | .mlen => j * (8 / lmul s.vtype)

/-- `mask_bit(j)` (49 R428). -/
def maskBit (s : State) (j : Nat) : Bool :=
  (s.vregs.getD (maskPos s j / 32) 0).getLsbD (maskPos s j % 32)

/-- How the bytes of a factor are read (49 R420). -/
inductive Factor where
  | signed
  | unsigned
  deriving DecidableEq, Repr

/-- Byte `k` of a factor, extended to 32 bits: with 8-bit factors every product is exact in them. -/
def factorByte (q : Factor) (v : BitVec 32) (k : Nat) : BitVec 32 :=
  match q with
  | .signed => (v.extractLsb' (8 * k) 8).signExtend 32
  | .unsigned => (v.extractLsb' (8 * k) 8).setWidth 32

/-- The products of the four bytes, those whose mask bit is 0 left out, added to the old element
(49 R420, R428 c). -/
def dot (qa qb : Factor) (on : Nat → Bool) (a b t : BitVec 32) : BitVec 32 :=
  (List.range 4).foldl
    (fun acc k => if on k then acc + factorByte qa a k * factorByte qb b k else acc) t

/-- Product `k` of element `i` takes part (49 R428 c). Every mask bit is read from `vreg[0]` as it is before the
instruction, which differs from the pseudocode's order of reads only where `vd` is 0, `LMUL` 1 and the layout
dense (DESIGN CHOICE, notes/assumptions/43.md). -/
def productOn (s : State) (vm : Bool) (i k : Nat) : Bool := vm || maskBit s (4 * i + k)

/-- The new element `i`: from `th.vstart` to below `th.vl` the dot product, below it the old element, and
from `th.vl` on what `VDOT_TAIL` says, the tail being left alone when no element is active (49 R428;
notes/assumptions/35.md). -/
def newElem (s : State) (active : Nat → BitVec 32) (vd : Reg) (i : Nat) : BitVec 32 :=
  if i < s.vstart.toNat then elem32 s vd i
  else if i < s.vl.toNat then active i
  else if s.vl.toNat ≤ s.vstart.toNat then elem32 s vd i
  else
    match s.cfg.vdotTail with
    | .zero => 0
    | .undisturbed => elem32 s vd i
    | .ones => BitVec.allOnes 32

/-- Replace the elements of the group at `vd`. -/
def setElems (s : State) (vd : Reg) (new : Nat → BitVec 32) : State :=
  let base := vd.toNat * elemsPerReg s.cfg
  { s with vregs := s.vregs.mapIdx fun k w =>
      if base ≤ k ∧ k < base + vlmax s then new (k - base) else w }

/-- A register number is a multiple of `LMUL` (49 R429). -/
def groupOk (s : State) (v : Reg) : Bool := v.toNat % lmul s.vtype == 0

/-- What makes a `vmacc.vv` legal, and `vsew = 0b010`: the complement of `vdot_illegal` (49 R429). `groups` are the
vector operands: of a `.vx` form the number of `rs1`, an integer register, is not checked (DESIGN CHOICE,
notes/assumptions/44.md). -/
def vdotLegal (s : State) (vm : Bool) (vd : Reg) (groups : List Reg) : Bool :=
  vsew s.vtype == 0b010#3
  && !(s.cfg.vsGated && unitOff s.mstatus.vs)
  && !vill s.cfg s.vtype
  && groups.all (groupOk s)
  && !(!vm && vd == 0#5 && decide (1 < lmul s.vtype))

/-- The end of a vector instruction: `th.vstart` is 0 again and the unit is Dirty (49 R428;
notes/assumptions/21.md). -/
def finishVector (s : State) : State :=
  let s' := { s with vstart := 0 }
  if s.cfg.vsGated then { s' with mstatus := { s'.mstatus with vs := unitDirty } } else s'

/-- A dot product (49 R420, R428): every element, and every mask bit (`productOn`), from the old state. -/
def execVdot (i : Instr) (vm : Bool) (qa qb : Factor) (first : Nat → BitVec 32) (vd vs2 : Reg)
    (groups : List Reg) (s : State) : Result :=
  requireLegal s i (available s i && vdotLegal s vm vd groups)
    (.next (advance (finishVector (setElems s vd (newElem s
      (fun e => dot qa qb (productOn s vm e) (first e) (elem32 s vs2 e) (elem32 s vd e)) vd)))))

/-- `th.vmaqa.vv` (49 R421). -/
def execVmaqaVv (vd vs1 vs2 : Reg) (vm : Bool) (s : State) : Result :=
  execVdot (.vmaqaVv vd vs1 vs2 vm) vm .signed .signed (elem32 s vs1) vd vs2 [vd, vs1, vs2] s

/-- `th.vmaqa.vx` (49 R422); `rs1` is no vector operand (`vdotLegal`), nor in the other `.vx` forms. -/
def execVmaqaVx (vd rs1 vs2 : Reg) (vm : Bool) (s : State) : Result :=
  execVdot (.vmaqaVx vd rs1 vs2 vm) vm .signed .signed
    (fun _ => (readX s rs1).setWidth 32) vd vs2 [vd, vs2] s

/-- `th.vmaqau.vv` (49 R423). -/
def execVmaqauVv (vd vs1 vs2 : Reg) (vm : Bool) (s : State) : Result :=
  execVdot (.vmaqauVv vd vs1 vs2 vm) vm .unsigned .unsigned (elem32 s vs1) vd vs2 [vd, vs1, vs2] s

/-- `th.vmaqau.vx` (49 R424). -/
def execVmaqauVx (vd rs1 vs2 : Reg) (vm : Bool) (s : State) : Result :=
  execVdot (.vmaqauVx vd rs1 vs2 vm) vm .unsigned .unsigned
    (fun _ => (readX s rs1).setWidth 32) vd vs2 [vd, vs2] s

/-- `th.vmaqasu.vv` (49 R425). -/
def execVmaqasuVv (vd vs1 vs2 : Reg) (vm : Bool) (s : State) : Result :=
  execVdot (.vmaqasuVv vd vs1 vs2 vm) vm .signed .unsigned (elem32 s vs1) vd vs2 [vd, vs1, vs2] s

/-- `th.vmaqasu.vx` (49 R426). -/
def execVmaqasuVx (vd rs1 vs2 : Reg) (vm : Bool) (s : State) : Result :=
  execVdot (.vmaqasuVx vd rs1 vs2 vm) vm .signed .unsigned
    (fun _ => (readX s rs1).setWidth 32) vd vs2 [vd, vs2] s

/-- `th.vmaqaus.vx` (49 R427). -/
def execVmaqausVx (vd rs1 vs2 : Reg) (vm : Bool) (s : State) : Result :=
  execVdot (.vmaqausVx vd rs1 vs2 vm) vm .unsigned .signed
    (fun _ => (readX s rs1).setWidth 32) vd vs2 [vd, vs2] s

end Sys2Proof.Machine
end

