-- ==== Sys2Proof/Machine/Dispatch.lean ====
section
/-! DEFINITION. The dispatch: one arm per instruction, each a direct call of its meaning. -/

namespace Sys2Proof.Machine

def exec (i : Instr) (s : State) : Host.Outcome State Fault Refusal :=
  match i with
  | .dcacheCall => Sys2Proof.Machine.execDcacheCall s
  | .dcacheCiall => Sys2Proof.Machine.execDcacheCiall s
  | .dcacheIall => Sys2Proof.Machine.execDcacheIall s
  | .dcacheCpa rs1 => Sys2Proof.Machine.execDcacheCpa rs1 s
  | .dcacheCipa rs1 => Sys2Proof.Machine.execDcacheCipa rs1 s
  | .dcacheIpa rs1 => Sys2Proof.Machine.execDcacheIpa rs1 s
  | .dcacheCva rs1 => Sys2Proof.Machine.execDcacheCva rs1 s
  | .dcacheCiva rs1 => Sys2Proof.Machine.execDcacheCiva rs1 s
  | .dcacheIva rs1 => Sys2Proof.Machine.execDcacheIva rs1 s
  | .dcacheCsw rs1 => Sys2Proof.Machine.execDcacheCsw rs1 s
  | .dcacheCisw rs1 => Sys2Proof.Machine.execDcacheCisw rs1 s
  | .dcacheIsw rs1 => Sys2Proof.Machine.execDcacheIsw rs1 s
  | .dcacheCpal1 rs1 => Sys2Proof.Machine.execDcacheCpal1 rs1 s
  | .dcacheCval1 rs1 => Sys2Proof.Machine.execDcacheCval1 rs1 s
  | .icacheIall => Sys2Proof.Machine.execIcacheIall s
  | .icacheIalls => Sys2Proof.Machine.execIcacheIalls s
  | .icacheIpa rs1 => Sys2Proof.Machine.execIcacheIpa rs1 s
  | .icacheIva rs1 => Sys2Proof.Machine.execIcacheIva rs1 s
  | .l2cacheCall => Sys2Proof.Machine.execL2cacheCall s
  | .l2cacheCiall => Sys2Proof.Machine.execL2cacheCiall s
  | .l2cacheIall => Sys2Proof.Machine.execL2cacheIall s
  | .sfenceVmas rs1 rs2 => Sys2Proof.Machine.execSfenceVmas rs1 rs2 s
  | .sync => Sys2Proof.Machine.execSync s
  | .syncS => Sys2Proof.Machine.execSyncS s
  | .syncI => Sys2Proof.Machine.execSyncI s
  | .syncIs => Sys2Proof.Machine.execSyncIs s
  | .addsl rd rs1 rs2 imm2 => Sys2Proof.Machine.execAddsl rd rs1 rs2 imm2 s
  | .srri rd rs1 imm6 => Sys2Proof.Machine.execSrri rd rs1 imm6 s
  | .srriw rd rs1 imm5 => Sys2Proof.Machine.execSrriw rd rs1 imm5 s
  | .ext rd rs1 imm1 imm2 => Sys2Proof.Machine.execExt rd rs1 imm1 imm2 s
  | .extu rd rs1 imm1 imm2 => Sys2Proof.Machine.execExtu rd rs1 imm1 imm2 s
  | .ff0 rd rs1 => Sys2Proof.Machine.execFf0 rd rs1 s
  | .ff1 rd rs1 => Sys2Proof.Machine.execFf1 rd rs1 s
  | .rev rd rs1 => Sys2Proof.Machine.execRev rd rs1 s
  | .revw rd rs1 => Sys2Proof.Machine.execRevw rd rs1 s
  | .tstnbz rd rs1 => Sys2Proof.Machine.execTstnbz rd rs1 s
  | .tst rd rs1 imm6 => Sys2Proof.Machine.execTst rd rs1 imm6 s
  | .mveqz rd rs1 rs2 => Sys2Proof.Machine.execMveqz rd rs1 rs2 s
  | .mvnez rd rs1 rs2 => Sys2Proof.Machine.execMvnez rd rs1 rs2 s
  | .lbia rd rs1 imm5 imm2 => Sys2Proof.Machine.execLbia rd rs1 imm5 imm2 s
  | .lbib rd rs1 imm5 imm2 => Sys2Proof.Machine.execLbib rd rs1 imm5 imm2 s
  | .lbuia rd rs1 imm5 imm2 => Sys2Proof.Machine.execLbuia rd rs1 imm5 imm2 s
  | .lbuib rd rs1 imm5 imm2 => Sys2Proof.Machine.execLbuib rd rs1 imm5 imm2 s
  | .lhia rd rs1 imm5 imm2 => Sys2Proof.Machine.execLhia rd rs1 imm5 imm2 s
  | .lhib rd rs1 imm5 imm2 => Sys2Proof.Machine.execLhib rd rs1 imm5 imm2 s
  | .lhuia rd rs1 imm5 imm2 => Sys2Proof.Machine.execLhuia rd rs1 imm5 imm2 s
  | .lhuib rd rs1 imm5 imm2 => Sys2Proof.Machine.execLhuib rd rs1 imm5 imm2 s
  | .lwia rd rs1 imm5 imm2 => Sys2Proof.Machine.execLwia rd rs1 imm5 imm2 s
  | .lwib rd rs1 imm5 imm2 => Sys2Proof.Machine.execLwib rd rs1 imm5 imm2 s
  | .lwuia rd rs1 imm5 imm2 => Sys2Proof.Machine.execLwuia rd rs1 imm5 imm2 s
  | .lwuib rd rs1 imm5 imm2 => Sys2Proof.Machine.execLwuib rd rs1 imm5 imm2 s
  | .ldia rd rs1 imm5 imm2 => Sys2Proof.Machine.execLdia rd rs1 imm5 imm2 s
  | .ldib rd rs1 imm5 imm2 => Sys2Proof.Machine.execLdib rd rs1 imm5 imm2 s
  | .sbia rd rs1 imm5 imm2 => Sys2Proof.Machine.execSbia rd rs1 imm5 imm2 s
  | .sbib rd rs1 imm5 imm2 => Sys2Proof.Machine.execSbib rd rs1 imm5 imm2 s
  | .shia rd rs1 imm5 imm2 => Sys2Proof.Machine.execShia rd rs1 imm5 imm2 s
  | .shib rd rs1 imm5 imm2 => Sys2Proof.Machine.execShib rd rs1 imm5 imm2 s
  | .swia rd rs1 imm5 imm2 => Sys2Proof.Machine.execSwia rd rs1 imm5 imm2 s
  | .swib rd rs1 imm5 imm2 => Sys2Proof.Machine.execSwib rd rs1 imm5 imm2 s
  | .sdia rd rs1 imm5 imm2 => Sys2Proof.Machine.execSdia rd rs1 imm5 imm2 s
  | .sdib rd rs1 imm5 imm2 => Sys2Proof.Machine.execSdib rd rs1 imm5 imm2 s
  | .lrb rd rs1 rs2 imm2 => Sys2Proof.Machine.execLrb rd rs1 rs2 imm2 s
  | .lrbu rd rs1 rs2 imm2 => Sys2Proof.Machine.execLrbu rd rs1 rs2 imm2 s
  | .lrh rd rs1 rs2 imm2 => Sys2Proof.Machine.execLrh rd rs1 rs2 imm2 s
  | .lrhu rd rs1 rs2 imm2 => Sys2Proof.Machine.execLrhu rd rs1 rs2 imm2 s
  | .lrw rd rs1 rs2 imm2 => Sys2Proof.Machine.execLrw rd rs1 rs2 imm2 s
  | .lrwu rd rs1 rs2 imm2 => Sys2Proof.Machine.execLrwu rd rs1 rs2 imm2 s
  | .lrd rd rs1 rs2 imm2 => Sys2Proof.Machine.execLrd rd rs1 rs2 imm2 s
  | .srb rd rs1 rs2 imm2 => Sys2Proof.Machine.execSrb rd rs1 rs2 imm2 s
  | .srh rd rs1 rs2 imm2 => Sys2Proof.Machine.execSrh rd rs1 rs2 imm2 s
  | .srw rd rs1 rs2 imm2 => Sys2Proof.Machine.execSrw rd rs1 rs2 imm2 s
  | .srd rd rs1 rs2 imm2 => Sys2Proof.Machine.execSrd rd rs1 rs2 imm2 s
  | .lurb rd rs1 rs2 imm2 => Sys2Proof.Machine.execLurb rd rs1 rs2 imm2 s
  | .lurbu rd rs1 rs2 imm2 => Sys2Proof.Machine.execLurbu rd rs1 rs2 imm2 s
  | .lurh rd rs1 rs2 imm2 => Sys2Proof.Machine.execLurh rd rs1 rs2 imm2 s
  | .lurhu rd rs1 rs2 imm2 => Sys2Proof.Machine.execLurhu rd rs1 rs2 imm2 s
  | .lurw rd rs1 rs2 imm2 => Sys2Proof.Machine.execLurw rd rs1 rs2 imm2 s
  | .lurwu rd rs1 rs2 imm2 => Sys2Proof.Machine.execLurwu rd rs1 rs2 imm2 s
  | .lurd rd rs1 rs2 imm2 => Sys2Proof.Machine.execLurd rd rs1 rs2 imm2 s
  | .surb rd rs1 rs2 imm2 => Sys2Proof.Machine.execSurb rd rs1 rs2 imm2 s
  | .surh rd rs1 rs2 imm2 => Sys2Proof.Machine.execSurh rd rs1 rs2 imm2 s
  | .surw rd rs1 rs2 imm2 => Sys2Proof.Machine.execSurw rd rs1 rs2 imm2 s
  | .surd rd rs1 rs2 imm2 => Sys2Proof.Machine.execSurd rd rs1 rs2 imm2 s
  | .ldd rd1 rd2 rs1 imm2 => Sys2Proof.Machine.execLdd rd1 rd2 rs1 imm2 s
  | .lwd rd1 rd2 rs1 imm2 => Sys2Proof.Machine.execLwd rd1 rd2 rs1 imm2 s
  | .lwud rd1 rd2 rs1 imm2 => Sys2Proof.Machine.execLwud rd1 rd2 rs1 imm2 s
  | .sdd rd1 rd2 rs1 imm2 => Sys2Proof.Machine.execSdd rd1 rd2 rs1 imm2 s
  | .swd rd1 rd2 rs1 imm2 => Sys2Proof.Machine.execSwd rd1 rd2 rs1 imm2 s
  | .flrd rd rs1 rs2 imm2 => Sys2Proof.Machine.execFlrd rd rs1 rs2 imm2 s
  | .flrw rd rs1 rs2 imm2 => Sys2Proof.Machine.execFlrw rd rs1 rs2 imm2 s
  | .flurd rd rs1 rs2 imm2 => Sys2Proof.Machine.execFlurd rd rs1 rs2 imm2 s
  | .flurw rd rs1 rs2 imm2 => Sys2Proof.Machine.execFlurw rd rs1 rs2 imm2 s
  | .fsrd rd rs1 rs2 imm2 => Sys2Proof.Machine.execFsrd rd rs1 rs2 imm2 s
  | .fsrw rd rs1 rs2 imm2 => Sys2Proof.Machine.execFsrw rd rs1 rs2 imm2 s
  | .fsurd rd rs1 rs2 imm2 => Sys2Proof.Machine.execFsurd rd rs1 rs2 imm2 s
  | .fsurw rd rs1 rs2 imm2 => Sys2Proof.Machine.execFsurw rd rs1 rs2 imm2 s
  | .mula rd rs1 rs2 => Sys2Proof.Machine.execMula rd rs1 rs2 s
  | .mulah rd rs1 rs2 => Sys2Proof.Machine.execMulah rd rs1 rs2 s
  | .mulaw rd rs1 rs2 => Sys2Proof.Machine.execMulaw rd rs1 rs2 s
  | .muls rd rs1 rs2 => Sys2Proof.Machine.execMuls rd rs1 rs2 s
  | .mulsh rd rs1 rs2 => Sys2Proof.Machine.execMulsh rd rs1 rs2 s
  | .mulsw rd rs1 rs2 => Sys2Proof.Machine.execMulsw rd rs1 rs2 s
  | .fmvXHw rd fs1 => Sys2Proof.Machine.execFmvXHw rd fs1 s
  | .fmvHwX rd fs1 => Sys2Proof.Machine.execFmvHwX rd fs1 s
  | .ipush => Sys2Proof.Machine.execIpush s
  | .ipop => Sys2Proof.Machine.execIpop s
  | .vmaqaVv vd vs1 vs2 vm => Sys2Proof.Machine.execVmaqaVv vd vs1 vs2 vm s
  | .vmaqaVx vd rs1 vs2 vm => Sys2Proof.Machine.execVmaqaVx vd rs1 vs2 vm s
  | .vmaqauVv vd vs1 vs2 vm => Sys2Proof.Machine.execVmaqauVv vd vs1 vs2 vm s
  | .vmaqauVx vd rs1 vs2 vm => Sys2Proof.Machine.execVmaqauVx vd rs1 vs2 vm s
  | .vmaqasuVv vd vs1 vs2 vm => Sys2Proof.Machine.execVmaqasuVv vd vs1 vs2 vm s
  | .vmaqasuVx vd rs1 vs2 vm => Sys2Proof.Machine.execVmaqasuVx vd rs1 vs2 vm s
  | .vmaqausVx vd rs1 vs2 vm => Sys2Proof.Machine.execVmaqausVx vd rs1 vs2 vm s

end Sys2Proof.Machine
end

