-- ==== Sys2Proof/Machine/Fetch.lean ====
section
/-! DEFINITION. The fetch of the instruction at `pc` (20 R89, R103; 60 R454), and its inverse, which puts
a word where the fetch reads. -/

namespace Sys2Proof.Machine

/-- The outcome of a fetch. -/
inductive FetchOutcome where
  /-- A word, and the state that has used up the fetched-ahead copy if there was one. -/
  | word (w : InsnWord) (s : State)
  | short (p : BitVec 16)
  | fault (e : AccessFault)
  | misaligned

/-- The word fetched ahead for an address, if any. -/
def fetchedAhead (s : State) (va : Word) : Option InsnWord :=
  match s.pipeline.find? fun p => p.va == va with
  | some p => some p.word
  | none => none

/-- The pipeline without what was fetched for an address. -/
def retire (s : State) (va : Word) : State :=
  { s with pipeline := s.pipeline.filter fun p => p.va != va }

/-- Fetch the instruction at `pc`: the fetched-ahead copy, be it stale, and without one the storage
(20 R103). -/
def fetch (s : State) : FetchOutcome :=
  if s.pc.toNat % pcAlign s.cfg ≠ 0 then .misaligned
  else
    match fetchedAhead s s.pc with
    | some w => .word w (retire s s.pc)
    | none =>
      match readInsn s s.pc with
      | .word w => .word w s
      | .short p => .short p
      | .fault e => .fault e

/-- Put a byte where the fetch of a physical address reads it. -/
def fetchSet (s : State) (pa : Nat) (b : Byte) : State :=
  match heldLine s .ic pa with
  | some _ => snoopSet s .ic pa b
  | none => lowerSet s pa b

/-- Put bytes where the fetch of virtual addresses from `va` on reads them; an address without a
translation is left as it is. -/
def placeInsnBytes (s : State) (va : Word) : List Byte → State
  | [] => s
  | b :: bs =>
    let s' := match translate s s.priv .fetch va with
      | some pa => fetchSet s pa b
      | none => s
    placeInsnBytes s' (byteVa s va 1) bs

/-- The inputs of the next boundary made empty. -/
def quietSlot : List Slot → List Slot
  | [] => []
  | _ :: rest => ⟨none, [], [], ⟨[], []⟩⟩ :: rest

/-- The state with a word stored where the next step fetches its instruction: no fetched-ahead copy of it,
and nothing presented at the next boundary. -/
def placeInsn (s : State) (w : InsnWord) : State :=
  placeInsnBytes { retire s s.pc with oracle := quietSlot s.oracle } s.pc (bytesOfWord w)

end Sys2Proof.Machine
end

