-- ==== Sys2Proof/Machine/Step.lean ====
section
/-! DEFINITION. One step: the inputs of the boundary, then an interrupt, or the fetch, decoding and
execution of one instruction (00 R12; 60 R456, R470, R475). -/

namespace Sys2Proof.Machine

/-- Run the word fetched: an unlisted custom-0 word is an illegal instruction (30 R141, decision D7), a
word of another major opcode belongs to the base machine (00 R5). -/
def runWord (w : InsnWord) (s : State) : Host.Outcome State Fault Refusal :=
  match decodeWord w with
  | .ok i => exec i s
  | .error (.unlisted _) => .next (illegalWord s w)
  | .error _ => .refused .baseInstruction

/-- Fetch the instruction at `pc` and run it. -/
def runNext (s : State) : Host.Outcome State Fault Refusal :=
  match fetch s with
  | .word w s' => runWord w s'
  | .short _ => .refused .baseInstruction
  | .fault e => .next (accessTrap s e)
  | .misaligned => .fault .pcMisaligned

/-- One step of the machine. -/
def step (s : State) : Host.Outcome State Fault Refusal :=
  if configWf s.cfg then
    match takenInterrupt s with
    | some code => .next (trap (background s) code true 0)
    | none => runNext (background s)
  else .refused .illFormedConfig

/-- The state with an instruction of the opcode table stored where the next step fetches: the word's bits
above `nbits` are 0. -/
def State.withFetchWord (s : State) (nbits w : Nat) : State :=
  placeInsn s (BitVec.ofNat 32 (w % 2 ^ nbits))

end Sys2Proof.Machine
end

