-- ==== Sys2Proof/Safety.lean ====
section
/-! DEFINITION. What a good state is and what a safe run is, in the terms the statements use. -/

namespace Sys2Proof

open Machine

/-- A privilege level the hart has (60 R480). -/
def privExists (c : Config) : Priv → Bool
  | .u => c.hasU
  | .s => c.hasS
  | .m => true

/-- The harts of the machine, the one that executes first (60 R484). -/
def harts (s : State) : List Hart := s.toHart :: s.others

/-- The control state of a hart is as the spec says it always is: `pc` and `mepc` are aligned (10 R36, R43)
and `XLEN` bits wide (10 R34), and the privilege levels in force and stacked exist (60 R480). -/
structure HartControl (c : Config) (h : Hart) : Prop where
  pc_aligned : h.pc.toNat % pcAlign c = 0
  pc_width : truncX c h.pc = h.pc
  mepc_legal : mepcValue c h.mepc = h.mepc
  priv_exists : privExists c h.priv = true
  mpp_exists : privExists c h.mstatus.mpp = true

/-- The configuration is allowed, every hart's control state is as it should be, and the `NHARTS` harts are
numbered from 0 (60 R484). -/
structure ControlInv (s : State) : Prop where
  cfg_wf : configWf s.cfg = true
  harts_ok : ∀ h ∈ harts s, HartControl s.cfg h
  numbered : ((harts s).map Hart.mhartid).Perm ((List.range s.cfg.nharts).map (BitVec.ofNat 64))

/-- The register files of a hart are as the spec says: integer registers `XLEN` bits wide and register 0 zero
(10 R30, R31), floating-point registers `FLEN` bits wide (10 R38), 32 vector registers of `VLEN` bits
(10 R49). -/
structure HartRegisters (c : Config) (h : Hart) : Prop where
  x_width : ∀ r : Fin 32, truncX c h.x[r] = h.x[r]
  x_zero : h.x[0] = 0
  f_width : ∀ r : Fin 32, truncF c h.f[r] = h.f[r]
  vregs_length : h.vregs.length = 32 * (c.vlen / 32)

/-- The register files of every hart are as the spec says. -/
def RegistersInv (s : State) : Prop := ∀ h ∈ harts s, HartRegisters s.cfg h

/-- The lines of a cache are as its shape allows: line-aligned addresses, whole lines, ways that exist, no
address twice (40 R173) and no place twice (40 R172). -/
structure LinesWf (g : CacheGeom) (ls : List Line) : Prop where
  aligned : ∀ ln ∈ ls, ln.addr % 2 ^ g.l = 0
  whole : ∀ ln ∈ ls, ln.data.length = 2 ^ g.l
  way : ∀ ln ∈ ls, ln.way < 2 ^ g.w
  addr_once : ls.Pairwise fun a b => a.addr ≠ b.addr
  place_once : ls.Pairwise fun a b => ¬ (setIndex g a.addr = setIndex g b.addr ∧ a.way = b.way)

/-- The caches of a hart have well-formed lines, and a line of an instruction cache is never dirty
(20 R94). -/
structure HartCaches (c : Config) (h : Hart) : Prop where
  dc : c.hasDCache = true → LinesWf c.dcGeom h.dc
  ic : c.hasICache = true → LinesWf c.icGeom h.ic
  ic_clean : c.hasICache = true → ∀ ln ∈ h.ic, ln.dirty = false

/-- Every cache of the system has well-formed lines: those that the executing hart reaches, and those of the
other harts. -/
structure CachesInv (s : State) : Prop where
  lines : ∀ c : CacheId, LinesWf (cacheGeom s.cfg c) (cacheLines s c)
  ic_clean : ∀ ln ∈ cacheLines s .ic, ln.dirty = false
  others : ∀ h ∈ s.others, HartCaches s.cfg h

/-- Memory is in its canonical form, the caches are well formed, and a clean line of `L2` says what `MEM` says
(20 R94). The last rests on what a store of another agent reaches (notes/assumptions/32.md), and where a line
may sit on notes/assumptions/8.md. -/
structure LevelsInv (s : State) : Prop where
  mem_wf : Memory.wf s.mem = true
  caches : CachesInv s
  l2_clean : ∀ ln ∈ cacheLines s .l2, ln.dirty = false → ∀ a,
    lineAddr s.cfg.l2Geom a = ln.addr → memRead s.mem a = lineByte s.cfg.l2Geom ln a

/-- With `DCACHE_COHERENT` two copies of a line in D-caches say the same (20 R100 e;
notes/assumptions/32.md). -/
def CopiesAgree (s : State) : Prop :=
  s.cfg.dcacheCoherent = true → s.cfg.hasDCache = true →
    ∀ h ∈ harts s, ∀ h' ∈ harts s, ∀ ln ∈ h.dc, ∀ ln' ∈ h'.dc, ln.addr = ln'.addr → ln.data = ln'.data

/-- The storage of the machine is as it should be. -/
structure StorageInv (s : State) : Prop extends LevelsInv s where
  copies_agree : CopiesAgree s

/-- From `s` to `t` no more than the lines of one cache have changed. -/
def OnlyCache (c : CacheId) (s t : State) : Prop :=
  match c with
  | .dc => { t with dc := s.dc } = s
  | .ic => { t with ic := s.ic } = s
  | .l2 => { t with l2 := s.l2 } = s

/-- From `s` to `t` no more than one cache and what its dirty lines are written back to have changed (20 R94, R95):
of the D-cache `L2`, if there is one, and `MEM`; of `L2` `MEM`; of an I-cache, whose lines are never dirty,
nothing. -/
def OnlyCacheAndBelow (c : CacheId) (s t : State) : Prop :=
  match c with
  | .dc => { t with mem := s.mem, dc := s.dc, l2 := s.l2 } = s ∧ (s.cfg.hasL2 = false → t.l2 = s.l2)
  | .ic => { t with ic := s.ic } = s
  | .l2 => { t with mem := s.mem, l2 := s.l2 } = s

/-- Whatever a step answers, it does not stop by a fault. -/
def NoFault (s : State) : Prop := ∀ r, step s ≠ .fault r

/-- A state is reached from another by steps that each answer a next state. -/
inductive Reaches : State → State → Prop where
  | refl (s : State) : Reaches s s
  | tail {s t u : State} : Reaches s t → step t = .next u → Reaches s u

/-! ## The terms of the statements -/

/-- The instruction has gone on to the next word (10 R35, R36): `pc <- pc + 4` modulo 2^`XLEN`. -/
def NextInsn (s t : State) : Prop := t.pc.toNat = (s.pc.toNat + 4) % 2 ^ xlenBits s.cfg

/-- A byte reads as before in `MEM`, below the level-1 caches, in a data access and a fetch of this hart, and
in a data access of every other hart (20 R94). -/
def SameBytes (s t : State) (a : Nat) : Prop :=
  memRead t.mem a = memRead s.mem a ∧ lowerByte t a = lowerByte s a ∧
    dataByte t a = dataByte s a ∧ fetchByte t a = fetchByte s a ∧
    ∀ k, dataByte (switchTo k t) a = dataByte (switchTo k s) a

/-- What of a hart is not storage, a copy of translations or words, or a message on its way. -/
def hartRegisters (h : Hart) : Hart :=
  { h with dc := [], ic := [], tlb := [], pipeline := [], pending := [] }

/-- From `s` to `t` agents beside the instruction stream may have acted, and no more: the registers of every hart,
the inputs and the configuration are as before (20 R94, R99). -/
structure AgentsOnly (s t : State) : Prop where
  rest : { t with mem := s.mem, l2 := s.l2, dc := s.dc, ic := s.ic, tlb := s.tlb, pipeline := s.pipeline,
                  pending := s.pending, pageMap := s.pageMap, others := s.others } = s
  others : t.others.map hartRegisters = s.others.map hartRegisters

/-- No more of another hart has changed than copies in its D-cache, and nothing without `DCACHE_COHERENT`. -/
structure OthersKept (s t : State) : Prop where
  rest : (t.others.map fun h => { h with dc := [] }) = s.others.map fun h => { h with dc := [] }
  incoherent : s.cfg.dcacheCoherent = false → t.others = s.others

/-- From `s` to `t` no more than `pc` and the integer registers of the list have changed; register 0 reads
0 all the same (10 R31). -/
structure RegistersOnly (s t : State) (w : List Reg) : Prop where
  rest : { t with x := s.x, pc := s.pc } = s
  regs : ∀ r, r ∉ w → readX t r = readX s r
  zero : readX t 0 = 0
  bytes : ∀ a, SameBytes s t a

/-- From `s` to `t` no more than `pc`, the integer registers of the list and the storage at the physical
addresses of the list have changed. -/
structure StorageFrame (s t : State) (w : List Reg) (stored : List Nat) : Prop where
  rest : { t with x := s.x, pc := s.pc, mem := s.mem, dc := s.dc, l2 := s.l2, others := s.others } = s
  others : OthersKept s t
  regs : ∀ r, r ∉ w → readX t r = readX s r
  zero : readX t 0 = 0
  bytes : ∀ a, a ∉ stored → SameBytes s t a

/-- From `s` to `t` no more than `pc`, the floating-point register `fr` and, with `FS_GATED`, the unit's
status have changed; the status is Dirty then (10 R40). -/
structure FloatOnly (s t : State) (fr : Reg) : Prop where
  rest : { t with f := s.f, mstatus := s.mstatus, pc := s.pc } = s
  regs : ∀ r, r ≠ fr → readF t r = readF s r
  status : t.mstatus = { s.mstatus with fs := if s.cfg.fsGated then 3 else s.mstatus.fs }
  bytes : ∀ a, SameBytes s t a

/-- From `s` to `t` no more than `pc`, the words of the register group at `vd`, `th.vstart` and, with
`mstatus.VS` in force, the vector unit's status have changed. -/
structure VectorOnly (s t : State) (vd : Reg) : Prop where
  rest : { t with vregs := s.vregs, vstart := s.vstart, mstatus := s.mstatus, pc := s.pc } = s
  words : ∀ k, k < vd.toNat * elemsPerReg s.cfg ∨ vd.toNat * elemsPerReg s.cfg + vlmax s ≤ k →
    t.vregs[k]? = s.vregs[k]?
  start : t.vstart = 0
  status : t.mstatus = { s.mstatus with vs := if s.cfg.vsGated then 3 else s.mstatus.vs }
  bytes : ∀ a, SameBytes s t a

/-- A data access of `n` bytes at `va` raises no exception and touches the physical addresses `pas`, one
for each byte, the lowest virtual address first (20 R82, R83, R87, R88, R98): aligned, as a whole; misaligned
with `MISALIGNED = emulate`, byte by byte, no other agent acting between the bytes (the inputs' gaps are
empty; `LoadsInTurn` and `StoresInTurn` say what comes of such accesses with gaps). -/
def AccessMaps (s : State) (k : AccessKind) (va : Word) (n : Nat) (pas : List Nat) : Prop :=
  (va.toNat % n = 0 ∧ ∃ pa, translate s (dataPriv s) k va = some pa ∧
    accessible s.cfg pa n k = true ∧ pas = (List.range n).map (pa + ·)) ∨
  (va.toNat % n ≠ 0 ∧ s.cfg.misaligned = .emulate ∧ s.inter.gaps = [] ∧ pas.length = n ∧
    ∀ j (hj : j < pas.length), translate s (dataPriv s) k (byteVa s va j) = some pas[j] ∧
      accessible s.cfg pas[j] 1 k = true)

/-- The exception, code and trap value, of an access of `n` bytes at `va` that is performed as a whole
(60 R452, R455): misaligned with `MISALIGNED = trap`, else page fault, else access fault. -/
def AccessRaises (s : State) (k : AccessKind) (va : Word) (n : Nat) (code : Nat) : Prop :=
  (va.toNat % n ≠ 0 ∧ s.cfg.misaligned = .trap ∧ code = misalignedCode k) ∨
  (va.toNat % n = 0 ∧ translate s (dataPriv s) k va = none ∧ code = pageFaultCode k) ∨
  (va.toNat % n = 0 ∧ (∃ pa, translate s (dataPriv s) k va = some pa ∧ accessible s.cfg pa n k = false) ∧
    code = accessFaultCode k)

/-- The exception that byte `j` of an access raises that is performed byte by byte (20 R88; 60 R452). -/
def ByteRaises (s : State) (k : AccessKind) (va : Word) (j code : Nat) : Prop :=
  (translate s (dataPriv s) k (byteVa s va j) = none ∧ code = pageFaultCode k) ∨
  ((∃ pa, translate s (dataPriv s) k (byteVa s va j) = some pa ∧ accessible s.cfg pa 1 k = false) ∧
    code = accessFaultCode k)

/-- An exception, code and trap value, that an access of `n` bytes at `va` raises: the access as a whole, or one of
its bytes where it is performed byte by byte (20 R88). -/
def RaisesAt (s : State) (k : AccessKind) (va : Word) (n code : Nat) (info : Word) : Prop :=
  (AccessRaises s k va n code ∧ info = va) ∨
  (va.toNat % n ≠ 0 ∧ s.cfg.misaligned = .emulate ∧ ∃ j < n, ByteRaises s k va j code ∧ info = byteVa s va j)

/-- A physical address is one of those an access of `n` bytes at `va` is translated to, whether or not the
platform answers there (20 R87, R88, R98). -/
def Touches (s : State) (k : AccessKind) (va : Word) (n a : Nat) : Prop :=
  (va.toNat % n = 0 ∧ ∃ pa, translate s (dataPriv s) k va = some pa ∧ pa ≤ a ∧ a < pa + n) ∨
  (va.toNat % n ≠ 0 ∧ ∃ j < n, translate s (dataPriv s) k (byteVa s va j) = some a)

/-- What stores of `n` bytes at `vas` may leave when one of them raises an exception: no more than storage has
changed, at the addresses they touch, and the count of free values (20 R88, R92). -/
structure PartlyStored (s u : State) (vas : List Word) (n : Nat) : Prop where
  rest : { u with mem := s.mem, dc := s.dc, l2 := s.l2, others := s.others, freeCount := s.freeCount } = s
  others : OthersKept s u
  bytes : ∀ a, (∀ va ∈ vas, ¬ Touches s .store va n a) → SameBytes s u a

/-- The little-endian number that the data accesses of these byte addresses read (20 R84). -/
def loadedNat (s : State) (pas : List Nat) : Nat :=
  pas.foldr (fun pa acc => (dataByte s pa).toNat + 256 * acc) 0

/-- A register value is the number loaded from `n` bytes, extended to `XLEN` bits (20 R91). -/
def Extends (c : Config) (e : Extend) (n : Nat) (m : Nat) (v : Word) : Prop :=
  match e with
  | .sign => (v.toNat : Int) = Int.bmod m (2 ^ (8 * n)) % 2 ^ xlenBits c
  | .zero => v.toNat = m

/-- Byte `k` of a value is what a data access of the `k`th address reads (20 R84). -/
def HoldsBytes (t : State) (pas : List Nat) (v : Word) : Prop :=
  ∀ k (hk : k < pas.length), (dataByte t pas[k]).toNat = v.toNat / 256 ^ k % 256

/-! ### Accesses with other agents between their pieces -/

/-- What an access is performed in, whatever other agents do between: bytes `off` to `off + n - 1` of access `req`, at
`base`; their address and, of a store, their value. -/
structure Piece where
  req : Nat
  base : Word
  off : Nat
  va : Word
  n : Nat
  value : Word
  deriving DecidableEq, Repr

/-- The pieces of the accesses of an instruction: each access as a whole, or byte by byte when it is misaligned
with `MISALIGNED = emulate` (20 R87, R88, R92). -/
def pieces (s : State) (qs : List Req) : List Piece :=
  qs.zipIdx.flatMap fun (q, j) =>
    if q.va.toNat % q.n = 0 ∨ s.cfg.misaligned = .trap then [⟨j, q.va, 0, q.va, q.n, q.value⟩]
    else (List.range q.n).map fun k => ⟨j, q.va, k, byteVa s q.va k, 1, q.value >>> (8 * k)⟩

/-- The pieces in the order in which the inputs have them performed (20 R88; 45 R340). -/
def inTurn (s : State) (qs : List Req) : List Piece := arrange s.inter.order (pieces s qs)

/-- The machine when piece `i` is performed, but for what the instruction itself has stored: the other agents
have acted in every gap before it (20 R92; 70 R535). -/
def atTurn (s : State) (i : Nat) : State := (s.inter.gaps.take i).foldl applyActs s

/-- Piece `i` raises an exception by the translations it meets (60 R452, R455). -/
def PieceRaises (s : State) (k : AccessKind) (ps : List Piece) (i code : Nat) : Prop :=
  ∃ h : i < ps.length, AccessRaises (atTurn s i) k ps[i].va ps[i].n code

/-- The physical addresses of each piece by the translations it meets; none of one that raises an exception. -/
def PiecesMap (s : State) (k : AccessKind) (ps : List Piece) (pas : Nat → List Nat) : Prop :=
  ∀ i (h : i < ps.length), AccessMaps (atTurn s i) k ps[i].va ps[i].n (pas i) ∨
    (∃ code, PieceRaises s k ps i code) ∧ pas i = []

/-- The exception to report, code and trap value: one of a piece, of an access at the lowest address among those
that raise any (60 R455, decision D44). -/
def Reported (s : State) (k : AccessKind) (ps : List Piece) (code : Nat) (info : Word) : Prop :=
  ∃ i, ∃ h : i < ps.length, PieceRaises s k ps i code ∧ info = ps[i].va ∧
    ∀ j (h' : j < ps.length), (∃ c, PieceRaises s k ps j c) → ps[i].base.toNat ≤ ps[j].base.toNat

/-- From `s` to `t` values have been stored to byte addresses, one store after another, the other agents acting in the
gap before each; where the storage is as it should be each leaves its bytes there (20 R84). -/
def StoredInTurn : List (List HartAct) → List (List Nat × Word) → State → State → Prop
  | _, [], s, t => t = s
  | gaps, (pas, v) :: rest, s, t =>
    ∃ u, StorageFrame (applyActs s (gaps.headD [])) u [] pas ∧ u.pc = s.pc ∧
      (pas = [] → u = applyActs s (gaps.headD [])) ∧ (StorageInv s → HoldsBytes u pas v ∧ StorageInv u) ∧
      StoredInTurn gaps.tail rest u t

/-- An instruction that loads, whatever the other agents do between its pieces. If no piece raises an exception,
each access has the number whose bytes its pieces read, each at its moment, and `ends` says what the
instruction then makes of them; if some piece does, the instruction takes an exception and has changed nothing
(20 R88, R92; 60 R455). -/
def LoadsInTurn (i : Instr) (s : State) (qs : List Req) (ends : State → (Nat → Nat) → State → Prop) : Prop :=
  let ps := inTurn s qs
  let u := atTurn s (ps.length - 1)
  ∀ pas, PiecesMap s .load ps pas →
    ((∀ j code, ¬ PieceRaises s .load ps j code) → ∃ num t, exec i s = .next t ∧ ends u num t ∧
      (∀ j (h : j < qs.length), num j < 256 ^ qs[j].n) ∧
      ∀ j (h : j < ps.length),
        num ps[j].req / 256 ^ ps[j].off % 256 ^ ps[j].n = loadedNat (atTurn s j) (pas j)) ∧
    ((∃ j code, PieceRaises s .load ps j code) → ∃ code info, Reported s .load ps code info ∧
      exec i s = .next (trap u code false info))

/-- An instruction that stores, whatever the other agents do between its pieces. If no piece raises an
exception, all are stored in turn, and `ends` says what else the instruction does; if some piece does, it takes
an exception, and each access that raises none may or may not have been stored, or each piece with
`misalignedPartial` (20 R88, R92; 60 R455; decisions D21, D44; notes/assumptions/46.md). -/
def StoresInTurn (i : Instr) (s : State) (qs : List Req) (ends : State → State → Prop) : Prop :=
  let ps := inTurn s qs
  let gaps := [] :: s.inter.gaps
  ∀ pas, PiecesMap s .store ps pas →
    ((∀ j code, ¬ PieceRaises s .store ps j code) → ∃ w t, exec i s = .next t ∧
      StoredInTurn gaps (ps.zipIdx.map fun (p, j) => (pas j, p.value)) s w ∧ ends w t) ∧
    ((∃ j code, PieceRaises s .store ps j code) → ∃ (code : Nat) (info : Word) (w : State) (done : Nat → Bool) (f : Nat),
      Reported s .store ps code info ∧ exec i s = .next (trap { w with freeCount := f } code false info) ∧
      StoredInTurn gaps (ps.zipIdx.map fun (p, j) => (if done j then pas j else [], p.value)) s w ∧
      (s.cfg.misalignedPartial = false → ∀ j (h : j < ps.length) l (h' : l < ps.length),
        ps[j].req = ps[l].req → done j = done l ∧ ((∃ c, PieceRaises s .store ps l c) → done j = false)))

/-- The new base of an increment form: the old base and the scaled, signed immediate, modulo 2^`XLEN`
(43 R260). -/
def IncrementedBase (s : State) (rs1 : Reg) (imm5 : BitVec 5) (imm2 : BitVec 2) (v : Word) : Prop :=
  (v.toNat : Int) = ((readX s rs1).toNat + imm5.toInt * 2 ^ imm2.toNat) % 2 ^ xlenBits s.cfg

/-- The four conditions under which a dot product is legal (49 R429), the groups being those of its vector
operands. -/
structure VdotRuns (s : State) (vm : Bool) (vd : Reg) (groups : List Reg) : Prop where
  element_width : s.vtype.extractLsb' 2 3 = 0b010#3
  unit_on : s.cfg.vsGated = true → s.mstatus.vs ≠ 0
  type_legal : vill s.cfg s.vtype = false
  aligned : ∀ v ∈ groups, v.toNat % lmul s.vtype = 0
  no_overlap : vm = false → vd = 0 → lmul s.vtype = 1

/-- Byte `k` of a 32-bit factor as a number, signed or not (49 R420). -/
def factorInt (q : Factor) (v : BitVec 32) (k : Nat) : Int :=
  match q with
  | .signed => (v.extractLsb' (8 * k) 8).toInt
  | .unsigned => (v.extractLsb' (8 * k) 8).toNat

/-- The position in `vreg[0]` of mask bit `j`: that of the byte, or, with `MLEN` = 8 / LMUL bits an element, that
many bits an element on (10 R50; 49 R428; notes/assumptions/21.md). -/
def maskAt (s : State) (j : Nat) : Nat := j * (if s.cfg.maskLayout = .mlen then 8 / lmul s.vtype else 1)

/-- The exact sum of the products of an element's four bytes, of those that take part (49 R420, R428 c). -/
def dotInt (on : Nat → Bool) (qa qb : Factor) (a b : BitVec 32) : Int :=
  ((List.range 4).map fun k => if on k then factorInt qa a k * factorInt qb b k else 0).sum

end Sys2Proof
end

