-- ==== Sys2Proof/Certificates/Slice0/Obligations.lean ====
section
/-! DEFINITION. The statements for the provers: encoding, the step, traps and privilege, then what each
instruction does and leaves alone. Where a statement rests on a decision of spec/92_eei_decisions.md or
on the model's own choice its docstring says so. -/

open Sys2Proof Sys2Proof.Machine

/-! ## Encoding -/

/-- Decoding the encoding of an instruction gives it back, with every operand at every value its field
admits, whatever bytes follow (30 R120 to R148). -/
def Obligations.DecodeOfEncode : Prop :=
  ∀ (i : Instr) (rest : List Byte), decode (encodeBytes i ++ rest) = .ok (i, rest)

/-- A word that decodes is the encoding of what it decodes to: no bit of it is ignored, so no two words
mean the same instruction and no two rows of the table overlap (30 R123 to R133, R148). -/
def Obligations.EncodeOfDecode : Prop :=
  ∀ (w : InsnWord) (i : Instr), decodeWord w = .ok i → encode i = w

/-- Words the rules print decode to the instructions they print, one for each family. -/
def Obligations.DecodesPrintedWords : Prop :=
  decodeWord 0x0295000b = .ok (.dcacheCpa 10) ∧
  decodeWord 0x04b5000b = .ok (.sfenceVmas 10 11) ∧
  decodeWord 0x04c5950b = .ok (.addsl 10 11 12 2) ∧
  decodeWord 0x1085950b = .ok (.srri 10 11 8) ∧
  decodeWord 0x8855950b = .ok (.tst 10 11 5) ∧
  decodeWord 0x42c5950b = .ok (.mvnez 10 11 12) ∧
  decodeWord 0x1f03428b = .ok (.lbia 5 6 (-16) 3) ∧
  decodeWord 0xa4c5c50b = .ok (.lrhu 10 11 12 2) ∧
  decodeWord 0xfab6450b = .ok (.ldd 10 11 12 1) ∧
  decodeWord 0x54c5e50b = .ok (.flurw 10 11 12 2) ∧
  decodeWord 0x28c5950b = .ok (.mulah 10 11 12) ∧
  decodeWord 0xc00f900b = .ok (.fmvXHw 0 31) ∧
  decodeWord 0x0050000b = .ok .ipop ∧
  decodeWord 0x8041e10b = .ok (.vmaqaVv 2 3 4 false)

/-- A custom-0 word that encodes no instruction is an illegal instruction (30 R141, decision D7); a word of
another major opcode belongs to the base machine (00 R5) and is refused, the model's choice of
notes/assumptions/27.md. -/
def Obligations.UnlistedWordsAreIllegal : Prop :=
  ∀ (w : InsnWord) (s : State), (∀ i, encode i ≠ w) →
    (opcodeF w = 0b0001011#7 → runWord w s = .next (trap s 2 false (illegalInfo s.cfg w))) ∧
    (opcodeF w ≠ 0b0001011#7 → runWord w s = .refused .baseInstruction)

/-! ## The step -/

/-- A step with no interrupt to take runs the word that the four bytes at `pc` make, as the fetch reads them after
the background activity of the boundary (20 R85, R94), and running a word that decodes is running its
instruction; a parcel whose low two bits are not 3 is no 32-bit instruction (30 R121) and is refused as one of
the base machine, the model's choice of notes/assumptions/27.md. A word fetched ahead for `pc` runs in their
place and is used up (10 R56, 20 R103), which words that is being the model's choice of
notes/assumptions/29.md. -/
def Obligations.StepRunsDecoded : Prop :=
  ∀ (s b : State) (w : InsnWord), b = background s → configWf s.cfg = true →
    takenInterrupt s = none → b.pc.toNat % pcAlign b.cfg = 0 →
    (∀ (i : Instr) (u : State), decodeWord w = .ok i → runWord w u = exec i u) ∧
    (∀ pa, fetchedAhead b b.pc = none →
      translate b b.priv .fetch b.pc = some pa → accessible b.cfg pa 2 .fetch = true →
      ((fetchByte b pa).toNat % 4 = 3 → ∀ pa',
        translate b b.priv .fetch (byteVa b b.pc 2) = some pa' → accessible b.cfg pa' 2 .fetch = true →
        w = fetchByte b (pa' + 1) ++ fetchByte b pa' ++ fetchByte b (pa + 1) ++ fetchByte b pa →
        step s = runWord w b) ∧
      ((fetchByte b pa).toNat % 4 ≠ 3 → step s = .refused .baseInstruction)) ∧
    (fetchedAhead b b.pc = some w → step s = runWord w (retire b b.pc))

/-- The fetch of an instruction takes a page fault (12) where a half has no translation and an access fault (1)
where the platform does not answer (60 R454), the trap value being the address of the half that faults
(notes/assumptions/28.md); a misaligned `pc` is the one fault of the model. -/
def Obligations.FetchFaults : Prop :=
  ∀ (s b : State), b = background s → configWf s.cfg = true → takenInterrupt s = none →
    fetchedAhead b b.pc = none →
    (b.pc.toNat % pcAlign b.cfg = 0 → translate b b.priv .fetch b.pc = none →
      step s = .next (trap b 12 false b.pc)) ∧
    (∀ pa, b.pc.toNat % pcAlign b.cfg = 0 → translate b b.priv .fetch b.pc = some pa →
      (accessible b.cfg pa 2 .fetch = false → step s = .next (trap b 1 false b.pc)) ∧
      (accessible b.cfg pa 2 .fetch = true → (fetchByte b pa).toNat % 4 = 3 →
        (translate b b.priv .fetch (byteVa b b.pc 2) = none →
          step s = .next (trap b 12 false (byteVa b b.pc 2))) ∧
        (∀ pa', translate b b.priv .fetch (byteVa b b.pc 2) = some pa' →
          accessible b.cfg pa' 2 .fetch = false →
          step s = .next (trap b 1 false (byteVa b b.pc 2))))) ∧
    (b.pc.toNat % pcAlign b.cfg ≠ 0 → step s = .fault .pcMisaligned)

/-- The agents that act between two instructions change no register of a hart: storage, TLBs, fetched-ahead
words, broadcasts on their way and the page tables are all they reach (20 R94, R99). A fill, writeback or
evict of this hart's caches never changes what its data accesses read (20 R94), where a clean line of its
D-cache says what the levels below say: without coherence a store of another hart makes it differ
(notes/assumptions/32.md). A broadcast that reaches the hart empties its instruction cache or removes the
matching entries of its TLB, and nothing else (41 R211, notes/assumptions/11.md); when another hart goes on the
two change places (60 R484, notes/assumptions/50.md). -/
def Obligations.AgentsLeaveTheHart : Prop :=
  ∀ s : State,
    (let slot := (takeSlot s).1
     AgentsOnly { chooseHart slot.run (takeSlot s).2 with inter := slot.inter } (background s)) ∧
    (StorageInv s → ∀ (c : CacheId) (pa way a : Nat),
      (∀ ln ∈ cacheLines s .dc, lineAddr s.cfg.dcGeom a = ln.addr → ln.dirty = false →
        lineByte s.cfg.dcGeom ln a = belowByte s a) →
      ∀ act ∈ [AgentAct.fill c pa way, .writeback c pa, .evict c pa],
        dataByte (applyAct s act) a = dataByte s a) ∧
    (∀ j (h : j < s.pending.length),
      let t := applyAct s (.deliver j)
      { t with pending := s.pending, ic := s.ic, tlb := s.tlb } = s ∧
      t.pending = s.pending.eraseIdx j ∧
      (s.pending[j].op = .invalidateICache → t.ic = [] ∧ t.tlb = s.tlb) ∧
      (∀ va asid, s.pending[j].op = .invalidateTlb va asid → t.ic = s.ic ∧
        ∀ e, e ∈ t.tlb ↔ e ∈ s.tlb ∧ ¬(
          (va = 0 ∨ e.vpn = va.toNat / 2 ^ s.cfg.pageBits) ∧
          (asid = 0 ∨ e.asid.toNat % 2 ^ s.cfg.asidBits = asid.toNat % 2 ^ s.cfg.asidBits)))) ∧
    (∀ k (h : k < s.others.length),
      { switchTo k s with toHart := s.toHart, others := s.others } = s ∧
      (switchTo k s).toHart = s.others[k] ∧ (switchTo k s).others = s.others.set k s.toHart)

/-- Of the interrupts presented at the boundary those are taken that are enabled in `mie`, below M or with `MIE`
set (60 R475); a cause that has no bit there, being `XLEN` or more, needs none, the model's choice of
notes/assumptions/47.md. The machine's external interrupt (11) goes before its software interrupt (3) and that
before its timer interrupt (7), as 60 R456 orders them; that these three go before every other cause is the
model's choice (notes/assumptions/48.md). One is taken in place of an instruction, and without one the instruction
runs (that the others are dropped is the model's choice, notes/assumptions/7.md). -/
def Obligations.InterruptTakenOrMasked : Prop :=
  ∀ (s b : State), b = background s → configWf s.cfg = true →
    let ok (c : Nat) : Prop := c ∈ (takeSlot s).1.irqs ∧ (b.priv ≠ .m ∨ b.mstatus.mie = true) ∧
      (xlenBits b.cfg ≤ c ∨ b.mie.getLsbD c = true)
    ((∀ c, ¬ ok c) → step s = runNext b) ∧
    ((∃ c, ok c) → ∃ c, ok c ∧ step s = .next (trap b c true 0)) ∧
    (ok 11 → step s = .next (trap b 11 true 0)) ∧
    (ok 3 → ¬ ok 11 → step s = .next (trap b 3 true 0)) ∧
    (ok 7 → ¬ ok 11 → ¬ ok 3 → step s = .next (trap b 7 true 0))

/-- Trap entry: what is saved, what the status and the mode become, where `pc` goes, and that nothing else
changes (60 R470, decision D24; the reserved modes of `mtvec` go to the base by the model's choice of
notes/assumptions/37.md). -/
def Obligations.TrapEntry : Prop :=
  ∀ (s t : State) (code : Nat) (irq : Bool) (info : Word), t = trap s code irq info →
    { t with mepc := s.mepc, mcause := s.mcause, mtval := s.mtval, mstatus := s.mstatus,
             priv := s.priv, pc := s.pc } = s ∧
    (s.pc.toNat % pcAlign s.cfg = 0 → truncX s.cfg s.pc = s.pc → t.mepc = s.pc) ∧
    t.mcause.toNat = code % 2 ^ (xlenBits s.cfg - 1) + (if irq then 2 ^ (xlenBits s.cfg - 1) else 0) ∧
    t.mtval.toNat = info.toNat % 2 ^ xlenBits s.cfg ∧
    t.mstatus = { s.mstatus with mpie := s.mstatus.mie, mie := false, mpp := s.priv } ∧
    t.priv = .m ∧
    t.pc.toNat = (s.mtvec.toNat / 4 * 4 + (if s.mtvec.toNat % 4 = 1 ∧ irq = true then 4 * code else 0))
      % 2 ^ xlenBits s.cfg

/-- Trap return: `pc` from `mepc`, the level from `MPP`, the interrupt enable from `MPIE`, and what becomes
of the stacked fields (60 R472, decision D22). -/
def Obligations.TrapReturn : Prop :=
  ∀ (s t : State), t = mret s →
    { t with mstatus := s.mstatus, priv := s.priv, pc := s.pc } = s ∧
    t.pc.toNat % pcAlign s.cfg = 0 ∧
    (s.mepc.toNat % pcAlign s.cfg = 0 → t.pc.toNat = s.mepc.toNat % 2 ^ xlenBits s.cfg) ∧
    t.priv = s.mstatus.mpp ∧
    t.mstatus = { s.mstatus with
      mie := s.mstatus.mpie, mpie := true, mpp := if s.cfg.hasU then .u else .m,
      mprv := s.mstatus.mprv && s.mstatus.mpp == .m }

/-! ## Availability and privilege -/

/-- Every instruction that the configuration, its gate, `XLEN`, F or D does not make available is an illegal
instruction (30 R141; decisions D7 to D9; its trap value by notes/assumptions/18.md). Case by case: with
`THEADISAEE_GATED` and `mxstatus.theadisaee` 0 all 113 (00 R9); on RV32 those marked for RV64 alone (00 R7) and
those the parameters of decisions D29 and D30 turn off; on RV64 the moves of the upper half; without D or F
those of 64-bit or 32-bit floating-point registers (00 R8). -/
def Obligations.UnavailableIsIllegal : Prop :=
  ∀ (s : State),
    let isIllegal (i : Instr) : Prop := exec i s = .next (trap s 2 false (illegalInfo s.cfg (encode i)))
    (∀ i, available s i = false → isIllegal i) ∧
    (s.cfg.theadisaeeGated = true → s.mxstatus.theadisaee = false → ∀ i, isIllegal i) ∧
    ∀ (a b c : Reg) (k : BitVec 2) (m : BitVec 5),
      (s.cfg.xlen = .rv32 → ∀ i ∈ [Instr.srriw a b m, .revw a b, .lwuia a b m k, .lwuib a b m k,
          .ldia a b m k, .ldib a b m k, .sdia a b m k, .sdib a b m k, .lrwu a b c k, .lrd a b c k,
          .srd a b c k, .lurb a b c k, .lurbu a b c k, .lurh a b c k, .lurhu a b c k, .lurw a b c k,
          .lurwu a b c k, .lurd a b c k, .surb a b c k, .surh a b c k, .surw a b c k, .surd a b c k,
          .ldd a b c k, .sdd a b c k, .mulaw a b c], isIllegal i) ∧
      (s.cfg.xlen = .rv32 → s.cfg.mulswOnRv32 = false → isIllegal (.mulsw a b c)) ∧
      (s.cfg.xlen = .rv32 → s.cfg.fmemidxUOnRv32 = false → ∀ i ∈ [Instr.flurd a b c k, .flurw a b c k,
          .fsurd a b c k, .fsurw a b c k], isIllegal i) ∧
      (s.cfg.xlen = .rv64 → ∀ i ∈ [Instr.fmvXHw a b, .fmvHwX a b], isIllegal i) ∧
      (s.cfg.hasD = false → ∀ i ∈ [Instr.flrd a b c k, .flurd a b c k, .fsrd a b c k, .fsurd a b c k,
          .fmvXHw a b, .fmvHwX a b], isIllegal i) ∧
      (s.cfg.hasF = false → ∀ i ∈ [Instr.flrw a b c k, .flurw a b c k, .fsrw a b c k, .fsurw a b c k],
        isIllegal i)

/-- In U mode eighteen cache instructions and `th.sfence.vmas` are illegal (40 R174, 41 R212), the hardware
being there or not (decision D11), and the other three with the `ucme` gate closed (00 R10); outside M
mode `th.ipush` and `th.ipop` are (48 R402). With `FS_GATED` and the floating-point unit off the ten
instructions that touch a floating-point register are illegal (10 R40, decision D28). -/
def Obligations.NotPermittedIsIllegal : Prop :=
  ∀ (s : State) (a b c : Reg) (k : BitVec 2),
    let isIllegal (i : Instr) : Prop := exec i s = .next (trap s 2 false (illegalInfo s.cfg (encode i)))
    (s.priv = .u → ∀ i ∈ [Instr.dcacheCall, .dcacheCiall, .dcacheIall, .dcacheCpa a, .dcacheCipa a,
        .dcacheIpa a, .dcacheCva a, .dcacheIva a, .dcacheCsw a, .dcacheCisw a, .dcacheIsw a,
        .dcacheCpal1 a, .icacheIall, .icacheIalls, .icacheIpa a, .l2cacheCall, .l2cacheCiall,
        .l2cacheIall, .sfenceVmas a b], isIllegal i) ∧
    (s.priv = .u → s.cfg.ucmeGated = true → s.mxstatus.ucme = false →
      ∀ i ∈ [Instr.dcacheCiva a, .dcacheCval1 a, .icacheIva a], isIllegal i) ∧
    (s.priv ≠ .m → ∀ i ∈ [Instr.ipush, .ipop], isIllegal i) ∧
    (s.cfg.fsGated = true → s.mstatus.fs = 0 →
      ∀ i ∈ [Instr.flrd a b c k, .flrw a b c k, .flurd a b c k, .flurw a b c k, .fsrd a b c k,
        .fsrw a b c k, .fsurd a b c k, .fsurw a b c k, .fmvXHw a b, .fmvHwX a b], isIllegal i)

/-- Every instruction that answers a next state has gone on to the next word at the same privilege level,
or is `th.ipop` and has returned to the stacked level, or has taken one of the seven exceptions of the
collection with no register changed (10 R35; 60 R453, R470, R471; decision D5): storage may have changed by its
partial stores and, where the inputs let other agents act between its accesses (notes/assumptions/45.md), what
those reach. -/
def Obligations.CompletesReturnsOrTraps : Prop :=
  ∀ (i : Instr) (s t : State), exec i s = .next t →
    (NextInsn s t ∧ t.priv = s.priv) ∨
    (i = .ipop ∧ s.priv = .m ∧ t.priv = s.mstatus.mpp ∧ t.pc = readMepc t) ∨
    (∃ (u : State) (code : Nat) (info : Word), t = trap u code false info ∧
      code ∈ [2, 4, 5, 6, 7, 13, 15] ∧
      AgentsOnly s { u with freeCount := s.freeCount } ∧
      (s.inter.gaps = [] →
        { u with mem := s.mem, dc := s.dc, l2 := s.l2, others := s.others, freeCount := s.freeCount } = s ∧
        OthersKept s u))

/-! ## Invariants -/

/-- No step changes the registers that no instruction of the collection writes (10 R41, R45 to R48; 20 R98;
60 R475, R484), of any hart, though the harts may change places; and it changes no register at all of the harts
that do not execute (60 R484), nor the configuration. -/
def Obligations.StepKeepsSystemRegisters : Prop :=
  ∀ s t : State, step s = .next t →
    let kept (h : Hart) := (h.mhartid, h.mie, h.mtvec, h.mxstatus, h.vl, h.vtype, h.vxsat, h.vxrm,
      h.xlateOn, h.asid)
    t.cfg = s.cfg ∧
    ((harts t).map kept).Perm ((harts s).map kept) ∧
    kept t.toHart = kept (background s).toHart ∧
    t.others.map hartRegisters = (background s).others.map hartRegisters

/-- Every step keeps the control invariant: of every hart `pc` and `mepc` aligned and `XLEN` bits wide, the
privilege levels in force and stacked ones that exist (10 R34, R36, R43; 60 R480), and the `NHARTS` harts
numbered from 0 (60 R484). -/
def Obligations.StepKeepsControl : Prop :=
  ∀ s t : State, ControlInv s → step s = .next t → ControlInv t

/-- Every step keeps the register files of every hart as the spec gives them: `XLEN` and `FLEN` bits, register 0 zero, 32
vector registers (10 R30, R31, R38, R49). -/
def Obligations.StepKeepsRegisters : Prop :=
  ∀ s t : State, RegistersInv s → step s = .next t → RegistersInv t

/-- Every step, background activity included, keeps memory in its canonical form and the caches of every hart as
their shapes allow: whole lines, each once, each in a place of its own, no dirty line in an instruction cache
(20 R94; 40 R172, R173). It keeps as well that a clean line of `L2` says what `MEM` says and that with
`DCACHE_COHERENT` the copies of a line in D-caches agree, both of which rest on what a store of another agent
reaches, the model's choice of notes/assumptions/32.md, as the place of a line does on notes/assumptions/8.md. -/
def Obligations.StepKeepsStorage : Prop :=
  ∀ s t : State, StorageInv s → step s = .next t → StorageInv t

/-- With `DCACHE_COHERENT` every hart's data accesses read the same bytes (20 R100 e; what coherence reaches is
the model's choice, notes/assumptions/32.md, and so is that it does so at once, where 20 R100 d promises no order
to another hart, notes/assumptions/51.md). -/
def Obligations.CoherentCachesAgree : Prop :=
  ∀ (s : State) (k a : Nat), StorageInv s → s.cfg.dcacheCoherent = true →
    dataByte (switchTo k s) a = dataByte s a

/-- The machine right after reset meets the three invariants (10 R59); the values the spec leaves open are the
model's choice of notes/assumptions/1.md to 5.md. -/
def Obligations.ResetMeetsInvariants : Prop :=
  ControlInv State.reset ∧ RegistersInv State.reset ∧ StorageInv State.reset

/-- From every state that meets the control invariant no run ever stops by a fault (10 R36); that a
misaligned `pc` is the one fault is the model's choice of notes/assumptions/28.md. -/
def Obligations.NeverFaults : Prop :=
  ∀ s t : State, ControlInv s → Reaches s t → NoFault t

/-! ## Register arithmetic -/

/-- `th.addsl` (42 R231). -/
def Obligations.AddslResult : Prop :=
  ∀ (s : State) (rd rs1 rs2 : Reg) (imm2 : BitVec 2),
    encode (.addsl rd rs1 rs2 imm2) = 0b00000#5 ++ imm2 ++ rs2 ++ rs1 ++ 0b001#3 ++ rd ++ 0b0001011#7 ∧
    (enabled s .xTheadBa = true →
      ∃ t, exec (.addsl rd rs1 rs2 imm2) s = .next t ∧ NextInsn s t ∧ RegistersOnly s t [rd] ∧
        (rd ≠ 0 → (readX t rd).toNat =
          ((readX s rs1).toNat + (readX s rs2).toNat * 2 ^ imm2.toNat) % 2 ^ xlenBits s.cfg))

/-- `th.srri` (42 R232): bit `k` of the result is bit `k` + `imm6` of the source, round the register. -/
def Obligations.SrriResult : Prop :=
  ∀ (s : State) (rd rs1 : Reg) (imm6 : BitVec 6),
    encode (.srri rd rs1 imm6) = 0b000100#6 ++ imm6 ++ rs1 ++ 0b001#3 ++ rd ++ 0b0001011#7 ∧
    (enabled s .xTheadBb = true →
      ∃ t, exec (.srri rd rs1 imm6) s = .next t ∧ NextInsn s t ∧ RegistersOnly s t [rd] ∧
        (rd ≠ 0 → ∀ k < 64, (readX t rd).getLsbD k =
          (decide (k < xlenBits s.cfg) &&
            (readX s rs1).getLsbD ((k + imm6.toNat) % xlenBits s.cfg))))

/-- `th.srriw` and `th.revw` (42 R233, R239): the low word rotated, or its bytes in reverse order, sign-extended; of
`th.srriw` the source says so (R233), of `th.revw` decision D13 does. -/
def Obligations.WordResults : Prop :=
  ∀ (s : State) (rd rs1 : Reg) (imm5 : BitVec 5), enabled s .xTheadBb = true → s.cfg.xlen = .rv64 →
    (∃ t, exec (.srriw rd rs1 imm5) s = .next t ∧ NextInsn s t ∧ RegistersOnly s t [rd] ∧
      (rd ≠ 0 → ∀ k < 64, (readX t rd).getLsbD k =
        (readX s rs1).getLsbD ((min k 31 + imm5.toNat) % 32))) ∧
    (∃ t, exec (.revw rd rs1) s = .next t ∧ NextInsn s t ∧ RegistersOnly s t [rd] ∧
      (rd ≠ 0 → ∀ k < 64, (readX t rd).getLsbD k =
        (readX s rs1).getLsbD (8 * (3 - min k 31 / 8) + min k 31 % 8)))

/-- `th.ext` and `th.extu` (42 R234, R235): the bits `imm1` down to `imm2`, sign- or zero-extended. A field
that names no bit, and on RV32 a bit that does not exist, is reserved and refused (decisions D14, D15). -/
def Obligations.ExtractResults : Prop :=
  ∀ (s : State) (rd rs1 : Reg) (imm1 imm2 : BitVec 6), enabled s .xTheadBb = true →
    (imm2.toNat ≤ imm1.toNat → imm1.toNat < xlenBits s.cfg →
      (∃ t, exec (.ext rd rs1 imm1 imm2) s = .next t ∧ NextInsn s t ∧ RegistersOnly s t [rd] ∧
        (rd ≠ 0 → ∀ k < xlenBits s.cfg, (readX t rd).getLsbD k =
          (readX s rs1).getLsbD (min (imm2.toNat + k) imm1.toNat))) ∧
      (∃ t, exec (.extu rd rs1 imm1 imm2) s = .next t ∧ NextInsn s t ∧ RegistersOnly s t [rd] ∧
        (rd ≠ 0 → ∀ k < xlenBits s.cfg, (readX t rd).getLsbD k =
          (decide (imm2.toNat + k ≤ imm1.toNat) && (readX s rs1).getLsbD (imm2.toNat + k))))) ∧
    (imm1.toNat < imm2.toNat → ∀ i ∈ [Instr.ext rd rs1 imm1 imm2, .extu rd rs1 imm1 imm2],
      exec i s = .refused .reservedField) ∧
    (imm2.toNat ≤ imm1.toNat → xlenBits s.cfg ≤ imm1.toNat →
      ∀ i ∈ [Instr.ext rd rs1 imm1 imm2, .extu rd rs1 imm1 imm2],
      exec i s = .refused .reservedBitIndex)

/-- `th.ff0` and `th.ff1` (42 R236, R237): the index, from the highest bit, of the first bit with the value
sought, `XLEN` if there is none. -/
def Obligations.FindFirstResults : Prop :=
  ∀ (s : State) (rd rs1 : Reg),
    encode (.ff0 rd rs1) = 0b1000010#7 ++ 0#5 ++ rs1 ++ 0b001#3 ++ rd ++ 0b0001011#7 ∧
    encode (.ff1 rd rs1) = 0b1000011#7 ++ 0#5 ++ rs1 ++ 0b001#3 ++ rd ++ 0b0001011#7 ∧
    (enabled s .xTheadBb = true →
      ∀ p ∈ [(Instr.ff0 rd rs1, false), (Instr.ff1 rd rs1, true)],
      ∃ t, exec p.1 s = .next t ∧ NextInsn s t ∧ RegistersOnly s t [rd] ∧
        (rd ≠ 0 → (readX t rd).toNat ≤ xlenBits s.cfg ∧
          (∀ k < (readX t rd).toNat, (readX s rs1).getLsbD (xlenBits s.cfg - 1 - k) ≠ p.2) ∧
          ((readX t rd).toNat < xlenBits s.cfg →
            (readX s rs1).getLsbD (xlenBits s.cfg - 1 - (readX t rd).toNat) = p.2)))

/-- `th.rev` and `th.tstnbz` (42 R238, R240), byte by byte. -/
def Obligations.ByteResults : Prop :=
  ∀ (s : State) (rd rs1 : Reg),
    encode (.rev rd rs1) = 0b1000001#7 ++ 0#5 ++ rs1 ++ 0b001#3 ++ rd ++ 0b0001011#7 ∧
    encode (.tstnbz rd rs1) = 0b1000000#7 ++ 0#5 ++ rs1 ++ 0b001#3 ++ rd ++ 0b0001011#7 ∧
    (enabled s .xTheadBb = true →
      (∃ t, exec (.rev rd rs1) s = .next t ∧ NextInsn s t ∧ RegistersOnly s t [rd] ∧
        (rd ≠ 0 → (readX t rd).toNat < 2 ^ xlenBits s.cfg ∧
          ∀ k < xlenBits s.cfg / 8, (readX t rd).extractLsb' (8 * k) 8 =
            (readX s rs1).extractLsb' (8 * (xlenBits s.cfg / 8 - 1 - k)) 8)) ∧
      (∃ t, exec (.tstnbz rd rs1) s = .next t ∧ NextInsn s t ∧ RegistersOnly s t [rd] ∧
        (rd ≠ 0 → (readX t rd).toNat < 2 ^ xlenBits s.cfg ∧
          ∀ k < xlenBits s.cfg / 8, (readX t rd).extractLsb' (8 * k) 8 =
            if (readX s rs1).extractLsb' (8 * k) 8 = 0 then 0xff else 0)))

/-- `th.tst` (42 R241): 1 or 0 as the bit is set or not; a bit that does not exist is reserved and refused
(decision D15). -/
def Obligations.TstResult : Prop :=
  ∀ (s : State) (rd rs1 : Reg) (imm6 : BitVec 6), enabled s .xTheadBs = true →
    (imm6.toNat < xlenBits s.cfg →
      ∃ t, exec (.tst rd rs1 imm6) s = .next t ∧ NextInsn s t ∧ RegistersOnly s t [rd] ∧
        (rd ≠ 0 → (readX t rd).toNat = (readX s rs1).toNat / 2 ^ imm6.toNat % 2)) ∧
    (xlenBits s.cfg ≤ imm6.toNat → exec (.tst rd rs1 imm6) s = .refused .reservedBitIndex)

/-- `th.mveqz` and `th.mvnez` (42 R242, R243): `rd` receives `x[rs1]` when the condition on all of `x[rs2]`
holds and is not written otherwise. -/
def Obligations.ConditionalMoves : Prop :=
  ∀ (s : State) (rd rs1 rs2 : Reg),
    encode (.mveqz rd rs1 rs2) = 0b0100000#7 ++ rs2 ++ rs1 ++ 0b001#3 ++ rd ++ 0b0001011#7 ∧
    encode (.mvnez rd rs1 rs2) = 0b0100001#7 ++ rs2 ++ rs1 ++ 0b001#3 ++ rd ++ 0b0001011#7 ∧
    (enabled s .xTheadCondMov = true →
      ∀ p ∈ [(Instr.mveqz rd rs1 rs2, decide (readX s rs2 = 0)),
             (Instr.mvnez rd rs1 rs2, decide (readX s rs2 ≠ 0))],
      ∃ t, exec p.1 s = .next t ∧ NextInsn s t ∧
        RegistersOnly s t (if p.2 then [rd] else []) ∧
        (rd ≠ 0 → readX t rd = if p.2 then readX s rs1 else readX s rd))

/-- `th.mula` and `th.muls` (47 R381, R384): modulo 2^`XLEN`, all three registers read before `rd` is
written. -/
def Obligations.WholeMultiplyAccumulate : Prop :=
  ∀ (s : State) (rd rs1 rs2 : Reg),
    encode (.mula rd rs1 rs2) = 0b0010000#7 ++ rs2 ++ rs1 ++ 0b001#3 ++ rd ++ 0b0001011#7 ∧
    encode (.muls rd rs1 rs2) = 0b0010001#7 ++ rs2 ++ rs1 ++ 0b001#3 ++ rd ++ 0b0001011#7 ∧
    (enabled s .xTheadMac = true →
      ∀ p ∈ [(Instr.mula rd rs1 rs2, (1 : Int)), (Instr.muls rd rs1 rs2, -1)],
      ∃ t, exec p.1 s = .next t ∧ NextInsn s t ∧ RegistersOnly s t [rd] ∧
        (rd ≠ 0 → ((readX t rd).toNat : Int) =
          ((readX s rd).toNat + p.2 * ((readX s rs1).toNat * (readX s rs2).toNat)) %
            2 ^ xlenBits s.cfg))

/-- `th.mulah` and `th.mulsh` (47 R382, R385): signed halfwords, modulo 2^32, sign-extended. -/
def Obligations.HalfMultiplyAccumulate : Prop :=
  ∀ (s : State) (rd rs1 rs2 : Reg),
    encode (.mulah rd rs1 rs2) = 0b0010100#7 ++ rs2 ++ rs1 ++ 0b001#3 ++ rd ++ 0b0001011#7 ∧
    encode (.mulsh rd rs1 rs2) = 0b0010101#7 ++ rs2 ++ rs1 ++ 0b001#3 ++ rd ++ 0b0001011#7 ∧
    (enabled s .xTheadMac = true →
      ∀ p ∈ [(Instr.mulah rd rs1 rs2, (1 : Int)), (Instr.mulsh rd rs1 rs2, -1)],
      ∃ t, exec p.1 s = .next t ∧ NextInsn s t ∧ RegistersOnly s t [rd] ∧
        (rd ≠ 0 → ((readX t rd).toNat : Int) =
          Int.bmod ((readX s rd).toNat +
            p.2 * (((readX s rs1).setWidth 16).toInt * ((readX s rs2).setWidth 16).toInt)) (2 ^ 32) %
            2 ^ xlenBits s.cfg))

/-- `th.mulaw` and `th.mulsw` (47 R383, R386): words, modulo 2^32, sign-extended; `th.mulsw` on RV32 by
`MULSW_ON_RV32` (decision D30). -/
def Obligations.WordMultiplyAccumulate : Prop :=
  ∀ (s : State) (rd rs1 rs2 : Reg), enabled s .xTheadMac = true →
    ∀ p ∈ [(Instr.mulaw rd rs1 rs2, (1 : Int), decide (s.cfg.xlen = .rv64)),
           (Instr.mulsw rd rs1 rs2, -1, decide (s.cfg.xlen = .rv64) || s.cfg.mulswOnRv32)],
      p.2.2 = true →
      ∃ t, exec p.1 s = .next t ∧ NextInsn s t ∧ RegistersOnly s t [rd] ∧
        (rd ≠ 0 → ((readX t rd).toNat : Int) =
          Int.bmod ((readX s rd).toNat +
            p.2.1 * (((readX s rs1).setWidth 32).toInt * ((readX s rs2).setWidth 32).toInt)) (2 ^ 32) %
            2 ^ xlenBits s.cfg)

/-! ## Memory -/

/-- Every effective address is computed modulo 2^`XLEN` (20 R82; 43 R260; 44 R300; 45 R340; 48 R403). -/
def Obligations.AddressArithmetic : Prop :=
  ∀ (s : State) (rs1 rs2 : Reg) (imm5 : BitVec 5) (imm2 : BitVec 2) (n k : Nat) (top : Word),
    incAddr s .after rs1 imm5 imm2 = readX s rs1 ∧
    IncrementedBase s rs1 imm5 imm2 (incAddr s .before rs1 imm5 imm2) ∧
    (indexedAddr s .whole rs1 rs2 imm2).toNat =
      ((readX s rs1).toNat + (readX s rs2).toNat * 2 ^ imm2.toNat) % 2 ^ xlenBits s.cfg ∧
    (indexedAddr s .low32 rs1 rs2 imm2).toNat =
      ((readX s rs1).toNat + (readX s rs2).toNat % 2 ^ 32 * 2 ^ imm2.toNat) % 2 ^ xlenBits s.cfg ∧
    (pairAddr s n rs1 imm2).toNat =
      ((readX s rs1).toNat + imm2.toNat * (2 * n)) % 2 ^ xlenBits s.cfg ∧
    (pairAddr2 s n rs1 imm2).toNat =
      ((readX s rs1).toNat + imm2.toNat * (2 * n) + n) % 2 ^ xlenBits s.cfg ∧
    ((slotAddr s top k).toNat : Int) = ((top.toNat : Int) - 4 - 4 * k) % 2 ^ xlenBits s.cfg

/-- The fourteen increment loads (43 R260 to R276): `rd` receives the extended value and `rs1` the new base,
the access using the old base or the new one. -/
def Obligations.IncrementLoads : Prop :=
  ∀ p ∈ ([(.lbia, .after, .sign, 1, false), (.lbib, .before, .sign, 1, false),
      (.lbuia, .after, .zero, 1, false), (.lbuib, .before, .zero, 1, false),
      (.lhia, .after, .sign, 2, false), (.lhib, .before, .sign, 2, false),
      (.lhuia, .after, .zero, 2, false), (.lhuib, .before, .zero, 2, false),
      (.lwia, .after, .sign, 4, false), (.lwib, .before, .sign, 4, false),
      (.lwuia, .after, .zero, 4, true), (.lwuib, .before, .zero, 4, true),
      (.ldia, .after, .sign, 8, true), (.ldib, .before, .sign, 8, true)] :
      List ((Reg → Reg → BitVec 5 → BitVec 2 → Instr) × When × Extend × Nat × Bool)),
    let (mk, order, e, n, rv64Only) := p
    ∀ (s : State) (rd rs1 : Reg) (imm5 : BitVec 5) (imm2 : BitVec 2) (pas : List Nat),
      enabled s .xTheadMemIdx = true → (rv64Only = true → s.cfg.xlen = .rv64) → rd ≠ rs1 →
      AccessMaps s .load (incAddr s order rs1 imm5 imm2) n pas →
      ∃ t, exec (mk rd rs1 imm5 imm2) s = .next t ∧ NextInsn s t ∧ RegistersOnly s t [rd, rs1] ∧
        (rd ≠ 0 → Extends s.cfg e n (loadedNat s pas) (readX t rd)) ∧
        (rs1 ≠ 0 → IncrementedBase s rs1 imm5 imm2 (readX t rs1))

/-- The eight increment stores (43 R260 to R262, R277 to R284): `rs1` receives the new base, and the bytes at
the address receive `x[rd]`, or, in an increment-before form with `rd = rs1`, what `SIB_SAME_REG` says
(43 R261, decision D16). -/
def Obligations.IncrementStores : Prop :=
  ∀ p ∈ ([(.sbia, .after, 1, false), (.sbib, .before, 1, false), (.shia, .after, 2, false),
      (.shib, .before, 2, false), (.swia, .after, 4, false), (.swib, .before, 4, false),
      (.sdia, .after, 8, true), (.sdib, .before, 8, true)] :
      List ((Reg → Reg → BitVec 5 → BitVec 2 → Instr) × When × Nat × Bool)),
    let (mk, order, n, rv64Only) := p
    ∀ (s : State) (rd rs1 : Reg) (imm5 : BitVec 5) (imm2 : BitVec 2) (pas : List Nat),
      enabled s .xTheadMemIdx = true → (rv64Only = true → s.cfg.xlen = .rv64) →
      (order = .before ∧ rd = rs1 ∧ s.cfg.sibSameReg = .refuse →
        exec (mk rd rs1 imm5 imm2) s = .refused .sibSameReg) ∧
      (¬(order = .before ∧ rd = rs1 ∧ s.cfg.sibSameReg = .refuse) →
        AccessMaps s .store (incAddr s order rs1 imm5 imm2) n pas →
        ∃ t, exec (mk rd rs1 imm5 imm2) s = .next t ∧ NextInsn s t ∧ StorageFrame s t [rs1] pas ∧
          (rs1 ≠ 0 → IncrementedBase s rs1 imm5 imm2 (readX t rs1)) ∧
          (StorageInv s → pas.Nodup → HoldsBytes t pas
            (if order = .before ∧ rd = rs1 ∧ rs1 ≠ 0 ∧ s.cfg.sibSameReg = .new
              then newBase s rs1 imm5 imm2 else readX s rd)))

/-- The fourteen register-indexed loads (44 R300 to R308, R313 to R319). -/
def Obligations.IndexedLoads : Prop :=
  ∀ p ∈ ([(.lrb, .whole, .sign, 1, false), (.lrbu, .whole, .zero, 1, false),
      (.lrh, .whole, .sign, 2, false), (.lrhu, .whole, .zero, 2, false),
      (.lrw, .whole, .sign, 4, false), (.lrwu, .whole, .zero, 4, true),
      (.lrd, .whole, .sign, 8, true), (.lurb, .low32, .sign, 1, true),
      (.lurbu, .low32, .zero, 1, true), (.lurh, .low32, .sign, 2, true),
      (.lurhu, .low32, .zero, 2, true), (.lurw, .low32, .sign, 4, true),
      (.lurwu, .low32, .zero, 4, true), (.lurd, .low32, .sign, 8, true)] :
      List ((Reg → Reg → Reg → BitVec 2 → Instr) × Index × Extend × Nat × Bool)),
    let (mk, index, e, n, rv64Only) := p
    ∀ (s : State) (rd rs1 rs2 : Reg) (imm2 : BitVec 2) (pas : List Nat),
      enabled s .xTheadMemIdx = true → (rv64Only = true → s.cfg.xlen = .rv64) →
      AccessMaps s .load (indexedAddr s index rs1 rs2 imm2) n pas →
      ∃ t, exec (mk rd rs1 rs2 imm2) s = .next t ∧ NextInsn s t ∧ RegistersOnly s t [rd] ∧
        (rd ≠ 0 → Extends s.cfg e n (loadedNat s pas) (readX t rd))

/-- The eight register-indexed stores (44 R300, R301, R309 to R312, R320 to R323). -/
def Obligations.IndexedStores : Prop :=
  ∀ p ∈ ([(.srb, .whole, 1, false), (.srh, .whole, 2, false), (.srw, .whole, 4, false),
      (.srd, .whole, 8, true), (.surb, .low32, 1, true), (.surh, .low32, 2, true),
      (.surw, .low32, 4, true), (.surd, .low32, 8, true)] :
      List ((Reg → Reg → Reg → BitVec 2 → Instr) × Index × Nat × Bool)),
    let (mk, index, n, rv64Only) := p
    ∀ (s : State) (rd rs1 rs2 : Reg) (imm2 : BitVec 2) (pas : List Nat),
      enabled s .xTheadMemIdx = true → (rv64Only = true → s.cfg.xlen = .rv64) →
      AccessMaps s .store (indexedAddr s index rs1 rs2 imm2) n pas →
      ∃ t, exec (mk rd rs1 rs2 imm2) s = .next t ∧ NextInsn s t ∧ StorageFrame s t [] pas ∧
        (StorageInv s → pas.Nodup → HoldsBytes t pas (readX s rd))

/-- The three pair loads (45 R340 to R344): both values are loaded before either register is written,
here with nothing between the two accesses. -/
def Obligations.PairLoads : Prop :=
  ∀ p ∈ ([(.ldd, .sign, 8, true), (.lwd, .sign, 4, false), (.lwud, .zero, 4, false)] :
      List ((Reg → Reg → Reg → BitVec 2 → Instr) × Extend × Nat × Bool)),
    let (mk, e, n, rv64Only) := p
    ∀ (s : State) (rd1 rd2 rs1 : Reg) (imm2 : BitVec 2) (pas1 pas2 : List Nat),
      enabled s .xTheadMemPair = true → (rv64Only = true → s.cfg.xlen = .rv64) → s.inter.gaps = [] →
      rd1 ≠ rd2 → rd1 ≠ rs1 → rd2 ≠ rs1 →
      AccessMaps s .load (pairAddr s n rs1 imm2) n pas1 →
      AccessMaps s .load (pairAddr2 s n rs1 imm2) n pas2 →
      ∃ t, exec (mk rd1 rd2 rs1 imm2) s = .next t ∧ NextInsn s t ∧ RegistersOnly s t [rd1, rd2] ∧
        (rd1 ≠ 0 → Extends s.cfg e n (loadedNat s pas1) (readX t rd1)) ∧
        (rd2 ≠ 0 → Extends s.cfg e n (loadedNat s pas2) (readX t rd2))

/-- The two pair stores (45 R340, R345, R346), here with nothing between the two accesses. -/
def Obligations.PairStores : Prop :=
  ∀ p ∈ ([(.sdd, 8, true), (.swd, 4, false)] :
      List ((Reg → Reg → Reg → BitVec 2 → Instr) × Nat × Bool)),
    let (mk, n, rv64Only) := p
    ∀ (s : State) (rd1 rd2 rs1 : Reg) (imm2 : BitVec 2) (pas1 pas2 : List Nat),
      enabled s .xTheadMemPair = true → (rv64Only = true → s.cfg.xlen = .rv64) → s.inter.gaps = [] →
      AccessMaps s .store (pairAddr s n rs1 imm2) n pas1 →
      AccessMaps s .store (pairAddr2 s n rs1 imm2) n pas2 →
      ∃ t, exec (mk rd1 rd2 rs1 imm2) s = .next t ∧ NextInsn s t ∧
        StorageFrame s t [] (pas1 ++ pas2) ∧
        (StorageInv s → (pas1 ++ pas2).Nodup →
          HoldsBytes t pas1 (readX s rd1) ∧ HoldsBytes t pas2 (readX s rd2))

/-- A pair one half of which raises an exception traps with that half's (45 R340, decision D44): a pair load writes
nothing; of a pair store the other half may or may not have been written, and nothing else. If both halves raise,
the one at the lower address is reported and nothing is written. (With `misalignedPartial`, notes/assumptions/46.md,
single bytes of misaligned halves may be written, as 20 R88 allows.) -/
def Obligations.PairTraps : Prop :=
  ∀ p ∈ ([(.ldd, .load, 8, true), (.lwd, .load, 4, false), (.lwud, .load, 4, false),
      (.sdd, .store, 8, true), (.swd, .store, 4, false)] :
      List ((Reg → Reg → Reg → BitVec 2 → Instr) × AccessKind × Nat × Bool)),
    let (mk, kind, n, rv64Only) := p
    ∀ (s : State) (rd1 rd2 rs1 : Reg) (imm2 : BitVec 2),
      enabled s .xTheadMemPair = true → (rv64Only = true → s.cfg.xlen = .rv64) → s.inter.gaps = [] →
      (kind = .load → rd1 ≠ rd2 ∧ rd1 ≠ rs1 ∧ rd2 ≠ rs1) →
      let va1 := pairAddr s n rs1 imm2
      let va2 := pairAddr2 s n rs1 imm2
      let whole : Prop := kind = .load ∨ s.cfg.misalignedPartial = false ∨ va1.toNat % n = 0
      (∀ q ∈ [(va1, va2, readX s rd2), (va2, va1, readX s rd1)], ∀ pas : List Nat,
        (∃ code info, RaisesAt s kind q.1 n code info) → AccessMaps s kind q.2.1 n pas →
        ∃ u code info, RaisesAt s kind q.1 n code info ∧
          exec (mk rd1 rd2 rs1 imm2) s = .next (trap u code false info) ∧
          (kind = .load → u = s) ∧ PartlyStored s u [va1, va2] n ∧
          (whole → (∀ a, a ∉ pas → SameBytes s u a) ∧
            ((∀ a, SameBytes s u a) ∨ (StorageInv s → pas.Nodup → HoldsBytes u pas q.2.2)))) ∧
      ((∃ code info, RaisesAt s kind va1 n code info) → (∃ code info, RaisesAt s kind va2 n code info) →
        ∃ u code info, RaisesAt s kind (if va2.toNat < va1.toNat then va2 else va1) n code info ∧
          exec (mk rd1 rd2 rs1 imm2) s = .next (trap u code false info) ∧
          (whole → u = s) ∧ PartlyStored s u [va1, va2] n)

/-- Other agents can act between any two of the pieces an instruction's accesses are performed in, and the pieces
come in any order (20 R88, R92; 45 R340; 70 R535; decision D21): a misaligned access that is emulated byte by byte,
the two accesses of a pair, the eighteen of `th.ipush` and `th.ipop`. First, of an aligned pair: the second access,
be it the first half's or the second's, meets the memory and the translations as the agents left them. Then of
all 59 instructions that load or store, with whatever activity in every gap: what each piece reads or
stores at its moment, what the instruction makes of it, what else is unchanged, and which exception it takes. That
the inputs say the order and the activity is the model's choice (notes/assumptions/45.md), as are the aligned
8-byte access of a floating-point register on RV32 performed as a whole (53.md) and what a trapped store leaves (15.md,
46.md). -/
def Obligations.AccessInterleaving : Prop :=
  (∀ p ∈ ([(.ldd, .load, .sign, 8, true), (.lwd, .load, .sign, 4, false), (.lwud, .load, .zero, 4, false),
        (.sdd, .store, .sign, 8, true), (.swd, .store, .sign, 4, false)] :
        List ((Reg → Reg → Reg → BitVec 2 → Instr) × AccessKind × Extend × Nat × Bool)),
      let (mk, kind, e, n, rv64Only) := p
      ∀ (s : State) (rd1 rd2 rs1 : Reg) (imm2 : BitVec 2),
        enabled s .xTheadMemPair = true → (rv64Only = true → s.cfg.xlen = .rv64) →
        (pairAddr s n rs1 imm2).toNat % n = 0 →
        let lower := (pairAddr s n rs1 imm2, rd1)
        let upper := (pairAddr2 s n rs1 imm2, rd2)
        let swap := s.inter.order.find? (· < 2) = some 1
        let (va1, r1) := if swap then upper else lower
        let (va2, r2) := if swap then lower else upper
        let between (u : State) := applyActs u (s.inter.gaps.headD [])
        let run := exec (mk rd1 rd2 rs1 imm2) s
        (kind = .load → rd1 ≠ rd2 → rd1 ≠ rs1 → rd2 ≠ rs1 →
          (∀ pas1 pas2, AccessMaps s .load va1 n pas1 → AccessMaps (between s) .load va2 n pas2 →
            ∃ t, run = .next t ∧ NextInsn s t ∧ RegistersOnly (between s) t [rd1, rd2] ∧
              (r1 ≠ 0 → Extends s.cfg e n (loadedNat s pas1) (readX t r1)) ∧
              (r2 ≠ 0 → Extends s.cfg e n (loadedNat (between s) pas2) (readX t r2))) ∧
          (∀ code pas2, AccessRaises s .load va1 n code → AccessMaps (between s) .load va2 n pas2 →
            run = .next (trap (between s) code false va1)) ∧
          (∀ code pas1, AccessMaps s .load va1 n pas1 → AccessRaises (between s) .load va2 n code →
            run = .next (trap (between s) code false va2))) ∧
        (kind = .store →
          (∀ pas1, AccessMaps s .store va1 n pas1 →
            ∃ u, u.pc = s.pc ∧ StorageFrame s u [] pas1 ∧
              (StorageInv s → pas1.Nodup → HoldsBytes u pas1 (readX s r1)) ∧
              (∀ pas2, AccessMaps (between u) .store va2 n pas2 →
                ∃ t, run = .next t ∧ NextInsn s t ∧ StorageFrame (between u) t [] pas2 ∧
                  (StorageInv s → pas2.Nodup → HoldsBytes t pas2 (readX s r2))) ∧
              (∀ code, AccessRaises (between u) .store va2 n code →
                ∃ x f, (x = s ∨ x = u) ∧
                  run = .next (trap { between x with freeCount := f } code false va2))) ∧
          (∀ code pas2, AccessRaises s .store va1 n code → AccessMaps (between s) .store va2 n pas2 →
            ∃ t f, run = .next (trap { t with freeCount := f } code false va1) ∧ t.pc = s.pc ∧
              StorageFrame (between s) t [] pas2 ∧
              (t = between s ∨ (StorageInv s → pas2.Nodup → HoldsBytes t pas2 (readX s r2))))) ∧
        (∀ code1 code2, (kind = .load → rd1 ≠ rd2 ∧ rd1 ≠ rs1 ∧ rd2 ≠ rs1) →
          AccessRaises s kind va1 n code1 → AccessRaises (between s) kind va2 n code2 →
          run = .next (if va2.toNat < va1.toNat then trap (between s) code2 false va2
            else trap (between s) code1 false va1))) ∧
  (∀ l l' : List Piece, l'.Perm l ↔ ∃ order, l' = arrange order l) ∧
  ∀ (s : State) (a b c : Reg) (m : BitVec 5) (k : BitVec 2),
    let load (va : Word) (n : Nat) : Req := ⟨va, n, 0⟩
    (a ≠ b → ∀ p ∈ [(Instr.lbia a b m k, When.after, Extend.sign, 1), (.lbib a b m k, .before, .sign, 1),
          (.lbuia a b m k, .after, .zero, 1), (.lbuib a b m k, .before, .zero, 1),
          (.lhia a b m k, .after, .sign, 2), (.lhib a b m k, .before, .sign, 2),
          (.lhuia a b m k, .after, .zero, 2), (.lhuib a b m k, .before, .zero, 2),
          (.lwia a b m k, .after, .sign, 4), (.lwib a b m k, .before, .sign, 4),
          (.lwuia a b m k, .after, .zero, 4), (.lwuib a b m k, .before, .zero, 4),
          (.ldia a b m k, .after, .sign, 8), (.ldib a b m k, .before, .sign, 8)],
      let (i, order, e, n) := p
      available s i = true → LoadsInTurn i s [load (incAddr s order b m k) n] fun u num t =>
        NextInsn s t ∧ RegistersOnly u t [a, b] ∧ (a ≠ 0 → Extends s.cfg e n (num 0) (readX t a)) ∧
        (b ≠ 0 → IncrementedBase s b m k (readX t b))) ∧
    (∀ p ∈ [(Instr.lrb a b c k, Index.whole, Extend.sign, 1), (.lrbu a b c k, .whole, .zero, 1),
          (.lrh a b c k, .whole, .sign, 2), (.lrhu a b c k, .whole, .zero, 2),
          (.lrw a b c k, .whole, .sign, 4), (.lrwu a b c k, .whole, .zero, 4),
          (.lrd a b c k, .whole, .sign, 8), (.lurb a b c k, .low32, .sign, 1),
          (.lurbu a b c k, .low32, .zero, 1), (.lurh a b c k, .low32, .sign, 2),
          (.lurhu a b c k, .low32, .zero, 2), (.lurw a b c k, .low32, .sign, 4),
          (.lurwu a b c k, .low32, .zero, 4), (.lurd a b c k, .low32, .sign, 8)],
      let (i, index, e, n) := p
      available s i = true → LoadsInTurn i s [load (indexedAddr s index b c k) n] fun u num t =>
        NextInsn s t ∧ RegistersOnly u t [a] ∧ (a ≠ 0 → Extends s.cfg e n (num 0) (readX t a))) ∧
    ((s.cfg.fsGated = true → s.mstatus.fs ≠ 0) →
      ∀ p ∈ [(Instr.flrd a b c k, Index.whole, 8), (.flrw a b c k, .whole, 4), (.flurd a b c k, .low32, 8),
          (.flurw a b c k, .low32, 4)],
      let (i, index, n) := p
      available s i = true → LoadsInTurn i s [load (indexedAddr s index b c k) n] fun u num t =>
        NextInsn s t ∧ FloatOnly u t a ∧
        (readF t a).toNat = num 0 + (if n = 4 ∧ s.cfg.hasD = true then 2 ^ 64 - 2 ^ 32 else 0)) ∧
    (a ≠ b → a ≠ c → b ≠ c →
      ∀ p ∈ [(Instr.ldd a b c k, Extend.sign, 8), (.lwd a b c k, .sign, 4), (.lwud a b c k, .zero, 4)],
      let (i, e, n) := p
      available s i = true →
      LoadsInTurn i s [load (pairAddr s n c k) n, load (pairAddr2 s n c k) n] fun u num t =>
        NextInsn s t ∧ RegistersOnly u t [a, b] ∧ (a ≠ 0 → Extends s.cfg e n (num 0) (readX t a)) ∧
        (b ≠ 0 → Extends s.cfg e n (num 1) (readX t b))) ∧
    (available s .ipop = true → s.priv = .m → (s.cfg.xlen = .rv64 → s.cfg.xtheadintOnRv64 = true) →
      LoadsInTurn .ipop s ((List.range 18).map fun j => load (slotAddr s (readIntSp s + 72) j) 4) fun u num t =>
        ∃ item : Nat → Word, (∀ j < 18, Extends s.cfg .sign 4 (num j) (item j)) ∧
        { t with x := u.x, pc := u.pc, priv := u.priv, mstatus := u.mstatus, mcause := u.mcause,
                 mepc := u.mepc, intSp := u.intSp, freeCount := u.freeCount } = u ∧
        (item 0 ∈ legalCauses s.cfg → t.mcause = item 0) ∧
        (legalCauses s.cfg ≠ [] → t.mcause ∈ legalCauses s.cfg) ∧
        t.mepc.toNat = (item 1).toNat / pcAlign s.cfg * pcAlign s.cfg ∧
        (∀ j (hj : j < frameRegs.length), s.cfg.intSpReg ≠ .gpr frameRegs[j] →
          readX t frameRegs[j] = item (j + 2)) ∧
        (∀ r, r ∉ frameRegs → s.cfg.intSpReg ≠ .gpr r → readX t r = readX s r) ∧
        (s.cfg.intSpReg ≠ .gpr 0 →
          (readIntSp t).toNat = ((readIntSp s).toNat + 72) % 2 ^ xlenBits s.cfg) ∧
        t.pc = t.mepc ∧ t.priv = s.mstatus.mpp ∧
        t.mstatus = { s.mstatus with
          mie := s.mstatus.mpie, mpie := true, mpp := if s.cfg.hasU then .u else .m,
          mprv := s.mstatus.mprv && s.mstatus.mpp == .m } ∧
        (∀ a, SameBytes u t a)) ∧
    (∀ p ∈ [(Instr.sbia a b m k, When.after, 1), (.sbib a b m k, .before, 1), (.shia a b m k, .after, 2),
          (.shib a b m k, .before, 2), (.swia a b m k, .after, 4), (.swib a b m k, .before, 4),
          (.sdia a b m k, .after, 8), (.sdib a b m k, .before, 8)],
      let (i, order, n) := p
      let v := if order = .before ∧ a = b ∧ b ≠ 0 ∧ s.cfg.sibSameReg = .new then newBase s b m k else readX s a
      available s i = true → ¬(order = .before ∧ a = b ∧ s.cfg.sibSameReg = .refuse) →
      StoresInTurn i s [⟨incAddr s order b m k, n, v⟩] fun w t =>
        NextInsn s t ∧ RegistersOnly w t [b] ∧ (b ≠ 0 → IncrementedBase s b m k (readX t b))) ∧
    (∀ p ∈ [(Instr.srb a b c k, Index.whole, 1), (.srh a b c k, .whole, 2), (.srw a b c k, .whole, 4),
          (.srd a b c k, .whole, 8), (.surb a b c k, .low32, 1), (.surh a b c k, .low32, 2),
          (.surw a b c k, .low32, 4), (.surd a b c k, .low32, 8)],
      let (i, index, n) := p
      available s i = true → StoresInTurn i s [⟨indexedAddr s index b c k, n, readX s a⟩] fun w t =>
        NextInsn s t ∧ RegistersOnly w t []) ∧
    ((s.cfg.fsGated = true → s.mstatus.fs ≠ 0) →
      ∀ p ∈ [(Instr.fsrd a b c k, Index.whole, 8), (.fsrw a b c k, .whole, 4), (.fsurd a b c k, .low32, 8),
          (.fsurw a b c k, .low32, 4)],
      let (i, index, n) := p
      available s i = true → StoresInTurn i s [⟨indexedAddr s index b c k, n, readF s a⟩] fun w t =>
        NextInsn s t ∧ RegistersOnly w t []) ∧
    (∀ p ∈ [(Instr.sdd a b c k, 8), (.swd a b c k, 4)],
      let (i, n) := p
      available s i = true →
      StoresInTurn i s [⟨pairAddr s n c k, n, readX s a⟩, ⟨pairAddr2 s n c k, n, readX s b⟩] fun w t =>
        NextInsn s t ∧ RegistersOnly w t []) ∧
    (available s .ipush = true → s.priv = .m → (s.cfg.xlen = .rv64 → s.cfg.xtheadintOnRv64 = true) →
      StoresInTurn .ipush s ((frameItems s).zipIdx.map fun p => ⟨slotAddr s (readIntSp s) p.2, 4, p.1⟩) fun w t =>
        NextInsn s t ∧ { t with x := w.x, pc := w.pc, intSp := w.intSp, mstatus := w.mstatus } = w ∧
        t.mstatus = { s.mstatus with mie := s.mstatus.mie || s.cfg.ipushSetsMie } ∧
        (s.cfg.intSpReg ≠ .gpr 0 →
          ((readIntSp t).toNat : Int) = ((readIntSp s).toNat - 72 : Int) % 2 ^ xlenBits s.cfg) ∧
        (∀ r, s.cfg.intSpReg ≠ .gpr r → readX t r = readX s r) ∧ (∀ a, SameBytes w t a))

/-- The four floating-point loads (46 R360 to R363, R368, R370): 8 bytes whole, 4 bytes under ones when the
register has 64 bits; the unit becomes Dirty under `FS_GATED` (decision D28). That an aligned access of 8 bytes
is performed as a whole on RV32 too, whatever other agents do, is the model's choice (notes/assumptions/53.md). -/
def Obligations.FloatLoads : Prop :=
  ∀ p ∈ ([(.flrd, .whole, 8, false), (.flrw, .whole, 4, false), (.flurd, .low32, 8, true),
      (.flurw, .low32, 4, true)] :
      List ((Reg → Reg → Reg → BitVec 2 → Instr) × Index × Nat × Bool)),
    let (mk, index, n, unsignedForm) := p
    ∀ (s : State) (rd rs1 rs2 : Reg) (imm2 : BitVec 2) (pas : List Nat),
      enabled s .xTheadFMemIdx = true →
      (unsignedForm = true → s.cfg.xlen = .rv64 ∨ s.cfg.fmemidxUOnRv32 = true) →
      (if n = 8 then s.cfg.hasD = true else s.cfg.hasF = true) →
      (s.cfg.fsGated = true → s.mstatus.fs ≠ 0) →
      AccessMaps s .load (indexedAddr s index rs1 rs2 imm2) n pas →
      ∃ t, exec (mk rd rs1 rs2 imm2) s = .next t ∧ NextInsn s t ∧ FloatOnly s t rd ∧
        (readF t rd).toNat =
          loadedNat s pas + (if n = 4 ∧ s.cfg.hasD = true then 2 ^ 64 - 2 ^ 32 else 0)

/-- The four floating-point stores (46 R364 to R367, R368, R370). That an aligned access of 8 bytes is performed as
a whole on RV32 too, whatever other agents do, is the model's choice (notes/assumptions/53.md). -/
def Obligations.FloatStores : Prop :=
  ∀ p ∈ ([(.fsrd, .whole, 8, false), (.fsrw, .whole, 4, false), (.fsurd, .low32, 8, true),
      (.fsurw, .low32, 4, true)] :
      List ((Reg → Reg → Reg → BitVec 2 → Instr) × Index × Nat × Bool)),
    let (mk, index, n, unsignedForm) := p
    ∀ (s : State) (rd rs1 rs2 : Reg) (imm2 : BitVec 2) (pas : List Nat),
      enabled s .xTheadFMemIdx = true →
      (unsignedForm = true → s.cfg.xlen = .rv64 ∨ s.cfg.fmemidxUOnRv32 = true) →
      (if n = 8 then s.cfg.hasD = true else s.cfg.hasF = true) →
      (s.cfg.fsGated = true → s.mstatus.fs ≠ 0) →
      AccessMaps s .store (indexedAddr s index rs1 rs2 imm2) n pas →
      ∃ t, exec (mk rd rs1 rs2 imm2) s = .next t ∧ NextInsn s t ∧ StorageFrame s t [] pas ∧
        (StorageInv s → pas.Nodup → HoldsBytes t pas (readF s rd))

/-- The two moves of the upper half (48 R400, R401; `FMV_HW_X_SWAPPED`, decision D31). -/
def Obligations.FloatMoves : Prop :=
  ∀ (s : State) (rd fs1 : Reg), enabled s .xTheadFmv = true → s.cfg.xlen = .rv32 →
    s.cfg.hasD = true → (s.cfg.fsGated = true → s.mstatus.fs ≠ 0) →
    (∃ t, exec (.fmvXHw rd fs1) s = .next t ∧ NextInsn s t ∧ RegistersOnly s t [rd] ∧
      (rd ≠ 0 → (readX t rd).toNat = (readF s fs1).toNat / 2 ^ 32)) ∧
    (∀ fr xr, (fr, xr) = (if s.cfg.fmvHwXSwapped then (rd, fs1) else (fs1, rd)) →
      ∃ t, exec (.fmvHwX rd fs1) s = .next t ∧ NextInsn s t ∧ FloatOnly s t fr ∧
        (readF t fr).toNat = (readX s xr).toNat * 2 ^ 32 + (readF s fr).toNat % 2 ^ 32)

/-- Every instruction with one memory access takes that access's exception with no register written, the
base of an increment form included, and nothing stored (60 R452, decisions D5, D24; the order of the three is
R455, D42). Performed byte by byte it takes the exception of one of its bytes (20 R88): with `misalignedPartial`
a store may then have written some of the others, without it, none (notes/assumptions/46.md). An aligned access of
8 bytes is performed as a whole on RV32 too, the model's choice (53.md). -/
def Obligations.AccessExceptions : Prop :=
  ∀ (s : State) (a b c : Reg) (m : BitVec 5) (k : BitVec 2),
    let raises (kind : AccessKind) (i : Instr) (va : Word) (n : Nat) : Prop :=
      available s i = true → (va.toNat % n ≠ 0 → s.cfg.misaligned = .emulate → s.inter.gaps = []) →
      (∃ code info, RaisesAt s kind va n code info) →
      ∃ u code info, RaisesAt s kind va n code info ∧ exec i s = .next (trap u code false info) ∧
        PartlyStored s u [va] n ∧
        (kind = .load ∨ va.toNat % n = 0 ∨ s.cfg.misaligned = .trap ∨ s.cfg.misalignedPartial = false →
          u = s)
    (a ≠ b →
      ∀ p ∈ [(Instr.lbia a b m k, When.after, 1), (.lbib a b m k, .before, 1),
          (.lbuia a b m k, .after, 1), (.lbuib a b m k, .before, 1), (.lhia a b m k, .after, 2),
          (.lhib a b m k, .before, 2), (.lhuia a b m k, .after, 2), (.lhuib a b m k, .before, 2),
          (.lwia a b m k, .after, 4), (.lwib a b m k, .before, 4), (.lwuia a b m k, .after, 4),
          (.lwuib a b m k, .before, 4), (.ldia a b m k, .after, 8), (.ldib a b m k, .before, 8)],
      raises .load p.1 (incAddr s p.2.1 b m k) p.2.2) ∧
    (∀ p ∈ [(Instr.sbia a b m k, When.after, 1), (.sbib a b m k, .before, 1),
          (.shia a b m k, .after, 2), (.shib a b m k, .before, 2), (.swia a b m k, .after, 4),
          (.swib a b m k, .before, 4), (.sdia a b m k, .after, 8), (.sdib a b m k, .before, 8)],
      (p.2.1 = .before → a = b → s.cfg.sibSameReg ≠ .refuse) →
      raises .store p.1 (incAddr s p.2.1 b m k) p.2.2) ∧
    (∀ p ∈ [(Instr.lrb a b c k, AccessKind.load, Index.whole, 1), (.lrbu a b c k, .load, .whole, 1),
          (.lrh a b c k, .load, .whole, 2), (.lrhu a b c k, .load, .whole, 2),
          (.lrw a b c k, .load, .whole, 4), (.lrwu a b c k, .load, .whole, 4),
          (.lrd a b c k, .load, .whole, 8), (.lurb a b c k, .load, .low32, 1),
          (.lurbu a b c k, .load, .low32, 1), (.lurh a b c k, .load, .low32, 2),
          (.lurhu a b c k, .load, .low32, 2), (.lurw a b c k, .load, .low32, 4),
          (.lurwu a b c k, .load, .low32, 4), (.lurd a b c k, .load, .low32, 8),
          (.srb a b c k, .store, .whole, 1), (.srh a b c k, .store, .whole, 2),
          (.srw a b c k, .store, .whole, 4), (.srd a b c k, .store, .whole, 8),
          (.surb a b c k, .store, .low32, 1), (.surh a b c k, .store, .low32, 2),
          (.surw a b c k, .store, .low32, 4), (.surd a b c k, .store, .low32, 8)],
      raises p.2.1 p.1 (indexedAddr s p.2.2.1 b c k) p.2.2.2) ∧
    ((s.cfg.fsGated = true → s.mstatus.fs ≠ 0) →
      ∀ p ∈ [(Instr.flrd a b c k, AccessKind.load, Index.whole, 8), (.flrw a b c k, .load, .whole, 4),
          (.flurd a b c k, .load, .low32, 8), (.flurw a b c k, .load, .low32, 4),
          (.fsrd a b c k, .store, .whole, 8), (.fsrw a b c k, .store, .whole, 4),
          (.fsurd a b c k, .store, .low32, 8), (.fsurw a b c k, .store, .low32, 4)],
      raises p.2.1 p.1 (indexedAddr s p.2.2.1 b c k) p.2.2.2)

/-- The increment loads with `rd = rs1` and the pair loads with two equal registers are reserved and
refused (43 R261, 45 R341, decision D6); the interrupt frame on RV64 is refused without
`XTHEADINT_ON_RV64` (48 R402, decision D19). -/
def Obligations.ReservedIsRefused : Prop :=
  ∀ (s : State) (a b c : Reg) (m : BitVec 5) (k : BitVec 2),
    (∀ i ∈ [Instr.lbia a a m k, .lbib a a m k, .lbuia a a m k, .lbuib a a m k, .lhia a a m k,
        .lhib a a m k, .lhuia a a m k, .lhuib a a m k, .lwia a a m k, .lwib a a m k, .lwuia a a m k,
        .lwuib a a m k, .ldia a a m k, .ldib a a m k],
      available s i = true → exec i s = .refused .reservedOperands) ∧
    (a = b ∨ a = c ∨ b = c → ∀ i ∈ [Instr.ldd a b c k, .lwd a b c k, .lwud a b c k],
      available s i = true → exec i s = .refused .reservedOperands) ∧
    (s.priv = .m → s.cfg.xlen = .rv64 → s.cfg.xtheadintOnRv64 = false →
      ∀ i ∈ [Instr.ipush, .ipop], available s i = true → exec i s = .refused .rv64Frame)

/-! ## The interrupt stack -/

/-- `th.ipush` (48 R402 to R404, decisions D17 to D19, D23): the 18 items go to their slots, `int_sp` moves
down by 72, and nothing else changes, but for `MIE` under `IPUSH_SETS_MIE`; here with nothing between the accesses. -/
def Obligations.PushFrame : Prop :=
  ∀ (s : State) (pas : Nat → List Nat), enabled s .xTheadInt = true → s.priv = .m →
    (s.cfg.xlen = .rv64 → s.cfg.xtheadintOnRv64 = true) → s.inter.gaps = [] →
    (∀ k < 18, AccessMaps s .store (slotAddr s (readIntSp s) k) 4 (pas k)) →
    ∃ t, exec .ipush s = .next t ∧ NextInsn s t ∧
      { t with x := s.x, pc := s.pc, intSp := s.intSp, mstatus := s.mstatus,
               mem := s.mem, dc := s.dc, l2 := s.l2, others := s.others } = s ∧
      OthersKept s t ∧
      t.mstatus = { s.mstatus with mie := s.mstatus.mie || s.cfg.ipushSetsMie } ∧
      (s.cfg.intSpReg ≠ .gpr 0 →
        ((readIntSp t).toNat : Int) = ((readIntSp s).toNat - 72 : Int) % 2 ^ xlenBits s.cfg) ∧
      (∀ r, s.cfg.intSpReg ≠ .gpr r → readX t r = readX s r) ∧
      (∀ a, a ∉ (List.range 18).flatMap pas → SameBytes s t a) ∧
      (StorageInv s → ((List.range 18).flatMap pas).Nodup →
        HoldsBytes t (pas 0) s.mcause ∧ HoldsBytes t (pas 1) (readMepc s) ∧
        ∀ k (hk : k < frameRegs.length), HoldsBytes t (pas (k + 2)) (readX s frameRegs[k]))

/-- `th.ipop` (48 R402, R403, R405, R406; decisions D17 to D22): the 18 items are loaded, `mcause` and `mepc`
written as CSRs, the sixteen registers and `int_sp` written, and the hart returns. A cause that `mcause`
cannot hold leaves a free legal one (93 U21; notes/assumptions/17.md). Here nothing lies between the accesses. -/
def Obligations.PopFrame : Prop :=
  ∀ (s : State) (pas : Nat → List Nat), enabled s .xTheadInt = true → s.priv = .m →
    (s.cfg.xlen = .rv64 → s.cfg.xtheadintOnRv64 = true) → s.inter.gaps = [] →
    (∀ k < 18, AccessMaps s .load (slotAddr s (readIntSp s + 72) k) 4 (pas k)) →
    ∃ (t : State) (item : Nat → Word), exec .ipop s = .next t ∧
      (∀ k < 18, Extends s.cfg .sign 4 (loadedNat s (pas k)) (item k)) ∧
      { t with x := s.x, pc := s.pc, priv := s.priv, mstatus := s.mstatus, mcause := s.mcause,
               mepc := s.mepc, intSp := s.intSp, freeCount := s.freeCount } = s ∧
      (item 0 ∈ legalCauses s.cfg → t.mcause = item 0) ∧
      (legalCauses s.cfg ≠ [] → t.mcause ∈ legalCauses s.cfg) ∧
      t.mepc.toNat = (item 1).toNat / pcAlign s.cfg * pcAlign s.cfg ∧
      (∀ k (hk : k < frameRegs.length), s.cfg.intSpReg ≠ .gpr frameRegs[k] →
        readX t frameRegs[k] = item (k + 2)) ∧
      (∀ r, r ∉ frameRegs → s.cfg.intSpReg ≠ .gpr r → readX t r = readX s r) ∧
      (s.cfg.intSpReg ≠ .gpr 0 →
        (readIntSp t).toNat = ((readIntSp s).toNat + 72) % 2 ^ xlenBits s.cfg) ∧
      t.pc = t.mepc ∧ t.priv = s.mstatus.mpp ∧
      t.mstatus = { s.mstatus with
        mie := s.mstatus.mpie, mpie := true, mpp := if s.cfg.hasU then .u else .m,
        mprv := s.mstatus.mprv && s.mstatus.mpp == .m } ∧
      (∀ a, SameBytes s t a)

/-- `th.ipush` and `th.ipop` with a slot that raises an exception (48 R404, R405; decisions D20, D21, D44): the
slot at the lowest address is reported, and no register is written, `int_sp` included. A pop stores nothing; of a
push every other slot may or may not have been written, each as a whole (or byte by byte with
`misalignedPartial`, notes/assumptions/46.md). -/
def Obligations.FrameTraps : Prop :=
  ∀ (s : State), enabled s .xTheadInt = true → s.priv = .m →
    (s.cfg.xlen = .rv64 → s.cfg.xtheadintOnRv64 = true) → s.inter.gaps = [] →
    ∀ p ∈ [(Instr.ipush, AccessKind.store, readIntSp s), (.ipop, .load, readIntSp s + 72)],
      let slot (k : Nat) : Word := slotAddr s p.2.2 k
      let raises (k : Nat) : Prop := ∃ code info, RaisesAt s p.2.1 (slot k) 4 code info
      (∃ k < 18, raises k) →
      ∃ u k code info, k < 18 ∧ RaisesAt s p.2.1 (slot k) 4 code info ∧
        (∀ j < 18, raises j → (slot k).toNat ≤ (slot j).toNat) ∧
        exec p.1 s = .next (trap u code false info) ∧
        (p.1 = .ipop → u = s) ∧
        (p.1 = .ipush → PartlyStored s u ((List.range 18).map slot) 4 ∧
          (s.cfg.misalignedPartial = false ∨ (slot 0).toNat % 4 = 0 → ∀ pas : Nat → List Nat,
            (∀ j < 18, AccessMaps s .store (slot j) 4 (pas j) ∨ raises j ∧ pas j = []) →
            (∀ a, a ∉ (List.range 18).flatMap pas → SameBytes s u a) ∧
            (StorageInv s → ((List.range 18).flatMap pas).Nodup →
              ∀ j (hj : j < (frameItems s).length),
                (∀ a ∈ pas j, SameBytes s u a) ∨ HoldsBytes u (pas j) (frameItems s)[j])))

/-- A push followed by a pop (48 R408), on RV32 with an aligned `int_sp` outside the sixteen registers and
plain memory under the frame, nothing between the accesses: `int_sp`, `mcause`, `mepc` and the sixteen registers are as before, and
control is at `mepc` with `mstatus` as after the return. -/
def Obligations.PushThenPop : Prop :=
  ∀ (s : State) (pas : Nat → List Nat), enabled s .xTheadInt = true → s.priv = .m →
    s.cfg.xlen = .rv32 → StorageInv s → s.cfg.ipushSetsMie = false →
    s.inter.gaps = [] → (∀ r ∈ 0 :: frameRegs, s.cfg.intSpReg ≠ .gpr r) →
    s.mcause ∈ legalCauses s.cfg → mepcValue s.cfg s.mepc = s.mepc →
    (∀ k < 18, AccessMaps s .store (slotAddr s (readIntSp s) k) 4 (pas k) ∧
      AccessMaps s .load (slotAddr s (readIntSp s) k) 4 (pas k)) →
    ((List.range 18).flatMap pas).Nodup →
    ∃ t u, exec .ipush s = .next t ∧ exec .ipop t = .next u ∧
      readIntSp u = readIntSp s ∧ u.mcause = s.mcause ∧ u.mepc = s.mepc ∧
      (∀ r, readX u r = readX s r) ∧ u.pc = s.mepc ∧ u.priv = s.mstatus.mpp ∧
      u.mstatus = { s.mstatus with
        mie := s.mstatus.mpie, mpie := true, mpp := if s.cfg.hasU then .u else .m,
        mprv := s.mstatus.mprv && s.mstatus.mpp == .m }

/-! ## Vectors -/

/-- The seven dot products (49 R420 to R429, decision D32): every element from `th.vstart` to below `th.vl`
receives the old element plus the exact products that take part, modulo 2^32, and below `th.vstart` an
element keeps its value; from `th.vl` on it is as `VDOT_TAIL` says. Product `k` of element `i` takes part when
the instruction is unmasked or mask bit 4 `i` + `k` of the old register 0 is 1 (49 R428 c), which lies where
`maskAt` says (the interface of the vector base, the model's choice of notes/assumptions/21.md and 35.md; the
old register of 43.md). A `.vx` form runs whatever the number of `rs1`, the model's choice too (44.md). -/
def Obligations.VectorDotProducts : Prop :=
  ∀ (s : State) (vd v1 vs2 : Reg) (vm : Bool), enabled s .xTheadVdot = true →
    s.vregs.length = 32 * elemsPerReg s.cfg →
    ∀ p ∈ [(Instr.vmaqaVv vd v1 vs2 vm, Factor.signed, Factor.signed, true),
        (.vmaqaVx vd v1 vs2 vm, .signed, .signed, false),
        (.vmaqauVv vd v1 vs2 vm, .unsigned, .unsigned, true),
        (.vmaqauVx vd v1 vs2 vm, .unsigned, .unsigned, false),
        (.vmaqasuVv vd v1 vs2 vm, .signed, .unsigned, true),
        (.vmaqasuVx vd v1 vs2 vm, .signed, .unsigned, false),
        (.vmaqausVx vd v1 vs2 vm, .unsigned, .signed, false)],
      VdotRuns s vm vd (if p.2.2.2 then [vd, v1, vs2] else [vd, vs2]) →
      ∀ on : Nat → Nat → Bool, (∀ i k, on i k = true ↔ vm = true ∨
        (s.vregs.getD (maskAt s (4 * i + k) / 32) 0).getLsbD (maskAt s (4 * i + k) % 32) = true) →
      ∃ t, exec p.1 s = .next t ∧ NextInsn s t ∧ VectorOnly s t vd ∧
        ∀ i < vlmax s,
          (s.vstart.toNat ≤ i → i < s.vl.toNat → (elem32 t vd i).toInt =
            Int.bmod ((elem32 s vd i).toInt + dotInt (on i) p.2.1 p.2.2.1
              (if p.2.2.2 then elem32 s v1 i else (readX s v1).setWidth 32) (elem32 s vs2 i))
              (2 ^ 32)) ∧
          (i < s.vstart.toNat ∨ s.vl.toNat ≤ s.vstart.toNat ∨
              s.vl.toNat ≤ i ∧ s.cfg.vdotTail = .undisturbed →
            elem32 t vd i = elem32 s vd i) ∧
          (s.vstart.toNat < s.vl.toNat → s.vl.toNat ≤ i →
            (s.cfg.vdotTail = .zero → elem32 t vd i = 0) ∧
            (s.cfg.vdotTail = .ones → elem32 t vd i = BitVec.allOnes 32))

/-- Where one of the conditions of 49 R429 fails the dot products are illegal and write nothing
(decision D33; what makes the vector base refuse is PRESUMED, notes/assumptions/21.md, and of a `.vx` form not the number of
`rs1`, the model's choice of 44.md). -/
def Obligations.VectorIllegal : Prop :=
  ∀ (s : State) (vd v1 vs2 : Reg) (vm : Bool),
    ∀ p ∈ [(Instr.vmaqaVv vd v1 vs2 vm, true), (.vmaqaVx vd v1 vs2 vm, false),
        (.vmaqauVv vd v1 vs2 vm, true), (.vmaqauVx vd v1 vs2 vm, false),
        (.vmaqasuVv vd v1 vs2 vm, true), (.vmaqasuVx vd v1 vs2 vm, false),
        (.vmaqausVx vd v1 vs2 vm, false)],
      ¬ VdotRuns s vm vd (if p.2 then [vd, v1, vs2] else [vd, vs2]) →
      exec p.1 s = .next (trap s 2 false (illegalInfo s.cfg (encode p.1)))

/-! ## Caches and synchronisation -/

/-- A cache instruction that may run and whose hardware is not there does nothing but advance `pc`
(40 R170): three of them run in U mode too unless the `ucme` gate is closed (40 R174; 00 R10). The requirement of a
`va` instruction is read by `VA_OPS_WITHOUT_MMU` (decision D35). -/
def Obligations.CacheMissingHardware : Prop :=
  ∀ (s : State) (a : Reg), enabled s .xTheadCmo = true →
    let onlyAdvances (i : Instr) : Prop := ∃ t, exec i s = .next t ∧ NextInsn s t ∧ RegistersOnly s t []
    (s.priv ≠ .u →
      ∀ p ∈ [(Instr.dcacheCall, s.cfg.hasDCache), (.dcacheCiall, s.cfg.hasDCache),
          (.dcacheIall, s.cfg.hasDCache), (.dcacheCpa a, s.cfg.hasDCache), (.dcacheCipa a, s.cfg.hasDCache),
          (.dcacheIpa a, s.cfg.hasDCache), (.dcacheCva a, s.cfg.hasDCache && mmuForVa s.cfg),
          (.dcacheIva a, s.cfg.hasDCache && mmuForVa s.cfg), (.dcacheCsw a, s.cfg.hasDCache),
          (.dcacheCisw a, s.cfg.hasDCache), (.dcacheIsw a, s.cfg.hasDCache),
          (.dcacheCpal1 a, s.cfg.hasDCache && s.cfg.hasL2),
          (.icacheIall, s.cfg.hasICache), (.icacheIalls, s.cfg.hasICache && s.cfg.multicore),
          (.icacheIpa a, s.cfg.hasICache),
          (.l2cacheCall, (s.cfg.hasDCache || s.cfg.hasICache) && s.cfg.hasL2),
          (.l2cacheCiall, (s.cfg.hasDCache || s.cfg.hasICache) && s.cfg.hasL2),
          (.l2cacheIall, (s.cfg.hasDCache || s.cfg.hasICache) && s.cfg.hasL2)],
        p.2 = false → onlyAdvances p.1) ∧
    ((s.priv = .u → s.cfg.ucmeGated = true → s.mxstatus.ucme = true) →
      ∀ p ∈ [(Instr.dcacheCiva a, s.cfg.hasDCache && mmuForVa s.cfg),
          (.dcacheCval1 a, s.cfg.hasDCache && s.cfg.hasL2 && mmuForVa s.cfg),
          (.icacheIva a, s.cfg.hasICache && mmuForVa s.cfg)],
        p.2 = false → onlyAdvances p.1)

/-- The cache instructions on all lines apply their operation of 40 R171 to every line of their cache
(20 R95); `th.icache.ialls` leaves a broadcast on its way to every other hart as well (41 R211, decision
D39). -/
def Obligations.CacheWholeOperations : Prop :=
  ∀ s : State, enabled s .xTheadCmo = true → s.priv ≠ .u →
    (∀ p ∈ [(Instr.dcacheCall, CacheOp.clean, CacheId.dc, s.cfg.hasDCache),
        (.dcacheCiall, .cleanInvalidate, .dc, s.cfg.hasDCache),
        (.dcacheIall, .invalidate, .dc, s.cfg.hasDCache),
        (.icacheIall, .invalidate, .ic, s.cfg.hasICache),
        (.l2cacheCall, .clean, .l2, (s.cfg.hasDCache || s.cfg.hasICache) && s.cfg.hasL2),
        (.l2cacheCiall, .cleanInvalidate, .l2, (s.cfg.hasDCache || s.cfg.hasICache) && s.cfg.hasL2),
        (.l2cacheIall, .invalidate, .l2, (s.cfg.hasDCache || s.cfg.hasICache) && s.cfg.hasL2)],
      p.2.2.2 = true →
        exec p.1 s = .next (advance (cacheOp p.2.1 s p.2.2.1 ((cacheLines s p.2.2.1).map Line.addr)))) ∧
    (s.cfg.hasICache = true → s.cfg.multicore = true →
      ∃ t, exec .icacheIalls s = .next t ∧ NextInsn s t ∧ cacheLines t .ic = [] ∧
        { t with pc := s.pc, ic := s.ic, others := s.others } = s ∧
        t.others = s.others.map fun h =>
          { h with pending := h.pending ++ [⟨s.mhartid, .invalidateICache⟩] })

/-- The cache instructions with an address apply their operation of 40 R171 to the one line that contains the
byte (40 R173), in U mode too for three of them (40 R174); six reach `L2` as well under
`DCACHE_OPS_REACH_L2` (20 R97, decision D34). A physical address beyond `PALEN` is refused (93 U9), and a
virtual one without a translation selects no line (decision D35). The order of the two levels and the
translation without a permission are the model's choices of notes/assumptions/26.md and 39.md. -/
def Obligations.CacheAddressOperations : Prop :=
  ∀ (s : State) (a : Reg), enabled s .xTheadCmo = true →
    let lineOf (c : CacheId) (pa : Nat) : List Nat :=
      [pa / 2 ^ (cacheGeom s.cfg c).l * 2 ^ (cacheGeom s.cfg c).l]
    let result (op : CacheOp) (c : CacheId) (reaches : Bool) (pa : Nat) : State :=
      if reaches = true ∧ s.cfg.dcacheOpsReachL2 = true
        then advance (cacheOp op (cacheOp op s c (lineOf c pa)) .l2 (lineOf .l2 pa))
        else advance (cacheOp op s c (lineOf c pa))
    (s.priv ≠ .u →
      ∀ p ∈ [(Instr.dcacheCpa a, CacheOp.clean, CacheId.dc, true, s.cfg.hasDCache),
          (.dcacheCipa a, .cleanInvalidate, .dc, true, s.cfg.hasDCache),
          (.dcacheIpa a, .invalidate, .dc, true, s.cfg.hasDCache),
          (.dcacheCpal1 a, .clean, .dc, false, s.cfg.hasDCache && s.cfg.hasL2),
          (.icacheIpa a, .invalidate, .ic, false, s.cfg.hasICache)],
      p.2.2.2.2 = true →
        ((readX s a).toNat < 2 ^ s.cfg.palen →
          exec p.1 s = .next (result p.2.1 p.2.2.1 p.2.2.2.1 (readX s a).toNat)) ∧
        (2 ^ s.cfg.palen ≤ (readX s a).toNat → exec p.1 s = .refused .paTooWide)) ∧
    (mmuForVa s.cfg = true →
      ∀ p ∈ [(Instr.dcacheCva a, CacheOp.clean, CacheId.dc, true, s.cfg.hasDCache && aboveU s),
          (.dcacheCiva a, .cleanInvalidate, .dc, true, s.cfg.hasDCache && uModeOk s),
          (.dcacheIva a, .invalidate, .dc, true, s.cfg.hasDCache && aboveU s),
          (.dcacheCval1 a, .clean, .dc, false, s.cfg.hasDCache && s.cfg.hasL2 && uModeOk s),
          (.icacheIva a, .invalidate, .ic, false, s.cfg.hasICache && uModeOk s)],
      p.2.2.2.2 = true →
        (∀ pa, translateForCache s (readX s a) = some pa →
          exec p.1 s = .next (result p.2.1 p.2.2.1 p.2.2.2.1 pa)) ∧
        (translateForCache s (readX s a) = none → exec p.1 s = .next (advance s)))

/-- The set/way instructions act on the one line that sits at the set and way of the operand, in the cache
of its level (40 R172); a level without a cache selects nothing (decision D35), whatever other bits the operand
has, where 93 U6 and U7 both speak: the model's choice of notes/assumptions/24.md. At a level with a cache an
operand with any other bit set is refused (93 U6). The set a line belongs to is PRESUMED
(notes/assumptions/8.md). -/
def Obligations.SetWayOperations : Prop :=
  ∀ (s : State) (a : Reg), enabled s .xTheadCmo = true → s.priv ≠ .u → s.cfg.hasDCache = true →
    StorageInv s →
    ∀ p ∈ [(Instr.dcacheCsw a, CacheOp.clean), (.dcacheCisw a, .cleanInvalidate),
        (.dcacheIsw a, .invalidate)],
      (∀ q ∈ [(0, CacheId.dc), (1, CacheId.l2)], cachePresent s.cfg q.2 = true →
        geomWf (cacheGeom s.cfg q.2) = true → (readX s a).toNat / 2 % 8 = q.1 →
        let g := cacheGeom s.cfg q.2
        (∀ way set, way < 2 ^ g.w → set < 2 ^ g.s →
          (readX s a).toNat = way * 2 ^ (32 - g.w) + set * 2 ^ g.l + q.1 * 2 →
          (∀ ln ∈ cacheLines s q.2, setIndex g ln.addr = set → ln.way = way →
            exec p.1 s = .next (advance (cacheOp p.2 s q.2 [ln.addr]))) ∧
          ((∀ ln ∈ cacheLines s q.2, setIndex g ln.addr = set → ln.way ≠ way) →
            ∃ t, exec p.1 s = .next t ∧ NextInsn s t ∧ RegistersOnly s t [])) ∧
        ((∀ way set, way < 2 ^ g.w → set < 2 ^ g.s →
            (readX s a).toNat ≠ way * 2 ^ (32 - g.w) + set * 2 ^ g.l + q.1 * 2) →
          exec p.1 s = .refused .setWayReserved)) ∧
      (2 ≤ (readX s a).toNat / 2 % 8 ∨ (readX s a).toNat / 2 % 8 = 1 ∧ s.cfg.hasL2 = false →
        ∃ t, exec p.1 s = .next t ∧ NextInsn s t ∧ RegistersOnly s t [])

/-- A clean never changes what a data access of this hart reads (40 R175), keeps the storage well formed, and
leaves the lines where they are, those selected clean (20 R95). It touches nothing but its cache and the levels its
dirty lines are written back to (20 R94): a clean of `L2` leaves the D-cache's lines and their dirty marks as
they are, and a clean of the I-cache, whose lines are never dirty, changes nothing. -/
def Obligations.CleanKeepsData : Prop :=
  ∀ (s : State) (c : CacheId) (as : List Nat), StorageInv s →
    StorageInv (cacheOp .clean s c as) ∧
    (∀ a, dataByte (cacheOp .clean s c as) a = dataByte s a) ∧
    cacheLines (cacheOp .clean s c as) c =
      (cacheLines s c).map (fun ln => if as.contains ln.addr then { ln with dirty := false } else ln) ∧
    { cacheOp .clean s c as with mem := s.mem, dc := s.dc, l2 := s.l2 } = s ∧
    OnlyCacheAndBelow c s (cacheOp .clean s c as) ∧ cacheOp .clean s .ic as = s

/-- After a clean of the D-cache or of `L2` the next-level storage holds what a dirty line selected held
(20 R95, R96), and every other byte of it is as before. -/
def Obligations.CleanReachesNextLevel : Prop :=
  ∀ (s : State) (as : List Nat) (a : Nat), StorageInv s →
    ((∃ ln ∈ cacheLines s .dc, ln.addr ∈ as ∧ ln.dirty = true ∧ lineAddr s.cfg.dcGeom a = ln.addr) →
      lowerByte (cacheOp .clean s .dc as) a = dataByte s a) ∧
    ((¬ ∃ ln ∈ cacheLines s .dc, ln.addr ∈ as ∧ ln.dirty = true ∧ lineAddr s.cfg.dcGeom a = ln.addr) →
      lowerByte (cacheOp .clean s .dc as) a = lowerByte s a) ∧
    ((∃ ln ∈ cacheLines s .l2, ln.addr ∈ as ∧ ln.dirty = true ∧ lineAddr s.cfg.l2Geom a = ln.addr) →
      memRead (cacheOp .clean s .l2 as).mem a = lowerByte s a) ∧
    ((¬ ∃ ln ∈ cacheLines s .l2, ln.addr ∈ as ∧ ln.dirty = true ∧ lineAddr s.cfg.l2Geom a = ln.addr) →
      memRead (cacheOp .clean s .l2 as).mem a = memRead s.mem a)

/-- An invalidate of a cache removes the lines selected, writes nothing back and changes nothing else: what was
only in a dirty line is lost, and the level below is read in their place (20 R95, R96). A clean and invalidate is
a clean and then an invalidate (20 R95): the lines selected are gone, the others are as they were, the next level
holds what the dirty ones held, no byte that only they held is lost, and nothing but that cache and the levels its
dirty lines are written back to changes: of `L2` the D-cache stays as it is, of the I-cache every other level
(20 R94). R96 says the next-level storage; with
`DCACHE_COHERENT` a data access that its own D-cache does not serve reads another hart's copy first
(`belowByte`), the model's choice (notes/assumptions/32.md), without it the next level alone. -/
def Obligations.InvalidateForgets : Prop :=
  ∀ (s : State) (as : List Nat) (a : Nat),
    (∀ c, let t := cacheOp .invalidate s c as
      cacheLines t c = (cacheLines s c).filter (fun ln => !as.contains ln.addr) ∧
      (∀ c', c' ≠ c → cacheLines t c' = cacheLines s c') ∧
      { t with dc := s.dc, ic := s.ic, l2 := s.l2 } = s ∧ OnlyCache c s t) ∧
    dataByte (cacheOp .invalidate s .dc as) a =
      (if as.contains (lineAddr s.cfg.dcGeom a) then belowByte s a else dataByte s a) ∧
    (s.cfg.dcacheCoherent = false → belowByte s a = lowerByte s a) ∧
    lowerByte (cacheOp .invalidate s .dc as) a = lowerByte s a ∧
    fetchByte (cacheOp .invalidate s .ic as) a =
      (if as.contains (lineAddr s.cfg.icGeom a) then lowerByte s a else fetchByte s a) ∧
    lowerByte (cacheOp .invalidate s .l2 as) a =
      (if as.contains (lineAddr s.cfg.l2Geom a) then memRead s.mem a else lowerByte s a) ∧
    (∀ c, cacheOp .cleanInvalidate s c as = cacheOp .invalidate (cacheOp .clean s c as) c as ∧
      OnlyCacheAndBelow c s (cacheOp .cleanInvalidate s c as)) ∧
    (StorageInv s →
      (∀ c, let t := cacheOp .cleanInvalidate s c as
        StorageInv t ∧ cacheLines t c = (cacheLines s c).filter (fun ln => !as.contains ln.addr) ∧
        { t with mem := s.mem, dc := s.dc, ic := s.ic, l2 := s.l2 } = s) ∧
      (let dirty (c : CacheId) : Prop := ∃ ln ∈ cacheLines s c, ln.addr ∈ as ∧ ln.dirty = true ∧
        lineAddr (cacheGeom s.cfg c) a = ln.addr
       (dirty .dc → lowerByte (cacheOp .cleanInvalidate s .dc as) a = dataByte s a ∧
          dataByte (cacheOp .cleanInvalidate s .dc as) a = dataByte s a) ∧
       (¬ dirty .dc → lowerByte (cacheOp .cleanInvalidate s .dc as) a = lowerByte s a ∧
          dataByte (cacheOp .cleanInvalidate s .dc as) a =
            (if as.contains (lineAddr s.cfg.dcGeom a) then belowByte s a else dataByte s a)) ∧
       (dirty .l2 → memRead (cacheOp .cleanInvalidate s .l2 as).mem a = lowerByte s a) ∧
       (¬ dirty .l2 → memRead (cacheOp .cleanInvalidate s .l2 as).mem a = memRead s.mem a)) ∧
      lowerByte (cacheOp .cleanInvalidate s .l2 as) a = lowerByte s a ∧
      dataByte (cacheOp .cleanInvalidate s .l2 as) a = dataByte s a)

/-- `th.sfence.vmas` (41 R211, R212, decisions D12, D39): exactly the matching entries leave this hart's TLB,
and the same request is on its way to every other hart; without an MMU nothing happens. -/
def Obligations.SfenceResult : Prop :=
  ∀ (s : State) (rs1 rs2 : Reg), enabled s .xTheadSync = true → s.priv ≠ .u →
    ∃ t, exec (.sfenceVmas rs1 rs2) s = .next t ∧ NextInsn s t ∧
      { t with pc := s.pc, tlb := s.tlb, others := s.others } = s ∧
      (s.cfg.hasMmu = false → t.tlb = s.tlb ∧ t.others = s.others) ∧
      (s.cfg.hasMmu = true →
        (∀ e, e ∈ t.tlb ↔ e ∈ s.tlb ∧ ¬(
          (readX s rs1 = 0 ∨ e.vpn = (readX s rs1).toNat / 2 ^ s.cfg.pageBits) ∧
          (readX s rs2 = 0 ∨
            e.asid.toNat % 2 ^ s.cfg.asidBits = (readX s rs2).toNat % 2 ^ s.cfg.asidBits))) ∧
        t.others = s.others.map fun h =>
          { h with pending := h.pending ++ [⟨s.mhartid, .invalidateTlb (readX s rs1) (readX s rs2)⟩] })

/-- The four barriers (41 R213 to R216; 20 R101): after each, every broadcast of this hart has been performed
on every other hart, and no other hart's; the `i` forms also empty the pipeline, and nothing else changes. With
`SYNC_I_SUFFICIENT` they make what is visible to the hart visible to its fetches (20 R103, 70 R531, decision D40),
with the D-caches' lines staying where they are: with `DCACHE_COHERENT` a fetch reads at every address what a data
access reads, whichever hart stored it, and without it but where the hart's own line is clean; that the lines are
written to the next level to that end, and which, is the model's choice of notes/assumptions/25.md. -/
def Obligations.BarrierResults : Prop :=
  encode .sync = 0x0180000b ∧ encode .syncS = 0x0190000b ∧
  encode .syncI = 0x01a0000b ∧ encode .syncIs = 0x01b0000b ∧
  ∀ s : State, enabled s .xTheadSync = true →
    ∀ p ∈ [(Instr.sync, false), (.syncS, false), (.syncI, true), (.syncIs, true)],
      let lines (ls : List Line) : List Line := ls.map fun ln => { ln with dirty := false }
      ∃ t, exec p.1 s = .next t ∧ NextInsn s t ∧
        { t with pc := s.pc, others := s.others, pipeline := s.pipeline,
                 mem := s.mem, dc := s.dc, ic := s.ic, l2 := s.l2 } = s ∧
        (p.2 = false ∨ s.cfg.syncISufficient = false →
          t.mem = s.mem ∧ t.dc = s.dc ∧ t.ic = s.ic ∧ t.l2 = s.l2) ∧
        lines t.dc = lines s.dc ∧
        (p.2 = true → s.cfg.syncISufficient = true → StorageInv s →
          StorageInv t ∧ (∀ a, dataByte t a = dataByte s a) ∧
          (s.cfg.dcacheCoherent = true → ∀ a, fetchByte t a = dataByte s a) ∧
          (s.cfg.dcacheCoherent = false → ∀ a, fetchByte t a =
            if ∃ ln ∈ cacheLines s .dc, lineAddr s.cfg.dcGeom a = ln.addr ∧ ln.dirty = false
              then lowerByte s a else dataByte s a)) ∧
        t.pipeline = (if p.2 then [] else s.pipeline) ∧
        t.others.length = s.others.length ∧
        ∀ k (hs : k < s.others.length) (ht : k < t.others.length),
          let h := s.others[k]
          let h' := t.others[k]
          { h' with pending := h.pending, ic := h.ic, tlb := h.tlb, dc := h.dc } = h ∧
          lines h'.dc = lines h.dc ∧
          (p.2 = false ∨ s.cfg.syncISufficient = false ∨ s.cfg.dcacheCoherent = false → h'.dc = h.dc) ∧
          h'.pending = h.pending.filter (·.sender != s.mhartid) ∧
          h'.ic = (if ⟨s.mhartid, .invalidateICache⟩ ∈ h.pending then [] else h.ic) ∧
          ∀ e, e ∈ h'.tlb ↔ e ∈ h.tlb ∧
            ∀ va asid, ⟨s.mhartid, .invalidateTlb va asid⟩ ∈ h.pending → tlbHit s.cfg va asid e = false
end

