-- ==== Sys2Proof/Laws/State.lean ====
section
/-! SUPPORT. One lemma per field for each update of a named operation that leaves the field alone, and
for each field an operation sets what it sets, so that no later proof unfolds a record update. -/

namespace Sys2Proof.Machine

/-! ## advance -/

@[simp] theorem advance_cfg (s : State) : (advance s).cfg = s.cfg := rfl
@[simp] theorem advance_mhartid (s : State) : (advance s).mhartid = s.mhartid := rfl
@[simp] theorem advance_x (s : State) : (advance s).x = s.x := rfl
@[simp] theorem advance_f (s : State) : (advance s).f = s.f := rfl
@[simp] theorem advance_vregs (s : State) : (advance s).vregs = s.vregs := rfl
@[simp] theorem advance_priv (s : State) : (advance s).priv = s.priv := rfl
@[simp] theorem advance_mstatus (s : State) : (advance s).mstatus = s.mstatus := rfl
@[simp] theorem advance_mie (s : State) : (advance s).mie = s.mie := rfl
@[simp] theorem advance_mcause (s : State) : (advance s).mcause = s.mcause := rfl
@[simp] theorem advance_mepc (s : State) : (advance s).mepc = s.mepc := rfl
@[simp] theorem advance_mtvec (s : State) : (advance s).mtvec = s.mtvec := rfl
@[simp] theorem advance_mtval (s : State) : (advance s).mtval = s.mtval := rfl
@[simp] theorem advance_mxstatus (s : State) : (advance s).mxstatus = s.mxstatus := rfl
@[simp] theorem advance_vstart (s : State) : (advance s).vstart = s.vstart := rfl
@[simp] theorem advance_vl (s : State) : (advance s).vl = s.vl := rfl
@[simp] theorem advance_vtype (s : State) : (advance s).vtype = s.vtype := rfl
@[simp] theorem advance_vxsat (s : State) : (advance s).vxsat = s.vxsat := rfl
@[simp] theorem advance_vxrm (s : State) : (advance s).vxrm = s.vxrm := rfl
@[simp] theorem advance_intSp (s : State) : (advance s).intSp = s.intSp := rfl
@[simp] theorem advance_xlateOn (s : State) : (advance s).xlateOn = s.xlateOn := rfl
@[simp] theorem advance_asid (s : State) : (advance s).asid = s.asid := rfl
@[simp] theorem advance_dc (s : State) : (advance s).dc = s.dc := rfl
@[simp] theorem advance_ic (s : State) : (advance s).ic = s.ic := rfl
@[simp] theorem advance_tlb (s : State) : (advance s).tlb = s.tlb := rfl
@[simp] theorem advance_pipeline (s : State) : (advance s).pipeline = s.pipeline := rfl
@[simp] theorem advance_pending (s : State) : (advance s).pending = s.pending := rfl
@[simp] theorem advance_others (s : State) : (advance s).others = s.others := rfl
@[simp] theorem advance_mem (s : State) : (advance s).mem = s.mem := rfl
@[simp] theorem advance_l2 (s : State) : (advance s).l2 = s.l2 := rfl
@[simp] theorem advance_pageMap (s : State) : (advance s).pageMap = s.pageMap := rfl
@[simp] theorem advance_oracle (s : State) : (advance s).oracle = s.oracle := rfl
@[simp] theorem advance_inter (s : State) : (advance s).inter = s.inter := rfl
@[simp] theorem advance_freeCount (s : State) : (advance s).freeCount = s.freeCount := rfl
@[simp] theorem advance_pc (s : State) : (advance s).pc = truncX s.cfg (s.pc + 4) := rfl

/-! ## writeF -/

@[simp] theorem writeF_cfg (s : State) (r : Reg) (v : Word) : (writeF s r v).cfg = s.cfg := rfl
@[simp] theorem writeF_mhartid (s : State) (r : Reg) (v : Word) : (writeF s r v).mhartid = s.mhartid := rfl
@[simp] theorem writeF_x (s : State) (r : Reg) (v : Word) : (writeF s r v).x = s.x := rfl
@[simp] theorem writeF_pc (s : State) (r : Reg) (v : Word) : (writeF s r v).pc = s.pc := rfl
@[simp] theorem writeF_vregs (s : State) (r : Reg) (v : Word) : (writeF s r v).vregs = s.vregs := rfl
@[simp] theorem writeF_priv (s : State) (r : Reg) (v : Word) : (writeF s r v).priv = s.priv := rfl
@[simp] theorem writeF_mstatus (s : State) (r : Reg) (v : Word) : (writeF s r v).mstatus = s.mstatus := rfl
@[simp] theorem writeF_mie (s : State) (r : Reg) (v : Word) : (writeF s r v).mie = s.mie := rfl
@[simp] theorem writeF_mcause (s : State) (r : Reg) (v : Word) : (writeF s r v).mcause = s.mcause := rfl
@[simp] theorem writeF_mepc (s : State) (r : Reg) (v : Word) : (writeF s r v).mepc = s.mepc := rfl
@[simp] theorem writeF_mtvec (s : State) (r : Reg) (v : Word) : (writeF s r v).mtvec = s.mtvec := rfl
@[simp] theorem writeF_mtval (s : State) (r : Reg) (v : Word) : (writeF s r v).mtval = s.mtval := rfl
@[simp] theorem writeF_mxstatus (s : State) (r : Reg) (v : Word) : (writeF s r v).mxstatus = s.mxstatus := rfl
@[simp] theorem writeF_vstart (s : State) (r : Reg) (v : Word) : (writeF s r v).vstart = s.vstart := rfl
@[simp] theorem writeF_vl (s : State) (r : Reg) (v : Word) : (writeF s r v).vl = s.vl := rfl
@[simp] theorem writeF_vtype (s : State) (r : Reg) (v : Word) : (writeF s r v).vtype = s.vtype := rfl
@[simp] theorem writeF_vxsat (s : State) (r : Reg) (v : Word) : (writeF s r v).vxsat = s.vxsat := rfl
@[simp] theorem writeF_vxrm (s : State) (r : Reg) (v : Word) : (writeF s r v).vxrm = s.vxrm := rfl
@[simp] theorem writeF_intSp (s : State) (r : Reg) (v : Word) : (writeF s r v).intSp = s.intSp := rfl
@[simp] theorem writeF_xlateOn (s : State) (r : Reg) (v : Word) : (writeF s r v).xlateOn = s.xlateOn := rfl
@[simp] theorem writeF_asid (s : State) (r : Reg) (v : Word) : (writeF s r v).asid = s.asid := rfl
@[simp] theorem writeF_dc (s : State) (r : Reg) (v : Word) : (writeF s r v).dc = s.dc := rfl
@[simp] theorem writeF_ic (s : State) (r : Reg) (v : Word) : (writeF s r v).ic = s.ic := rfl
@[simp] theorem writeF_tlb (s : State) (r : Reg) (v : Word) : (writeF s r v).tlb = s.tlb := rfl
@[simp] theorem writeF_pipeline (s : State) (r : Reg) (v : Word) : (writeF s r v).pipeline = s.pipeline := rfl
@[simp] theorem writeF_pending (s : State) (r : Reg) (v : Word) : (writeF s r v).pending = s.pending := rfl
@[simp] theorem writeF_others (s : State) (r : Reg) (v : Word) : (writeF s r v).others = s.others := rfl
@[simp] theorem writeF_mem (s : State) (r : Reg) (v : Word) : (writeF s r v).mem = s.mem := rfl
@[simp] theorem writeF_l2 (s : State) (r : Reg) (v : Word) : (writeF s r v).l2 = s.l2 := rfl
@[simp] theorem writeF_pageMap (s : State) (r : Reg) (v : Word) : (writeF s r v).pageMap = s.pageMap := rfl
@[simp] theorem writeF_oracle (s : State) (r : Reg) (v : Word) : (writeF s r v).oracle = s.oracle := rfl
@[simp] theorem writeF_inter (s : State) (r : Reg) (v : Word) : (writeF s r v).inter = s.inter := rfl
@[simp] theorem writeF_freeCount (s : State) (r : Reg) (v : Word) : (writeF s r v).freeCount = s.freeCount := rfl
@[simp] theorem writeF_f (s : State) (r : Reg) (v : Word) : (writeF s r v).f = s.f.set r.toNat (truncF s.cfg v) r.isLt := rfl

/-! ## memSet -/

@[simp] theorem memSet_cfg (s : State) (a : Nat) (b : Byte) : (memSet s a b).cfg = s.cfg := rfl
@[simp] theorem memSet_mhartid (s : State) (a : Nat) (b : Byte) : (memSet s a b).mhartid = s.mhartid := rfl
@[simp] theorem memSet_x (s : State) (a : Nat) (b : Byte) : (memSet s a b).x = s.x := rfl
@[simp] theorem memSet_pc (s : State) (a : Nat) (b : Byte) : (memSet s a b).pc = s.pc := rfl
@[simp] theorem memSet_f (s : State) (a : Nat) (b : Byte) : (memSet s a b).f = s.f := rfl
@[simp] theorem memSet_vregs (s : State) (a : Nat) (b : Byte) : (memSet s a b).vregs = s.vregs := rfl
@[simp] theorem memSet_priv (s : State) (a : Nat) (b : Byte) : (memSet s a b).priv = s.priv := rfl
@[simp] theorem memSet_mstatus (s : State) (a : Nat) (b : Byte) : (memSet s a b).mstatus = s.mstatus := rfl
@[simp] theorem memSet_mie (s : State) (a : Nat) (b : Byte) : (memSet s a b).mie = s.mie := rfl
@[simp] theorem memSet_mcause (s : State) (a : Nat) (b : Byte) : (memSet s a b).mcause = s.mcause := rfl
@[simp] theorem memSet_mepc (s : State) (a : Nat) (b : Byte) : (memSet s a b).mepc = s.mepc := rfl
@[simp] theorem memSet_mtvec (s : State) (a : Nat) (b : Byte) : (memSet s a b).mtvec = s.mtvec := rfl
@[simp] theorem memSet_mtval (s : State) (a : Nat) (b : Byte) : (memSet s a b).mtval = s.mtval := rfl
@[simp] theorem memSet_mxstatus (s : State) (a : Nat) (b : Byte) : (memSet s a b).mxstatus = s.mxstatus := rfl
@[simp] theorem memSet_vstart (s : State) (a : Nat) (b : Byte) : (memSet s a b).vstart = s.vstart := rfl
@[simp] theorem memSet_vl (s : State) (a : Nat) (b : Byte) : (memSet s a b).vl = s.vl := rfl
@[simp] theorem memSet_vtype (s : State) (a : Nat) (b : Byte) : (memSet s a b).vtype = s.vtype := rfl
@[simp] theorem memSet_vxsat (s : State) (a : Nat) (b : Byte) : (memSet s a b).vxsat = s.vxsat := rfl
@[simp] theorem memSet_vxrm (s : State) (a : Nat) (b : Byte) : (memSet s a b).vxrm = s.vxrm := rfl
@[simp] theorem memSet_intSp (s : State) (a : Nat) (b : Byte) : (memSet s a b).intSp = s.intSp := rfl
@[simp] theorem memSet_xlateOn (s : State) (a : Nat) (b : Byte) : (memSet s a b).xlateOn = s.xlateOn := rfl
@[simp] theorem memSet_asid (s : State) (a : Nat) (b : Byte) : (memSet s a b).asid = s.asid := rfl
@[simp] theorem memSet_dc (s : State) (a : Nat) (b : Byte) : (memSet s a b).dc = s.dc := rfl
@[simp] theorem memSet_ic (s : State) (a : Nat) (b : Byte) : (memSet s a b).ic = s.ic := rfl
@[simp] theorem memSet_tlb (s : State) (a : Nat) (b : Byte) : (memSet s a b).tlb = s.tlb := rfl
@[simp] theorem memSet_pipeline (s : State) (a : Nat) (b : Byte) : (memSet s a b).pipeline = s.pipeline := rfl
@[simp] theorem memSet_pending (s : State) (a : Nat) (b : Byte) : (memSet s a b).pending = s.pending := rfl
@[simp] theorem memSet_others (s : State) (a : Nat) (b : Byte) : (memSet s a b).others = s.others := rfl
@[simp] theorem memSet_l2 (s : State) (a : Nat) (b : Byte) : (memSet s a b).l2 = s.l2 := rfl
@[simp] theorem memSet_pageMap (s : State) (a : Nat) (b : Byte) : (memSet s a b).pageMap = s.pageMap := rfl
@[simp] theorem memSet_oracle (s : State) (a : Nat) (b : Byte) : (memSet s a b).oracle = s.oracle := rfl
@[simp] theorem memSet_inter (s : State) (a : Nat) (b : Byte) : (memSet s a b).inter = s.inter := rfl
@[simp] theorem memSet_freeCount (s : State) (a : Nat) (b : Byte) : (memSet s a b).freeCount = s.freeCount := rfl
@[simp] theorem memSet_mem (s : State) (a : Nat) (b : Byte) : (memSet s a b).mem = memWrite s.mem a b := rfl

/-! ## trap -/

@[simp] theorem trap_cfg (s : State) (c : Nat) (i : Bool) (v : Word) : (trap s c i v).cfg = s.cfg := rfl
@[simp] theorem trap_mhartid (s : State) (c : Nat) (i : Bool) (v : Word) : (trap s c i v).mhartid = s.mhartid := rfl
@[simp] theorem trap_x (s : State) (c : Nat) (i : Bool) (v : Word) : (trap s c i v).x = s.x := rfl
@[simp] theorem trap_f (s : State) (c : Nat) (i : Bool) (v : Word) : (trap s c i v).f = s.f := rfl
@[simp] theorem trap_vregs (s : State) (c : Nat) (i : Bool) (v : Word) : (trap s c i v).vregs = s.vregs := rfl
@[simp] theorem trap_mie (s : State) (c : Nat) (i : Bool) (v : Word) : (trap s c i v).mie = s.mie := rfl
@[simp] theorem trap_mtvec (s : State) (c : Nat) (i : Bool) (v : Word) : (trap s c i v).mtvec = s.mtvec := rfl
@[simp] theorem trap_mxstatus (s : State) (c : Nat) (i : Bool) (v : Word) : (trap s c i v).mxstatus = s.mxstatus := rfl
@[simp] theorem trap_vstart (s : State) (c : Nat) (i : Bool) (v : Word) : (trap s c i v).vstart = s.vstart := rfl
@[simp] theorem trap_vl (s : State) (c : Nat) (i : Bool) (v : Word) : (trap s c i v).vl = s.vl := rfl
@[simp] theorem trap_vtype (s : State) (c : Nat) (i : Bool) (v : Word) : (trap s c i v).vtype = s.vtype := rfl
@[simp] theorem trap_vxsat (s : State) (c : Nat) (i : Bool) (v : Word) : (trap s c i v).vxsat = s.vxsat := rfl
@[simp] theorem trap_vxrm (s : State) (c : Nat) (i : Bool) (v : Word) : (trap s c i v).vxrm = s.vxrm := rfl
@[simp] theorem trap_intSp (s : State) (c : Nat) (i : Bool) (v : Word) : (trap s c i v).intSp = s.intSp := rfl
@[simp] theorem trap_xlateOn (s : State) (c : Nat) (i : Bool) (v : Word) : (trap s c i v).xlateOn = s.xlateOn := rfl
@[simp] theorem trap_asid (s : State) (c : Nat) (i : Bool) (v : Word) : (trap s c i v).asid = s.asid := rfl
@[simp] theorem trap_dc (s : State) (c : Nat) (i : Bool) (v : Word) : (trap s c i v).dc = s.dc := rfl
@[simp] theorem trap_ic (s : State) (c : Nat) (i : Bool) (v : Word) : (trap s c i v).ic = s.ic := rfl
@[simp] theorem trap_tlb (s : State) (c : Nat) (i : Bool) (v : Word) : (trap s c i v).tlb = s.tlb := rfl
@[simp] theorem trap_pipeline (s : State) (c : Nat) (i : Bool) (v : Word) : (trap s c i v).pipeline = s.pipeline := rfl
@[simp] theorem trap_pending (s : State) (c : Nat) (i : Bool) (v : Word) : (trap s c i v).pending = s.pending := rfl
@[simp] theorem trap_others (s : State) (c : Nat) (i : Bool) (v : Word) : (trap s c i v).others = s.others := rfl
@[simp] theorem trap_mem (s : State) (c : Nat) (i : Bool) (v : Word) : (trap s c i v).mem = s.mem := rfl
@[simp] theorem trap_l2 (s : State) (c : Nat) (i : Bool) (v : Word) : (trap s c i v).l2 = s.l2 := rfl
@[simp] theorem trap_pageMap (s : State) (c : Nat) (i : Bool) (v : Word) : (trap s c i v).pageMap = s.pageMap := rfl
@[simp] theorem trap_oracle (s : State) (c : Nat) (i : Bool) (v : Word) : (trap s c i v).oracle = s.oracle := rfl
@[simp] theorem trap_inter (s : State) (c : Nat) (i : Bool) (v : Word) : (trap s c i v).inter = s.inter := rfl
@[simp] theorem trap_freeCount (s : State) (c : Nat) (i : Bool) (v : Word) : (trap s c i v).freeCount = s.freeCount := rfl
@[simp] theorem trap_mepc (s : State) (c : Nat) (i : Bool) (v : Word) : (trap s c i v).mepc = mepcValue s.cfg s.pc := rfl
@[simp] theorem trap_mcause (s : State) (c : Nat) (i : Bool) (v : Word) : (trap s c i v).mcause = causeWord s.cfg i c := rfl
@[simp] theorem trap_mtval (s : State) (c : Nat) (i : Bool) (v : Word) : (trap s c i v).mtval = truncX s.cfg v := rfl
@[simp] theorem trap_mstatus (s : State) (c : Nat) (i : Bool) (v : Word) : (trap s c i v).mstatus =
      { s.mstatus with mpie := s.mstatus.mie, mie := false, mpp := s.priv } := rfl
@[simp] theorem trap_priv (s : State) (c : Nat) (i : Bool) (v : Word) : (trap s c i v).priv = .m := rfl

/-! ## mret -/

@[simp] theorem mret_cfg (s : State) : (mret s).cfg = s.cfg := rfl
@[simp] theorem mret_mhartid (s : State) : (mret s).mhartid = s.mhartid := rfl
@[simp] theorem mret_x (s : State) : (mret s).x = s.x := rfl
@[simp] theorem mret_f (s : State) : (mret s).f = s.f := rfl
@[simp] theorem mret_vregs (s : State) : (mret s).vregs = s.vregs := rfl
@[simp] theorem mret_mie (s : State) : (mret s).mie = s.mie := rfl
@[simp] theorem mret_mcause (s : State) : (mret s).mcause = s.mcause := rfl
@[simp] theorem mret_mepc (s : State) : (mret s).mepc = s.mepc := rfl
@[simp] theorem mret_mtvec (s : State) : (mret s).mtvec = s.mtvec := rfl
@[simp] theorem mret_mtval (s : State) : (mret s).mtval = s.mtval := rfl
@[simp] theorem mret_mxstatus (s : State) : (mret s).mxstatus = s.mxstatus := rfl
@[simp] theorem mret_vstart (s : State) : (mret s).vstart = s.vstart := rfl
@[simp] theorem mret_vl (s : State) : (mret s).vl = s.vl := rfl
@[simp] theorem mret_vtype (s : State) : (mret s).vtype = s.vtype := rfl
@[simp] theorem mret_vxsat (s : State) : (mret s).vxsat = s.vxsat := rfl
@[simp] theorem mret_vxrm (s : State) : (mret s).vxrm = s.vxrm := rfl
@[simp] theorem mret_intSp (s : State) : (mret s).intSp = s.intSp := rfl
@[simp] theorem mret_xlateOn (s : State) : (mret s).xlateOn = s.xlateOn := rfl
@[simp] theorem mret_asid (s : State) : (mret s).asid = s.asid := rfl
@[simp] theorem mret_dc (s : State) : (mret s).dc = s.dc := rfl
@[simp] theorem mret_ic (s : State) : (mret s).ic = s.ic := rfl
@[simp] theorem mret_tlb (s : State) : (mret s).tlb = s.tlb := rfl
@[simp] theorem mret_pipeline (s : State) : (mret s).pipeline = s.pipeline := rfl
@[simp] theorem mret_pending (s : State) : (mret s).pending = s.pending := rfl
@[simp] theorem mret_others (s : State) : (mret s).others = s.others := rfl
@[simp] theorem mret_mem (s : State) : (mret s).mem = s.mem := rfl
@[simp] theorem mret_l2 (s : State) : (mret s).l2 = s.l2 := rfl
@[simp] theorem mret_pageMap (s : State) : (mret s).pageMap = s.pageMap := rfl
@[simp] theorem mret_oracle (s : State) : (mret s).oracle = s.oracle := rfl
@[simp] theorem mret_inter (s : State) : (mret s).inter = s.inter := rfl
@[simp] theorem mret_freeCount (s : State) : (mret s).freeCount = s.freeCount := rfl
@[simp] theorem mret_priv (s : State) : (mret s).priv = s.mstatus.mpp := rfl
@[simp] theorem mret_pc (s : State) : (mret s).pc = readMepc s := rfl

/-! ## broadcast -/

@[simp] theorem broadcast_cfg (s : State) (b : Broadcast) : (broadcast s b).cfg = s.cfg := rfl
@[simp] theorem broadcast_mhartid (s : State) (b : Broadcast) : (broadcast s b).mhartid = s.mhartid := rfl
@[simp] theorem broadcast_x (s : State) (b : Broadcast) : (broadcast s b).x = s.x := rfl
@[simp] theorem broadcast_pc (s : State) (b : Broadcast) : (broadcast s b).pc = s.pc := rfl
@[simp] theorem broadcast_f (s : State) (b : Broadcast) : (broadcast s b).f = s.f := rfl
@[simp] theorem broadcast_vregs (s : State) (b : Broadcast) : (broadcast s b).vregs = s.vregs := rfl
@[simp] theorem broadcast_priv (s : State) (b : Broadcast) : (broadcast s b).priv = s.priv := rfl
@[simp] theorem broadcast_mstatus (s : State) (b : Broadcast) : (broadcast s b).mstatus = s.mstatus := rfl
@[simp] theorem broadcast_mie (s : State) (b : Broadcast) : (broadcast s b).mie = s.mie := rfl
@[simp] theorem broadcast_mcause (s : State) (b : Broadcast) : (broadcast s b).mcause = s.mcause := rfl
@[simp] theorem broadcast_mepc (s : State) (b : Broadcast) : (broadcast s b).mepc = s.mepc := rfl
@[simp] theorem broadcast_mtvec (s : State) (b : Broadcast) : (broadcast s b).mtvec = s.mtvec := rfl
@[simp] theorem broadcast_mtval (s : State) (b : Broadcast) : (broadcast s b).mtval = s.mtval := rfl
@[simp] theorem broadcast_mxstatus (s : State) (b : Broadcast) : (broadcast s b).mxstatus = s.mxstatus := rfl
@[simp] theorem broadcast_vstart (s : State) (b : Broadcast) : (broadcast s b).vstart = s.vstart := rfl
@[simp] theorem broadcast_vl (s : State) (b : Broadcast) : (broadcast s b).vl = s.vl := rfl
@[simp] theorem broadcast_vtype (s : State) (b : Broadcast) : (broadcast s b).vtype = s.vtype := rfl
@[simp] theorem broadcast_vxsat (s : State) (b : Broadcast) : (broadcast s b).vxsat = s.vxsat := rfl
@[simp] theorem broadcast_vxrm (s : State) (b : Broadcast) : (broadcast s b).vxrm = s.vxrm := rfl
@[simp] theorem broadcast_intSp (s : State) (b : Broadcast) : (broadcast s b).intSp = s.intSp := rfl
@[simp] theorem broadcast_xlateOn (s : State) (b : Broadcast) : (broadcast s b).xlateOn = s.xlateOn := rfl
@[simp] theorem broadcast_asid (s : State) (b : Broadcast) : (broadcast s b).asid = s.asid := rfl
@[simp] theorem broadcast_dc (s : State) (b : Broadcast) : (broadcast s b).dc = s.dc := rfl
@[simp] theorem broadcast_ic (s : State) (b : Broadcast) : (broadcast s b).ic = s.ic := rfl
@[simp] theorem broadcast_tlb (s : State) (b : Broadcast) : (broadcast s b).tlb = s.tlb := rfl
@[simp] theorem broadcast_pipeline (s : State) (b : Broadcast) : (broadcast s b).pipeline = s.pipeline := rfl
@[simp] theorem broadcast_pending (s : State) (b : Broadcast) : (broadcast s b).pending = s.pending := rfl
@[simp] theorem broadcast_mem (s : State) (b : Broadcast) : (broadcast s b).mem = s.mem := rfl
@[simp] theorem broadcast_l2 (s : State) (b : Broadcast) : (broadcast s b).l2 = s.l2 := rfl
@[simp] theorem broadcast_pageMap (s : State) (b : Broadcast) : (broadcast s b).pageMap = s.pageMap := rfl
@[simp] theorem broadcast_oracle (s : State) (b : Broadcast) : (broadcast s b).oracle = s.oracle := rfl
@[simp] theorem broadcast_inter (s : State) (b : Broadcast) : (broadcast s b).inter = s.inter := rfl
@[simp] theorem broadcast_freeCount (s : State) (b : Broadcast) : (broadcast s b).freeCount = s.freeCount := rfl

/-! ## completeAllPending -/

@[simp] theorem completeAllPending_cfg (s : State) : (completeAllPending s).cfg = s.cfg := rfl
@[simp] theorem completeAllPending_mhartid (s : State) : (completeAllPending s).mhartid = s.mhartid := rfl
@[simp] theorem completeAllPending_x (s : State) : (completeAllPending s).x = s.x := rfl
@[simp] theorem completeAllPending_pc (s : State) : (completeAllPending s).pc = s.pc := rfl
@[simp] theorem completeAllPending_f (s : State) : (completeAllPending s).f = s.f := rfl
@[simp] theorem completeAllPending_vregs (s : State) : (completeAllPending s).vregs = s.vregs := rfl
@[simp] theorem completeAllPending_priv (s : State) : (completeAllPending s).priv = s.priv := rfl
@[simp] theorem completeAllPending_mstatus (s : State) : (completeAllPending s).mstatus = s.mstatus := rfl
@[simp] theorem completeAllPending_mie (s : State) : (completeAllPending s).mie = s.mie := rfl
@[simp] theorem completeAllPending_mcause (s : State) : (completeAllPending s).mcause = s.mcause := rfl
@[simp] theorem completeAllPending_mepc (s : State) : (completeAllPending s).mepc = s.mepc := rfl
@[simp] theorem completeAllPending_mtvec (s : State) : (completeAllPending s).mtvec = s.mtvec := rfl
@[simp] theorem completeAllPending_mtval (s : State) : (completeAllPending s).mtval = s.mtval := rfl
@[simp] theorem completeAllPending_mxstatus (s : State) : (completeAllPending s).mxstatus = s.mxstatus := rfl
@[simp] theorem completeAllPending_vstart (s : State) : (completeAllPending s).vstart = s.vstart := rfl
@[simp] theorem completeAllPending_vl (s : State) : (completeAllPending s).vl = s.vl := rfl
@[simp] theorem completeAllPending_vtype (s : State) : (completeAllPending s).vtype = s.vtype := rfl
@[simp] theorem completeAllPending_vxsat (s : State) : (completeAllPending s).vxsat = s.vxsat := rfl
@[simp] theorem completeAllPending_vxrm (s : State) : (completeAllPending s).vxrm = s.vxrm := rfl
@[simp] theorem completeAllPending_intSp (s : State) : (completeAllPending s).intSp = s.intSp := rfl
@[simp] theorem completeAllPending_xlateOn (s : State) : (completeAllPending s).xlateOn = s.xlateOn := rfl
@[simp] theorem completeAllPending_asid (s : State) : (completeAllPending s).asid = s.asid := rfl
@[simp] theorem completeAllPending_dc (s : State) : (completeAllPending s).dc = s.dc := rfl
@[simp] theorem completeAllPending_ic (s : State) : (completeAllPending s).ic = s.ic := rfl
@[simp] theorem completeAllPending_tlb (s : State) : (completeAllPending s).tlb = s.tlb := rfl
@[simp] theorem completeAllPending_pipeline (s : State) : (completeAllPending s).pipeline = s.pipeline := rfl
@[simp] theorem completeAllPending_pending (s : State) : (completeAllPending s).pending = s.pending := rfl
@[simp] theorem completeAllPending_mem (s : State) : (completeAllPending s).mem = s.mem := rfl
@[simp] theorem completeAllPending_l2 (s : State) : (completeAllPending s).l2 = s.l2 := rfl
@[simp] theorem completeAllPending_pageMap (s : State) : (completeAllPending s).pageMap = s.pageMap := rfl
@[simp] theorem completeAllPending_oracle (s : State) : (completeAllPending s).oracle = s.oracle := rfl
@[simp] theorem completeAllPending_inter (s : State) : (completeAllPending s).inter = s.inter := rfl
@[simp] theorem completeAllPending_freeCount (s : State) : (completeAllPending s).freeCount = s.freeCount := rfl

/-! ## flushPipeline -/

@[simp] theorem flushPipeline_cfg (s : State) : (flushPipeline s).cfg = s.cfg := rfl
@[simp] theorem flushPipeline_mhartid (s : State) : (flushPipeline s).mhartid = s.mhartid := rfl
@[simp] theorem flushPipeline_x (s : State) : (flushPipeline s).x = s.x := rfl
@[simp] theorem flushPipeline_pc (s : State) : (flushPipeline s).pc = s.pc := rfl
@[simp] theorem flushPipeline_f (s : State) : (flushPipeline s).f = s.f := rfl
@[simp] theorem flushPipeline_vregs (s : State) : (flushPipeline s).vregs = s.vregs := rfl
@[simp] theorem flushPipeline_priv (s : State) : (flushPipeline s).priv = s.priv := rfl
@[simp] theorem flushPipeline_mstatus (s : State) : (flushPipeline s).mstatus = s.mstatus := rfl
@[simp] theorem flushPipeline_mie (s : State) : (flushPipeline s).mie = s.mie := rfl
@[simp] theorem flushPipeline_mcause (s : State) : (flushPipeline s).mcause = s.mcause := rfl
@[simp] theorem flushPipeline_mepc (s : State) : (flushPipeline s).mepc = s.mepc := rfl
@[simp] theorem flushPipeline_mtvec (s : State) : (flushPipeline s).mtvec = s.mtvec := rfl
@[simp] theorem flushPipeline_mtval (s : State) : (flushPipeline s).mtval = s.mtval := rfl
@[simp] theorem flushPipeline_mxstatus (s : State) : (flushPipeline s).mxstatus = s.mxstatus := rfl
@[simp] theorem flushPipeline_vstart (s : State) : (flushPipeline s).vstart = s.vstart := rfl
@[simp] theorem flushPipeline_vl (s : State) : (flushPipeline s).vl = s.vl := rfl
@[simp] theorem flushPipeline_vtype (s : State) : (flushPipeline s).vtype = s.vtype := rfl
@[simp] theorem flushPipeline_vxsat (s : State) : (flushPipeline s).vxsat = s.vxsat := rfl
@[simp] theorem flushPipeline_vxrm (s : State) : (flushPipeline s).vxrm = s.vxrm := rfl
@[simp] theorem flushPipeline_intSp (s : State) : (flushPipeline s).intSp = s.intSp := rfl
@[simp] theorem flushPipeline_xlateOn (s : State) : (flushPipeline s).xlateOn = s.xlateOn := rfl
@[simp] theorem flushPipeline_asid (s : State) : (flushPipeline s).asid = s.asid := rfl
@[simp] theorem flushPipeline_dc (s : State) : (flushPipeline s).dc = s.dc := rfl
@[simp] theorem flushPipeline_ic (s : State) : (flushPipeline s).ic = s.ic := rfl
@[simp] theorem flushPipeline_tlb (s : State) : (flushPipeline s).tlb = s.tlb := rfl
@[simp] theorem flushPipeline_pending (s : State) : (flushPipeline s).pending = s.pending := rfl
@[simp] theorem flushPipeline_others (s : State) : (flushPipeline s).others = s.others := rfl
@[simp] theorem flushPipeline_mem (s : State) : (flushPipeline s).mem = s.mem := rfl
@[simp] theorem flushPipeline_l2 (s : State) : (flushPipeline s).l2 = s.l2 := rfl
@[simp] theorem flushPipeline_pageMap (s : State) : (flushPipeline s).pageMap = s.pageMap := rfl
@[simp] theorem flushPipeline_oracle (s : State) : (flushPipeline s).oracle = s.oracle := rfl
@[simp] theorem flushPipeline_inter (s : State) : (flushPipeline s).inter = s.inter := rfl
@[simp] theorem flushPipeline_freeCount (s : State) : (flushPipeline s).freeCount = s.freeCount := rfl
@[simp] theorem flushPipeline_pipeline (s : State) : (flushPipeline s).pipeline = [] := rfl

/-! ## retire -/

@[simp] theorem retire_cfg (s : State) (va : Word) : (retire s va).cfg = s.cfg := rfl
@[simp] theorem retire_mhartid (s : State) (va : Word) : (retire s va).mhartid = s.mhartid := rfl
@[simp] theorem retire_x (s : State) (va : Word) : (retire s va).x = s.x := rfl
@[simp] theorem retire_pc (s : State) (va : Word) : (retire s va).pc = s.pc := rfl
@[simp] theorem retire_f (s : State) (va : Word) : (retire s va).f = s.f := rfl
@[simp] theorem retire_vregs (s : State) (va : Word) : (retire s va).vregs = s.vregs := rfl
@[simp] theorem retire_priv (s : State) (va : Word) : (retire s va).priv = s.priv := rfl
@[simp] theorem retire_mstatus (s : State) (va : Word) : (retire s va).mstatus = s.mstatus := rfl
@[simp] theorem retire_mie (s : State) (va : Word) : (retire s va).mie = s.mie := rfl
@[simp] theorem retire_mcause (s : State) (va : Word) : (retire s va).mcause = s.mcause := rfl
@[simp] theorem retire_mepc (s : State) (va : Word) : (retire s va).mepc = s.mepc := rfl
@[simp] theorem retire_mtvec (s : State) (va : Word) : (retire s va).mtvec = s.mtvec := rfl
@[simp] theorem retire_mtval (s : State) (va : Word) : (retire s va).mtval = s.mtval := rfl
@[simp] theorem retire_mxstatus (s : State) (va : Word) : (retire s va).mxstatus = s.mxstatus := rfl
@[simp] theorem retire_vstart (s : State) (va : Word) : (retire s va).vstart = s.vstart := rfl
@[simp] theorem retire_vl (s : State) (va : Word) : (retire s va).vl = s.vl := rfl
@[simp] theorem retire_vtype (s : State) (va : Word) : (retire s va).vtype = s.vtype := rfl
@[simp] theorem retire_vxsat (s : State) (va : Word) : (retire s va).vxsat = s.vxsat := rfl
@[simp] theorem retire_vxrm (s : State) (va : Word) : (retire s va).vxrm = s.vxrm := rfl
@[simp] theorem retire_intSp (s : State) (va : Word) : (retire s va).intSp = s.intSp := rfl
@[simp] theorem retire_xlateOn (s : State) (va : Word) : (retire s va).xlateOn = s.xlateOn := rfl
@[simp] theorem retire_asid (s : State) (va : Word) : (retire s va).asid = s.asid := rfl
@[simp] theorem retire_dc (s : State) (va : Word) : (retire s va).dc = s.dc := rfl
@[simp] theorem retire_ic (s : State) (va : Word) : (retire s va).ic = s.ic := rfl
@[simp] theorem retire_tlb (s : State) (va : Word) : (retire s va).tlb = s.tlb := rfl
@[simp] theorem retire_pending (s : State) (va : Word) : (retire s va).pending = s.pending := rfl
@[simp] theorem retire_others (s : State) (va : Word) : (retire s va).others = s.others := rfl
@[simp] theorem retire_mem (s : State) (va : Word) : (retire s va).mem = s.mem := rfl
@[simp] theorem retire_l2 (s : State) (va : Word) : (retire s va).l2 = s.l2 := rfl
@[simp] theorem retire_pageMap (s : State) (va : Word) : (retire s va).pageMap = s.pageMap := rfl
@[simp] theorem retire_oracle (s : State) (va : Word) : (retire s va).oracle = s.oracle := rfl
@[simp] theorem retire_inter (s : State) (va : Word) : (retire s va).inter = s.inter := rfl
@[simp] theorem retire_freeCount (s : State) (va : Word) : (retire s va).freeCount = s.freeCount := rfl

/-! ## peersSet -/

@[simp] theorem peersSet_cfg (s : State) (pa : Nat) (b : Byte) : (peersSet s pa b).cfg = s.cfg := by unfold peersSet; split <;> rfl
@[simp] theorem peersSet_mhartid (s : State) (pa : Nat) (b : Byte) : (peersSet s pa b).mhartid = s.mhartid := by unfold peersSet; split <;> rfl
@[simp] theorem peersSet_x (s : State) (pa : Nat) (b : Byte) : (peersSet s pa b).x = s.x := by unfold peersSet; split <;> rfl
@[simp] theorem peersSet_pc (s : State) (pa : Nat) (b : Byte) : (peersSet s pa b).pc = s.pc := by unfold peersSet; split <;> rfl
@[simp] theorem peersSet_f (s : State) (pa : Nat) (b : Byte) : (peersSet s pa b).f = s.f := by unfold peersSet; split <;> rfl
@[simp] theorem peersSet_vregs (s : State) (pa : Nat) (b : Byte) : (peersSet s pa b).vregs = s.vregs := by unfold peersSet; split <;> rfl
@[simp] theorem peersSet_priv (s : State) (pa : Nat) (b : Byte) : (peersSet s pa b).priv = s.priv := by unfold peersSet; split <;> rfl
@[simp] theorem peersSet_mstatus (s : State) (pa : Nat) (b : Byte) : (peersSet s pa b).mstatus = s.mstatus := by unfold peersSet; split <;> rfl
@[simp] theorem peersSet_mie (s : State) (pa : Nat) (b : Byte) : (peersSet s pa b).mie = s.mie := by unfold peersSet; split <;> rfl
@[simp] theorem peersSet_mcause (s : State) (pa : Nat) (b : Byte) : (peersSet s pa b).mcause = s.mcause := by unfold peersSet; split <;> rfl
@[simp] theorem peersSet_mepc (s : State) (pa : Nat) (b : Byte) : (peersSet s pa b).mepc = s.mepc := by unfold peersSet; split <;> rfl
@[simp] theorem peersSet_mtvec (s : State) (pa : Nat) (b : Byte) : (peersSet s pa b).mtvec = s.mtvec := by unfold peersSet; split <;> rfl
@[simp] theorem peersSet_mtval (s : State) (pa : Nat) (b : Byte) : (peersSet s pa b).mtval = s.mtval := by unfold peersSet; split <;> rfl
@[simp] theorem peersSet_mxstatus (s : State) (pa : Nat) (b : Byte) : (peersSet s pa b).mxstatus = s.mxstatus := by unfold peersSet; split <;> rfl
@[simp] theorem peersSet_vstart (s : State) (pa : Nat) (b : Byte) : (peersSet s pa b).vstart = s.vstart := by unfold peersSet; split <;> rfl
@[simp] theorem peersSet_vl (s : State) (pa : Nat) (b : Byte) : (peersSet s pa b).vl = s.vl := by unfold peersSet; split <;> rfl
@[simp] theorem peersSet_vtype (s : State) (pa : Nat) (b : Byte) : (peersSet s pa b).vtype = s.vtype := by unfold peersSet; split <;> rfl
@[simp] theorem peersSet_vxsat (s : State) (pa : Nat) (b : Byte) : (peersSet s pa b).vxsat = s.vxsat := by unfold peersSet; split <;> rfl
@[simp] theorem peersSet_vxrm (s : State) (pa : Nat) (b : Byte) : (peersSet s pa b).vxrm = s.vxrm := by unfold peersSet; split <;> rfl
@[simp] theorem peersSet_intSp (s : State) (pa : Nat) (b : Byte) : (peersSet s pa b).intSp = s.intSp := by unfold peersSet; split <;> rfl
@[simp] theorem peersSet_xlateOn (s : State) (pa : Nat) (b : Byte) : (peersSet s pa b).xlateOn = s.xlateOn := by unfold peersSet; split <;> rfl
@[simp] theorem peersSet_asid (s : State) (pa : Nat) (b : Byte) : (peersSet s pa b).asid = s.asid := by unfold peersSet; split <;> rfl
@[simp] theorem peersSet_dc (s : State) (pa : Nat) (b : Byte) : (peersSet s pa b).dc = s.dc := by unfold peersSet; split <;> rfl
@[simp] theorem peersSet_ic (s : State) (pa : Nat) (b : Byte) : (peersSet s pa b).ic = s.ic := by unfold peersSet; split <;> rfl
@[simp] theorem peersSet_tlb (s : State) (pa : Nat) (b : Byte) : (peersSet s pa b).tlb = s.tlb := by unfold peersSet; split <;> rfl
@[simp] theorem peersSet_pipeline (s : State) (pa : Nat) (b : Byte) : (peersSet s pa b).pipeline = s.pipeline := by unfold peersSet; split <;> rfl
@[simp] theorem peersSet_pending (s : State) (pa : Nat) (b : Byte) : (peersSet s pa b).pending = s.pending := by unfold peersSet; split <;> rfl
@[simp] theorem peersSet_mem (s : State) (pa : Nat) (b : Byte) : (peersSet s pa b).mem = s.mem := by unfold peersSet; split <;> rfl
@[simp] theorem peersSet_l2 (s : State) (pa : Nat) (b : Byte) : (peersSet s pa b).l2 = s.l2 := by unfold peersSet; split <;> rfl
@[simp] theorem peersSet_pageMap (s : State) (pa : Nat) (b : Byte) : (peersSet s pa b).pageMap = s.pageMap := by unfold peersSet; split <;> rfl
@[simp] theorem peersSet_oracle (s : State) (pa : Nat) (b : Byte) : (peersSet s pa b).oracle = s.oracle := by unfold peersSet; split <;> rfl
@[simp] theorem peersSet_inter (s : State) (pa : Nat) (b : Byte) : (peersSet s pa b).inter = s.inter := by unfold peersSet; split <;> rfl
@[simp] theorem peersSet_freeCount (s : State) (pa : Nat) (b : Byte) : (peersSet s pa b).freeCount = s.freeCount := by unfold peersSet; split <;> rfl

/-! ## deliver -/

@[simp] theorem deliver_cfg (s : State) (j : Nat) : (deliver s j).cfg = s.cfg := by
  unfold deliver performBroadcast; split
  · split <;> rfl
  · rfl
@[simp] theorem deliver_mhartid (s : State) (j : Nat) : (deliver s j).mhartid = s.mhartid := by
  unfold deliver performBroadcast; split
  · split <;> rfl
  · rfl
@[simp] theorem deliver_x (s : State) (j : Nat) : (deliver s j).x = s.x := by
  unfold deliver performBroadcast; split
  · split <;> rfl
  · rfl
@[simp] theorem deliver_pc (s : State) (j : Nat) : (deliver s j).pc = s.pc := by
  unfold deliver performBroadcast; split
  · split <;> rfl
  · rfl
@[simp] theorem deliver_f (s : State) (j : Nat) : (deliver s j).f = s.f := by
  unfold deliver performBroadcast; split
  · split <;> rfl
  · rfl
@[simp] theorem deliver_vregs (s : State) (j : Nat) : (deliver s j).vregs = s.vregs := by
  unfold deliver performBroadcast; split
  · split <;> rfl
  · rfl
@[simp] theorem deliver_priv (s : State) (j : Nat) : (deliver s j).priv = s.priv := by
  unfold deliver performBroadcast; split
  · split <;> rfl
  · rfl
@[simp] theorem deliver_mstatus (s : State) (j : Nat) : (deliver s j).mstatus = s.mstatus := by
  unfold deliver performBroadcast; split
  · split <;> rfl
  · rfl
@[simp] theorem deliver_mie (s : State) (j : Nat) : (deliver s j).mie = s.mie := by
  unfold deliver performBroadcast; split
  · split <;> rfl
  · rfl
@[simp] theorem deliver_mcause (s : State) (j : Nat) : (deliver s j).mcause = s.mcause := by
  unfold deliver performBroadcast; split
  · split <;> rfl
  · rfl
@[simp] theorem deliver_mepc (s : State) (j : Nat) : (deliver s j).mepc = s.mepc := by
  unfold deliver performBroadcast; split
  · split <;> rfl
  · rfl
@[simp] theorem deliver_mtvec (s : State) (j : Nat) : (deliver s j).mtvec = s.mtvec := by
  unfold deliver performBroadcast; split
  · split <;> rfl
  · rfl
@[simp] theorem deliver_mtval (s : State) (j : Nat) : (deliver s j).mtval = s.mtval := by
  unfold deliver performBroadcast; split
  · split <;> rfl
  · rfl
@[simp] theorem deliver_mxstatus (s : State) (j : Nat) : (deliver s j).mxstatus = s.mxstatus := by
  unfold deliver performBroadcast; split
  · split <;> rfl
  · rfl
@[simp] theorem deliver_vstart (s : State) (j : Nat) : (deliver s j).vstart = s.vstart := by
  unfold deliver performBroadcast; split
  · split <;> rfl
  · rfl
@[simp] theorem deliver_vl (s : State) (j : Nat) : (deliver s j).vl = s.vl := by
  unfold deliver performBroadcast; split
  · split <;> rfl
  · rfl
@[simp] theorem deliver_vtype (s : State) (j : Nat) : (deliver s j).vtype = s.vtype := by
  unfold deliver performBroadcast; split
  · split <;> rfl
  · rfl
@[simp] theorem deliver_vxsat (s : State) (j : Nat) : (deliver s j).vxsat = s.vxsat := by
  unfold deliver performBroadcast; split
  · split <;> rfl
  · rfl
@[simp] theorem deliver_vxrm (s : State) (j : Nat) : (deliver s j).vxrm = s.vxrm := by
  unfold deliver performBroadcast; split
  · split <;> rfl
  · rfl
@[simp] theorem deliver_intSp (s : State) (j : Nat) : (deliver s j).intSp = s.intSp := by
  unfold deliver performBroadcast; split
  · split <;> rfl
  · rfl
@[simp] theorem deliver_xlateOn (s : State) (j : Nat) : (deliver s j).xlateOn = s.xlateOn := by
  unfold deliver performBroadcast; split
  · split <;> rfl
  · rfl
@[simp] theorem deliver_asid (s : State) (j : Nat) : (deliver s j).asid = s.asid := by
  unfold deliver performBroadcast; split
  · split <;> rfl
  · rfl
@[simp] theorem deliver_dc (s : State) (j : Nat) : (deliver s j).dc = s.dc := by
  unfold deliver performBroadcast; split
  · split <;> rfl
  · rfl
@[simp] theorem deliver_pipeline (s : State) (j : Nat) : (deliver s j).pipeline = s.pipeline := by
  unfold deliver performBroadcast; split
  · split <;> rfl
  · rfl
@[simp] theorem deliver_others (s : State) (j : Nat) : (deliver s j).others = s.others := by
  unfold deliver performBroadcast; split
  · split <;> rfl
  · rfl
@[simp] theorem deliver_mem (s : State) (j : Nat) : (deliver s j).mem = s.mem := by
  unfold deliver performBroadcast; split
  · split <;> rfl
  · rfl
@[simp] theorem deliver_l2 (s : State) (j : Nat) : (deliver s j).l2 = s.l2 := by
  unfold deliver performBroadcast; split
  · split <;> rfl
  · rfl
@[simp] theorem deliver_pageMap (s : State) (j : Nat) : (deliver s j).pageMap = s.pageMap := by
  unfold deliver performBroadcast; split
  · split <;> rfl
  · rfl
@[simp] theorem deliver_oracle (s : State) (j : Nat) : (deliver s j).oracle = s.oracle := by
  unfold deliver performBroadcast; split
  · split <;> rfl
  · rfl
@[simp] theorem deliver_inter (s : State) (j : Nat) : (deliver s j).inter = s.inter := by
  unfold deliver performBroadcast; split
  · split <;> rfl
  · rfl
@[simp] theorem deliver_freeCount (s : State) (j : Nat) : (deliver s j).freeCount = s.freeCount := by
  unfold deliver performBroadcast; split
  · split <;> rfl
  · rfl

/-! ## setElems -/

@[simp] theorem setElems_cfg (s : State) (vd : Reg) (g : Nat → BitVec 32) : (setElems s vd g).cfg = s.cfg := rfl
@[simp] theorem setElems_mhartid (s : State) (vd : Reg) (g : Nat → BitVec 32) : (setElems s vd g).mhartid = s.mhartid := rfl
@[simp] theorem setElems_x (s : State) (vd : Reg) (g : Nat → BitVec 32) : (setElems s vd g).x = s.x := rfl
@[simp] theorem setElems_pc (s : State) (vd : Reg) (g : Nat → BitVec 32) : (setElems s vd g).pc = s.pc := rfl
@[simp] theorem setElems_f (s : State) (vd : Reg) (g : Nat → BitVec 32) : (setElems s vd g).f = s.f := rfl
@[simp] theorem setElems_priv (s : State) (vd : Reg) (g : Nat → BitVec 32) : (setElems s vd g).priv = s.priv := rfl
@[simp] theorem setElems_mstatus (s : State) (vd : Reg) (g : Nat → BitVec 32) : (setElems s vd g).mstatus = s.mstatus := rfl
@[simp] theorem setElems_mie (s : State) (vd : Reg) (g : Nat → BitVec 32) : (setElems s vd g).mie = s.mie := rfl
@[simp] theorem setElems_mcause (s : State) (vd : Reg) (g : Nat → BitVec 32) : (setElems s vd g).mcause = s.mcause := rfl
@[simp] theorem setElems_mepc (s : State) (vd : Reg) (g : Nat → BitVec 32) : (setElems s vd g).mepc = s.mepc := rfl
@[simp] theorem setElems_mtvec (s : State) (vd : Reg) (g : Nat → BitVec 32) : (setElems s vd g).mtvec = s.mtvec := rfl
@[simp] theorem setElems_mtval (s : State) (vd : Reg) (g : Nat → BitVec 32) : (setElems s vd g).mtval = s.mtval := rfl
@[simp] theorem setElems_mxstatus (s : State) (vd : Reg) (g : Nat → BitVec 32) : (setElems s vd g).mxstatus = s.mxstatus := rfl
@[simp] theorem setElems_vstart (s : State) (vd : Reg) (g : Nat → BitVec 32) : (setElems s vd g).vstart = s.vstart := rfl
@[simp] theorem setElems_vl (s : State) (vd : Reg) (g : Nat → BitVec 32) : (setElems s vd g).vl = s.vl := rfl
@[simp] theorem setElems_vtype (s : State) (vd : Reg) (g : Nat → BitVec 32) : (setElems s vd g).vtype = s.vtype := rfl
@[simp] theorem setElems_vxsat (s : State) (vd : Reg) (g : Nat → BitVec 32) : (setElems s vd g).vxsat = s.vxsat := rfl
@[simp] theorem setElems_vxrm (s : State) (vd : Reg) (g : Nat → BitVec 32) : (setElems s vd g).vxrm = s.vxrm := rfl
@[simp] theorem setElems_intSp (s : State) (vd : Reg) (g : Nat → BitVec 32) : (setElems s vd g).intSp = s.intSp := rfl
@[simp] theorem setElems_xlateOn (s : State) (vd : Reg) (g : Nat → BitVec 32) : (setElems s vd g).xlateOn = s.xlateOn := rfl
@[simp] theorem setElems_asid (s : State) (vd : Reg) (g : Nat → BitVec 32) : (setElems s vd g).asid = s.asid := rfl
@[simp] theorem setElems_dc (s : State) (vd : Reg) (g : Nat → BitVec 32) : (setElems s vd g).dc = s.dc := rfl
@[simp] theorem setElems_ic (s : State) (vd : Reg) (g : Nat → BitVec 32) : (setElems s vd g).ic = s.ic := rfl
@[simp] theorem setElems_tlb (s : State) (vd : Reg) (g : Nat → BitVec 32) : (setElems s vd g).tlb = s.tlb := rfl
@[simp] theorem setElems_pipeline (s : State) (vd : Reg) (g : Nat → BitVec 32) : (setElems s vd g).pipeline = s.pipeline := rfl
@[simp] theorem setElems_pending (s : State) (vd : Reg) (g : Nat → BitVec 32) : (setElems s vd g).pending = s.pending := rfl
@[simp] theorem setElems_others (s : State) (vd : Reg) (g : Nat → BitVec 32) : (setElems s vd g).others = s.others := rfl
@[simp] theorem setElems_mem (s : State) (vd : Reg) (g : Nat → BitVec 32) : (setElems s vd g).mem = s.mem := rfl
@[simp] theorem setElems_l2 (s : State) (vd : Reg) (g : Nat → BitVec 32) : (setElems s vd g).l2 = s.l2 := rfl
@[simp] theorem setElems_pageMap (s : State) (vd : Reg) (g : Nat → BitVec 32) : (setElems s vd g).pageMap = s.pageMap := rfl
@[simp] theorem setElems_oracle (s : State) (vd : Reg) (g : Nat → BitVec 32) : (setElems s vd g).oracle = s.oracle := rfl
@[simp] theorem setElems_inter (s : State) (vd : Reg) (g : Nat → BitVec 32) : (setElems s vd g).inter = s.inter := rfl
@[simp] theorem setElems_freeCount (s : State) (vd : Reg) (g : Nat → BitVec 32) : (setElems s vd g).freeCount = s.freeCount := rfl

/-! ## writeX -/

@[simp] theorem writeX_cfg (s : State) (r : Reg) (v : Word) : (writeX s r v).cfg = s.cfg := by unfold writeX; split <;> rfl
@[simp] theorem writeX_mhartid (s : State) (r : Reg) (v : Word) : (writeX s r v).mhartid = s.mhartid := by unfold writeX; split <;> rfl
@[simp] theorem writeX_pc (s : State) (r : Reg) (v : Word) : (writeX s r v).pc = s.pc := by unfold writeX; split <;> rfl
@[simp] theorem writeX_f (s : State) (r : Reg) (v : Word) : (writeX s r v).f = s.f := by unfold writeX; split <;> rfl
@[simp] theorem writeX_vregs (s : State) (r : Reg) (v : Word) : (writeX s r v).vregs = s.vregs := by unfold writeX; split <;> rfl
@[simp] theorem writeX_priv (s : State) (r : Reg) (v : Word) : (writeX s r v).priv = s.priv := by unfold writeX; split <;> rfl
@[simp] theorem writeX_mstatus (s : State) (r : Reg) (v : Word) : (writeX s r v).mstatus = s.mstatus := by unfold writeX; split <;> rfl
@[simp] theorem writeX_mie (s : State) (r : Reg) (v : Word) : (writeX s r v).mie = s.mie := by unfold writeX; split <;> rfl
@[simp] theorem writeX_mcause (s : State) (r : Reg) (v : Word) : (writeX s r v).mcause = s.mcause := by unfold writeX; split <;> rfl
@[simp] theorem writeX_mepc (s : State) (r : Reg) (v : Word) : (writeX s r v).mepc = s.mepc := by unfold writeX; split <;> rfl
@[simp] theorem writeX_mtvec (s : State) (r : Reg) (v : Word) : (writeX s r v).mtvec = s.mtvec := by unfold writeX; split <;> rfl
@[simp] theorem writeX_mtval (s : State) (r : Reg) (v : Word) : (writeX s r v).mtval = s.mtval := by unfold writeX; split <;> rfl
@[simp] theorem writeX_mxstatus (s : State) (r : Reg) (v : Word) : (writeX s r v).mxstatus = s.mxstatus := by unfold writeX; split <;> rfl
@[simp] theorem writeX_vstart (s : State) (r : Reg) (v : Word) : (writeX s r v).vstart = s.vstart := by unfold writeX; split <;> rfl
@[simp] theorem writeX_vl (s : State) (r : Reg) (v : Word) : (writeX s r v).vl = s.vl := by unfold writeX; split <;> rfl
@[simp] theorem writeX_vtype (s : State) (r : Reg) (v : Word) : (writeX s r v).vtype = s.vtype := by unfold writeX; split <;> rfl
@[simp] theorem writeX_vxsat (s : State) (r : Reg) (v : Word) : (writeX s r v).vxsat = s.vxsat := by unfold writeX; split <;> rfl
@[simp] theorem writeX_vxrm (s : State) (r : Reg) (v : Word) : (writeX s r v).vxrm = s.vxrm := by unfold writeX; split <;> rfl
@[simp] theorem writeX_intSp (s : State) (r : Reg) (v : Word) : (writeX s r v).intSp = s.intSp := by unfold writeX; split <;> rfl
@[simp] theorem writeX_xlateOn (s : State) (r : Reg) (v : Word) : (writeX s r v).xlateOn = s.xlateOn := by unfold writeX; split <;> rfl
@[simp] theorem writeX_asid (s : State) (r : Reg) (v : Word) : (writeX s r v).asid = s.asid := by unfold writeX; split <;> rfl
@[simp] theorem writeX_dc (s : State) (r : Reg) (v : Word) : (writeX s r v).dc = s.dc := by unfold writeX; split <;> rfl
@[simp] theorem writeX_ic (s : State) (r : Reg) (v : Word) : (writeX s r v).ic = s.ic := by unfold writeX; split <;> rfl
@[simp] theorem writeX_tlb (s : State) (r : Reg) (v : Word) : (writeX s r v).tlb = s.tlb := by unfold writeX; split <;> rfl
@[simp] theorem writeX_pipeline (s : State) (r : Reg) (v : Word) : (writeX s r v).pipeline = s.pipeline := by unfold writeX; split <;> rfl
@[simp] theorem writeX_pending (s : State) (r : Reg) (v : Word) : (writeX s r v).pending = s.pending := by unfold writeX; split <;> rfl
@[simp] theorem writeX_others (s : State) (r : Reg) (v : Word) : (writeX s r v).others = s.others := by unfold writeX; split <;> rfl
@[simp] theorem writeX_mem (s : State) (r : Reg) (v : Word) : (writeX s r v).mem = s.mem := by unfold writeX; split <;> rfl
@[simp] theorem writeX_l2 (s : State) (r : Reg) (v : Word) : (writeX s r v).l2 = s.l2 := by unfold writeX; split <;> rfl
@[simp] theorem writeX_pageMap (s : State) (r : Reg) (v : Word) : (writeX s r v).pageMap = s.pageMap := by unfold writeX; split <;> rfl
@[simp] theorem writeX_oracle (s : State) (r : Reg) (v : Word) : (writeX s r v).oracle = s.oracle := by unfold writeX; split <;> rfl
@[simp] theorem writeX_inter (s : State) (r : Reg) (v : Word) : (writeX s r v).inter = s.inter := by unfold writeX; split <;> rfl
@[simp] theorem writeX_freeCount (s : State) (r : Reg) (v : Word) : (writeX s r v).freeCount = s.freeCount := by unfold writeX; split <;> rfl

/-! ## markFpDirty -/

@[simp] theorem markFpDirty_cfg (s : State) : (markFpDirty s).cfg = s.cfg := by unfold markFpDirty; split <;> rfl
@[simp] theorem markFpDirty_mhartid (s : State) : (markFpDirty s).mhartid = s.mhartid := by unfold markFpDirty; split <;> rfl
@[simp] theorem markFpDirty_x (s : State) : (markFpDirty s).x = s.x := by unfold markFpDirty; split <;> rfl
@[simp] theorem markFpDirty_pc (s : State) : (markFpDirty s).pc = s.pc := by unfold markFpDirty; split <;> rfl
@[simp] theorem markFpDirty_f (s : State) : (markFpDirty s).f = s.f := by unfold markFpDirty; split <;> rfl
@[simp] theorem markFpDirty_vregs (s : State) : (markFpDirty s).vregs = s.vregs := by unfold markFpDirty; split <;> rfl
@[simp] theorem markFpDirty_priv (s : State) : (markFpDirty s).priv = s.priv := by unfold markFpDirty; split <;> rfl
@[simp] theorem markFpDirty_mie (s : State) : (markFpDirty s).mie = s.mie := by unfold markFpDirty; split <;> rfl
@[simp] theorem markFpDirty_mcause (s : State) : (markFpDirty s).mcause = s.mcause := by unfold markFpDirty; split <;> rfl
@[simp] theorem markFpDirty_mepc (s : State) : (markFpDirty s).mepc = s.mepc := by unfold markFpDirty; split <;> rfl
@[simp] theorem markFpDirty_mtvec (s : State) : (markFpDirty s).mtvec = s.mtvec := by unfold markFpDirty; split <;> rfl
@[simp] theorem markFpDirty_mtval (s : State) : (markFpDirty s).mtval = s.mtval := by unfold markFpDirty; split <;> rfl
@[simp] theorem markFpDirty_mxstatus (s : State) : (markFpDirty s).mxstatus = s.mxstatus := by unfold markFpDirty; split <;> rfl
@[simp] theorem markFpDirty_vstart (s : State) : (markFpDirty s).vstart = s.vstart := by unfold markFpDirty; split <;> rfl
@[simp] theorem markFpDirty_vl (s : State) : (markFpDirty s).vl = s.vl := by unfold markFpDirty; split <;> rfl
@[simp] theorem markFpDirty_vtype (s : State) : (markFpDirty s).vtype = s.vtype := by unfold markFpDirty; split <;> rfl
@[simp] theorem markFpDirty_vxsat (s : State) : (markFpDirty s).vxsat = s.vxsat := by unfold markFpDirty; split <;> rfl
@[simp] theorem markFpDirty_vxrm (s : State) : (markFpDirty s).vxrm = s.vxrm := by unfold markFpDirty; split <;> rfl
@[simp] theorem markFpDirty_intSp (s : State) : (markFpDirty s).intSp = s.intSp := by unfold markFpDirty; split <;> rfl
@[simp] theorem markFpDirty_xlateOn (s : State) : (markFpDirty s).xlateOn = s.xlateOn := by unfold markFpDirty; split <;> rfl
@[simp] theorem markFpDirty_asid (s : State) : (markFpDirty s).asid = s.asid := by unfold markFpDirty; split <;> rfl
@[simp] theorem markFpDirty_dc (s : State) : (markFpDirty s).dc = s.dc := by unfold markFpDirty; split <;> rfl
@[simp] theorem markFpDirty_ic (s : State) : (markFpDirty s).ic = s.ic := by unfold markFpDirty; split <;> rfl
@[simp] theorem markFpDirty_tlb (s : State) : (markFpDirty s).tlb = s.tlb := by unfold markFpDirty; split <;> rfl
@[simp] theorem markFpDirty_pipeline (s : State) : (markFpDirty s).pipeline = s.pipeline := by unfold markFpDirty; split <;> rfl
@[simp] theorem markFpDirty_pending (s : State) : (markFpDirty s).pending = s.pending := by unfold markFpDirty; split <;> rfl
@[simp] theorem markFpDirty_others (s : State) : (markFpDirty s).others = s.others := by unfold markFpDirty; split <;> rfl
@[simp] theorem markFpDirty_mem (s : State) : (markFpDirty s).mem = s.mem := by unfold markFpDirty; split <;> rfl
@[simp] theorem markFpDirty_l2 (s : State) : (markFpDirty s).l2 = s.l2 := by unfold markFpDirty; split <;> rfl
@[simp] theorem markFpDirty_pageMap (s : State) : (markFpDirty s).pageMap = s.pageMap := by unfold markFpDirty; split <;> rfl
@[simp] theorem markFpDirty_oracle (s : State) : (markFpDirty s).oracle = s.oracle := by unfold markFpDirty; split <;> rfl
@[simp] theorem markFpDirty_inter (s : State) : (markFpDirty s).inter = s.inter := by unfold markFpDirty; split <;> rfl
@[simp] theorem markFpDirty_freeCount (s : State) : (markFpDirty s).freeCount = s.freeCount := by unfold markFpDirty; split <;> rfl

/-! ## pushMie -/

@[simp] theorem pushMie_cfg (s : State) : (pushMie s).cfg = s.cfg := by unfold pushMie; split <;> rfl
@[simp] theorem pushMie_mhartid (s : State) : (pushMie s).mhartid = s.mhartid := by unfold pushMie; split <;> rfl
@[simp] theorem pushMie_x (s : State) : (pushMie s).x = s.x := by unfold pushMie; split <;> rfl
@[simp] theorem pushMie_pc (s : State) : (pushMie s).pc = s.pc := by unfold pushMie; split <;> rfl
@[simp] theorem pushMie_f (s : State) : (pushMie s).f = s.f := by unfold pushMie; split <;> rfl
@[simp] theorem pushMie_vregs (s : State) : (pushMie s).vregs = s.vregs := by unfold pushMie; split <;> rfl
@[simp] theorem pushMie_priv (s : State) : (pushMie s).priv = s.priv := by unfold pushMie; split <;> rfl
@[simp] theorem pushMie_mie (s : State) : (pushMie s).mie = s.mie := by unfold pushMie; split <;> rfl
@[simp] theorem pushMie_mcause (s : State) : (pushMie s).mcause = s.mcause := by unfold pushMie; split <;> rfl
@[simp] theorem pushMie_mepc (s : State) : (pushMie s).mepc = s.mepc := by unfold pushMie; split <;> rfl
@[simp] theorem pushMie_mtvec (s : State) : (pushMie s).mtvec = s.mtvec := by unfold pushMie; split <;> rfl
@[simp] theorem pushMie_mtval (s : State) : (pushMie s).mtval = s.mtval := by unfold pushMie; split <;> rfl
@[simp] theorem pushMie_mxstatus (s : State) : (pushMie s).mxstatus = s.mxstatus := by unfold pushMie; split <;> rfl
@[simp] theorem pushMie_vstart (s : State) : (pushMie s).vstart = s.vstart := by unfold pushMie; split <;> rfl
@[simp] theorem pushMie_vl (s : State) : (pushMie s).vl = s.vl := by unfold pushMie; split <;> rfl
@[simp] theorem pushMie_vtype (s : State) : (pushMie s).vtype = s.vtype := by unfold pushMie; split <;> rfl
@[simp] theorem pushMie_vxsat (s : State) : (pushMie s).vxsat = s.vxsat := by unfold pushMie; split <;> rfl
@[simp] theorem pushMie_vxrm (s : State) : (pushMie s).vxrm = s.vxrm := by unfold pushMie; split <;> rfl
@[simp] theorem pushMie_intSp (s : State) : (pushMie s).intSp = s.intSp := by unfold pushMie; split <;> rfl
@[simp] theorem pushMie_xlateOn (s : State) : (pushMie s).xlateOn = s.xlateOn := by unfold pushMie; split <;> rfl
@[simp] theorem pushMie_asid (s : State) : (pushMie s).asid = s.asid := by unfold pushMie; split <;> rfl
@[simp] theorem pushMie_dc (s : State) : (pushMie s).dc = s.dc := by unfold pushMie; split <;> rfl
@[simp] theorem pushMie_ic (s : State) : (pushMie s).ic = s.ic := by unfold pushMie; split <;> rfl
@[simp] theorem pushMie_tlb (s : State) : (pushMie s).tlb = s.tlb := by unfold pushMie; split <;> rfl
@[simp] theorem pushMie_pipeline (s : State) : (pushMie s).pipeline = s.pipeline := by unfold pushMie; split <;> rfl
@[simp] theorem pushMie_pending (s : State) : (pushMie s).pending = s.pending := by unfold pushMie; split <;> rfl
@[simp] theorem pushMie_others (s : State) : (pushMie s).others = s.others := by unfold pushMie; split <;> rfl
@[simp] theorem pushMie_mem (s : State) : (pushMie s).mem = s.mem := by unfold pushMie; split <;> rfl
@[simp] theorem pushMie_l2 (s : State) : (pushMie s).l2 = s.l2 := by unfold pushMie; split <;> rfl
@[simp] theorem pushMie_pageMap (s : State) : (pushMie s).pageMap = s.pageMap := by unfold pushMie; split <;> rfl
@[simp] theorem pushMie_oracle (s : State) : (pushMie s).oracle = s.oracle := by unfold pushMie; split <;> rfl
@[simp] theorem pushMie_inter (s : State) : (pushMie s).inter = s.inter := by unfold pushMie; split <;> rfl
@[simp] theorem pushMie_freeCount (s : State) : (pushMie s).freeCount = s.freeCount := by unfold pushMie; split <;> rfl

/-! ## finishVector -/

@[simp] theorem finishVector_cfg (s : State) : (finishVector s).cfg = s.cfg := by unfold finishVector; split <;> rfl
@[simp] theorem finishVector_mhartid (s : State) : (finishVector s).mhartid = s.mhartid := by unfold finishVector; split <;> rfl
@[simp] theorem finishVector_x (s : State) : (finishVector s).x = s.x := by unfold finishVector; split <;> rfl
@[simp] theorem finishVector_pc (s : State) : (finishVector s).pc = s.pc := by unfold finishVector; split <;> rfl
@[simp] theorem finishVector_f (s : State) : (finishVector s).f = s.f := by unfold finishVector; split <;> rfl
@[simp] theorem finishVector_vregs (s : State) : (finishVector s).vregs = s.vregs := by unfold finishVector; split <;> rfl
@[simp] theorem finishVector_priv (s : State) : (finishVector s).priv = s.priv := by unfold finishVector; split <;> rfl
@[simp] theorem finishVector_mie (s : State) : (finishVector s).mie = s.mie := by unfold finishVector; split <;> rfl
@[simp] theorem finishVector_mcause (s : State) : (finishVector s).mcause = s.mcause := by unfold finishVector; split <;> rfl
@[simp] theorem finishVector_mepc (s : State) : (finishVector s).mepc = s.mepc := by unfold finishVector; split <;> rfl
@[simp] theorem finishVector_mtvec (s : State) : (finishVector s).mtvec = s.mtvec := by unfold finishVector; split <;> rfl
@[simp] theorem finishVector_mtval (s : State) : (finishVector s).mtval = s.mtval := by unfold finishVector; split <;> rfl
@[simp] theorem finishVector_mxstatus (s : State) : (finishVector s).mxstatus = s.mxstatus := by unfold finishVector; split <;> rfl
@[simp] theorem finishVector_vl (s : State) : (finishVector s).vl = s.vl := by unfold finishVector; split <;> rfl
@[simp] theorem finishVector_vtype (s : State) : (finishVector s).vtype = s.vtype := by unfold finishVector; split <;> rfl
@[simp] theorem finishVector_vxsat (s : State) : (finishVector s).vxsat = s.vxsat := by unfold finishVector; split <;> rfl
@[simp] theorem finishVector_vxrm (s : State) : (finishVector s).vxrm = s.vxrm := by unfold finishVector; split <;> rfl
@[simp] theorem finishVector_intSp (s : State) : (finishVector s).intSp = s.intSp := by unfold finishVector; split <;> rfl
@[simp] theorem finishVector_xlateOn (s : State) : (finishVector s).xlateOn = s.xlateOn := by unfold finishVector; split <;> rfl
@[simp] theorem finishVector_asid (s : State) : (finishVector s).asid = s.asid := by unfold finishVector; split <;> rfl
@[simp] theorem finishVector_dc (s : State) : (finishVector s).dc = s.dc := by unfold finishVector; split <;> rfl
@[simp] theorem finishVector_ic (s : State) : (finishVector s).ic = s.ic := by unfold finishVector; split <;> rfl
@[simp] theorem finishVector_tlb (s : State) : (finishVector s).tlb = s.tlb := by unfold finishVector; split <;> rfl
@[simp] theorem finishVector_pipeline (s : State) : (finishVector s).pipeline = s.pipeline := by unfold finishVector; split <;> rfl
@[simp] theorem finishVector_pending (s : State) : (finishVector s).pending = s.pending := by unfold finishVector; split <;> rfl
@[simp] theorem finishVector_others (s : State) : (finishVector s).others = s.others := by unfold finishVector; split <;> rfl
@[simp] theorem finishVector_mem (s : State) : (finishVector s).mem = s.mem := by unfold finishVector; split <;> rfl
@[simp] theorem finishVector_l2 (s : State) : (finishVector s).l2 = s.l2 := by unfold finishVector; split <;> rfl
@[simp] theorem finishVector_pageMap (s : State) : (finishVector s).pageMap = s.pageMap := by unfold finishVector; split <;> rfl
@[simp] theorem finishVector_oracle (s : State) : (finishVector s).oracle = s.oracle := by unfold finishVector; split <;> rfl
@[simp] theorem finishVector_inter (s : State) : (finishVector s).inter = s.inter := by unfold finishVector; split <;> rfl
@[simp] theorem finishVector_freeCount (s : State) : (finishVector s).freeCount = s.freeCount := by unfold finishVector; split <;> rfl

/-! ## writeIntSp -/

@[simp] theorem writeIntSp_cfg (s : State) (v : Word) : (writeIntSp s v).cfg = s.cfg := by unfold writeIntSp; split <;> simp
@[simp] theorem writeIntSp_mhartid (s : State) (v : Word) : (writeIntSp s v).mhartid = s.mhartid := by unfold writeIntSp; split <;> simp
@[simp] theorem writeIntSp_pc (s : State) (v : Word) : (writeIntSp s v).pc = s.pc := by unfold writeIntSp; split <;> simp
@[simp] theorem writeIntSp_f (s : State) (v : Word) : (writeIntSp s v).f = s.f := by unfold writeIntSp; split <;> simp
@[simp] theorem writeIntSp_vregs (s : State) (v : Word) : (writeIntSp s v).vregs = s.vregs := by unfold writeIntSp; split <;> simp
@[simp] theorem writeIntSp_priv (s : State) (v : Word) : (writeIntSp s v).priv = s.priv := by unfold writeIntSp; split <;> simp
@[simp] theorem writeIntSp_mstatus (s : State) (v : Word) : (writeIntSp s v).mstatus = s.mstatus := by unfold writeIntSp; split <;> simp
@[simp] theorem writeIntSp_mie (s : State) (v : Word) : (writeIntSp s v).mie = s.mie := by unfold writeIntSp; split <;> simp
@[simp] theorem writeIntSp_mcause (s : State) (v : Word) : (writeIntSp s v).mcause = s.mcause := by unfold writeIntSp; split <;> simp
@[simp] theorem writeIntSp_mepc (s : State) (v : Word) : (writeIntSp s v).mepc = s.mepc := by unfold writeIntSp; split <;> simp
@[simp] theorem writeIntSp_mtvec (s : State) (v : Word) : (writeIntSp s v).mtvec = s.mtvec := by unfold writeIntSp; split <;> simp
@[simp] theorem writeIntSp_mtval (s : State) (v : Word) : (writeIntSp s v).mtval = s.mtval := by unfold writeIntSp; split <;> simp
@[simp] theorem writeIntSp_mxstatus (s : State) (v : Word) : (writeIntSp s v).mxstatus = s.mxstatus := by unfold writeIntSp; split <;> simp
@[simp] theorem writeIntSp_vstart (s : State) (v : Word) : (writeIntSp s v).vstart = s.vstart := by unfold writeIntSp; split <;> simp
@[simp] theorem writeIntSp_vl (s : State) (v : Word) : (writeIntSp s v).vl = s.vl := by unfold writeIntSp; split <;> simp
@[simp] theorem writeIntSp_vtype (s : State) (v : Word) : (writeIntSp s v).vtype = s.vtype := by unfold writeIntSp; split <;> simp
@[simp] theorem writeIntSp_vxsat (s : State) (v : Word) : (writeIntSp s v).vxsat = s.vxsat := by unfold writeIntSp; split <;> simp
@[simp] theorem writeIntSp_vxrm (s : State) (v : Word) : (writeIntSp s v).vxrm = s.vxrm := by unfold writeIntSp; split <;> simp
@[simp] theorem writeIntSp_xlateOn (s : State) (v : Word) : (writeIntSp s v).xlateOn = s.xlateOn := by unfold writeIntSp; split <;> simp
@[simp] theorem writeIntSp_asid (s : State) (v : Word) : (writeIntSp s v).asid = s.asid := by unfold writeIntSp; split <;> simp
@[simp] theorem writeIntSp_dc (s : State) (v : Word) : (writeIntSp s v).dc = s.dc := by unfold writeIntSp; split <;> simp
@[simp] theorem writeIntSp_ic (s : State) (v : Word) : (writeIntSp s v).ic = s.ic := by unfold writeIntSp; split <;> simp
@[simp] theorem writeIntSp_tlb (s : State) (v : Word) : (writeIntSp s v).tlb = s.tlb := by unfold writeIntSp; split <;> simp
@[simp] theorem writeIntSp_pipeline (s : State) (v : Word) : (writeIntSp s v).pipeline = s.pipeline := by unfold writeIntSp; split <;> simp
@[simp] theorem writeIntSp_pending (s : State) (v : Word) : (writeIntSp s v).pending = s.pending := by unfold writeIntSp; split <;> simp
@[simp] theorem writeIntSp_others (s : State) (v : Word) : (writeIntSp s v).others = s.others := by unfold writeIntSp; split <;> simp
@[simp] theorem writeIntSp_mem (s : State) (v : Word) : (writeIntSp s v).mem = s.mem := by unfold writeIntSp; split <;> simp
@[simp] theorem writeIntSp_l2 (s : State) (v : Word) : (writeIntSp s v).l2 = s.l2 := by unfold writeIntSp; split <;> simp
@[simp] theorem writeIntSp_pageMap (s : State) (v : Word) : (writeIntSp s v).pageMap = s.pageMap := by unfold writeIntSp; split <;> simp
@[simp] theorem writeIntSp_oracle (s : State) (v : Word) : (writeIntSp s v).oracle = s.oracle := by unfold writeIntSp; split <;> simp
@[simp] theorem writeIntSp_inter (s : State) (v : Word) : (writeIntSp s v).inter = s.inter := by unfold writeIntSp; split <;> simp
@[simp] theorem writeIntSp_freeCount (s : State) (v : Word) : (writeIntSp s v).freeCount = s.freeCount := by unfold writeIntSp; split <;> simp

/-! ## writeMcause -/

@[simp] theorem writeMcause_cfg (s : State) (v : Word) : (writeMcause s v).cfg = s.cfg := by unfold writeMcause; dsimp only; split <;> rfl
@[simp] theorem writeMcause_mhartid (s : State) (v : Word) : (writeMcause s v).mhartid = s.mhartid := by unfold writeMcause; dsimp only; split <;> rfl
@[simp] theorem writeMcause_x (s : State) (v : Word) : (writeMcause s v).x = s.x := by unfold writeMcause; dsimp only; split <;> rfl
@[simp] theorem writeMcause_pc (s : State) (v : Word) : (writeMcause s v).pc = s.pc := by unfold writeMcause; dsimp only; split <;> rfl
@[simp] theorem writeMcause_f (s : State) (v : Word) : (writeMcause s v).f = s.f := by unfold writeMcause; dsimp only; split <;> rfl
@[simp] theorem writeMcause_vregs (s : State) (v : Word) : (writeMcause s v).vregs = s.vregs := by unfold writeMcause; dsimp only; split <;> rfl
@[simp] theorem writeMcause_priv (s : State) (v : Word) : (writeMcause s v).priv = s.priv := by unfold writeMcause; dsimp only; split <;> rfl
@[simp] theorem writeMcause_mstatus (s : State) (v : Word) : (writeMcause s v).mstatus = s.mstatus := by unfold writeMcause; dsimp only; split <;> rfl
@[simp] theorem writeMcause_mie (s : State) (v : Word) : (writeMcause s v).mie = s.mie := by unfold writeMcause; dsimp only; split <;> rfl
@[simp] theorem writeMcause_mepc (s : State) (v : Word) : (writeMcause s v).mepc = s.mepc := by unfold writeMcause; dsimp only; split <;> rfl
@[simp] theorem writeMcause_mtvec (s : State) (v : Word) : (writeMcause s v).mtvec = s.mtvec := by unfold writeMcause; dsimp only; split <;> rfl
@[simp] theorem writeMcause_mtval (s : State) (v : Word) : (writeMcause s v).mtval = s.mtval := by unfold writeMcause; dsimp only; split <;> rfl
@[simp] theorem writeMcause_mxstatus (s : State) (v : Word) : (writeMcause s v).mxstatus = s.mxstatus := by unfold writeMcause; dsimp only; split <;> rfl
@[simp] theorem writeMcause_vstart (s : State) (v : Word) : (writeMcause s v).vstart = s.vstart := by unfold writeMcause; dsimp only; split <;> rfl
@[simp] theorem writeMcause_vl (s : State) (v : Word) : (writeMcause s v).vl = s.vl := by unfold writeMcause; dsimp only; split <;> rfl
@[simp] theorem writeMcause_vtype (s : State) (v : Word) : (writeMcause s v).vtype = s.vtype := by unfold writeMcause; dsimp only; split <;> rfl
@[simp] theorem writeMcause_vxsat (s : State) (v : Word) : (writeMcause s v).vxsat = s.vxsat := by unfold writeMcause; dsimp only; split <;> rfl
@[simp] theorem writeMcause_vxrm (s : State) (v : Word) : (writeMcause s v).vxrm = s.vxrm := by unfold writeMcause; dsimp only; split <;> rfl
@[simp] theorem writeMcause_intSp (s : State) (v : Word) : (writeMcause s v).intSp = s.intSp := by unfold writeMcause; dsimp only; split <;> rfl
@[simp] theorem writeMcause_xlateOn (s : State) (v : Word) : (writeMcause s v).xlateOn = s.xlateOn := by unfold writeMcause; dsimp only; split <;> rfl
@[simp] theorem writeMcause_asid (s : State) (v : Word) : (writeMcause s v).asid = s.asid := by unfold writeMcause; dsimp only; split <;> rfl
@[simp] theorem writeMcause_dc (s : State) (v : Word) : (writeMcause s v).dc = s.dc := by unfold writeMcause; dsimp only; split <;> rfl
@[simp] theorem writeMcause_ic (s : State) (v : Word) : (writeMcause s v).ic = s.ic := by unfold writeMcause; dsimp only; split <;> rfl
@[simp] theorem writeMcause_tlb (s : State) (v : Word) : (writeMcause s v).tlb = s.tlb := by unfold writeMcause; dsimp only; split <;> rfl
@[simp] theorem writeMcause_pipeline (s : State) (v : Word) : (writeMcause s v).pipeline = s.pipeline := by unfold writeMcause; dsimp only; split <;> rfl
@[simp] theorem writeMcause_pending (s : State) (v : Word) : (writeMcause s v).pending = s.pending := by unfold writeMcause; dsimp only; split <;> rfl
@[simp] theorem writeMcause_others (s : State) (v : Word) : (writeMcause s v).others = s.others := by unfold writeMcause; dsimp only; split <;> rfl
@[simp] theorem writeMcause_mem (s : State) (v : Word) : (writeMcause s v).mem = s.mem := by unfold writeMcause; dsimp only; split <;> rfl
@[simp] theorem writeMcause_l2 (s : State) (v : Word) : (writeMcause s v).l2 = s.l2 := by unfold writeMcause; dsimp only; split <;> rfl
@[simp] theorem writeMcause_pageMap (s : State) (v : Word) : (writeMcause s v).pageMap = s.pageMap := by unfold writeMcause; dsimp only; split <;> rfl
@[simp] theorem writeMcause_oracle (s : State) (v : Word) : (writeMcause s v).oracle = s.oracle := by unfold writeMcause; dsimp only; split <;> rfl
@[simp] theorem writeMcause_inter (s : State) (v : Word) : (writeMcause s v).inter = s.inter := by unfold writeMcause; dsimp only; split <;> rfl

/-! ## setLines: only the cache it names -/

@[simp] theorem setLines_cfg (s : State) (c : CacheId) (ls : List Line) : (setLines s c ls).cfg = s.cfg := by
  cases c <;> rfl
@[simp] theorem setLines_mhartid (s : State) (c : CacheId) (ls : List Line) : (setLines s c ls).mhartid = s.mhartid := by
  cases c <;> rfl
@[simp] theorem setLines_x (s : State) (c : CacheId) (ls : List Line) : (setLines s c ls).x = s.x := by
  cases c <;> rfl
@[simp] theorem setLines_pc (s : State) (c : CacheId) (ls : List Line) : (setLines s c ls).pc = s.pc := by
  cases c <;> rfl
@[simp] theorem setLines_f (s : State) (c : CacheId) (ls : List Line) : (setLines s c ls).f = s.f := by
  cases c <;> rfl
@[simp] theorem setLines_vregs (s : State) (c : CacheId) (ls : List Line) : (setLines s c ls).vregs = s.vregs := by
  cases c <;> rfl
@[simp] theorem setLines_priv (s : State) (c : CacheId) (ls : List Line) : (setLines s c ls).priv = s.priv := by
  cases c <;> rfl
@[simp] theorem setLines_mstatus (s : State) (c : CacheId) (ls : List Line) : (setLines s c ls).mstatus = s.mstatus := by
  cases c <;> rfl
@[simp] theorem setLines_mie (s : State) (c : CacheId) (ls : List Line) : (setLines s c ls).mie = s.mie := by
  cases c <;> rfl
@[simp] theorem setLines_mcause (s : State) (c : CacheId) (ls : List Line) : (setLines s c ls).mcause = s.mcause := by
  cases c <;> rfl
@[simp] theorem setLines_mepc (s : State) (c : CacheId) (ls : List Line) : (setLines s c ls).mepc = s.mepc := by
  cases c <;> rfl
@[simp] theorem setLines_mtvec (s : State) (c : CacheId) (ls : List Line) : (setLines s c ls).mtvec = s.mtvec := by
  cases c <;> rfl
@[simp] theorem setLines_mtval (s : State) (c : CacheId) (ls : List Line) : (setLines s c ls).mtval = s.mtval := by
  cases c <;> rfl
@[simp] theorem setLines_mxstatus (s : State) (c : CacheId) (ls : List Line) : (setLines s c ls).mxstatus = s.mxstatus := by
  cases c <;> rfl
@[simp] theorem setLines_vstart (s : State) (c : CacheId) (ls : List Line) : (setLines s c ls).vstart = s.vstart := by
  cases c <;> rfl
@[simp] theorem setLines_vl (s : State) (c : CacheId) (ls : List Line) : (setLines s c ls).vl = s.vl := by
  cases c <;> rfl
@[simp] theorem setLines_vtype (s : State) (c : CacheId) (ls : List Line) : (setLines s c ls).vtype = s.vtype := by
  cases c <;> rfl
@[simp] theorem setLines_vxsat (s : State) (c : CacheId) (ls : List Line) : (setLines s c ls).vxsat = s.vxsat := by
  cases c <;> rfl
@[simp] theorem setLines_vxrm (s : State) (c : CacheId) (ls : List Line) : (setLines s c ls).vxrm = s.vxrm := by
  cases c <;> rfl
@[simp] theorem setLines_intSp (s : State) (c : CacheId) (ls : List Line) : (setLines s c ls).intSp = s.intSp := by
  cases c <;> rfl
@[simp] theorem setLines_xlateOn (s : State) (c : CacheId) (ls : List Line) : (setLines s c ls).xlateOn = s.xlateOn := by
  cases c <;> rfl
@[simp] theorem setLines_asid (s : State) (c : CacheId) (ls : List Line) : (setLines s c ls).asid = s.asid := by
  cases c <;> rfl
@[simp] theorem setLines_tlb (s : State) (c : CacheId) (ls : List Line) : (setLines s c ls).tlb = s.tlb := by
  cases c <;> rfl
@[simp] theorem setLines_pipeline (s : State) (c : CacheId) (ls : List Line) : (setLines s c ls).pipeline = s.pipeline := by
  cases c <;> rfl
@[simp] theorem setLines_pending (s : State) (c : CacheId) (ls : List Line) : (setLines s c ls).pending = s.pending := by
  cases c <;> rfl
@[simp] theorem setLines_others (s : State) (c : CacheId) (ls : List Line) : (setLines s c ls).others = s.others := by
  cases c <;> rfl
@[simp] theorem setLines_mem (s : State) (c : CacheId) (ls : List Line) : (setLines s c ls).mem = s.mem := by
  cases c <;> rfl
@[simp] theorem setLines_pageMap (s : State) (c : CacheId) (ls : List Line) : (setLines s c ls).pageMap = s.pageMap := by
  cases c <;> rfl
@[simp] theorem setLines_oracle (s : State) (c : CacheId) (ls : List Line) : (setLines s c ls).oracle = s.oracle := by
  cases c <;> rfl
@[simp] theorem setLines_inter (s : State) (c : CacheId) (ls : List Line) : (setLines s c ls).inter = s.inter := by
  cases c <;> rfl
@[simp] theorem setLines_freeCount (s : State) (c : CacheId) (ls : List Line) : (setLines s c ls).freeCount = s.freeCount := by
  cases c <;> rfl

end Sys2Proof.Machine
end

