-- ==== Sys2Proof/Laws/Memory.lean ====
section
/-! SUPPORT. `MEM`: a read after a write, and the canonical form, which every memory operation keeps. -/

namespace Sys2Proof.Machine

theorem memRead_memCons (a b : Nat) (v : Byte) (m : Memory) :
    memRead (memCons a v m) b =
      if b = a then (if v = unlistedByte then memRead m b else v) else memRead m b := by
  unfold memCons
  by_cases hv : v = unlistedByte
  · simp [hv]
  · by_cases h : b = a
    · simp [hv, h, memRead]
    · simp [hv, h, memRead, Ne.symm h]

/-- A write leaves every other address alone. -/
theorem memRead_memWrite_of_ne (m : Memory) (a b : Nat) (v : Byte) (h : b ≠ a) :
    memRead (memWrite m a v) b = memRead m b := by
  induction m with
  | nil => simp [memWrite, memRead_memCons, h]
  | cons c m ih =>
    obtain ⟨k, w⟩ := c
    simp only [memWrite]
    split
    · simp [memRead_memCons, h]
    · split
      · next hk => simp [memRead_memCons, h, memRead, ← hk, Ne.symm h]
      · simp only [memRead]; split
        · rfl
        · exact ih

theorem memRead_of_memWfFrom (m : Memory) (lo a : Nat) (h : memWfFrom lo m = true) (ha : a < lo) :
    memRead m a = unlistedByte := by
  induction m generalizing lo with
  | nil => rfl
  | cons c m ih =>
    obtain ⟨k, w⟩ := c
    simp only [memWfFrom, Bool.and_eq_true, decide_eq_true_eq] at h
    have hk : k ≠ a := by omega
    simp only [memRead, hk, if_false]
    exact ih (k + 1) h.2 (by omega)

theorem memRead_memWrite_self_from (m : Memory) (lo a : Nat) (v : Byte) (h : memWfFrom lo m = true) :
    memRead (memWrite m a v) a = v := by
  induction m generalizing lo with
  | nil => simp only [memWrite, memRead_memCons, memRead]; split <;> simp_all
  | cons c m ih =>
    obtain ⟨k, w⟩ := c
    have h0 := h
    simp only [memWfFrom, Bool.and_eq_true, decide_eq_true_eq] at h
    simp only [memWrite]
    split
    · next hlt =>
      have hk : k ≠ a := by omega
      simp only [memRead_memCons, if_true, memRead, hk, if_false]
      split
      · next hv => rw [memRead_of_memWfFrom m (k + 1) a h.2 (by omega), hv]
      · rfl
    · split
      · next hk =>
        simp only [memRead_memCons, if_true]
        split
        · next hv => rw [memRead_of_memWfFrom m (k + 1) a h.2 (by omega), hv]
        · rfl
      · next hne =>
        have hk : k ≠ a := fun e => hne e.symm
        simp only [memRead, hk, if_false]
        exact ih (k + 1) h.2

/-- A read after a write gives the byte written. -/
theorem memRead_memWrite_self (m : Memory) (a : Nat) (v : Byte) (h : Memory.wf m = true) :
    memRead (memWrite m a v) a = v := memRead_memWrite_self_from m 0 a v h

theorem memWfFrom_mono (m : Memory) (lo lo' : Nat) (hl : lo' ≤ lo) (h : memWfFrom lo m = true) :
    memWfFrom lo' m = true := by
  cases m with
  | nil => rfl
  | cons c m =>
    obtain ⟨k, w⟩ := c
    simp only [memWfFrom, Bool.and_eq_true, decide_eq_true_eq] at h ⊢
    exact ⟨⟨by omega, h.1.2⟩, h.2⟩

theorem memCons_wfFrom (m : Memory) (lo a : Nat) (v : Byte) (hl : lo ≤ a)
    (h : memWfFrom (a + 1) m = true) : memWfFrom lo (memCons a v m) = true := by
  unfold memCons
  split
  · exact memWfFrom_mono m (a + 1) lo (by omega) h
  · next hv => simp [memWfFrom, hl, hv, h]

theorem memWrite_wfFrom (m : Memory) (lo a : Nat) (v : Byte) (hl : lo ≤ a)
    (h : memWfFrom lo m = true) : memWfFrom lo (memWrite m a v) = true := by
  induction m generalizing lo with
  | nil => exact memCons_wfFrom [] lo a v hl rfl
  | cons c m ih =>
    obtain ⟨k, w⟩ := c
    have h0 := h
    simp only [memWfFrom, Bool.and_eq_true, decide_eq_true_eq] at h
    simp only [memWrite]
    split
    · exact memCons_wfFrom _ lo a v hl (by simp [memWfFrom, h.1.2, h.2]; omega)
    · split
      · next hk => subst hk; exact memCons_wfFrom m lo a v hl h.2
      · simp only [memWfFrom, Bool.and_eq_true, decide_eq_true_eq]
        exact ⟨h.1, ih (k + 1) (by omega) h.2⟩

/-- A write keeps the canonical form. -/
theorem memWrite_wf (m : Memory) (a : Nat) (v : Byte) (h : Memory.wf m = true) :
    Memory.wf (memWrite m a v) = true := memWrite_wfFrom m 0 a v (Nat.zero_le _) h

/-- Writing a whole line keeps the canonical form. -/
theorem memSetLine_wf (m : Memory) (a : Nat) (bs : List Byte) (h : Memory.wf m = true) :
    Memory.wf (memSetLine m a bs) = true := by
  induction bs generalizing m a with
  | nil => exact h
  | cons b bs ih => exact ih _ _ (memWrite_wf m a b h)

/-- Writing a line leaves the addresses outside it alone. -/
theorem memRead_memSetLine_of_not_mem (m : Memory) (a b : Nat) (bs : List Byte)
    (h : b < a ∨ a + bs.length ≤ b) : memRead (memSetLine m a bs) b = memRead m b := by
  induction bs generalizing m a with
  | nil => rfl
  | cons v bs ih =>
    simp only [List.length_cons] at h
    rw [memSetLine, ih _ _ (by omega), memRead_memWrite_of_ne _ _ _ _ (by omega)]

/-- The bytes of a line after it was written. -/
theorem memRead_memSetLine (m : Memory) (a k : Nat) (bs : List Byte) (h : Memory.wf m = true)
    (hk : k < bs.length) : memRead (memSetLine m a bs) (a + k) = bs[k] := by
  induction bs generalizing m a k with
  | nil => simp at hk
  | cons v bs ih =>
    rw [memSetLine]
    cases k with
    | zero =>
      rw [memRead_memSetLine_of_not_mem _ _ _ _ (by omega)]
      simpa using memRead_memWrite_self m a v h
    | succ k =>
      have := ih (memWrite m a v) (a + 1) k (memWrite_wf m a v h) (by simpa using hk)
      simpa [Nat.add_assoc, Nat.add_comm 1 k] using this

/-- Memory at reset is in the canonical form. -/
theorem reset_memory_wf : Memory.wf State.reset.mem = true := rfl

theorem memSet_wf (s : State) (pa : Nat) (b : Byte) (h : Memory.wf s.mem = true) :
    Memory.wf (memSet s pa b).mem = true := memWrite_wf s.mem pa b h

end Sys2Proof.Machine
end

