-- ==== Sys2Proof/Laws/Storage.lean ====
section
/-! SUPPORT. The storage levels: what each read sees after each operation on lines and bytes, that every
operation keeps the caches well formed and memory canonical, and that none touches the rest of the state. -/

namespace Sys2Proof

open Machine

/-! ## Lines of a cache -/

theorem cacheLines_of_absent (s : State) (c : CacheId) (h : cachePresent s.cfg c = false) :
    cacheLines s c = [] := by simp [cacheLines, h]

@[simp] theorem setLines_mem' (s : State) (c : CacheId) (ls : List Line) :
    (setLines s c ls).mem = s.mem := by cases c <;> rfl

@[simp] theorem setLines_cfg' (s : State) (c : CacheId) (ls : List Line) :
    (setLines s c ls).cfg = s.cfg := by cases c <;> rfl

/-- The lines of a cache after they were replaced. -/
theorem cacheLines_setLines_self (s : State) (c : CacheId) (ls : List Line) :
    cacheLines (setLines s c ls) c = if cachePresent s.cfg c then ls else [] := by
  unfold cacheLines
  rw [setLines_cfg']
  cases c <;> rfl

/-- The lines of another cache after that. -/
theorem cacheLines_setLines_of_ne (s : State) (c d : CacheId) (ls : List Line) (h : d ≠ c) :
    cacheLines (setLines s c ls) d = cacheLines s d := by
  unfold cacheLines
  rw [setLines_cfg']
  congr 1
  cases c <;> cases d <;> simp_all [storedLines, setLines]

/-- Lines replaced by a function of those there: nothing comes of a cache that is not there. -/
theorem cacheLines_setLines_map (s : State) (c : CacheId) (f : Line → Line) :
    cacheLines (setLines s c ((cacheLines s c).map f)) c = (cacheLines s c).map f := by
  rw [cacheLines_setLines_self]
  split
  · rfl
  · next h => simp [cacheLines_of_absent s c (by simpa using h)]

theorem cacheLines_setLines_filter (s : State) (c : CacheId) (p : Line → Bool) :
    cacheLines (setLines s c ((cacheLines s c).filter p)) c = (cacheLines s c).filter p := by
  rw [cacheLines_setLines_self]
  split
  · rfl
  · next h => simp [cacheLines_of_absent s c (by simpa using h)]

/-! ## Well-formed lines -/

theorem LinesWf.map {g : CacheGeom} {ls : List Line} (h : LinesWf g ls) (f : Line → Line)
    (hf : ∀ ln, (f ln).addr = ln.addr ∧ (f ln).way = ln.way ∧ (f ln).data.length = ln.data.length) :
    LinesWf g (ls.map f) where
  aligned ln hl := by
    obtain ⟨l, hm, rfl⟩ := List.mem_map.1 hl; rw [(hf l).1]; exact h.aligned l hm
  whole ln hl := by
    obtain ⟨l, hm, rfl⟩ := List.mem_map.1 hl; rw [(hf l).2.2]; exact h.whole l hm
  way ln hl := by
    obtain ⟨l, hm, rfl⟩ := List.mem_map.1 hl; rw [(hf l).2.1]; exact h.way l hm
  addr_once := by
    rw [List.pairwise_map]
    exact h.addr_once.imp fun {a b} hab => by rw [(hf a).1, (hf b).1]; exact hab
  place_once := by
    rw [List.pairwise_map]
    exact h.place_once.imp fun {a b} hab => by
      rw [(hf a).1, (hf b).1, (hf a).2.1, (hf b).2.1]; exact hab

theorem LinesWf.filter {g : CacheGeom} {ls : List Line} (h : LinesWf g ls) (p : Line → Bool) :
    LinesWf g (ls.filter p) where
  aligned ln hl := h.aligned ln (List.mem_filter.1 hl).1
  whole ln hl := h.whole ln (List.mem_filter.1 hl).1
  way ln hl := h.way ln (List.mem_filter.1 hl).1
  addr_once := h.addr_once.filter p
  place_once := h.place_once.filter p

theorem LinesWf.nil (g : CacheGeom) : LinesWf g [] :=
  ⟨by simp, by simp, by simp, List.Pairwise.nil, List.Pairwise.nil⟩

theorem LinesWf.cons {g : CacheGeom} {ls : List Line} (h : LinesWf g ls) (ln : Line)
    (h1 : ln.addr % 2 ^ g.l = 0) (h2 : ln.data.length = 2 ^ g.l) (h3 : ln.way < 2 ^ g.w)
    (h4 : ∀ l ∈ ls, l.addr ≠ ln.addr)
    (h5 : ∀ l ∈ ls, ¬(setIndex g l.addr = setIndex g ln.addr ∧ l.way = ln.way)) :
    LinesWf g (ln :: ls) where
  aligned := by simp only [List.mem_cons, forall_eq_or_imp]; exact ⟨h1, h.aligned⟩
  whole := by simp only [List.mem_cons, forall_eq_or_imp]; exact ⟨h2, h.whole⟩
  way := by simp only [List.mem_cons, forall_eq_or_imp]; exact ⟨h3, h.way⟩
  addr_once := List.Pairwise.cons (fun l hl => (h4 l hl).symm) h.addr_once
  place_once := List.Pairwise.cons (fun l hl e => h5 l hl ⟨e.1.symm, e.2.symm⟩) h.place_once

/-- Two lines of a cache at one address are one line. -/
theorem LinesWf.eq_of_addr {g : CacheGeom} {ls : List Line} (h : LinesWf g ls) {a b : Line}
    (ha : a ∈ ls) (hb : b ∈ ls) (e : a.addr = b.addr) : a = b := by
  by_contra hne
  have : Std.Symm fun a b : Line => a.addr ≠ b.addr := ⟨fun _ _ h => h.symm⟩
  exact h.addr_once.forall ha hb hne e

/-- Two lines of a cache at one place are one line. -/
theorem LinesWf.eq_of_place {g : CacheGeom} {ls : List Line} (h : LinesWf g ls) {a b : Line}
    (ha : a ∈ ls) (hb : b ∈ ls) (e : setIndex g a.addr = setIndex g b.addr) (ew : a.way = b.way) :
    a = b := by
  by_contra hne
  have : Std.Symm fun a b : Line => ¬(setIndex g a.addr = setIndex g b.addr ∧ a.way = b.way) :=
    ⟨fun _ _ h e => h ⟨e.1.symm, e.2.symm⟩⟩
  exact h.place_once.forall ha hb hne ⟨e, ew⟩

theorem cacheGeom_setLines (s : State) (c d : CacheId) (ls : List Line) :
    cacheGeom (setLines s c ls).cfg d = cacheGeom s.cfg d := by simp

/-- Replacing the lines of a cache by well-formed ones keeps the caches well formed. -/
theorem CachesInv.setLines {s : State} (h : CachesInv s) (c : CacheId) (ls : List Line)
    (hl : LinesWf (cacheGeom s.cfg c) ls)
    (hd : c = .ic → ∀ ln ∈ ls, ln.dirty = false) : CachesInv (setLines s c ls) where
  lines d := by
    rw [cacheGeom_setLines]
    by_cases e : d = c
    · subst e
      rw [cacheLines_setLines_self]
      split
      · exact hl
      · exact LinesWf.nil _
    · rw [cacheLines_setLines_of_ne _ _ _ _ e]; exact h.lines d
  ic_clean ln hln := by
    by_cases e : CacheId.ic = c
    · subst e
      rw [cacheLines_setLines_self] at hln
      split at hln
      · exact hd rfl ln hln
      · simp at hln
    · rw [cacheLines_setLines_of_ne _ _ _ _ e] at hln; exact h.ic_clean ln hln
  others h' hh := by
    rw [setLines_others] at hh
    rw [setLines_cfg']
    exact h.others h' hh

/-- The caches depend on the configuration, the lines and the other harts alone. -/
theorem CachesInv.congr {s t : State} (h : CachesInv s) (hc : t.cfg = s.cfg)
    (hl : ∀ c, cacheLines t c = cacheLines s c) (ho : t.others = s.others) : CachesInv t :=
  ⟨fun c => by rw [hc, hl]; exact h.lines c, fun ln hln => h.ic_clean ln (by rwa [hl] at hln),
    fun h' hh => by rw [ho] at hh; rw [hc]; exact h.others h' hh⟩

theorem cacheLines_congr {s t : State} (hc : t.cfg = s.cfg) (hd : t.dc = s.dc) (hi : t.ic = s.ic)
    (h2 : t.l2 = s.l2) (c : CacheId) : cacheLines t c = cacheLines s c := by
  unfold cacheLines
  rw [hc]
  congr 1
  cases c <;> simp [storedLines, hd, hi, h2]

/-! ## The byte a cache holds -/

/-- The byte of a cache at an address, if it holds the line. -/
def viewByte (s : State) (c : CacheId) (a : Nat) : Option Byte :=
  (heldLine s c a).map fun ln => lineByte (cacheGeom s.cfg c) ln a

theorem lowerByte_eq (s : State) (a : Nat) :
    lowerByte s a = (viewByte s .l2 a).getD (memRead s.mem a) := by
  unfold lowerByte viewByte; cases heldLine s .l2 a <;> rfl

theorem dataByte_eq (s : State) (a : Nat) :
    dataByte s a = (viewByte s .dc a).getD (belowByte s a) := by
  unfold dataByte viewByte; cases heldLine s .dc a <;> rfl

/-- The byte that the lines of a D-cache hold, if they hold its line. -/
def dcByte (c : Config) (dc : List Line) (a : Nat) : Option Byte :=
  ((if c.hasDCache then dc else []).find? fun ln => ln.addr == lineAddr c.dcGeom a).map fun ln =>
    lineByte c.dcGeom ln a

/-- The byte of another hart's D-cache, if one is looked at and holds the line. -/
def peerByte (s : State) (a : Nat) : Option Byte :=
  if s.cfg.dcacheCoherent then (s.others.map fun h => dcByte s.cfg h.dc a).findSome? id else none

theorem viewByte_dc (s : State) (a : Nat) : viewByte s .dc a = dcByte s.cfg s.dc a := rfl

theorem peerLine_map (s : State) (a : Nat) :
    (peerLine s a).map (fun ln => lineByte s.cfg.dcGeom ln a) = peerByte s a := by
  unfold peerLine peerByte dcByte
  cases s.cfg.dcacheCoherent <;> cases s.cfg.hasDCache <;>
    simp [List.map_findSome?, List.findSome?_map, Function.comp_def]

theorem belowByte_eq (s : State) (a : Nat) :
    belowByte s a = (peerByte s a).getD (lowerByte s a) := by
  rw [← peerLine_map]; unfold belowByte; cases peerLine s a <;> rfl

/-- What a data access reads: this hart's D-cache, with `DCACHE_COHERENT` the others', `L2`, `MEM`. -/
theorem dataByte_views (s : State) (a : Nat) :
    dataByte s a = (viewByte s .dc a).getD ((peerByte s a).getD (lowerByte s a)) := by
  rw [dataByte_eq, belowByte_eq]

/-- What is found in the other harts depends on the configuration and their D-caches alone. -/
theorem peerByte_congr {s t : State} (hc : t.cfg = s.cfg) (a : Nat)
    (ho : (t.others.map fun h => dcByte s.cfg h.dc a) = s.others.map fun h => dcByte s.cfg h.dc a) :
    peerByte t a = peerByte s a := by
  unfold peerByte; rw [hc, ho]

theorem peerByte_of_others {s t : State} (hc : t.cfg = s.cfg) (ho : t.others = s.others) (a : Nat) :
    peerByte t a = peerByte s a := peerByte_congr hc a (by rw [ho])

theorem peerByte_setLines (s : State) (c : CacheId) (ls : List Line) (a : Nat) :
    peerByte (setLines s c ls) a = peerByte s a := peerByte_congr (by simp) a (by simp)

theorem fetchByte_eq (s : State) (a : Nat) :
    fetchByte s a = (viewByte s .ic a).getD (lowerByte s a) := by
  unfold fetchByte viewByte; cases heldLine s .ic a <;> rfl

theorem viewByte_congr {s t : State} (c : CacheId) (hc : t.cfg = s.cfg)
    (hl : cacheLines t c = cacheLines s c) (a : Nat) : viewByte t c a = viewByte s c a := by
  unfold viewByte heldLine; rw [hl, hc]

theorem viewByte_setLines_of_ne (s : State) (c d : CacheId) (ls : List Line) (h : d ≠ c) (a : Nat) :
    viewByte (setLines s c ls) d a = viewByte s d a :=
  viewByte_congr d (by simp) (cacheLines_setLines_of_ne s c d ls h) a

theorem lineAddr_add_mod (g : CacheGeom) (a : Nat) : lineAddr g a + a % 2 ^ g.l = a := by
  unfold lineAddr; rw [Nat.mul_comm]; exact Nat.div_add_mod a _

theorem lineAddr_mod (g : CacheGeom) (a : Nat) : lineAddr g a % 2 ^ g.l = 0 := by
  unfold lineAddr; exact Nat.mul_mod_left _ _

theorem heldLine_mem {s : State} {c : CacheId} {a : Nat} {ln : Line} (h : heldLine s c a = some ln) :
    ln ∈ cacheLines s c ∧ ln.addr = lineAddr (cacheGeom s.cfg c) a := by
  unfold heldLine at h
  exact ⟨List.mem_of_find?_eq_some h, by simpa using List.find?_some h⟩

theorem heldLine_eq_none {s : State} {c : CacheId} {a : Nat} (h : heldLine s c a = none) :
    ∀ ln ∈ cacheLines s c, ln.addr ≠ lineAddr (cacheGeom s.cfg c) a := by
  intro ln hl e
  have := List.find?_eq_none.1 h ln hl
  simp [e] at this

/-- With well-formed lines the line held is the one with the address. -/
theorem heldLine_of_mem {s : State} {c : CacheId} {a : Nat} {ln : Line} (hi : CachesInv s)
    (hm : ln ∈ cacheLines s c) (ha : ln.addr = lineAddr (cacheGeom s.cfg c) a) :
    heldLine s c a = some ln := by
  cases h : heldLine s c a with
  | none => exact absurd ha (heldLine_eq_none h ln hm)
  | some l =>
    have := heldLine_mem h
    rw [(hi.lines c).eq_of_addr this.1 hm (by rw [this.2, ha])]

/-- Lines replaced one for one, their addresses kept. -/
theorem heldLine_setLines_map (s : State) (c : CacheId) (f : Line → Line)
    (hf : ∀ ln, (f ln).addr = ln.addr) (a : Nat) :
    heldLine (setLines s c ((cacheLines s c).map f)) c a = (heldLine s c a).map f := by
  unfold heldLine
  rw [cacheLines_setLines_map, setLines_cfg', List.find?_map]
  congr 2
  funext ln
  simp [hf]

theorem cacheSet_lines (s : State) (c : CacheId) (pa : Nat) (b : Byte) :
    ∀ ln : Line, (if ln.addr == lineAddr (cacheGeom s.cfg c) pa then
      { ln with dirty := true, data := ln.data.set (pa % 2 ^ (cacheGeom s.cfg c).l) b } else ln).addr
      = ln.addr := by intro ln; split <;> rfl

@[simp] theorem cacheSet_cfg (s : State) (c : CacheId) (pa : Nat) (b : Byte) :
    (cacheSet s c pa b).cfg = s.cfg := by simp [cacheSet]

@[simp] theorem cacheSet_mem (s : State) (c : CacheId) (pa : Nat) (b : Byte) :
    (cacheSet s c pa b).mem = s.mem := by simp [cacheSet]

/-- Writing a byte of a cache leaves its other bytes alone. -/
theorem viewByte_cacheSet_of_ne (s : State) (c : CacheId) (pa a : Nat) (b : Byte) (h : a ≠ pa) :
    viewByte (cacheSet s c pa b) c a = viewByte s c a := by
  unfold viewByte cacheSet
  simp only [setLines_cfg']
  rw [heldLine_setLines_map s c _ (cacheSet_lines s c pa b), Option.map_map]
  cases hl : heldLine s c a with
  | none => rfl
  | some ln =>
    have hm := (heldLine_mem hl).2
    simp only [Option.map_some, Function.comp]
    congr 1
    by_cases e : ln.addr = lineAddr (cacheGeom s.cfg c) pa
    · have hne : pa % 2 ^ (cacheGeom s.cfg c).l ≠ a % 2 ^ (cacheGeom s.cfg c).l := by
        intro e2
        apply h
        rw [← lineAddr_add_mod (cacheGeom s.cfg c) a, ← lineAddr_add_mod (cacheGeom s.cfg c) pa,
          ← hm, e, e2]
      simp [e, lineByte, List.getD_eq_getElem?_getD, List.getElem?_set_ne hne]
    · simp [e]

/-- Writing a byte of a line that is held whole. -/
theorem viewByte_cacheSet_self (s : State) (c : CacheId) (pa : Nat) (b : Byte) (ln : Line)
    (h : heldLine s c pa = some ln) (hw : ln.data.length = 2 ^ (cacheGeom s.cfg c).l) :
    viewByte (cacheSet s c pa b) c pa = some b := by
  unfold viewByte cacheSet
  simp only [setLines_cfg']
  rw [heldLine_setLines_map s c _ (cacheSet_lines s c pa b), h]
  have hlt : pa % 2 ^ (cacheGeom s.cfg c).l < ln.data.length := by
    rw [hw]; exact Nat.mod_lt _ (by positivity)
  simp [(heldLine_mem h).2, lineByte, List.getD_eq_getElem?_getD, hlt]

theorem viewByte_cacheSet_other (s : State) (c d : CacheId) (pa a : Nat) (b : Byte) (h : d ≠ c) :
    viewByte (cacheSet s c pa b) d a = viewByte s d a := by
  unfold cacheSet; exact viewByte_setLines_of_ne s c d _ h a

theorem CachesInv.cacheSet {s : State} (h : CachesInv s) (c : CacheId) (pa : Nat) (b : Byte)
    (hc : c = .dc ∨ c = .l2) : CachesInv (cacheSet s c pa b) := by
  unfold Machine.cacheSet
  refine h.setLines c _ ((h.lines c).map _ fun ln => ?_) ?_
  · split <;> simp
  · rcases hc with rfl | rfl <;> simp

theorem peerByte_cacheSet (s : State) (c : CacheId) (pa a : Nat) (b : Byte) :
    peerByte (cacheSet s c pa b) a = peerByte s a := peerByte_setLines s c _ a

/-! ## What every hart reads -/

theorem lowerByte_switchTo (k : Nat) (s : State) (a : Nat) :
    lowerByte (switchTo k s) a = lowerByte s a := by unfold switchTo; split <;> rfl

@[simp] theorem switchTo_cfg (k : Nat) (s : State) : (switchTo k s).cfg = s.cfg := by
  unfold switchTo; split <;> rfl

/-- A byte reads as before everywhere when each level's and each D-cache's view of it is as before. -/
theorem SameBytes.of_views {s t : State} {a : Nat} (hc : t.cfg = s.cfg)
    (hm : memRead t.mem a = memRead s.mem a) (hl : lowerByte t a = lowerByte s a)
    (hi : viewByte t .ic a = viewByte s .ic a) (hd : dcByte s.cfg t.dc a = dcByte s.cfg s.dc a)
    (ho : (t.others.map fun h => dcByte s.cfg h.dc a) = s.others.map fun h => dcByte s.cfg h.dc a) :
    SameBytes s t a := by
  have data : ∀ {u v : State}, v.cfg = u.cfg → lowerByte v a = lowerByte u a →
      dcByte u.cfg v.dc a = dcByte u.cfg u.dc a →
      ((v.others.map fun h => dcByte u.cfg h.dc a) = u.others.map fun h => dcByte u.cfg h.dc a) →
      dataByte v a = dataByte u a := by
    intro u v hc hl hd ho
    rw [dataByte_eq, dataByte_eq, viewByte_dc, viewByte_dc, belowByte_eq, belowByte_eq,
      peerByte_congr hc a ho, hl, hc, hd]
  refine ⟨hm, hl, data hc hl hd ho, by rw [fetchByte_eq, fetchByte_eq, hi, hl], fun k => ?_⟩
  refine data (by simpa using hc) (by simpa [lowerByte_switchTo] using hl) ?_ ?_ <;>
    rw [switchTo_cfg]
  · have hk := congrArg (fun l => l[k]?) ho
    simp only [List.getElem?_map] at hk
    unfold switchTo
    cases h1 : t.others[k]? <;> cases h2 : s.others[k]? <;> simp_all
  · have hk := congrArg (fun l => l[k]?) ho
    simp only [List.getElem?_map] at hk
    unfold switchTo
    cases h1 : t.others[k]? <;> cases h2 : s.others[k]? <;> simp_all [List.map_set]

theorem SameBytes.refl (s : State) (a : Nat) : SameBytes s s a := ⟨rfl, rfl, rfl, rfl, fun _ => rfl⟩

theorem SameBytes.trans {s t u : State} {a : Nat} (h1 : SameBytes s t a) (h2 : SameBytes t u a) :
    SameBytes s u a :=
  ⟨h2.1.trans h1.1, h2.2.1.trans h1.2.1, h2.2.2.1.trans h1.2.2.1, h2.2.2.2.1.trans h1.2.2.2.1,
    fun k => (h2.2.2.2.2 k).trans (h1.2.2.2.2 k)⟩

/-- The views of storage depend on the configuration, memory and the lines of all caches alone. -/
theorem SameBytes.congr {s t : State} (hc : t.cfg = s.cfg) (hm : t.mem = s.mem) (hd : t.dc = s.dc)
    (hi : t.ic = s.ic) (h2 : t.l2 = s.l2) (ho : t.others.map Hart.dc = s.others.map Hart.dc) (a : Nat) :
    SameBytes s t a := by
  have hv (c : CacheId) : viewByte t c a = viewByte s c a :=
    viewByte_congr c hc (cacheLines_congr hc hd hi h2 c) a
  refine .of_views hc (by rw [hm]) (by rw [lowerByte_eq, lowerByte_eq, hv, hm]) (hv .ic) (by rw [hd]) ?_
  have := congrArg (List.map fun l => dcByte s.cfg l a) ho
  simpa [Function.comp_def] using this

/-! ## Bytes written by data accesses -/

@[simp] theorem lowerSet_cfg (s : State) (pa : Nat) (b : Byte) : (lowerSet s pa b).cfg = s.cfg := by
  unfold lowerSet; split <;> simp

@[simp] theorem lowerSet_others (s : State) (pa : Nat) (b : Byte) :
    (lowerSet s pa b).others = s.others := by
  unfold lowerSet; split <;> simp [cacheSet]

@[simp] theorem lowerSet_dc (s : State) (pa : Nat) (b : Byte) : (lowerSet s pa b).dc = s.dc := by
  unfold lowerSet; split <;> rfl

@[simp] theorem dataSet_cfg (s : State) (pa : Nat) (b : Byte) : (dataSet s pa b).cfg = s.cfg := by
  unfold dataSet; split <;> simp

theorem viewByte_memSet (s : State) (c : CacheId) (pa a : Nat) (b : Byte) :
    viewByte (memSet s pa b) c a = viewByte s c a :=
  viewByte_congr c rfl (cacheLines_congr rfl rfl rfl rfl c) a

theorem viewByte_lowerSet (s : State) (c : CacheId) (pa a : Nat) (b : Byte) (h : c ≠ .l2) :
    viewByte (lowerSet s pa b) c a = viewByte s c a := by
  unfold lowerSet
  split
  · exact viewByte_cacheSet_other s .l2 c pa a b h
  · exact viewByte_memSet s c pa a b

theorem memRead_lowerSet_of_ne (s : State) (pa a : Nat) (b : Byte) (h : a ≠ pa) :
    memRead (lowerSet s pa b).mem a = memRead s.mem a := by
  unfold lowerSet
  split
  · simp
  · exact memRead_memWrite_of_ne s.mem pa a b h

theorem lowerByte_lowerSet_of_ne (s : State) (pa a : Nat) (b : Byte) (h : a ≠ pa) :
    lowerByte (lowerSet s pa b) a = lowerByte s a := by
  rw [lowerByte_eq, lowerByte_eq, memRead_lowerSet_of_ne s pa a b h]
  congr 1
  unfold lowerSet
  split
  · exact viewByte_cacheSet_of_ne s .l2 pa a b h
  · exact viewByte_memSet s .l2 pa a b

theorem lowerByte_lowerSet_self (s : State) (pa : Nat) (b : Byte) (h : LevelsInv s) :
    lowerByte (lowerSet s pa b) pa = b := by
  rw [lowerByte_eq]
  unfold lowerSet
  split
  · next ln hl =>
    rw [viewByte_cacheSet_self s .l2 pa b ln hl ((h.caches.lines .l2).whole ln (heldLine_mem hl).1)]
    rfl
  · next hl =>
    rw [viewByte_memSet]
    simp only [viewByte, hl, Option.map_none, Option.getD_none]
    exact memRead_memWrite_self s.mem pa b h.mem_wf

theorem cacheLines_memSet (s : State) (pa : Nat) (b : Byte) (c : CacheId) :
    cacheLines (memSet s pa b) c = cacheLines s c := cacheLines_congr rfl rfl rfl rfl c

theorem cacheLines_peersSet (s : State) (pa : Nat) (b : Byte) (c : CacheId) :
    cacheLines (peersSet s pa b) c = cacheLines s c :=
  cacheLines_congr (by simp) (by simp) (by simp) (by simp) c

theorem viewByte_peersSet (s : State) (pa : Nat) (b : Byte) (c : CacheId) (a : Nat) :
    viewByte (peersSet s pa b) c a = viewByte s c a :=
  viewByte_congr c (by simp) (cacheLines_peersSet s pa b c) a

theorem lowerByte_peersSet (s : State) (pa : Nat) (b : Byte) (a : Nat) :
    lowerByte (peersSet s pa b) a = lowerByte s a := by
  rw [lowerByte_eq, lowerByte_eq, viewByte_peersSet, peersSet_mem]

@[simp] theorem putByte_addr (g : CacheGeom) (pa : Nat) (b : Byte) (ln : Line) :
    (putByte g pa b ln).addr = ln.addr := by unfold putByte; split <;> rfl

@[simp] theorem putByte_way (g : CacheGeom) (pa : Nat) (b : Byte) (ln : Line) :
    (putByte g pa b ln).way = ln.way := by unfold putByte; split <;> rfl

@[simp] theorem putByte_dirty (g : CacheGeom) (pa : Nat) (b : Byte) (ln : Line) :
    (putByte g pa b ln).dirty = ln.dirty := by unfold putByte; split <;> rfl

@[simp] theorem putByte_length (g : CacheGeom) (pa : Nat) (b : Byte) (ln : Line) :
    (putByte g pa b ln).data.length = ln.data.length := by unfold putByte; split <;> simp

theorem putByte_data {g : CacheGeom} {pa : Nat} {b : Byte} {ln ln' : Line} (ha : ln.addr = ln'.addr)
    (hd : ln.data = ln'.data) : (putByte g pa b ln).data = (putByte g pa b ln').data := by
  unfold putByte; rw [ha]; split <;> simp [hd]

/-- A byte put into the lines of a D-cache: its other bytes read as before. -/
theorem dcByte_map_putByte_of_ne (c : Config) (dc : List Line) (pa a : Nat) (b : Byte) (h : a ≠ pa) :
    dcByte c (dc.map (putByte c.dcGeom pa b)) a = dcByte c dc a := by
  unfold dcByte
  cases c.hasDCache
  · rfl
  simp only [if_true, List.find?_map, Option.map_map, Function.comp_def, putByte_addr]
  cases hl : dc.find? fun ln => ln.addr == lineAddr c.dcGeom a with
  | none => rfl
  | some ln =>
    have hm : ln.addr = lineAddr c.dcGeom a := by simpa using List.find?_some hl
    simp only [Option.map_some]
    congr 1
    unfold putByte
    split
    · next e =>
      have hne : pa % 2 ^ c.dcGeom.l ≠ a % 2 ^ c.dcGeom.l := by
        intro e2
        apply h
        rw [← lineAddr_add_mod c.dcGeom a, ← lineAddr_add_mod c.dcGeom pa, ← hm, e2]
        rw [beq_iff_eq.1 e]
      simp [lineByte, List.getD_eq_getElem?_getD, List.getElem?_set_ne hne]
    · rfl

/-- The byte put, where the line is held whole. -/
theorem dcByte_map_putByte_self (c : Config) (dc : List Line) (pa : Nat) (b : Byte)
    (hw : c.hasDCache = true → ∀ ln ∈ dc, ln.data.length = 2 ^ c.dcGeom.l) :
    dcByte c (dc.map (putByte c.dcGeom pa b)) pa = (dcByte c dc pa).map fun _ => b := by
  unfold dcByte
  cases hp : c.hasDCache
  · rfl
  simp only [if_true, List.find?_map, Option.map_map, Function.comp_def, putByte_addr]
  cases hl : dc.find? fun ln => ln.addr == lineAddr c.dcGeom pa with
  | none => rfl
  | some ln =>
    have hm : ln.addr = lineAddr c.dcGeom pa := by simpa using List.find?_some hl
    have hlt : pa % 2 ^ c.dcGeom.l < ln.data.length := by
      rw [hw hp ln (List.mem_of_find?_eq_some hl)]; exact Nat.mod_lt _ (by positivity)
    simp [putByte, hm, lineByte, List.getD_eq_getElem?_getD, hlt]

theorem LinesWf.putByte {g : CacheGeom} {ls : List Line} (h : LinesWf g ls) (g' : CacheGeom) (pa : Nat)
    (b : Byte) : LinesWf g (ls.map (putByte g' pa b)) := h.map _ fun ln => by simp

theorem HartCaches.putByte {c : Config} {h : Hart} (hh : HartCaches c h) (pa : Nat) (b : Byte) :
    HartCaches c { h with dc := h.dc.map (putByte c.dcGeom pa b) } :=
  ⟨fun hd => (hh.dc hd).putByte _ pa b, hh.ic, hh.ic_clean⟩

theorem CachesInv.peersSet {s : State} (h : CachesInv s) (pa : Nat) (b : Byte) :
    CachesInv (peersSet s pa b) where
  lines c := by rw [cacheLines_peersSet, peersSet_cfg]; exact h.lines c
  ic_clean ln hl := h.ic_clean ln (by rwa [cacheLines_peersSet] at hl)
  others h' hh := by
    rw [peersSet_cfg]
    unfold Machine.peersSet at hh
    split at hh
    · obtain ⟨q, hq, rfl⟩ := List.mem_map.1 hh
      exact (h.others q hq).putByte pa b
    · exact h.others h' hh

/-- Memory may be written where `L2` holds no line. -/
theorem LevelsInv.memSet {s : State} (h : LevelsInv s) (pa : Nat) (b : Byte)
    (hn : ∀ ln ∈ cacheLines s .l2, ln.addr ≠ lineAddr s.cfg.l2Geom pa) :
    LevelsInv (memSet s pa b) where
  mem_wf := memSet_wf s pa b h.mem_wf
  caches := CachesInv.congr (t := Machine.memSet s pa b) h.caches rfl (fun c => cacheLines_memSet s pa b c) rfl
  l2_clean ln hl hd a ha := by
    rw [cacheLines_memSet] at hl
    have hne : a ≠ pa := fun e => hn ln hl (by rw [← ha, e]; rfl)
    exact (memRead_memWrite_of_ne s.mem pa a b hne).trans (h.l2_clean ln hl hd a ha)

theorem LevelsInv.cacheSet {s : State} (h : LevelsInv s) (c : CacheId) (pa : Nat) (b : Byte)
    (hc : c = .dc ∨ c = .l2) : LevelsInv (cacheSet s c pa b) where
  mem_wf := by rw [cacheSet_mem]; exact h.mem_wf
  caches := h.caches.cacheSet c pa b hc
  l2_clean ln hl hd a ha := by
    rw [cacheSet_mem, cacheSet_cfg]
    rw [cacheSet_cfg] at ha
    by_cases e : c = .l2
    · subst e
      unfold Machine.cacheSet at hl
      rw [cacheLines_setLines_map] at hl
      obtain ⟨l, hm, rfl⟩ := List.mem_map.1 hl
      by_cases e2 : l.addr = lineAddr (cacheGeom s.cfg .l2) pa
      · simp [e2] at hd
      · simp only [beq_iff_eq, e2, if_false] at hd ha ⊢
        exact h.l2_clean l hm hd a ha
    · unfold Machine.cacheSet at hl
      rw [cacheLines_setLines_of_ne _ _ _ _ (Ne.symm e)] at hl
      exact h.l2_clean ln hl hd a ha

theorem LevelsInv.lowerSet {s : State} (h : LevelsInv s) (pa : Nat) (b : Byte) :
    LevelsInv (lowerSet s pa b) := by
  unfold Machine.lowerSet
  split
  · exact h.cacheSet .l2 pa b (.inr rfl)
  · next hn => exact h.memSet pa b (heldLine_eq_none hn)

theorem LevelsInv.peersSet {s : State} (h : LevelsInv s) (pa : Nat) (b : Byte) :
    LevelsInv (peersSet s pa b) where
  mem_wf := by rw [peersSet_mem]; exact h.mem_wf
  caches := h.caches.peersSet pa b
  l2_clean ln hl hd a ha := by
    rw [cacheLines_peersSet] at hl
    rw [peersSet_cfg] at ha ⊢
    rw [peersSet_mem]
    exact h.l2_clean ln hl hd a ha

/-- Every D-cache has the byte put into its copy of the line: the copies agree as before. -/
theorem CopiesAgree.put {s t : State} (h : CopiesAgree s) (hc : t.cfg = s.cfg) (pa : Nat) (b : Byte)
    (hp : s.cfg.dcacheCoherent = true → s.cfg.hasDCache = true → ∀ q ∈ harts t, ∃ q' ∈ harts s,
      ∀ ln ∈ q.dc, ∃ ln' ∈ q'.dc, ln.addr = ln'.addr ∧ ln.data = (putByte s.cfg.dcGeom pa b ln').data) :
    CopiesAgree t := by
  intro hco hdc q hq r hr ln hl ln' hl' e
  rw [hc] at hco hdc
  obtain ⟨q', hq', f⟩ := hp hco hdc q hq
  obtain ⟨r', hr', g⟩ := hp hco hdc r hr
  obtain ⟨m, hm, ma, md⟩ := f ln hl
  obtain ⟨m', hm', ma', md'⟩ := g ln' hl'
  rw [md, md']
  have hae : m.addr = m'.addr := by rw [← ma, e, ma']
  exact putByte_data hae (h hco hdc q' hq' r' hr' m hm m' hm' hae)

/-- Lines taken away, or changed in their status alone, agree as before. -/
theorem CopiesAgree.sub {s t : State} (h : CopiesAgree s) (hc : t.cfg = s.cfg)
    (hp : ∀ q ∈ harts t, ∃ q' ∈ harts s, ∀ ln ∈ q.dc, ∃ ln' ∈ q'.dc,
      ln.addr = ln'.addr ∧ ln.data = ln'.data) : CopiesAgree t := by
  intro hco hdc q hq r hr ln hl ln' hl' e
  rw [hc] at hco hdc
  obtain ⟨q', hq', f⟩ := hp q hq
  obtain ⟨r', hr', g⟩ := hp r hr
  obtain ⟨m, hm, ma, md⟩ := f ln hl
  obtain ⟨m', hm', ma', md'⟩ := g ln' hl'
  rw [md, md']
  exact h hco hdc q' hq' r' hr' m hm m' hm' (by rw [← ma, e, ma'])

theorem CopiesAgree.congr {s t : State} (h : CopiesAgree s) (hc : t.cfg = s.cfg) (hd : t.dc = s.dc)
    (ho : t.others.map Hart.dc = s.others.map Hart.dc) : CopiesAgree t := by
  have hall : (harts t).map Hart.dc = (harts s).map Hart.dc := by simp [harts, hd, ho]
  refine h.sub hc fun q hq => ?_
  have : q.dc ∈ (harts s).map Hart.dc := by rw [← hall]; exact List.mem_map_of_mem hq
  obtain ⟨q', hq', e⟩ := List.mem_map.1 this
  exact ⟨q', hq', fun ln hl => ⟨ln, by rw [e]; exact hl, rfl, rfl⟩⟩

theorem putByte_eq_of_held (s : State) (pa : Nat) (b : Byte) (ln : Line) :
    (if ln.addr == lineAddr (cacheGeom s.cfg .dc) pa then
      { ln with dirty := true, data := ln.data.set (pa % 2 ^ (cacheGeom s.cfg .dc).l) b } else ln).data
      = (putByte s.cfg.dcGeom pa b ln).data := by
  unfold putByte; split <;> simp_all [cacheGeom]

theorem StorageInv.dataSet {s : State} (h : StorageInv s) (pa : Nat) (b : Byte) :
    StorageInv (dataSet s pa b) where
  toLevelsInv := by
    unfold Machine.dataSet
    split
    · exact (h.toLevelsInv.cacheSet .dc pa b (.inl rfl)).peersSet pa b
    · exact (h.toLevelsInv.lowerSet pa b).peersSet pa b
  copies_agree := by
    refine h.copies_agree.put (by simp) pa b fun hco hdc q hq => ?_
    have peers : ∀ u : State, u.cfg = s.cfg → u.others = s.others → ∀ q ∈ (Machine.peersSet u pa b).others,
        ∃ q' ∈ harts s, ∀ ln ∈ q.dc, ∃ ln' ∈ q'.dc,
          ln.addr = ln'.addr ∧ ln.data = (putByte s.cfg.dcGeom pa b ln').data := by
      intro u hu ho q hq
      simp only [Machine.peersSet, hu, hco, if_true, ho] at hq
      obtain ⟨q', hq', rfl⟩ := List.mem_map.1 hq
      refine ⟨q', List.mem_cons_of_mem _ hq', fun ln hl => ?_⟩
      obtain ⟨m, hm, rfl⟩ := List.mem_map.1 hl
      exact ⟨m, hm, by simp, rfl⟩
    unfold Machine.dataSet at hq
    split at hq
    · rcases List.mem_cons.1 hq with rfl | hq
      · refine ⟨s.toHart, List.mem_cons_self, fun ln hl => ?_⟩
        rw [peersSet_dc] at hl
        simp only [Machine.cacheSet, Machine.setLines, cacheLines, cachePresent, hdc, if_true, storedLines] at hl
        obtain ⟨m, hm, rfl⟩ := List.mem_map.1 hl
        exact ⟨m, hm, by split <;> rfl, putByte_eq_of_held s pa b m⟩
      · exact peers _ (by simp) (by simp [Machine.cacheSet]) q hq
    · next hn =>
      rcases List.mem_cons.1 hq with rfl | hq
      · refine ⟨s.toHart, List.mem_cons_self, fun ln hl => ?_⟩
        rw [peersSet_dc, lowerSet_dc] at hl
        have hne := heldLine_eq_none hn ln (by simpa [cacheLines, cachePresent, hdc, storedLines] using hl)
        exact ⟨ln, hl, rfl, by simp [putByte, show ¬ ln.addr = lineAddr s.cfg.dcGeom pa from hne]⟩
      · exact peers _ (by simp) (by simp) q hq

theorem dcByte_others_peersSet_of_ne (s : State) (pa a : Nat) (b : Byte) (h : a ≠ pa) :
    ((peersSet s pa b).others.map fun q => dcByte s.cfg q.dc a) =
      s.others.map fun q => dcByte s.cfg q.dc a := by
  unfold peersSet
  split
  · rw [List.map_map]
    exact List.map_congr_left fun q _ => dcByte_map_putByte_of_ne s.cfg q.dc pa a b h
  · rfl

/-- A store of one byte leaves every view of every other byte alone. -/
theorem sameBytes_dataSet (s : State) (pa a : Nat) (b : Byte) (h : a ≠ pa) :
    SameBytes s (dataSet s pa b) a := by
  have tail : ∀ u : State, u.cfg = s.cfg → SameBytes u (peersSet u pa b) a := fun u hu =>
    .of_views (by simp) (by simp) (lowerByte_peersSet u pa b a) (viewByte_peersSet u pa b .ic a)
      (by simp) (dcByte_others_peersSet_of_ne u pa a b h)
  unfold dataSet
  split
  · refine SameBytes.trans (t := cacheSet s .dc pa b) ?_ (tail _ (by simp))
    refine .of_views (by simp) (by simp) ?_ (viewByte_cacheSet_other s .dc .ic pa a b (by simp)) ?_
      (by simp [cacheSet])
    · rw [lowerByte_eq, lowerByte_eq, viewByte_cacheSet_other s .dc .l2 pa a b (by simp), cacheSet_mem]
    · have := viewByte_cacheSet_of_ne s .dc pa a b h
      rwa [viewByte_dc, viewByte_dc, cacheSet_cfg] at this
  · refine SameBytes.trans (t := lowerSet s pa b) ?_ (tail _ (by simp))
    exact .of_views (by simp) (memRead_lowerSet_of_ne s pa a b h) (lowerByte_lowerSet_of_ne s pa a b h)
      (viewByte_lowerSet s .ic pa a b (by simp)) (by simp) (by simp)

theorem findSome?_map_const {α β γ : Type} (l : List α) (f : α → Option β) (c : γ) :
    (l.map fun x => (f x).map fun _ => c).findSome? id = ((l.map f).findSome? id).map fun _ => c := by
  induction l with
  | nil => rfl
  | cons x l ih => cases h : f x <;> simp_all

/-- A data access reads the byte stored last. -/
theorem dataByte_dataSet_self (s : State) (pa : Nat) (b : Byte) (h : StorageInv s) :
    dataByte (dataSet s pa b) pa = b := by
  rw [dataByte_eq]
  unfold dataSet
  split
  · next ln hl =>
    rw [viewByte_peersSet, viewByte_cacheSet_self s .dc pa b ln hl
      ((h.caches.lines .dc).whole ln (heldLine_mem hl).1)]
    rfl
  · next hl =>
    rw [viewByte_peersSet, viewByte_lowerSet s .dc pa pa b (by simp), belowByte_eq, lowerByte_peersSet,
      lowerByte_lowerSet_self s pa b h.toLevelsInv]
    simp only [viewByte, hl, Option.map_none, Option.getD_none]
    unfold peerByte
    rw [peersSet_cfg, lowerSet_cfg]
    split
    · next hco =>
      have : ((peersSet (lowerSet s pa b) pa b).others.map fun q => dcByte s.cfg q.dc pa) =
          s.others.map fun q => (dcByte s.cfg q.dc pa).map fun _ => b := by
        simp only [peersSet, lowerSet_cfg, hco, if_true, lowerSet_others, List.map_map]
        refine List.map_congr_left fun q hq => ?_
        exact dcByte_map_putByte_self s.cfg q.dc pa b fun hp ln hl =>
          ((h.caches.others q hq).dc hp).whole ln hl
      rw [this, findSome?_map_const]
      cases (s.others.map fun q => dcByte s.cfg q.dc pa).findSome? id <;> rfl
    · rfl

theorem LevelsInv.congr {s t : State} (h : LevelsInv s) (hc : t.cfg = s.cfg) (hm : t.mem = s.mem)
    (hd : t.dc = s.dc) (hi : t.ic = s.ic) (h2 : t.l2 = s.l2) (ho : t.others = s.others) :
    LevelsInv t where
  mem_wf := by rw [hm]; exact h.mem_wf
  caches := h.caches.congr hc (fun c => cacheLines_congr hc hd hi h2 c) ho
  l2_clean ln hl hd' a ha := by
    rw [cacheLines_congr hc hd hi h2] at hl
    rw [hc] at ha ⊢
    rw [hm]
    exact h.l2_clean ln hl hd' a ha

theorem StorageInv.congr {s t : State} (h : StorageInv s) (hc : t.cfg = s.cfg) (hm : t.mem = s.mem)
    (hd : t.dc = s.dc) (hi : t.ic = s.ic) (h2 : t.l2 = s.l2) (ho : t.others = s.others) :
    StorageInv t :=
  ⟨h.toLevelsInv.congr hc hm hd hi h2 ho, h.copies_agree.congr hc hd (by rw [ho])⟩

theorem StorageInv.dataSetAll {s : State} (h : StorageInv s) (cells : List (Nat × Byte)) :
    StorageInv (dataSetAll s cells) := by
  induction cells generalizing s with
  | nil => exact h
  | cons c cells ih => exact ih (h.dataSet c.1 c.2)

/-- A store of several bytes leaves every other byte alone. -/
theorem sameBytes_dataSetAll (s : State) (cells : List (Nat × Byte)) (a : Nat)
    (h : a ∉ cells.map Prod.fst) : SameBytes s (dataSetAll s cells) a := by
  induction cells generalizing s with
  | nil => exact SameBytes.refl s a
  | cons c cells ih =>
    simp only [List.map_cons, List.mem_cons, not_or] at h
    exact (sameBytes_dataSet s c.1 a c.2 h.1).trans (ih (dataSet s c.1 c.2) h.2)

/-- A store of several bytes at different addresses: each address holds its byte. -/
theorem dataByte_dataSetAll_of_mem (s : State) (cells : List (Nat × Byte)) (a : Nat) (b : Byte)
    (h : StorageInv s) (hd : (cells.map Prod.fst).Nodup) (hm : (a, b) ∈ cells) :
    dataByte (dataSetAll s cells) a = b := by
  induction cells generalizing s with
  | nil => simp at hm
  | cons c cells ih =>
    simp only [List.map_cons, List.nodup_cons] at hd
    rcases List.mem_cons.1 hm with e | hm
    · subst e
      rw [dataSetAll, (sameBytes_dataSetAll _ cells a hd.1).2.2.1]
      exact dataByte_dataSet_self s a b h
    · exact ih (dataSet s c.1 c.2) (h.dataSet _ _) hd.2 hm

/-! ## What a store changes beside bytes -/

/-- No more than memory, the D-caches and `L2` have changed, and of the other harts no more than copies in
their D-caches. -/
structure StoresOnly (s t : State) : Prop where
  rest : { t with mem := s.mem, dc := s.dc, l2 := s.l2, others := s.others } = s
  others : OthersKept s t

theorem OthersKept.refl (s : State) : OthersKept s s := ⟨rfl, fun _ => rfl⟩

theorem OthersKept.trans {s t u : State} (hc : t.cfg = s.cfg) (h1 : OthersKept s t)
    (h2 : OthersKept t u) : OthersKept s u :=
  ⟨h2.rest.trans h1.rest, fun h => (h2.incoherent (by rw [hc]; exact h)).trans (h1.incoherent h)⟩

theorem StoresOnly.cfg {s t : State} (h : StoresOnly s t) : t.cfg = s.cfg := by
  have := congrArg State.cfg h.rest; exact this

theorem StoresOnly.refl (s : State) : StoresOnly s s := ⟨rfl, .refl s⟩

theorem StoresOnly.trans {s t u : State} (h1 : StoresOnly s t) (h2 : StoresOnly t u) :
    StoresOnly s u where
  rest := by
    have e1 := h1.rest
    have e2 := h2.rest
    rcases s with ⟨⟨⟩, _⟩; rcases t with ⟨⟨⟩, _⟩; rcases u with ⟨⟨⟩, _⟩; simp_all
  others := h1.others.trans h1.cfg h2.others

/-- What a store changes, as an equation for the new state. -/
theorem StoresOnly.form {s t : State} (h : StoresOnly s t) :
    t = { s with mem := t.mem, dc := t.dc, l2 := t.l2, others := t.others } := by
  have e := h.rest
  rcases s with ⟨⟨⟩, _⟩; rcases t with ⟨⟨⟩, _⟩; simp_all

theorem storesOnly_cacheSet (s : State) (c : CacheId) (pa : Nat) (b : Byte) (hc : c = .dc ∨ c = .l2) :
    StoresOnly s (cacheSet s c pa b) := by
  rcases hc with rfl | rfl <;> exact ⟨rfl, rfl, fun _ => rfl⟩

theorem storesOnly_lowerSet (s : State) (pa : Nat) (b : Byte) : StoresOnly s (lowerSet s pa b) := by
  unfold lowerSet
  split
  · exact storesOnly_cacheSet s .l2 pa b (.inr rfl)
  · exact ⟨rfl, rfl, fun _ => rfl⟩

theorem storesOnly_peersSet (s : State) (pa : Nat) (b : Byte) : StoresOnly s (peersSet s pa b) := by
  unfold peersSet
  split
  · next h => exact ⟨rfl, by simp [Function.comp_def], fun e => by simp [e] at h⟩
  · exact .refl s

/-- A store of one byte changes storage alone. -/
theorem storesOnly_dataSet (s : State) (pa : Nat) (b : Byte) : StoresOnly s (dataSet s pa b) := by
  unfold dataSet
  split
  · exact (storesOnly_cacheSet s .dc pa b (.inl rfl)).trans (storesOnly_peersSet _ pa b)
  · exact (storesOnly_lowerSet s pa b).trans (storesOnly_peersSet _ pa b)

theorem storesOnly_dataSetAll (s : State) (cells : List (Nat × Byte)) :
    StoresOnly s (dataSetAll s cells) := by
  induction cells generalizing s with
  | nil => exact .refl s
  | cons c cells ih => exact (storesOnly_dataSet s c.1 c.2).trans (ih _)

end Sys2Proof
end

