-- ==== Sys2Proof/Laws/Lines.lean ====
section
/-! SUPPORT. Moving lines between the levels (20 R94) and the three cache operations (20 R95): what every
level reads afterwards, and that they keep storage well formed and change nothing else. -/

namespace Sys2Proof

open Machine

/-! ## What is not storage -/

/-- No more than memory, the D-cache and `L2` have changed. -/
def SameButData (s t : State) : Prop := { t with mem := s.mem, dc := s.dc, l2 := s.l2 } = s

/-- No more than memory and the caches this hart reaches have changed. -/
def SameButLines (s t : State) : Prop :=
  { t with mem := s.mem, dc := s.dc, ic := s.ic, l2 := s.l2 } = s

theorem SameButData.refl (s : State) : SameButData s s := rfl

theorem SameButData.trans {s t u : State} (h1 : SameButData s t) (h2 : SameButData t u) :
    SameButData s u := by
  unfold SameButData at *
  rcases s with ⟨⟨⟩, _⟩; rcases t with ⟨⟨⟩, _⟩; rcases u with ⟨⟨⟩, _⟩; simp_all

theorem SameButData.lines {s t : State} (h : SameButData s t) : SameButLines s t := by
  unfold SameButData at h
  unfold SameButLines
  rcases s with ⟨⟨⟩, _⟩; rcases t with ⟨⟨⟩, _⟩; simp_all

theorem SameButLines.refl (s : State) : SameButLines s s := rfl

theorem SameButLines.trans {s t u : State} (h1 : SameButLines s t) (h2 : SameButLines t u) :
    SameButLines s u := by
  unfold SameButLines at *
  rcases s with ⟨⟨⟩, _⟩; rcases t with ⟨⟨⟩, _⟩; rcases u with ⟨⟨⟩, _⟩; simp_all

theorem SameButLines.cfg {s t : State} (h : SameButLines s t) : t.cfg = s.cfg := by
  have := congrArg State.cfg h
  exact this

theorem SameButData.cfg {s t : State} (h : SameButData s t) : t.cfg = s.cfg := h.lines.cfg

theorem SameButData.others {s t : State} (h : SameButData s t) : t.others = s.others := by
  have := congrArg State.others h; exact this

theorem SameButLines.others {s t : State} (h : SameButLines s t) : t.others = s.others := by
  have := congrArg State.others h; exact this

theorem sameButLines_setLines (s : State) (c : CacheId) (ls : List Line) :
    SameButLines s (setLines s c ls) := by cases c <;> rfl

theorem sameButData_setLines (s : State) (c : CacheId) (ls : List Line) (hc : c = .dc ∨ c = .l2) :
    SameButData s (setLines s c ls) := by rcases hc with rfl | rfl <;> rfl

/-! ## Dirty lines -/

theorem dirtyLine_mem {s : State} {c : CacheId} {a : Nat} {ln : Line} (h : dirtyLine s c a = some ln) :
    ln ∈ cacheLines s c ∧ ln.addr = a ∧ ln.dirty = true := by
  unfold dirtyLine at h
  have := List.find?_some h
  simp only [Bool.and_eq_true, beq_iff_eq] at this
  exact ⟨List.mem_of_find?_eq_some h, this.1, this.2⟩

theorem dirtyLine_none {s : State} {c : CacheId} {a : Nat} (h : dirtyLine s c a = none) :
    ∀ ln ∈ cacheLines s c, ln.addr = a → ln.dirty = false := by
  intro ln hl e
  have := List.find?_eq_none.1 h ln hl
  simpa [e] using this

/-! ## Marking clean and dropping -/

@[simp] theorem markClean_cfg (s : State) (c : CacheId) (a : Nat) : (markClean s c a).cfg = s.cfg := by
  simp [markClean]

@[simp] theorem markClean_mem (s : State) (c : CacheId) (a : Nat) : (markClean s c a).mem = s.mem := by
  simp [markClean]

theorem cacheLines_markClean (s : State) (c : CacheId) (a : Nat) :
    cacheLines (markClean s c a) c =
      (cacheLines s c).map fun ln => if ln.addr == a then { ln with dirty := false } else ln :=
  cacheLines_setLines_map s c _

/-- A clean line reads as the dirty one did. -/
theorem viewByte_markClean (s : State) (c d : CacheId) (a b : Nat) :
    viewByte (markClean s c a) d b = viewByte s d b := by
  by_cases e : d = c
  · subst e
    unfold viewByte markClean
    rw [heldLine_setLines_map s d _ (by intro ln; split <;> rfl), setLines_cfg', Option.map_map]
    congr 1
    funext ln
    simp only [Function.comp]
    split <;> rfl
  · exact viewByte_setLines_of_ne s c d _ e b

theorem CachesInv.markClean {s : State} (h : CachesInv s) (c : CacheId) (a : Nat) :
    CachesInv (markClean s c a) := by
  unfold Machine.markClean
  refine h.setLines c _ ((h.lines c).map _ fun ln => by split <;> simp) ?_
  intro hc ln hl
  obtain ⟨l, hm, rfl⟩ := List.mem_map.1 hl
  have hcl : l.dirty = false := by
    subst hc
    exact h.ic_clean l hm
  split <;> simp [hcl]

/-- Marking clean is right where memory, for a line of `L2`, says what the line says. -/
theorem LevelsInv.markClean {s : State} (h : LevelsInv s) (c : CacheId) (a : Nat)
    (hm : c = .l2 → ∀ ln ∈ cacheLines s .l2, ln.addr = a → ∀ b, lineAddr s.cfg.l2Geom b = a →
      memRead s.mem b = lineByte s.cfg.l2Geom ln b) :
    LevelsInv (markClean s c a) where
  mem_wf := by rw [markClean_mem]; exact h.mem_wf
  caches := h.caches.markClean c a
  l2_clean ln hl hd b hb := by
    rw [markClean_mem, markClean_cfg]
    rw [markClean_cfg] at hb
    by_cases e : c = .l2
    · subst e
      rw [cacheLines_markClean] at hl
      obtain ⟨l, hl', rfl⟩ := List.mem_map.1 hl
      by_cases e2 : l.addr = a
      · simp only [e2, beq_self_eq_true, if_true] at hd hb ⊢
        exact hm rfl l hl' e2 b (by simpa [e2] using hb)
      · simp only [beq_iff_eq, e2, if_false] at hd hb ⊢
        exact h.l2_clean l hl' hd b hb
    · unfold Machine.markClean at hl
      rw [cacheLines_setLines_of_ne _ _ _ _ (Ne.symm e)] at hl
      exact h.l2_clean ln hl hd b hb

@[simp] theorem dropLine_cfg (s : State) (c : CacheId) (a : Nat) : (dropLine s c a).cfg = s.cfg := by
  simp [dropLine]

@[simp] theorem dropLine_mem (s : State) (c : CacheId) (a : Nat) : (dropLine s c a).mem = s.mem := by
  simp [dropLine]

/-- Lines filtered by their address: what is held of an address kept. -/
theorem heldLine_setLines_filter (s : State) (c : CacheId) (p : Nat → Bool) (a : Nat) :
    heldLine (setLines s c ((cacheLines s c).filter fun ln => p ln.addr)) c a =
      if p (lineAddr (cacheGeom s.cfg c) a) then heldLine s c a else none := by
  unfold heldLine
  rw [cacheLines_setLines_filter, setLines_cfg', List.find?_filter]
  split
  · next h =>
    congr 1
    funext ln
    by_cases e : ln.addr = lineAddr (cacheGeom s.cfg c) a <;> simp [e, h]
  · next h =>
    rw [List.find?_eq_none]
    intro ln _
    by_cases e : ln.addr = lineAddr (cacheGeom s.cfg c) a <;> simp [e, h]

theorem cacheLines_dropLine (s : State) (c : CacheId) (a : Nat) :
    cacheLines (dropLine s c a) c = (cacheLines s c).filter fun ln => ln.addr != a :=
  cacheLines_setLines_filter s c _

theorem viewByte_dropLine (s : State) (c : CacheId) (a b : Nat) :
    viewByte (dropLine s c a) c b =
      if lineAddr (cacheGeom s.cfg c) b = a then none else viewByte s c b := by
  unfold viewByte dropLine
  rw [heldLine_setLines_filter s c (fun x => x != a), setLines_cfg']
  by_cases e : lineAddr (cacheGeom s.cfg c) b = a <;> simp [e]

theorem viewByte_dropLine_of_ne (s : State) (c d : CacheId) (a b : Nat) (h : d ≠ c) :
    viewByte (dropLine s c a) d b = viewByte s d b := viewByte_setLines_of_ne s c d _ h b

theorem cachesInv_filter {s : State} (h : CachesInv s) (c : CacheId) (p : Line → Bool) :
    CachesInv (Machine.setLines s c ((cacheLines s c).filter p)) := by
  refine h.setLines c _ ((h.lines c).filter _) ?_
  intro hc ln hl
  subst hc
  exact h.ic_clean ln (List.mem_filter.1 hl).1

theorem levelsInv_filter {s : State} (h : LevelsInv s) (c : CacheId) (p : Line → Bool) :
    LevelsInv (Machine.setLines s c ((cacheLines s c).filter p)) where
  mem_wf := by rw [setLines_mem']; exact h.mem_wf
  caches := cachesInv_filter h.caches c p
  l2_clean ln hl hd a ha := by
    rw [setLines_mem', setLines_cfg']
    rw [setLines_cfg'] at ha
    by_cases e : c = .l2
    · subst e
      rw [cacheLines_setLines_filter] at hl
      exact h.l2_clean ln (List.mem_filter.1 hl).1 hd a ha
    · rw [cacheLines_setLines_of_ne _ _ _ _ (Ne.symm e)] at hl
      exact h.l2_clean ln hl hd a ha

theorem LevelsInv.dropLine {s : State} (h : LevelsInv s) (c : CacheId) (a : Nat) :
    LevelsInv (dropLine s c a) := levelsInv_filter h c _

/-! ## `L2` -/

/-- A byte of a line that is held, by its place in the line. -/
theorem lineByte_of_mem (g : CacheGeom) (ln : Line) (a : Nat) (h : ln.data.length = 2 ^ g.l) :
    ∃ hk : a % 2 ^ g.l < ln.data.length, lineByte g ln a = ln.data[a % 2 ^ g.l] := by
  have hk : a % 2 ^ g.l < ln.data.length := by rw [h]; exact Nat.mod_lt _ (by positivity)
  exact ⟨hk, by simp [lineByte, List.getD_eq_getElem?_getD, hk]⟩

/-- The lines of all caches after memory was replaced. -/
theorem cacheLines_mem (s : State) (m : Memory) (c : CacheId) :
    cacheLines { s with mem := m } c = cacheLines s c := cacheLines_congr rfl rfl rfl rfl c

theorem viewByte_mem (s : State) (m : Memory) (c : CacheId) (a : Nat) :
    viewByte { s with mem := m } c a = viewByte s c a := viewByte_congr c rfl (cacheLines_mem s m c) a

theorem memRead_line (m : Memory) (g : CacheGeom) (ln : Line) (a : Nat) (hm : Memory.wf m = true)
    (hl : ln.data.length = 2 ^ g.l) (hal : ln.addr % 2 ^ g.l = 0) :
    memRead (memSetLine m ln.addr ln.data) a =
      if lineAddr g a = ln.addr then lineByte g ln a else memRead m a := by
  split
  · next e =>
    obtain ⟨hk, hb⟩ := lineByte_of_mem g ln a hl
    rw [hb, ← memRead_memSetLine m ln.addr (a % 2 ^ g.l) ln.data hm hk, ← e, lineAddr_add_mod]
  · next e =>
    apply memRead_memSetLine_of_not_mem
    rw [hl]
    by_contra hc
    apply e
    have h1 : ln.addr ≤ a := by omega
    have h2 : a < ln.addr + 2 ^ g.l := by omega
    obtain ⟨q, hq⟩ := Nat.dvd_of_mod_eq_zero hal
    have : a / 2 ^ g.l = q := by
      apply Nat.div_eq_of_lt_le
      · rw [Nat.mul_comm]; omega
      · rw [Nat.add_mul, Nat.mul_comm]; omega
    unfold lineAddr
    rw [this, hq, Nat.mul_comm]

theorem sameButData_writebackL2 (s : State) (a : Nat) : SameButData s (writebackL2 s a) := by
  unfold writebackL2
  split
  · rfl
  · exact SameButData.refl s

theorem viewByte_writebackL2 (s : State) (c : CacheId) (a b : Nat) :
    viewByte (writebackL2 s a) c b = viewByte s c b := by
  unfold writebackL2
  split
  · rw [viewByte_markClean, viewByte_mem]
  · rfl

/-- What memory holds after a write-back of a line of `L2`. -/
theorem memRead_writebackL2 (s : State) (a b : Nat) (h : LevelsInv s) :
    memRead (writebackL2 s a).mem b =
      if ∃ ln ∈ cacheLines s .l2, ln.addr = a ∧ ln.dirty = true ∧ lineAddr s.cfg.l2Geom b = a
      then lowerByte s b else memRead s.mem b := by
  unfold writebackL2
  split
  · next ln hd =>
    obtain ⟨hm, ha, hdirty⟩ := dirtyLine_mem hd
    subst ha
    rw [markClean_mem]
    have hw := (h.caches.lines .l2).whole ln hm
    have hal := (h.caches.lines .l2).aligned ln hm
    refine (memRead_line s.mem s.cfg.l2Geom ln b h.mem_wf hw hal).trans ?_
    by_cases e : lineAddr s.cfg.l2Geom b = ln.addr
    · have hh : heldLine s .l2 b = some ln := heldLine_of_mem h.caches hm e.symm
      have hex : ∃ l ∈ cacheLines s .l2, l.addr = ln.addr ∧ l.dirty = true ∧
          lineAddr s.cfg.l2Geom b = ln.addr := ⟨ln, hm, rfl, hdirty, e⟩
      rw [if_pos e, if_pos hex, lowerByte_eq]
      simp [viewByte, hh, cacheGeom]
    · rw [if_neg e, if_neg (fun ⟨_, _, _, _, h4⟩ => e h4)]
  · next hd =>
    rw [if_neg]
    rintro ⟨ln, hm, ha, hdirty, _⟩
    have := dirtyLine_none hd ln hm ha
    simp [this] at hdirty

theorem lowerByte_writebackL2 (s : State) (a b : Nat) (h : LevelsInv s) :
    lowerByte (writebackL2 s a) b = lowerByte s b := by
  rw [lowerByte_eq, viewByte_writebackL2, memRead_writebackL2 s a b h]
  split
  · rw [lowerByte_eq]; cases viewByte s .l2 b <;> rfl
  · rw [lowerByte_eq]

/-- What is clean in `L2` after a write-back. -/
theorem cacheLines_writebackL2 (s : State) (a : Nat) :
    cacheLines (writebackL2 s a) .l2 =
      (cacheLines s .l2).map fun ln => if ln.addr == a then { ln with dirty := false } else ln := by
  unfold writebackL2
  split
  · rw [cacheLines_markClean, cacheLines_mem]
  · next hd =>
    symm
    refine (List.map_congr_left (g := id) fun ln hl => ?_).trans (List.map_id _)
    by_cases e : ln.addr = a
    · have := dirtyLine_none hd ln hl e
      cases ln
      simp_all
    · simp [e]

theorem cacheLines_writebackL2_of_ne (s : State) (c : CacheId) (a : Nat) (hc : c ≠ .l2) :
    cacheLines (writebackL2 s a) c = cacheLines s c := by
  unfold writebackL2
  split
  · unfold markClean; rw [cacheLines_setLines_of_ne _ _ _ _ hc, cacheLines_mem]
  · rfl

theorem LevelsInv.writebackL2 {s : State} (h : LevelsInv s) (a : Nat) :
    LevelsInv (writebackL2 s a) where
  mem_wf := by
    unfold Machine.writebackL2
    split
    · rw [markClean_mem]; exact memSetLine_wf _ _ _ h.mem_wf
    · exact h.mem_wf
  caches := by
    unfold Machine.writebackL2
    split
    · next ln _ =>
      exact CachesInv.markClean (CachesInv.congr (t := { s with mem := memSetLine s.mem a ln.data })
        h.caches rfl (fun c => cacheLines_mem s _ c) rfl) _ _
    · exact h.caches
  l2_clean ln hl hd b hb := by
    have hcfg := (sameButData_writebackL2 s a).cfg
    rw [hcfg] at hb ⊢
    rw [cacheLines_writebackL2] at hl
    obtain ⟨l, hm, rfl⟩ := List.mem_map.1 hl
    have haddr : (if l.addr == a then { l with dirty := false } else l).addr = l.addr := by
      split <;> rfl
    have hbyte : lineByte s.cfg.l2Geom (if l.addr == a then { l with dirty := false } else l) b =
        lineByte s.cfg.l2Geom l b := by split <;> rfl
    rw [haddr] at hb
    rw [hbyte, memRead_writebackL2 s a b h]
    have hh : heldLine s .l2 b = some l := heldLine_of_mem h.caches hm hb.symm
    have hlow : lowerByte s b = lineByte s.cfg.l2Geom l b := by
      rw [lowerByte_eq]; simp [viewByte, hh, cacheGeom]
    split
    · exact hlow
    · next hn =>
      cases hdl : l.dirty
      · exact h.l2_clean l hm hdl b hb
      · by_cases e : l.addr = a
        · exact absurd ⟨l, hm, e, hdl, hb.trans e⟩ hn
        · simp [e, hdl] at hd

theorem sameButData_evictL2 (s : State) (a : Nat) : SameButData s (evictL2 s a) :=
  (sameButData_writebackL2 s a).trans (sameButData_setLines _ _ _ (.inr rfl))

theorem LevelsInv.evictL2 {s : State} (h : LevelsInv s) (a : Nat) : LevelsInv (evictL2 s a) :=
  (h.writebackL2 a).dropLine .l2 a

/-- `L2` holds the line no more, and nothing that is read there is lost. -/
theorem lowerByte_evictL2 (s : State) (a b : Nat) (h : LevelsInv s) :
    lowerByte (evictL2 s a) b = lowerByte s b := by
  have hw := h.writebackL2 a
  have hcfg := (sameButData_writebackL2 s a).cfg
  rw [lowerByte_eq]
  unfold evictL2
  rw [viewByte_dropLine, dropLine_mem]
  split
  · next e =>
    rw [hcfg] at e
    rw [Option.getD_none, memRead_writebackL2 s a b h]
    split
    · rfl
    · next hn =>
      rw [lowerByte_eq]
      cases hh : heldLine s .l2 b with
      | none => simp [viewByte, hh]
      | some ln =>
        have hm := heldLine_mem hh
        have hd : ln.dirty = false := by
          cases hd : ln.dirty
          · rfl
          · exact absurd ⟨ln, hm.1, hm.2.trans e, hd, e⟩ hn
        simp only [viewByte, hh, Option.map_some, Option.getD_some]
        exact h.l2_clean ln hm.1 hd b hm.2.symm
  · rw [← lowerByte_eq, lowerByte_writebackL2 s a b h]

theorem viewByte_evictL2_of_ne (s : State) (c : CacheId) (a b : Nat) (hc : c ≠ .l2) :
    viewByte (evictL2 s a) c b = viewByte s c b := by
  unfold evictL2; rw [viewByte_dropLine_of_ne _ _ _ _ _ hc, viewByte_writebackL2]

theorem cacheLines_evictL2 (s : State) (a : Nat) :
    ∀ ln ∈ cacheLines (evictL2 s a) .l2, ln.addr ≠ a ∧
      ∃ l ∈ cacheLines s .l2, l.addr = ln.addr ∧ l.way = ln.way := by
  intro ln hl
  unfold evictL2 at hl
  rw [cacheLines_dropLine, cacheLines_writebackL2] at hl
  obtain ⟨hm, ha⟩ := List.mem_filter.1 hl
  obtain ⟨l, hl', rfl⟩ := List.mem_map.1 hm
  refine ⟨by simpa using ha, l, hl', ?_, ?_⟩ <;> split <;> rfl

theorem cacheLines_evictL2_of_ne (s : State) (c : CacheId) (a : Nat) (hc : c ≠ .l2) :
    cacheLines (evictL2 s a) c = cacheLines s c := by
  unfold evictL2 dropLine
  rw [cacheLines_setLines_of_ne _ _ _ _ hc, cacheLines_writebackL2_of_ne s c a hc]

/-! ## Filling a line -/

theorem bytesBelow_length (s : State) (c : CacheId) (a : Nat) :
    (bytesBelow s c a).length = 2 ^ (cacheGeom s.cfg c).l := by simp [bytesBelow]

/-- A cache holds a new line if it is there. -/
theorem cacheLines_addLine (s : State) (c : CacheId) (a way : Nat) :
    cacheLines (addLine s c a way) c = if cachePresent s.cfg c then
      { addr := a, way := way, dirty := false, data := bytesBelow s c a } :: cacheLines s c else [] :=
  cacheLines_setLines_self s c _

theorem cacheLines_addLine_of_ne (s : State) (c d : CacheId) (a way : Nat) (h : d ≠ c) :
    cacheLines (addLine s c a way) d = cacheLines s d := cacheLines_setLines_of_ne s c d _ h

@[simp] theorem addLine_mem (s : State) (c : CacheId) (a way : Nat) :
    (addLine s c a way).mem = s.mem := by simp [addLine]

@[simp] theorem addLine_cfg (s : State) (c : CacheId) (a way : Nat) :
    (addLine s c a way).cfg = s.cfg := by simp [addLine]

theorem lineByte_bytesBelow (s : State) (c : CacheId) (a b way : Nat) (d : Bool)
    (h : lineAddr (cacheGeom s.cfg c) b = a) :
    lineByte (cacheGeom s.cfg c) { addr := a, way := way, dirty := d, data := bytesBelow s c a } b =
      sourceByte s c b := by
  have hk : b % 2 ^ (cacheGeom s.cfg c).l < 2 ^ (cacheGeom s.cfg c).l := Nat.mod_lt _ (by positivity)
  have hab : a + b % 2 ^ (cacheGeom s.cfg c).l = b := by rw [← h]; exact lineAddr_add_mod _ b
  simp only [lineByte, bytesBelow, List.getD_eq_getElem?_getD, List.getElem?_map,
    List.getElem?_range hk, Option.map_some, Option.getD_some, hab]

/-- A line is added where neither its address nor its place is taken. -/
theorem LevelsInv.addLine {s : State} (h : LevelsInv s) (c : CacheId) (a way : Nat)
    (h1 : a % 2 ^ (cacheGeom s.cfg c).l = 0) (h2 : way < 2 ^ (cacheGeom s.cfg c).w)
    (h3 : ∀ l ∈ cacheLines s c, l.addr ≠ a)
    (h4 : ∀ l ∈ cacheLines s c, ¬(setIndex (cacheGeom s.cfg c) l.addr =
      setIndex (cacheGeom s.cfg c) a ∧ l.way = way)) :
    LevelsInv (addLine s c a way) where
  mem_wf := by rw [addLine_mem]; exact h.mem_wf
  caches := by
    unfold Machine.addLine
    refine h.caches.setLines c _
      ((h.caches.lines c).cons _ h1 (bytesBelow_length s c a) h2 h3 h4) ?_
    intro hc ln hl
    subst hc
    rcases List.mem_cons.1 hl with rfl | hl
    · rfl
    · exact h.caches.ic_clean ln hl
  l2_clean ln hl hd b hb := by
    rw [addLine_mem, addLine_cfg]
    rw [addLine_cfg] at hb
    by_cases e : c = .l2
    · subst e
      rw [cacheLines_addLine] at hl
      split at hl
      · rcases List.mem_cons.1 hl with rfl | hl
        · exact (lineByte_bytesBelow s .l2 a b way false hb).symm
        · exact h.l2_clean ln hl hd b hb
      · simp at hl
    · rw [cacheLines_addLine_of_ne _ _ _ _ _ (Ne.symm e)] at hl
      exact h.l2_clean ln hl hd b hb

theorem viewByte_addLine_of_ne (s : State) (c d : CacheId) (a way b : Nat) (h : d ≠ c) :
    viewByte (addLine s c a way) d b = viewByte s d b := viewByte_setLines_of_ne s c d _ h b

/-- A line of `L2` filled from memory reads as memory did. -/
theorem lowerByte_addLine_l2 (s : State) (a way b : Nat)
    (h3 : ∀ l ∈ cacheLines s .l2, l.addr ≠ a) :
    lowerByte (addLine s .l2 a way) b = lowerByte s b := by
  rw [lowerByte_eq, lowerByte_eq, addLine_mem]
  unfold viewByte heldLine
  rw [cacheLines_addLine, addLine_cfg]
  split
  · by_cases e : lineAddr (cacheGeom s.cfg .l2) b = a
    · rw [List.find?_cons_of_pos (by simp [e]), Option.map_some, Option.getD_some,
        lineByte_bytesBelow s .l2 a b way false e]
      have : (cacheLines s .l2).find? (fun ln => ln.addr == lineAddr (cacheGeom s.cfg .l2) b) = none := by
        rw [List.find?_eq_none]; intro l hl; simp [e, h3 l hl]
      rw [this]; rfl
    · rw [List.find?_cons_of_neg (by simpa using fun e2 => e e2.symm)]
  · next hn => rw [cacheLines_of_absent s .l2 (by simpa using hn)]

theorem occupant_mem {s : State} {c : CacheId} {set way : Nat} {ln : Line}
    (h : occupant s c set way = some ln) :
    ln ∈ cacheLines s c ∧ setIndex (cacheGeom s.cfg c) ln.addr = set ∧ ln.way = way := by
  unfold occupant at h
  have := List.find?_some h
  simp only [Bool.and_eq_true, beq_iff_eq] at this
  exact ⟨List.mem_of_find?_eq_some h, this.1, this.2⟩

theorem occupant_none {s : State} {c : CacheId} {set way : Nat} (h : occupant s c set way = none) :
    ∀ l ∈ cacheLines s c, ¬(setIndex (cacheGeom s.cfg c) l.addr = set ∧ l.way = way) := by
  intro l hl e
  have := List.find?_eq_none.1 h l hl
  simp [e.1, e.2] at this

theorem freeWay_lt (s : State) (c : CacheId) (set : Nat) :
    freeWay s c set < 2 ^ (cacheGeom s.cfg c).w := by
  unfold freeWay
  cases h : (List.range (2 ^ (cacheGeom s.cfg c).w)).find? fun way => (occupant s c set way).isNone with
  | none => simp
  | some w => exact List.mem_range.1 (List.mem_of_find?_eq_some h)

theorem sameButData_fillL2 (s : State) (a way : Nat) : SameButData s (fillL2 s a way) := by
  unfold fillL2
  split
  · exact (sameButData_evictL2 s _).trans (sameButData_setLines _ _ _ (.inr rfl))
  · exact sameButData_setLines _ _ _ (.inr rfl)

/-- Bringing a line into `L2` changes nothing that is read there. -/
theorem fillL2_spec (s : State) (a way : Nat) (h : LevelsInv s)
    (h1 : a % 2 ^ s.cfg.l2Geom.l = 0) (h2 : way < 2 ^ s.cfg.l2Geom.w)
    (h3 : ∀ l ∈ cacheLines s .l2, l.addr ≠ a) :
    LevelsInv (fillL2 s a way) ∧ (∀ b, lowerByte (fillL2 s a way) b = lowerByte s b) ∧
      (s.cfg.hasL2 = true → ∃ ln ∈ cacheLines (fillL2 s a way) .l2, ln.addr = a) ∧
      (∀ c, c ≠ .l2 → cacheLines (fillL2 s a way) c = cacheLines s c) := by
  unfold fillL2
  split
  · next ln ho =>
    obtain ⟨hm, hset, hway⟩ := occupant_mem ho
    have hcfg := (sameButData_evictL2 s ln.addr).cfg
    have hsub := cacheLines_evictL2 s ln.addr
    have hn3 : ∀ l ∈ cacheLines (evictL2 s ln.addr) .l2, l.addr ≠ a := by
      intro l hl e
      obtain ⟨_, l', hl', ha, _⟩ := hsub l hl
      exact h3 l' hl' (ha.trans e)
    refine ⟨(h.evictL2 ln.addr).addLine .l2 a way (by rw [hcfg]; exact h1) (by rw [hcfg]; exact h2)
      hn3 ?_, ?_, ?_, ?_⟩
    · intro l hl e
      obtain ⟨hne, l', hl', ha, hw⟩ := hsub l hl
      rw [hcfg] at e
      have : l' = ln := (h.caches.lines .l2).eq_of_place hl' hm
        (by rw [ha, e.1, hset]; rfl) (by rw [hw, e.2, hway])
      exact hne (by rw [← ha, this])
    · intro b; rw [lowerByte_addLine_l2 _ _ _ _ hn3, lowerByte_evictL2 s _ b h]
    · intro hl2
      rw [cacheLines_addLine, if_pos (by simp [cachePresent, hcfg, hl2])]
      exact ⟨_, List.mem_cons_self, rfl⟩
    · intro c hc
      rw [cacheLines_addLine_of_ne _ _ _ _ _ hc, cacheLines_evictL2_of_ne _ _ _ hc]
  · next ho =>
    refine ⟨h.addLine .l2 a way h1 h2 h3 (occupant_none ho), fun b => lowerByte_addLine_l2 s a way b h3,
      fun hl2 => ?_, fun c hc => cacheLines_addLine_of_ne _ _ _ _ _ hc⟩
    rw [cacheLines_addLine, if_pos (by simp [cachePresent, hl2])]
    exact ⟨_, List.mem_cons_self, rfl⟩

/-! ## Writing a line to the next level -/

theorem cacheLines_cacheSet_of_ne (s : State) (c d : CacheId) (pa : Nat) (b : Byte) (h : d ≠ c) :
    cacheLines (cacheSet s c pa b) d = cacheLines s d := cacheLines_setLines_of_ne s c d _ h

theorem lowerByte_cacheSet_l2 (s : State) (pa a : Nat) (b : Byte) (h : LevelsInv s)
    (hh : ∃ ln ∈ cacheLines s .l2, ln.addr = lineAddr s.cfg.l2Geom pa) :
    lowerByte (cacheSet s .l2 pa b) a = if a = pa then b else lowerByte s a := by
  rw [lowerByte_eq]
  split
  · next e =>
    subst e
    obtain ⟨ln, hm, ha⟩ := hh
    rw [viewByte_cacheSet_self s .l2 a b ln (heldLine_of_mem h.caches hm ha)
      ((h.caches.lines .l2).whole ln hm)]
    rfl
  · next e => rw [viewByte_cacheSet_of_ne s .l2 pa a b e, cacheSet_mem, lowerByte_eq]

theorem sameButData_writeL2 (s : State) (pa : Nat) (b : Byte) : SameButData s (writeL2 s pa b) := by
  unfold writeL2
  split
  · exact sameButData_setLines _ _ _ (.inr rfl)
  · exact (sameButData_fillL2 s _ _).trans (sameButData_setLines _ _ _ (.inr rfl))

/-- A byte written into `L2`, its line brought in first if need be. -/
theorem writeL2_spec (s : State) (pa : Nat) (b : Byte) (h : LevelsInv s) (hl2 : s.cfg.hasL2 = true) :
    LevelsInv (writeL2 s pa b) ∧
      (∀ a, lowerByte (writeL2 s pa b) a = if a = pa then b else lowerByte s a) ∧
      (∀ c, c ≠ .l2 → cacheLines (writeL2 s pa b) c = cacheLines s c) := by
  unfold writeL2
  simp only
  split
  · next ln hl =>
    have hm := heldLine_mem hl
    exact ⟨h.cacheSet .l2 pa b (.inr rfl), fun a => lowerByte_cacheSet_l2 s pa a b h ⟨ln, hm.1, hm.2⟩,
      fun c hc => cacheLines_cacheSet_of_ne s .l2 c pa b hc⟩
  · next hl =>
    have hn := heldLine_eq_none hl
    obtain ⟨f1, f2, f3, f4⟩ := fillL2_spec s (lineAddr s.cfg.l2Geom pa)
      (freeWay s .l2 (setIndex s.cfg.l2Geom (lineAddr s.cfg.l2Geom pa))) h
      (lineAddr_mod _ _) (freeWay_lt s .l2 _) hn
    refine ⟨f1.cacheSet .l2 pa b (.inr rfl), fun a => ?_, fun c hc => ?_⟩
    · rw [lowerByte_cacheSet_l2 _ pa a b f1 ?_, f2]
      rw [(sameButData_fillL2 s _ _).cfg]
      exact f3 hl2
    · rw [cacheLines_cacheSet_of_ne _ _ _ _ _ hc, f4 c hc]

theorem sameButData_nextLevelSet (s : State) (a : Nat) (bs : List Byte) :
    SameButData s (nextLevelSet s a bs) := by
  induction bs generalizing s a with
  | nil => exact SameButData.refl s
  | cons b bs ih =>
    refine SameButData.trans ?_ (ih _ _)
    split
    · exact sameButData_writeL2 s a b
    · rfl

/-- The bytes of a line written to the next level. -/
theorem nextLevelSet_spec (s : State) (a : Nat) (bs : List Byte) (h : LevelsInv s) :
    LevelsInv (nextLevelSet s a bs) ∧
      (∀ k, (hk : k < bs.length) → lowerByte (nextLevelSet s a bs) (a + k) = bs[k]) ∧
      (∀ x, x < a ∨ a + bs.length ≤ x → lowerByte (nextLevelSet s a bs) x = lowerByte s x) ∧
      (∀ c, c ≠ .l2 → cacheLines (nextLevelSet s a bs) c = cacheLines s c) := by
  induction bs generalizing s a with
  | nil => exact ⟨h, fun k hk => by simp at hk, fun _ _ => rfl, fun _ _ => rfl⟩
  | cons b bs ih =>
    have step : ∃ u, u = (if s.cfg.hasL2 then writeL2 s a b else memSet s a b) ∧ LevelsInv u ∧
        (∀ x, lowerByte u x = if x = a then b else lowerByte s x) ∧
        (∀ c, c ≠ .l2 → cacheLines u c = cacheLines s c) := by
      refine ⟨_, rfl, ?_⟩
      cases hl : s.cfg.hasL2
      · have hnil : cacheLines s .l2 = [] := by simp [cacheLines, cachePresent, hl]
        refine ⟨h.memSet a b (by simp [hnil]), fun x => ?_, fun c _ => cacheLines_memSet s a b c⟩
        have hv (t : State) (ht : cacheLines t .l2 = []) : viewByte t .l2 x = none := by
          simp [viewByte, heldLine, ht]
        rw [lowerByte_eq, lowerByte_eq, hv s hnil]
        simp only [Bool.false_eq_true, if_false]
        rw [hv _ (by rw [cacheLines_memSet, hnil])]
        simp only [Option.getD_none]
        split
        · next e => subst e; exact memRead_memWrite_self s.mem x b h.mem_wf
        · next e => exact memRead_memWrite_of_ne s.mem a x b e
      · exact writeL2_spec s a b h hl
    obtain ⟨u, hu, i1, i2, i3⟩ := step
    obtain ⟨j1, j2, j3, j4⟩ := ih u (a + 1) i1
    rw [nextLevelSet, ← hu]
    refine ⟨j1, fun k hk => ?_, fun x hx => ?_, fun c hc => by rw [j4 c hc, i3 c hc]⟩
    · cases k with
      | zero => rw [j3 _ (by omega), i2]; simp
      | succ k =>
        have := j2 k (by simpa using hk)
        simpa [Nat.add_assoc, Nat.add_comm 1 k] using this
    · simp only [List.length_cons] at hx
      rw [j3 x (by omega), i2, if_neg (by omega)]

/-! ## Write-back, eviction and fill of any cache -/

theorem sameButData_writeback (s : State) (c : CacheId) (a : Nat) : SameButData s (writeback s c a) := by
  unfold writeback
  cases c with
  | dc =>
    simp only
    split
    · exact (sameButData_nextLevelSet s a _).trans (sameButData_setLines _ _ _ (.inl rfl))
    · exact SameButData.refl s
  | l2 => exact sameButData_writebackL2 s a
  | ic => exact SameButData.refl s

/-- What a write-back of a line does: the storage stays well formed, its line is clean, what it held is at
the next level, and every view of data is as before. -/
theorem writeback_spec (s : State) (c : CacheId) (a : Nat) (h : LevelsInv s) :
    LevelsInv (writeback s c a) ∧
      cacheLines (writeback s c a) c =
        (cacheLines s c).map (fun ln => if ln.addr == a then { ln with dirty := false } else ln) ∧
      (∀ d, d ≠ c → d ≠ .l2 → cacheLines (writeback s c a) d = cacheLines s d) ∧
      (∀ b, dataByte (writeback s c a) b = dataByte s b) ∧
      (c = .dc → ∀ b, lowerByte (writeback s c a) b =
        if ∃ ln ∈ cacheLines s .dc, ln.addr = a ∧ ln.dirty = true ∧ lineAddr s.cfg.dcGeom b = a
        then dataByte s b else lowerByte s b) ∧
      (c ≠ .dc → ∀ b, lowerByte (writeback s c a) b = lowerByte s b) := by
  have hclean : (∀ ln ∈ cacheLines s c, ln.addr = a → ln.dirty = false) → cacheLines s c =
      (cacheLines s c).map (fun ln => if ln.addr == a then { ln with dirty := false } else ln) := by
    intro hc
    symm
    refine (List.map_congr_left (g := id) fun ln hl => ?_).trans (List.map_id _)
    by_cases e : ln.addr = a
    · have := hc ln hl e
      cases ln
      simp_all
    · simp [e]
  cases c with
  | dc =>
    unfold writeback
    simp only [ne_eq, not_true_eq_false, false_implies, and_true, forall_const]
    cases hd : dirtyLine s .dc a with
    | none =>
      have hn := dirtyLine_none hd
      refine ⟨h, hclean hn, fun _ _ _ => rfl, fun _ => rfl, fun b => ?_⟩
      rw [if_neg]
      rintro ⟨ln, hm, ha, hdirty, _⟩
      simp [hn ln hm ha] at hdirty
    | some ln =>
      obtain ⟨hm, ha, hdirty⟩ := dirtyLine_mem hd
      subst ha
      obtain ⟨n1, n2, n3, n4⟩ := nextLevelSet_spec s ln.addr ln.data h
      have hcfg := (sameButData_nextLevelSet s ln.addr ln.data).cfg
      have hw : ln.data.length = 2 ^ s.cfg.dcGeom.l := (h.caches.lines .dc).whole ln hm
      have hal : ln.addr % 2 ^ s.cfg.dcGeom.l = 0 := (h.caches.lines .dc).aligned ln hm
      have hlow : ∀ b, lowerByte (markClean (nextLevelSet s ln.addr ln.data) .dc ln.addr) b =
          if lineAddr s.cfg.dcGeom b = ln.addr then dataByte s b else lowerByte s b := by
        intro b
        rw [lowerByte_eq, viewByte_markClean, markClean_mem, ← lowerByte_eq]
        split
        · next e =>
          obtain ⟨hk, hb⟩ := lineByte_of_mem s.cfg.dcGeom ln b hw
          have := n2 _ hk
          rw [show ln.addr + b % 2 ^ s.cfg.dcGeom.l = b from by rw [← e]; exact lineAddr_add_mod _ b]
            at this
          rw [this, ← hb, dataByte_eq]
          simp [viewByte, heldLine_of_mem (c := .dc) h.caches hm e.symm, cacheGeom]
        · next e =>
          apply n3
          rw [hw]
          by_contra hc
          apply e
          obtain ⟨q, hq⟩ := Nat.dvd_of_mod_eq_zero hal
          have : b / 2 ^ s.cfg.dcGeom.l = q := by
            apply Nat.div_eq_of_lt_le
            · rw [Nat.mul_comm]; omega
            · rw [Nat.add_mul, Nat.mul_comm]; omega
          unfold lineAddr
          rw [this, hq, Nat.mul_comm]
      refine ⟨n1.markClean .dc ln.addr (by simp), ?_, ?_, ?_, ?_⟩
      · rw [cacheLines_markClean, n4 .dc (by simp)]
      · intro d hd1 hd2
        unfold markClean
        rw [cacheLines_setLines_of_ne _ _ _ _ hd1, n4 d hd2]
      · intro b
        show dataByte (markClean (nextLevelSet s ln.addr ln.data) .dc ln.addr) b = _
        have hp : peerByte (markClean (nextLevelSet s ln.addr ln.data) .dc ln.addr) b = peerByte s b :=
          (peerByte_setLines _ .dc _ b).trans
            (peerByte_of_others hcfg (sameButData_nextLevelSet s ln.addr ln.data).others b)
        rw [dataByte_views, viewByte_markClean, hlow b, dataByte_views s b, hp,
          viewByte_congr .dc hcfg (n4 .dc (by simp)) b]
        cases hv : viewByte s .dc b with
        | some v => rfl
        | none =>
          simp only [Option.getD_none]
          rw [if_neg]
          intro e
          simp [viewByte, heldLine_of_mem (c := .dc) h.caches hm e.symm] at hv
      · intro b
        rw [hlow b]
        by_cases e : lineAddr s.cfg.dcGeom b = ln.addr
        · rw [if_pos e, if_pos ⟨ln, hm, rfl, hdirty, e⟩]
        · rw [if_neg e, if_neg (fun ⟨_, _, _, _, h4⟩ => e h4)]
  | l2 =>
    have hl := fun b => lowerByte_writebackL2 s a b h
    refine ⟨h.writebackL2 a, cacheLines_writebackL2 s a,
      fun d _ hd => cacheLines_writebackL2_of_ne s d a hd, fun b => ?_, by simp, fun _ b => hl b⟩
    show dataByte (writebackL2 s a) b = _
    have hd := sameButData_writebackL2 s a
    rw [dataByte_views, dataByte_views, viewByte_writebackL2, hl b, peerByte_of_others hd.cfg hd.others]
  | ic =>
    exact ⟨h, hclean fun ln hl _ => h.caches.ic_clean ln hl, fun _ _ _ => rfl, fun _ => rfl, by simp,
      fun _ _ => rfl⟩

theorem LevelsInv.writeback {s : State} (h : LevelsInv s) (c : CacheId) (a : Nat) :
    LevelsInv (writeback s c a) := (writeback_spec s c a h).1

theorem LevelsInv.evict {s : State} (h : LevelsInv s) (c : CacheId) (a : Nat) :
    LevelsInv (evict s c a) := (h.writeback c a).dropLine c a

theorem sameButLines_evict (s : State) (c : CacheId) (a : Nat) : SameButLines s (evict s c a) :=
  (sameButData_writeback s c a).lines.trans (sameButLines_setLines _ _ _)

theorem sameButLines_fill (s : State) (c : CacheId) (pa way : Nat) : SameButLines s (fill s c pa way) := by
  unfold fill
  simp only
  split
  · split
    · exact (sameButLines_evict s c _).trans (sameButLines_setLines _ _ _)
    · exact sameButLines_setLines _ _ _
  · exact SameButLines.refl s

/-- A fill keeps storage well formed. -/
theorem LevelsInv.fill {s : State} (h : LevelsInv s) (c : CacheId) (pa way : Nat) :
    LevelsInv (fill s c pa way) := by
  unfold Machine.fill
  simp only
  split
  · next hc =>
    simp only [Bool.and_eq_true, Option.isNone_iff_eq_none] at hc
    have hn := heldLine_eq_none hc.2
    have hway : way % 2 ^ (cacheGeom s.cfg c).w < 2 ^ (cacheGeom s.cfg c).w :=
      Nat.mod_lt _ (by positivity)
    split
    · next ln ho =>
      obtain ⟨hm, hset, hw⟩ := occupant_mem ho
      have hcfg := (sameButLines_evict s c ln.addr).cfg
      have hsub : ∀ l ∈ cacheLines (Machine.evict s c ln.addr) c, l.addr ≠ ln.addr ∧
          ∃ l' ∈ cacheLines s c, l'.addr = l.addr ∧ l'.way = l.way := by
        intro l hl
        unfold Machine.evict at hl
        rw [cacheLines_dropLine, (writeback_spec s c ln.addr h).2.1] at hl
        obtain ⟨hm', ha⟩ := List.mem_filter.1 hl
        obtain ⟨l', hl', rfl⟩ := List.mem_map.1 hm'
        refine ⟨by simpa using ha, l', hl', ?_, ?_⟩ <;> split <;> rfl
      refine (h.evict c ln.addr).addLine c _ _ (by rw [hcfg]; exact lineAddr_mod _ _)
        (by rw [hcfg]; exact hway) ?_ ?_
      · intro l hl e
        obtain ⟨_, l', hl', ha, _⟩ := hsub l hl
        exact hn l' hl' (ha.trans e)
      · intro l hl e
        obtain ⟨hne, l', hl', ha, hw'⟩ := hsub l hl
        rw [hcfg] at e
        have : l' = ln := (h.caches.lines c).eq_of_place hl' hm (by rw [ha, e.1, hset])
          (by rw [hw', e.2, hw])
        exact hne (by rw [← ha, this])
    · next ho => exact h.addLine c _ _ (lineAddr_mod _ _) hway hn (occupant_none ho)
  · exact h

/-! ## The three cache operations -/

theorem sameButData_cleanLines (s : State) (c : CacheId) (as : List Nat) :
    SameButData s (cleanLines s c as) := by
  induction as generalizing s with
  | nil => exact SameButData.refl s
  | cons a as ih => exact (sameButData_writeback s c a).trans (ih _)

theorem LevelsInv.cleanLines {s : State} (h : LevelsInv s) (c : CacheId) (as : List Nat) :
    LevelsInv (cleanLines s c as) := by
  induction as generalizing s with
  | nil => exact h
  | cons a as ih => exact ih (h.writeback c a)

theorem LevelsInv.invalidateLines {s : State} (h : LevelsInv s) (c : CacheId) (as : List Nat) :
    LevelsInv (invalidateLines s c as) := levelsInv_filter h c _

theorem sameButLines_invalidateLines (s : State) (c : CacheId) (as : List Nat) :
    SameButLines s (invalidateLines s c as) := sameButLines_setLines s c _

/-- A cache operation keeps storage well formed. -/
theorem LevelsInv.cacheOp {s : State} (h : LevelsInv s) (op : CacheOp) (c : CacheId) (as : List Nat) :
    LevelsInv (cacheOp op s c as) := by
  cases op with
  | clean => exact h.cleanLines c as
  | invalidate => exact h.invalidateLines c as
  | cleanInvalidate => exact (h.cleanLines c as).invalidateLines c as

/-- A cache operation changes storage alone. -/
theorem sameButLines_cacheOp (op : CacheOp) (s : State) (c : CacheId) (as : List Nat) :
    SameButLines s (cacheOp op s c as) := by
  cases op with
  | clean => exact (sameButData_cleanLines s c as).lines
  | invalidate => exact sameButLines_invalidateLines s c as
  | cleanInvalidate =>
    exact (sameButData_cleanLines s c as).lines.trans (sameButLines_invalidateLines _ c as)

/-! ## What a cache operation leaves alone -/

theorem OnlyCacheAndBelow.refl (c : CacheId) (s : State) : OnlyCacheAndBelow c s s := by
  cases c
  · exact ⟨rfl, fun _ => rfl⟩
  · rfl
  · rfl

theorem OnlyCacheAndBelow.trans {c : CacheId} {s t u : State} (h1 : OnlyCacheAndBelow c s t)
    (h2 : OnlyCacheAndBelow c t u) : OnlyCacheAndBelow c s u := by
  cases c with
  | dc =>
    exact ⟨SameButData.trans h1.1 h2.1, fun h => (h2.2 (by rw [SameButData.cfg h1.1]; exact h)).trans (h1.2 h)⟩
  | ic => unfold OnlyCacheAndBelow at *; rcases s with ⟨⟨⟩, _⟩; rcases t with ⟨⟨⟩, _⟩; rcases u with ⟨⟨⟩, _⟩; simp_all
  | l2 => unfold OnlyCacheAndBelow at *; rcases s with ⟨⟨⟩, _⟩; rcases t with ⟨⟨⟩, _⟩; rcases u with ⟨⟨⟩, _⟩; simp_all

theorem onlyCache_setLines (s : State) (c : CacheId) (ls : List Line) : OnlyCache c s (setLines s c ls) := by
  cases c <;> rfl

/-- A change of the lines of a cache is one of that cache and what lies below. -/
theorem OnlyCache.below {c : CacheId} {s t : State} (h : OnlyCache c s t) : OnlyCacheAndBelow c s t := by
  cases c with
  | dc =>
    refine ⟨?_, fun _ => ?_⟩ <;>
      (unfold OnlyCache at h; rcases s with ⟨⟨⟩, _⟩; rcases t with ⟨⟨⟩, _⟩; simp_all)
  | ic => exact h
  | l2 => unfold OnlyCache at h; unfold OnlyCacheAndBelow; rcases s with ⟨⟨⟩, _⟩; rcases t with ⟨⟨⟩, _⟩; simp_all

theorem nextLevelSet_l2 (s : State) (a : Nat) (bs : List Byte) (h : s.cfg.hasL2 = false) :
    (nextLevelSet s a bs).l2 = s.l2 := by
  induction bs generalizing s a with
  | nil => rfl
  | cons b bs ih =>
    unfold nextLevelSet
    rw [h]
    exact ih (memSet s a b) (a + 1) h

theorem onlyCacheAndBelow_writeback (s : State) (c : CacheId) (a : Nat) :
    OnlyCacheAndBelow c s (writeback s c a) := by
  cases c with
  | dc =>
    refine ⟨sameButData_writeback s .dc a, fun h => ?_⟩
    unfold writeback
    dsimp only
    split
    · next ln _ => exact nextLevelSet_l2 s a ln.data h
    · rfl
  | ic => rfl
  | l2 =>
    show OnlyCacheAndBelow .l2 s (writebackL2 s a)
    unfold writebackL2
    split
    · rfl
    · exact .refl .l2 s

/-- A cache operation changes its cache and what dirty lines are written back to, and nothing else. -/
theorem onlyCacheAndBelow_cacheOp (op : CacheOp) (s : State) (c : CacheId) (as : List Nat) :
    OnlyCacheAndBelow c s (cacheOp op s c as) := by
  have hclean : OnlyCacheAndBelow c s (cleanLines s c as) := by
    induction as generalizing s with
    | nil => exact .refl c s
    | cons a as ih => exact (onlyCacheAndBelow_writeback s c a).trans (ih _)
  cases op with
  | clean => exact hclean
  | invalidate => exact (onlyCache_setLines s c _).below
  | cleanInvalidate => exact hclean.trans (onlyCache_setLines _ c _).below

theorem cleanLines_ic (s : State) (as : List Nat) : cleanLines s .ic as = s := by
  induction as with
  | nil => rfl
  | cons a as ih => exact ih

/-! ## Bytes written by other agents -/

theorem sameButData_lowerSet (s : State) (pa : Nat) (b : Byte) : SameButData s (lowerSet s pa b) := by
  unfold lowerSet
  split
  · exact sameButData_setLines _ _ _ (.inr rfl)
  · rfl

theorem storesOnly_externalStore (s : State) (pa : Nat) (b : Byte) :
    StoresOnly s (externalStore s pa b) := by
  unfold externalStore
  simp only
  split
  · have hs : StoresOnly (lowerSet s pa b) (snoopSet (lowerSet s pa b) .dc pa b) :=
      ⟨rfl, rfl, fun _ => rfl⟩
    exact ((storesOnly_lowerSet s pa b).trans hs).trans (storesOnly_peersSet _ pa b)
  · exact storesOnly_lowerSet s pa b

theorem LevelsInv.snoopSet {s : State} (h : LevelsInv s) (pa : Nat) (b : Byte) :
    LevelsInv (snoopSet s .dc pa b) where
  mem_wf := by unfold Machine.snoopSet; rw [setLines_mem']; exact h.mem_wf
  caches := by
    unfold Machine.snoopSet
    exact h.caches.setLines .dc _ ((h.caches.lines .dc).putByte _ pa b) (by simp)
  l2_clean ln hl hd a ha := h.l2_clean ln hl hd a ha

/-! ## Copies in several D-caches -/

/-- Lines of this hart's D-cache that are each a copy of what one of them was agree as before. -/
theorem CopiesAgree.own {s t : State} (h : CopiesAgree s) (hc : t.cfg = s.cfg)
    (ho : t.others = s.others)
    (hd : s.cfg.hasDCache = true → ∀ ln ∈ cacheLines t .dc, ∃ ln' ∈ cacheLines s .dc,
      ln.addr = ln'.addr ∧ ln.data = ln'.data) : CopiesAgree t := by
  intro hco hdc
  have hdc' : s.cfg.hasDCache = true := by rw [← hc]; exact hdc
  have es : cacheLines s .dc = s.dc := by simp [cacheLines, cachePresent, hdc', storedLines]
  have et : cacheLines t .dc = t.dc := by simp [cacheLines, cachePresent, hdc, storedLines]
  have hd := hd hdc'
  rw [es, et] at hd
  refine h.sub hc (fun q hq => ?_) hco hdc
  rcases List.mem_cons.1 hq with rfl | hq
  · exact ⟨s.toHart, List.mem_cons_self, hd⟩
  · exact ⟨q, List.mem_cons_of_mem _ (ho ▸ hq), fun ln hl => ⟨ln, hl, rfl, rfl⟩⟩

theorem CopiesAgree.setLines_other {s : State} (h : CopiesAgree s) (c : CacheId) (ls : List Line)
    (hc : c ≠ .dc) : CopiesAgree (setLines s c ls) :=
  h.own (by simp) (by simp) fun _ ln hl =>
    ⟨ln, by rwa [cacheLines_setLines_of_ne _ _ _ _ (Ne.symm hc)] at hl, rfl, rfl⟩

theorem CopiesAgree.filter {s : State} (h : CopiesAgree s) (c : CacheId) (p : Line → Bool) :
    CopiesAgree (Machine.setLines s c ((cacheLines s c).filter p)) := by
  by_cases hc : c = .dc
  · subst hc
    refine h.own (by simp) (by simp) fun _ ln hl => ⟨ln, ?_, rfl, rfl⟩
    rw [cacheLines_setLines_filter] at hl
    exact (List.mem_filter.1 hl).1
  · exact h.setLines_other c _ hc

theorem CopiesAgree.writeback {s : State} (h : CopiesAgree s) (hs : LevelsInv s) (c : CacheId) (a : Nat) :
    CopiesAgree (writeback s c a) := by
  have hd := sameButData_writeback s c a
  refine h.own hd.cfg hd.others fun _ ln hl => ?_
  obtain ⟨_, h2, h3, _⟩ := writeback_spec s c a hs
  by_cases hc : c = .dc
  · subst hc
    rw [h2] at hl
    obtain ⟨m, hm, rfl⟩ := List.mem_map.1 hl
    exact ⟨m, hm, by split <;> rfl, by split <;> rfl⟩
  · rw [h3 .dc (Ne.symm hc) (by simp)] at hl
    exact ⟨ln, hl, rfl, rfl⟩

theorem StorageInv.writeback {s : State} (h : StorageInv s) (c : CacheId) (a : Nat) :
    StorageInv (writeback s c a) := ⟨h.toLevelsInv.writeback c a, h.copies_agree.writeback h.toLevelsInv c a⟩

theorem StorageInv.dropLine {s : State} (h : StorageInv s) (c : CacheId) (a : Nat) :
    StorageInv (dropLine s c a) := ⟨h.toLevelsInv.dropLine c a, h.copies_agree.filter c _⟩

theorem StorageInv.evict {s : State} (h : StorageInv s) (c : CacheId) (a : Nat) :
    StorageInv (evict s c a) := (h.writeback c a).dropLine c a

theorem StorageInv.invalidateLines {s : State} (h : StorageInv s) (c : CacheId) (as : List Nat) :
    StorageInv (invalidateLines s c as) := ⟨h.toLevelsInv.invalidateLines c as, h.copies_agree.filter c _⟩

theorem StorageInv.cleanLines {s : State} (h : StorageInv s) (c : CacheId) (as : List Nat) :
    StorageInv (cleanLines s c as) := by
  induction as generalizing s with
  | nil => exact h
  | cons a as ih => exact ih (h.writeback c a)

/-- A cache operation keeps storage as it should be. -/
theorem StorageInv.cacheOp {s : State} (h : StorageInv s) (op : CacheOp) (c : CacheId) (as : List Nat) :
    StorageInv (cacheOp op s c as) := by
  cases op with
  | clean => exact h.cleanLines c as
  | invalidate => exact h.invalidateLines c as
  | cleanInvalidate => exact (h.cleanLines c as).invalidateLines c as

theorem peerLine_none {s : State} {a : Nat} (h : peerLine s a = none)
    (hco : s.cfg.dcacheCoherent = true) (hdc : s.cfg.hasDCache = true) :
    ∀ q ∈ s.others, ∀ ln ∈ q.dc, ln.addr ≠ lineAddr s.cfg.dcGeom a := by
  intro q hq ln hl e
  simp only [peerLine, hco, hdc, Bool.and_self, if_true, List.findSome?_eq_none_iff,
    List.find?_eq_none] at h
  exact h q hq ln hl (by simp [e])

theorem peerLine_mem {s : State} {a : Nat} {ln : Line} (h : peerLine s a = some ln) :
    ∃ q ∈ s.others, ln ∈ q.dc ∧ ln.addr = lineAddr s.cfg.dcGeom a := by
  unfold peerLine at h
  split at h
  · obtain ⟨q, hq, hf⟩ := List.exists_of_findSome?_eq_some h
    exact ⟨q, hq, List.mem_of_find?_eq_some hf, by simpa using List.find?_some hf⟩
  · cases h

theorem lineAddr_of_line (g : CacheGeom) (a k : Nat) (ha : a % 2 ^ g.l = 0) (hk : k < 2 ^ g.l) :
    lineAddr g (a + k) = a ∧ (a + k) % 2 ^ g.l = k := by
  obtain ⟨q, rfl⟩ := Nat.dvd_of_mod_eq_zero ha
  have hp : 0 < 2 ^ g.l := by positivity
  constructor
  · unfold lineAddr
    rw [Nat.mul_add_div hp, Nat.div_eq_of_lt hk, Nat.add_zero, Nat.mul_comm]
  · rw [Nat.mul_add_mod, Nat.mod_eq_of_lt hk]

/-- What a D-cache fills a line with is what another D-cache that is looked at holds of it. -/
theorem bytesBelow_of_peer {s : State} (hs : StorageInv s) (hco : s.cfg.dcacheCoherent = true)
    (hdc : s.cfg.hasDCache = true) (a : Nat) (ha : a % 2 ^ s.cfg.dcGeom.l = 0) {q : Hart}
    (hq : q ∈ s.others) {ln : Line} (hl : ln ∈ q.dc) (e : ln.addr = a) :
    bytesBelow s .dc a = ln.data := by
  have hlen : ln.data.length = 2 ^ s.cfg.dcGeom.l := ((hs.caches.others q hq).dc hdc).whole ln hl
  apply List.ext_getElem
  · rw [bytesBelow_length, hlen]; rfl
  intro k hk1 hk2
  rw [hlen] at hk2
  obtain ⟨h1, h2⟩ := lineAddr_of_line s.cfg.dcGeom a k ha hk2
  simp only [bytesBelow, List.getElem_map, List.getElem_range, sourceByte, belowByte]
  cases hp : peerLine s (a + k) with
  | none => exact absurd (e.trans h1.symm) (peerLine_none hp hco hdc q hq ln hl)
  | some m =>
    obtain ⟨q', hq', hm, em⟩ := peerLine_mem hp
    have hd : m.data = ln.data := hs.copies_agree hco hdc q' (List.mem_cons_of_mem _ hq') q
      (List.mem_cons_of_mem _ hq) m hm ln hl (by rw [em, h1, e])
    simp [lineByte, h2, hd, List.getD_eq_getElem?_getD, hlen, hk2]

theorem CopiesAgree.addLine {s : State} (hs : StorageInv s) (c : CacheId) (a way : Nat)
    (h1 : a % 2 ^ (cacheGeom s.cfg c).l = 0) (h3 : ∀ l ∈ cacheLines s c, l.addr ≠ a) :
    CopiesAgree (addLine s c a way) := by
  by_cases hc : c = .dc
  · subst hc
    intro hco hdc
    rw [addLine_cfg] at hco hdc
    have hown : (Machine.addLine s .dc a way).dc =
        { addr := a, way := way, dirty := false, data := bytesBelow s .dc a } :: s.dc := by
      simp [Machine.addLine, Machine.setLines, cacheLines, cachePresent, hdc, storedLines]
    have hnew : ∀ q ∈ harts s, ∀ ln ∈ q.dc, ln.addr = a → ln.data = bytesBelow s .dc a := by
      intro q hq ln hl e
      rcases List.mem_cons.1 hq with rfl | hq
      · exact absurd e (h3 ln (by simpa [cacheLines, cachePresent, hdc, storedLines] using hl))
      · exact (bytesBelow_of_peer hs hco hdc a h1 hq hl e).symm
    have hmem : ∀ q ∈ harts (Machine.addLine s .dc a way), ∃ q' ∈ harts s, ∀ ln ∈ q.dc,
        ln ∈ q'.dc ∨ ln.addr = a ∧ ln.data = bytesBelow s .dc a := by
      intro q hq
      rcases List.mem_cons.1 hq with rfl | hq
      · refine ⟨s.toHart, List.mem_cons_self, fun ln hl => ?_⟩
        rw [hown] at hl
        rcases List.mem_cons.1 hl with rfl | hl
        · exact .inr ⟨rfl, rfl⟩
        · exact .inl hl
      · exact ⟨q, List.mem_cons_of_mem _ hq, fun ln hl => .inl hl⟩
    intro q hq r hr ln hl ln' hl' e
    obtain ⟨q', hq', f⟩ := hmem q hq
    obtain ⟨r', hr', g⟩ := hmem r hr
    rcases f ln hl with f | ⟨f1, f2⟩ <;> rcases g ln' hl' with g | ⟨g1, g2⟩
    · exact hs.copies_agree hco hdc q' hq' r' hr' ln f ln' g e
    · rw [g2]; exact hnew q' hq' ln f (e.trans g1)
    · rw [f2]; exact (hnew r' hr' ln' g (e.symm.trans f1)).symm
    · rw [f2, g2]
  · exact hs.copies_agree.setLines_other c _ hc

/-- A fill keeps storage as it should be. -/
theorem StorageInv.fill {s : State} (h : StorageInv s) (c : CacheId) (pa way : Nat) :
    StorageInv (fill s c pa way) := by
  refine ⟨h.toLevelsInv.fill c pa way, ?_⟩
  unfold Machine.fill
  simp only
  split
  · next hc =>
    simp only [Bool.and_eq_true, Option.isNone_iff_eq_none] at hc
    have hn := heldLine_eq_none hc.2
    split
    · next ln ho =>
      have hcfg := (sameButLines_evict s c ln.addr).cfg
      refine CopiesAgree.addLine (h.evict c ln.addr) c _ _ (by rw [hcfg]; exact lineAddr_mod _ _) ?_
      intro l hl e
      unfold Machine.evict at hl
      rw [cacheLines_dropLine, (writeback_spec s c ln.addr h.toLevelsInv).2.1] at hl
      obtain ⟨m, hm, rfl⟩ := List.mem_map.1 (List.mem_filter.1 hl).1
      exact hn m hm (by rw [← e]; split <;> rfl)
    · exact CopiesAgree.addLine h c _ _ (lineAddr_mod _ _) hn
  · exact h.copies_agree

/-- A store of another agent keeps storage as it should be. -/
theorem StorageInv.externalStore {s : State} (h : StorageInv s) (pa : Nat) (b : Byte) :
    StorageInv (externalStore s pa b) := by
  unfold Machine.externalStore
  simp only
  split
  · next hco =>
    refine ⟨((h.toLevelsInv.lowerSet pa b).snoopSet pa b).peersSet pa b, ?_⟩
    have hcfg : (Machine.peersSet (Machine.snoopSet (Machine.lowerSet s pa b) .dc pa b) pa b).cfg = s.cfg := by
      simp [Machine.snoopSet]
    refine h.copies_agree.put hcfg pa b fun _ hdc q hq => ?_
    rcases List.mem_cons.1 hq with rfl | hq
    · refine ⟨s.toHart, List.mem_cons_self, fun ln hl => ?_⟩
      rw [peersSet_dc] at hl
      simp only [Machine.snoopSet, Machine.setLines, cacheLines, cachePresent, lowerSet_cfg, hdc, if_true,
        storedLines, lowerSet_dc] at hl
      obtain ⟨m, hm, rfl⟩ := List.mem_map.1 hl
      exact ⟨m, hm, by simp, rfl⟩
    · simp only [Machine.peersSet, Machine.snoopSet, setLines_cfg', lowerSet_cfg, hco, if_true,
        setLines_others, lowerSet_others] at hq
      obtain ⟨q', hq', rfl⟩ := List.mem_map.1 hq
      refine ⟨q', List.mem_cons_of_mem _ hq', fun ln hl => ?_⟩
      obtain ⟨m, hm, rfl⟩ := List.mem_map.1 hl
      exact ⟨m, hm, by simp, rfl⟩
  · next hco =>
    refine ⟨h.toLevelsInv.lowerSet pa b, ?_⟩
    intro h'
    rw [lowerSet_cfg] at h'
    exact absurd h' (by simpa using hco)

/-! ## What a data access reads after the moves of lines -/

/-- With `DCACHE_COHERENT` a line of this hart's D-cache says what another hart's copy says. -/
theorem peerByte_of_own {s : State} (h : StorageInv s) {b : Nat} {v w : Byte} (hv : viewByte s .dc b = some v)
    (hw : peerByte s b = some w) : w = v := by
  rw [← peerLine_map] at hw
  obtain ⟨m, hm, rfl⟩ := Option.map_eq_some_iff.1 hw
  obtain ⟨q, hq, hmq, em⟩ := peerLine_mem hm
  unfold viewByte at hv
  obtain ⟨ln, hl, rfl⟩ := Option.map_eq_some_iff.1 hv
  obtain ⟨hlm, el⟩ := heldLine_mem hl
  have hco : s.cfg.dcacheCoherent = true ∧ s.cfg.hasDCache = true := by
    unfold peerLine at hm
    split at hm
    · next h => simpa using h
    · cases hm
  have hdc : ln ∈ s.dc := by simpa [cacheLines, cachePresent, hco.2, storedLines] using hlm
  have := h.copies_agree hco.1 hco.2 q (List.mem_cons_of_mem _ hq) s.toHart List.mem_cons_self m hmq ln hdc
    (em.trans el.symm)
  simp [lineByte, this, cacheGeom]

/-- What is read in place of a line of the D-cache that is written back or clean and then gone. -/
theorem dataByte_dropLine {s : State} (a b : Nat)
    (hl : ∀ v, lineAddr s.cfg.dcGeom b = a → viewByte s .dc b = some v → belowByte s b = v) :
    dataByte (dropLine s .dc a) b = dataByte s b := by
  have hb : belowByte (dropLine s .dc a) b = belowByte s b := by
    rw [belowByte_eq, belowByte_eq, lowerByte_eq, lowerByte_eq, viewByte_dropLine_of_ne _ _ _ _ _ (by simp),
      dropLine_mem]
    unfold dropLine; rw [peerByte_setLines]
  rw [dataByte_eq, dataByte_eq, viewByte_dropLine, hb]
  split
  · next e =>
    cases hv : viewByte s .dc b with
    | none => rfl
    | some v => exact hl v e hv
  · rfl

/-- An eviction of this hart's caches changes nothing that its data accesses read, if a clean line there says
what lies below. -/
theorem dataByte_evict {s : State} (h : StorageInv s) (c : CacheId) (a b : Nat)
    (hc : ∀ ln ∈ cacheLines s .dc, lineAddr s.cfg.dcGeom b = ln.addr → ln.dirty = false →
      lineByte s.cfg.dcGeom ln b = belowByte s b) :
    dataByte (evict s c a) b = dataByte s b := by
  have hw := writeback_spec s c a h.toLevelsInv
  have hwi := h.writeback c a
  unfold evict
  cases c with
  | dc =>
    refine (dataByte_dropLine a b fun v e hv => ?_).trans (hw.2.2.2.1 b)
    have hcfg := (sameButData_writeback s .dc a).cfg
    rw [hcfg] at e
    have hd := hw.2.2.2.1 b
    rw [dataByte_eq, hv] at hd
    have hpe : peerByte (writeback s .dc a) b = peerByte s b :=
      peerByte_of_others hcfg (sameButData_writeback s .dc a).others b
    rw [belowByte_eq]
    cases hp : peerByte (writeback s .dc a) b with
    | some w => exact peerByte_of_own hwi hv hp
    | none =>
      rw [hpe] at hp
      show lowerByte (writeback s .dc a) b = v
      rw [hw.2.2.2.2.1 rfl b]
      split
      · exact hd.symm
      · next hnd =>
        have hd' : v = dataByte s b := hd
        rw [hd', dataByte_eq]
        cases hv' : viewByte s .dc b with
        | none => simp [belowByte_eq, hp]
        | some v' =>
          unfold viewByte at hv'
          obtain ⟨ln, hl, rfl⟩ := Option.map_eq_some_iff.1 hv'
          obtain ⟨hlm, el⟩ := heldLine_mem hl
          have : ln.dirty = false := by
            by_contra hc'
            exact hnd ⟨ln, hlm, by rw [el]; exact e, by simpa using hc', e⟩
          have := hc ln hlm el.symm this
          rw [belowByte_eq, hp] at this
          exact this.symm
  | ic =>
    rw [← hw.2.2.2.1 b, dataByte_views, dataByte_views, lowerByte_eq, lowerByte_eq,
      viewByte_dropLine_of_ne _ _ _ _ _ (by simp), viewByte_dropLine_of_ne _ _ _ _ _ (by simp), dropLine_mem]
    unfold dropLine; rw [peerByte_setLines]
  | l2 =>
    rw [dataByte_views, dataByte_views]
    show _ = _
    have e1 : lowerByte (dropLine (writeback s .l2 a) .l2 a) b = lowerByte s b := lowerByte_evictL2 s a b h.toLevelsInv
    have e2 : viewByte (dropLine (writeback s .l2 a) .l2 a) .dc b = viewByte s .dc b :=
      viewByte_evictL2_of_ne s .dc a b (by simp)
    have e3 : peerByte (dropLine (writeback s .l2 a) .l2 a) b = peerByte s b := by
      unfold dropLine; rw [peerByte_setLines]
      exact peerByte_of_others (sameButData_writeback s .l2 a).cfg (sameButData_writeback s .l2 a).others b
    rw [e1, e2, e3]

/-- A new line of a cache reads as what is below, which is what a data access read there. -/
theorem dataByte_addLine {s : State} (c : CacheId) (a way b : Nat)
    (h3 : ∀ l ∈ cacheLines s c, l.addr ≠ a) : dataByte (addLine s c a way) b = dataByte s b := by
  have hp : peerByte (addLine s c a way) b = peerByte s b := by unfold addLine; rw [peerByte_setLines]
  cases c with
  | dc =>
    have hlow : lowerByte (addLine s .dc a way) b = lowerByte s b := by
      rw [lowerByte_eq, lowerByte_eq, viewByte_addLine_of_ne _ _ _ _ _ _ (by simp), addLine_mem]
    rw [dataByte_eq, dataByte_eq, belowByte_eq, belowByte_eq, hp, hlow, ← belowByte_eq]
    unfold viewByte heldLine
    rw [cacheLines_addLine, addLine_cfg]
    cases hpr : cachePresent s.cfg .dc with
    | false => simp [cacheLines, hpr]
    | true =>
      simp only [if_true, List.find?_cons]
      by_cases e : a = lineAddr (cacheGeom s.cfg .dc) b
      · have hnone : (cacheLines s .dc).find? (fun ln => ln.addr == lineAddr (cacheGeom s.cfg .dc) b) = none := by
          rw [List.find?_eq_none]; intro l hl; simpa [← e] using h3 l hl
        rw [hnone]
        simp only [← e, beq_self_eq_true, Option.map_some, Option.getD_some, Option.map_none, Option.getD_none]
        exact lineByte_bytesBelow s .dc a b way false e.symm
      · have : (a == lineAddr (cacheGeom s.cfg .dc) b) = false := by simpa using e
        rw [this]
  | ic =>
    rw [dataByte_views, dataByte_views, lowerByte_eq, lowerByte_eq, hp,
      viewByte_addLine_of_ne _ _ _ _ _ _ (by simp), viewByte_addLine_of_ne _ _ _ _ _ _ (by simp), addLine_mem]
  | l2 =>
    rw [dataByte_views, dataByte_views, hp, viewByte_addLine_of_ne _ _ _ _ _ _ (by simp),
      lowerByte_addLine_l2 s a way b h3]

/-- A fill of this hart's caches changes nothing that its data accesses read, if a clean line there says what
lies below. -/
theorem dataByte_fill {s : State} (h : StorageInv s) (c : CacheId) (pa way b : Nat)
    (hc : ∀ ln ∈ cacheLines s .dc, lineAddr s.cfg.dcGeom b = ln.addr → ln.dirty = false →
      lineByte s.cfg.dcGeom ln b = belowByte s b) :
    dataByte (fill s c pa way) b = dataByte s b := by
  unfold fill
  simp only
  split
  · next hh =>
    simp only [Bool.and_eq_true, Option.isNone_iff_eq_none] at hh
    have hn := heldLine_eq_none hh.2
    split
    · next ln ho =>
      refine (dataByte_addLine c _ _ b fun l hl e => ?_).trans (dataByte_evict h c ln.addr b hc)
      unfold evict at hl
      rw [cacheLines_dropLine, (writeback_spec s c ln.addr h.toLevelsInv).2.1] at hl
      obtain ⟨m, hm, rfl⟩ := List.mem_map.1 (List.mem_filter.1 hl).1
      exact hn m hm (by rw [← e]; split <;> rfl)
    · exact dataByte_addLine c _ _ b hn
  · rfl

end Sys2Proof
end

