-- ==== Sys2Proof/Laws/Agents.lean ====
section
/-! SUPPORT. What the agents beside the instruction stream do: that they change no register of any hart, and
that they keep storage as it should be, on whichever hart they act. -/

namespace Sys2Proof

open Machine

/-! ## Harts -/

/-- Switching twice is switching back. -/
@[simp] theorem switchTo_switchTo (k : Nat) (s : State) : switchTo k (switchTo k s) = s := by
  unfold switchTo
  cases h : s.others[k]? with
  | none => simp [h]
  | some q =>
    have hk : k < s.others.length := by
      by_contra hc
      rw [List.getElem?_eq_none (by omega)] at h
      cases h
    have hq : s.others[k] = q := by rw [List.getElem?_eq_getElem hk] at h; exact Option.some.inj h
    simp [hk, ← hq]

theorem mem_harts_switchTo (k : Nat) (s : State) (h : Hart) :
    h ∈ harts (switchTo k s) ↔ h ∈ harts s := by
  have one : ∀ s : State, ∀ h ∈ harts (switchTo k s), h ∈ harts s := by
    intro s h hh
    unfold switchTo at hh
    cases hk : s.others[k]? with
    | none => rwa [hk] at hh
    | some q =>
      rw [hk] at hh
      rcases List.mem_cons.1 hh with rfl | hh
      · exact List.mem_cons_of_mem _ (List.mem_of_getElem? hk)
      · rcases List.mem_or_eq_of_mem_set hh with hh | rfl
        · exact List.mem_cons_of_mem _ hh
        · exact List.mem_cons_self
  exact ⟨one s h, fun hh => one (switchTo k s) h (by rwa [switchTo_switchTo])⟩

theorem harts_switchTo_perm (k : Nat) (s : State) : (harts (switchTo k s)).Perm (harts s) := by
  unfold switchTo
  cases h : s.others[k]? with
  | none => exact .refl _
  | some q =>
    have hk : k < s.others.length := by
      by_contra hc
      rw [List.getElem?_eq_none (by omega)] at h
      cases h
    have hq : q = s.others[k] := by rw [List.getElem?_eq_getElem hk] at h; exact (Option.some.inj h).symm
    subst hq
    show (s.others[k] :: s.others.set k s.toHart).Perm (s.toHart :: s.others)
    rw [List.set_eq_take_append_cons_drop, if_pos hk]
    conv => rhs; rw [← List.take_append_drop k s.others, List.drop_eq_getElem_cons hk]
    refine (List.Perm.cons _ List.perm_middle).trans ?_
    refine (List.Perm.swap _ _ _).trans (List.Perm.cons _ ?_)
    exact List.perm_middle.symm

@[simp] theorem switchTo_mem (k : Nat) (s : State) : (switchTo k s).mem = s.mem := by
  unfold switchTo; split <;> rfl

@[simp] theorem switchTo_l2 (k : Nat) (s : State) : (switchTo k s).l2 = s.l2 := by
  unfold switchTo; split <;> rfl

@[simp] theorem switchTo_inter (k : Nat) (s : State) : (switchTo k s).inter = s.inter := by
  unfold switchTo; split <;> rfl

theorem cacheLines_l2_switchTo (k : Nat) (s : State) :
    cacheLines (switchTo k s) .l2 = cacheLines s .l2 := by
  simp [cacheLines, storedLines]

/-- The caches of the executing hart, as those of the others are said. -/
theorem CachesInv.own {s : State} (h : CachesInv s) : HartCaches s.cfg s.toHart where
  dc hp := by have := h.lines .dc; simpa [cacheLines, cachePresent, storedLines, cacheGeom, hp] using this
  ic hp := by have := h.lines .ic; simpa [cacheLines, cachePresent, storedLines, cacheGeom, hp] using this
  ic_clean hp ln hl :=
    h.ic_clean ln (by simpa [cacheLines, cachePresent, storedLines, hp] using hl)

theorem CachesInv.of_harts {s : State} (h : ∀ q ∈ harts s, HartCaches s.cfg q)
    (h2 : LinesWf s.cfg.l2Geom (cacheLines s .l2)) : CachesInv s where
  lines c := by
    have h0 := h s.toHart List.mem_cons_self
    cases c with
    | l2 => exact h2
    | dc =>
      unfold cacheLines
      split
      · next hp => exact h0.dc hp
      · exact LinesWf.nil _
    | ic =>
      unfold cacheLines
      split
      · next hp => exact h0.ic hp
      · exact LinesWf.nil _
  ic_clean ln hl := by
    unfold cacheLines at hl
    split at hl
    · next hp => exact (h s.toHart List.mem_cons_self).ic_clean hp ln hl
    · cases hl
  others q hq := h q (List.mem_cons_of_mem _ hq)

/-- Storage is as it should be whichever hart is looked from. -/
theorem StorageInv.switchTo {s : State} (h : StorageInv s) (k : Nat) : StorageInv (switchTo k s) where
  mem_wf := by rw [switchTo_mem]; exact h.mem_wf
  caches := by
    refine .of_harts (fun q hq => ?_) ?_
    · rw [switchTo_cfg]
      rcases List.mem_cons.1 ((mem_harts_switchTo k s q).1 hq) with rfl | hq
      · exact h.caches.own
      · exact h.caches.others q hq
    · rw [cacheLines_l2_switchTo, switchTo_cfg]; exact h.caches.lines .l2
  l2_clean ln hl hd a ha := by
    rw [cacheLines_l2_switchTo] at hl
    rw [switchTo_cfg] at ha ⊢
    rw [switchTo_mem]
    exact h.l2_clean ln hl hd a ha
  copies_agree hco hdc q hq r hr ln hl ln' hl' := by
    rw [switchTo_cfg] at hco hdc
    exact h.copies_agree hco hdc q ((mem_harts_switchTo k s q).1 hq) r ((mem_harts_switchTo k s r).1 hr)
      ln hl ln' hl'

theorem StorageInv.onHart {s : State} (h : StorageInv s) (k : Option Nat) (f : State → State)
    (hf : ∀ u, StorageInv u → StorageInv (f u)) : StorageInv (onHart k f s) := by
  cases k with
  | none => exact hf s h
  | some k => exact (hf _ (h.switchTo k)).switchTo k

/-! ## One action -/

theorem AgentsOnly.refl (s : State) : AgentsOnly s s := ⟨rfl, rfl⟩

theorem AgentsOnly.trans {s t u : State} (h1 : AgentsOnly s t) (h2 : AgentsOnly t u) :
    AgentsOnly s u where
  rest := by
    have e1 := h1.rest
    have e2 := h2.rest
    rcases s with ⟨⟨⟩, _⟩; rcases t with ⟨⟨⟩, _⟩; rcases u with ⟨⟨⟩, _⟩; simp_all
  others := h2.others.trans h1.others

theorem SameButLines.agents {s t : State} (h : SameButLines s t) : AgentsOnly s t where
  rest := by
    unfold SameButLines at h
    rcases s with ⟨⟨⟩, _⟩; rcases t with ⟨⟨⟩, _⟩; simp_all
  others := by rw [h.others]

theorem OthersKept.registers {s t : State} (h : OthersKept s t) :
    t.others.map hartRegisters = s.others.map hartRegisters := by
  have := congrArg (List.map hartRegisters) h.rest
  rw [List.map_map, List.map_map] at this
  exact this

theorem StoresOnly.agents {s t : State} (h : StoresOnly s t) : AgentsOnly s t where
  rest := by
    have e := h.rest
    rcases s with ⟨⟨⟩, _⟩; rcases t with ⟨⟨⟩, _⟩; simp_all
  others := h.others.registers

theorem agentsOnly_deliver (s : State) (j : Nat) : AgentsOnly s (deliver s j) := by
  unfold deliver performBroadcast
  split
  · split <;> exact ⟨rfl, rfl⟩
  · exact .refl s

theorem agentsOnly_prefetch (s : State) (va : Word) : AgentsOnly s (prefetch s va) := by
  unfold prefetch
  split
  · split
    · exact .refl s
    · exact ⟨rfl, rfl⟩
  · exact .refl s

/-- An action changes no register of any hart. -/
theorem agentsOnly_applyAct (s : State) (a : AgentAct) : AgentsOnly s (applyAct s a) := by
  cases a with
  | fill c pa way => exact (sameButLines_fill s c pa way).agents
  | writeback c pa => exact (sameButData_writeback s c _).lines.agents
  | evict c pa => exact (sameButLines_evict s c _).agents
  | tlbFill va asid => exact ⟨rfl, rfl⟩
  | tlbDrop vpn asid => exact ⟨rfl, rfl⟩
  | prefetch va => exact agentsOnly_prefetch s va
  | deliver j => exact agentsOnly_deliver s j
  | extStore pa b => exact (storesOnly_externalStore s pa b).agents
  | remap map => exact ⟨rfl, rfl⟩

theorem StorageInv.deliver {s : State} (h : StorageInv s) (j : Nat) : StorageInv (deliver s j) := by
  unfold Machine.deliver
  split
  · next p _ =>
    cases p.op with
    | invalidateICache =>
      refine ⟨⟨h.mem_wf, .of_harts (fun q hq => ?_) (h.caches.lines .l2), h.l2_clean⟩,
        h.copies_agree.congr rfl rfl rfl⟩
      rcases List.mem_cons.1 hq with rfl | hq
      · exact ⟨h.caches.own.dc, fun _ => LinesWf.nil _, fun _ ln hl => by cases hl⟩
      · exact h.caches.others q hq
    | invalidateTlb va asid => exact h.congr rfl rfl rfl rfl rfl rfl
  · exact h

/-- An action keeps storage as it should be. -/
theorem StorageInv.applyAct {s : State} (h : StorageInv s) (a : AgentAct) : StorageInv (applyAct s a) := by
  cases a with
  | fill c pa way => exact h.fill c pa way
  | writeback c pa => exact h.writeback c _
  | evict c pa => exact h.evict c _
  | tlbFill va asid => exact h.congr rfl rfl rfl rfl rfl rfl
  | tlbDrop vpn asid => exact h.congr rfl rfl rfl rfl rfl rfl
  | prefetch va =>
    show StorageInv (Machine.prefetch s va)
    unfold Machine.prefetch
    split
    · split
      · exact h
      · exact h.congr rfl rfl rfl rfl rfl rfl
    · exact h
  | deliver j => exact h.deliver j
  | extStore pa b => exact h.externalStore pa b
  | remap map => exact h.congr rfl rfl rfl rfl rfl rfl

theorem StorageInv.applyActs {s : State} (h : StorageInv s) (as : List HartAct) :
    StorageInv (applyActs s as) := by
  induction as generalizing s with
  | nil => exact h
  | cons a as ih => exact ih (h.onHart a.hart _ fun u hu => hu.applyAct a.act)

/-- An action of another hart changes no register of any hart either. -/
theorem agentsOnly_onHart (s : State) (k : Option Nat) (f : State → State)
    (hf : ∀ u, AgentsOnly u (f u)) : AgentsOnly s (onHart k f s) := by
  cases k with
  | none => exact hf s
  | some k =>
    show AgentsOnly s (switchTo k (f (switchTo k s)))
    have h := hf (switchTo k s)
    have hlen : (f (switchTo k s)).others.length = (switchTo k s).others.length := by
      have := congrArg List.length h.others; simpa using this
    unfold switchTo at h hlen ⊢
    cases hk : s.others[k]? with
    | none =>
      rw [hk] at h hlen
      dsimp only at h hlen ⊢
      rw [List.getElem?_eq_none (by rw [hlen]; exact List.getElem?_eq_none_iff.1 hk)]
      exact h
    | some q =>
      rw [hk] at h hlen
      dsimp only at h hlen ⊢
      generalize hu : f { s with toHart := q, others := s.others.set k s.toHart } = u at h hlen ⊢
      have hkl : k < s.others.length := by
        by_contra hc
        rw [List.getElem?_eq_none (by omega)] at hk
        cases hk
      have hku : k < u.others.length := by rw [hlen]; simpa using hkl
      rw [List.getElem?_eq_getElem hku]
      dsimp only
      have ho := h.others
      have hr := h.rest
      have hback : hartRegisters u.others[k] = hartRegisters s.toHart := by
        have := congrArg (fun l => l[k]?) ho
        simpa [hku, hkl] using this
      have hq : hartRegisters u.toHart = hartRegisters q := by
        have := congrArg (fun v : State => hartRegisters v.toHart) hr
        exact this
      constructor
      · generalize u.others[k] = w at hback
        have e1 := congrArg State.cfg hr
        have e2 := congrArg State.oracle hr
        have e3 := congrArg State.inter hr
        have e4 := congrArg State.freeCount hr
        rcases s with ⟨⟨⟩, _⟩; rcases u with ⟨⟨⟩, _⟩; rcases w with ⟨⟩
        simp_all [hartRegisters]
      · rw [List.map_set, ho, hq]
        apply List.ext_getElem?
        intro i
        rw [List.map_set, List.set_set, List.getElem?_set]
        split
        · next e =>
          subst e
          split
          · rw [List.getElem?_map, hk]; rfl
          · next hc => exact absurd (by simpa using hkl) hc
        · rfl

theorem agentsOnly_applyActs (s : State) (as : List HartAct) : AgentsOnly s (applyActs s as) := by
  induction as generalizing s with
  | nil => exact .refl s
  | cons a as ih =>
    exact (agentsOnly_onHart s a.hart _ fun u => agentsOnly_applyAct u a.act).trans (ih _)

/-- The hart that goes on is chosen by switching, and everything else of the boundary is done by agents. -/
theorem background_eq (s : State) : ∃ u, AgentsOnly u (background s) ∧
    u = { chooseHart (takeSlot s).1.run (takeSlot s).2 with inter := (takeSlot s).1.inter } :=
  ⟨_, agentsOnly_applyActs _ _, rfl⟩

theorem StorageInv.background {s : State} (h : StorageInv s) : StorageInv (background s) := by
  have h1 : StorageInv (takeSlot s).2 := by
    unfold takeSlot
    split
    · exact h
    · exact h.congr rfl rfl rfl rfl rfl rfl
  have h2 : StorageInv (chooseHart (takeSlot s).1.run (takeSlot s).2) := by
    cases (takeSlot s).1.run with
    | none => exact h1
    | some k => exact h1.switchTo k
  exact (h2.congr (t := { chooseHart (takeSlot s).1.run (takeSlot s).2 with inter := (takeSlot s).1.inter })
    rfl rfl rfl rfl rfl rfl).applyActs _

/-! ## What the actions of agents depend on -/

/-- A hart without its lines and its fetched-ahead words. -/
def withoutLines (h : Hart) : Hart := { h with dc := [], ic := [], pipeline := [] }

/-- The machine without its storage and without fetched-ahead words: what translations and messages depend on. -/
def control (s : State) : State :=
  { s with toHart := withoutLines s.toHart, others := s.others.map withoutLines, mem := [], l2 := [] }

theorem control_switchTo (k : Nat) (s : State) : control (switchTo k s) = switchTo k (control s) := by
  unfold switchTo
  show _ = match (s.others.map withoutLines)[k]? with | some h => _ | none => _
  rw [List.getElem?_map]
  cases h : s.others[k]? with
  | none => rfl
  | some q => simp [control, List.map_set]

theorem SameButLines.control {s t : State} (h : SameButLines s t) : control t = control s := by
  have := congrArg Sys2Proof.control h
  exact this

theorem StoresOnly.control {s t : State} (h : StoresOnly s t) : control t = control s := by
  have ho : t.others.map withoutLines = s.others.map withoutLines := by
    have e := congrArg (List.map withoutLines) h.others.rest
    rw [List.map_map, List.map_map] at e
    exact e
  calc Sys2Proof.control t
      = { Sys2Proof.control { t with mem := s.mem, dc := s.dc, l2 := s.l2, others := s.others } with
          others := t.others.map withoutLines } := rfl
    _ = Sys2Proof.control s := by rw [h.rest, ho]; rfl

/-- An action makes of translations and messages what it makes of them without any storage. -/
theorem control_applyAct (s : State) (a : AgentAct) : control (applyAct s a) = control (applyAct (control s) a) := by
  have idem : control (control s) = control s := by
    simp [control, List.map_map, Function.comp_def, withoutLines]
  cases a with
  | fill c pa way =>
    exact (sameButLines_fill s c pa way).control.trans
      (((sameButLines_fill (control s) c pa way).control.trans idem).symm)
  | writeback c pa =>
    exact (sameButData_writeback s c _).lines.control.trans
      (((sameButData_writeback (control s) c _).lines.control.trans idem).symm)
  | evict c pa =>
    exact (sameButLines_evict s c _).control.trans
      (((sameButLines_evict (control s) c _).control.trans idem).symm)
  | extStore pa b =>
    exact (storesOnly_externalStore s pa b).control.trans
      (((storesOnly_externalStore (control s) pa b).control.trans idem).symm)
  | prefetch va =>
    have p : ∀ u : State, control (prefetch u va) = control u := by
      intro u; unfold prefetch; split
      · split <;> rfl
      · rfl
    exact (p s).trans (((p (control s)).trans idem).symm)
  | tlbFill va asid =>
    show control { s with tlb := tlbFilled s va asid s.tlb } = control { control s with tlb := tlbFilled s va asid s.tlb }
    exact congrArg (fun u : State => { u with tlb := tlbFilled s va asid s.tlb }) idem.symm
  | tlbDrop vpn asid =>
    exact congrArg (fun u : State => { u with tlb := tlbDropped vpn asid s.tlb }) idem.symm
  | remap map => exact congrArg (fun u : State => { u with pageMap := map }) idem.symm
  | deliver j =>
    show control (deliver s j) = control (deliver (control s) j)
    have e : (control s).pending = s.pending := rfl
    unfold deliver
    rw [e]
    cases s.pending[j]? with
    | none => exact idem.symm
    | some p =>
      cases hop : p.op with
      | invalidateICache =>
        simp only [hop, performBroadcast]
        exact congrArg (fun u : State => { u with pending := s.pending.eraseIdx j }) idem.symm
      | invalidateTlb va asid =>
        simp only [hop, performBroadcast]
        exact congrArg (fun u : State => { u with pending := s.pending.eraseIdx j, tlb := tlbWithout s.cfg va asid s.tlb }) idem.symm

theorem control_applyActs {s t : State} (h : control s = control t) (as : List HartAct) :
    control (applyActs s as) = control (applyActs t as) := by
  have one : ∀ (s t : State) (a : HartAct), control s = control t →
      control (onHart a.hart (fun u => applyAct u a.act) s) = control (onHart a.hart (fun u => applyAct u a.act) t) := by
    intro s t a h
    cases a.hart with
    | none =>
      show control (applyAct s a.act) = control (applyAct t a.act)
      rw [control_applyAct s, control_applyAct t, h]
    | some k =>
      show control (switchTo k (applyAct (switchTo k s) a.act)) = control (switchTo k (applyAct (switchTo k t) a.act))
      rw [control_switchTo, control_switchTo, control_applyAct (switchTo k s), control_applyAct (switchTo k t),
        control_switchTo, control_switchTo, h]
  induction as generalizing s t with
  | nil => exact h
  | cons a as ih => exact ih (one s t a h)

end Sys2Proof
end

