-- ==== Sys2Proof/Laws/Ops.lean ====
section
/-! SUPPORT. What the named operations over registers, `pc` and the trap do, said once: the width
operation `truncX`, the register accessors, and the endings every meaning is built of. -/

namespace Sys2Proof.Machine

/-! ## Width -/

theorem truncX_toNat (c : Config) (v : Word) : (truncX c v).toNat = v.toNat % 2 ^ xlenBits c := by
  unfold truncX xlenBits
  cases c.xlen
  · simp only [BitVec.toNat_setWidth]; omega
  · simpa using (Nat.mod_eq_of_lt v.isLt).symm

theorem xlenBits_cases (c : Config) : xlenBits c = 32 ∨ xlenBits c = 64 := by
  unfold xlenBits; cases c.xlen <;> simp

theorem xlenBits_eq_64 (c : Config) : xlenBits c = 64 ↔ c.xlen = .rv64 := by
  unfold xlenBits; cases c.xlen <;> simp

@[simp] theorem truncX_truncX (c : Config) (v : Word) : truncX c (truncX c v) = truncX c v := by
  apply BitVec.eq_of_toNat_eq; simp [truncX_toNat]

@[simp] theorem truncX_zero (c : Config) : truncX c 0#64 = 0#64 := by
  apply BitVec.eq_of_toNat_eq; simp [truncX_toNat]

theorem truncX_getLsbD (c : Config) (v : Word) (k : Nat) :
    (truncX c v).getLsbD k = (decide (k < xlenBits c) && v.getLsbD k) := by
  unfold truncX xlenBits
  cases c.xlen
  · simp only [BitVec.getLsbD_setWidth]
    by_cases h : k < 32
    · simp [h]; omega
    · simp [h]
  · by_cases h : k < 64
    · simp [h]
    · simp [h, BitVec.getLsbD_of_ge v k (by omega)]

/-- A property of `truncX` used for sums: what is added may be truncated first. -/
theorem truncX_add_mod (c : Config) (a b : Nat) :
    (a + b) % 2 ^ 64 % 2 ^ xlenBits c = (a + b) % 2 ^ xlenBits c := by
  rcases xlenBits_cases c with h | h <;> rw [h] <;> omega

theorem truncF_truncF (c : Config) (v : Word) : truncF c (truncF c v) = truncF c v := by
  unfold truncF; cases c.hasD <;> cases c.hasF <;> simp

/-! ## Integer registers -/

@[simp] theorem readX_zero (s : State) : readX s 0#5 = 0#64 := rfl

@[simp] theorem truncX_readX (s : State) (r : Reg) : truncX s.cfg (readX s r) = readX s r := by
  unfold readX; split <;> simp

theorem readX_lt (s : State) (r : Reg) : (readX s r).toNat < 2 ^ xlenBits s.cfg := by
  rw [← truncX_readX, truncX_toNat]; exact Nat.mod_lt _ (by positivity)

/-- A register's value depends on the register file and the configuration alone. -/
theorem readX_congr {s t : State} (hx : t.x = s.x) (hc : t.cfg = s.cfg) (r : Reg) :
    readX t r = readX s r := by simp [readX, hx, hc]

@[simp] theorem readX_advance (s : State) (r : Reg) : readX (advance s) r = readX s r := rfl

theorem readX_writeX_self (s : State) (r : Reg) (v : Word) (h : r ≠ 0#5) :
    readX (writeX s r v) r = truncX s.cfg v := by
  simp [readX, writeX, h]

theorem readX_writeX_of_ne (s : State) (r q : Reg) (v : Word) (h : q ≠ r) :
    readX (writeX s r v) q = readX s q := by
  unfold writeX
  split
  · rfl
  · have hn : r.toNat ≠ q.toNat := fun e => h (BitVec.eq_of_toNat_eq e.symm)
    simp [readX, Vector.getElem_set_ne, hn]

@[simp] theorem writeX_zero (s : State) (v : Word) : writeX s 0#5 v = s := rfl

/-- A write of an integer register: register 0 stays, the one named takes the value at `XLEN` bits. -/
theorem readX_writeX (s : State) (r q : Reg) (v : Word) :
    readX (writeX s r v) q = if q = r ∧ r ≠ 0#5 then truncX s.cfg v else readX s q := by
  by_cases h : q = r
  · subst h
    by_cases h0 : q = 0#5
    · subst h0; simp
    · simp [h0, readX_writeX_self]
  · simp [h, readX_writeX_of_ne]

/-- Writing an integer register changes the register file alone. -/
theorem writeX_rest (s : State) (r : Reg) (v : Word) : { writeX s r v with x := s.x } = s := by
  unfold writeX; split <;> rfl

theorem readX_writeXs_of_not_mem (s : State) (l : List (Reg × Word)) (q : Reg)
    (h : q ∉ l.map Prod.fst) : readX (writeXs s l) q = readX s q := by
  induction l generalizing s with
  | nil => rfl
  | cons p l ih =>
    simp only [List.map_cons, List.mem_cons, not_or] at h
    obtain ⟨r, v⟩ := p
    rw [writeXs, ih _ h.2, readX_writeX_of_ne _ _ _ _ h.1]

@[simp] theorem writeXs_cfg (s : State) (l : List (Reg × Word)) : (writeXs s l).cfg = s.cfg := by
  induction l generalizing s with
  | nil => rfl
  | cons p l ih => obtain ⟨r, v⟩ := p; rw [writeXs, ih]; simp

/-- Writing several different registers: each takes its value. -/
theorem readX_writeXs_of_mem (s : State) (l : List (Reg × Word)) (q : Reg) (v : Word)
    (hd : (l.map Prod.fst).Nodup) (h : (q, v) ∈ l) (h0 : q ≠ 0#5) :
    readX (writeXs s l) q = truncX s.cfg v := by
  induction l generalizing s with
  | nil => simp at h
  | cons p l ih =>
    obtain ⟨r, w⟩ := p
    simp only [List.map_cons, List.nodup_cons] at hd
    rcases List.mem_cons.1 h with e | h
    · cases e
      rw [writeXs, readX_writeXs_of_not_mem _ _ _ hd.1, readX_writeX_self _ _ _ h0]
    · rw [writeXs, ih _ hd.2 h]; simp

theorem writeXs_rest (s : State) (l : List (Reg × Word)) : { writeXs s l with x := s.x } = s := by
  induction l generalizing s with
  | nil => rfl
  | cons p l ih =>
    obtain ⟨r, v⟩ := p
    have h1 := ih (writeX s r v)
    have h2 := writeX_rest s r v
    rw [writeXs]
    calc { writeXs (writeX s r v) l with x := s.x }
        = { ({ writeXs (writeX s r v) l with x := (writeX s r v).x } : State) with x := s.x } := rfl
      _ = { writeX s r v with x := s.x } := by rw [h1]
      _ = s := h2

/-! ## Floating-point registers -/

theorem readF_writeF (s : State) (r q : Reg) (v : Word) :
    readF (writeF s r v) q = if q = r then truncF s.cfg v else readF s q := by
  unfold readF writeF
  by_cases h : q = r
  · subst h; simp [truncF_truncF]
  · have hn : r.toNat ≠ q.toNat := fun e => h (BitVec.eq_of_toNat_eq e.symm)
    simp [h, Vector.getElem_set_ne, hn]

/-! ## The interrupt stack pointer -/

theorem readIntSp_lt (s : State) : (readIntSp s).toNat < 2 ^ xlenBits s.cfg := by
  unfold readIntSp
  split
  · exact readX_lt s _
  · rw [truncX_toNat]; exact Nat.mod_lt _ (by positivity)

@[simp] theorem truncX_readIntSp (s : State) : truncX s.cfg (readIntSp s) = readIntSp s := by
  unfold readIntSp; split <;> simp

theorem readIntSp_writeIntSp (s : State) (v : Word) (h : s.cfg.intSpReg ≠ .gpr 0#5) :
    readIntSp (writeIntSp s v) = truncX s.cfg v := by
  unfold writeIntSp
  split
  · next r hr =>
    have h0 : r ≠ 0#5 := fun e => h (by rw [hr, e])
    simp [readIntSp, hr, readX_writeX_self _ _ _ h0]
  · next hr => simp [readIntSp, hr]

theorem readX_writeIntSp (s : State) (v : Word) (r : Reg) (h : s.cfg.intSpReg ≠ .gpr r) :
    readX (writeIntSp s v) r = readX s r := by
  unfold writeIntSp
  split
  · next q hq => exact readX_writeX_of_ne _ _ _ _ (fun e => h (by rw [hq, e]))
  · rfl

theorem writeIntSp_rest (s : State) (v : Word) :
    { writeIntSp s v with x := s.x, intSp := s.intSp } = s := by
  unfold writeIntSp
  split
  · next r _ =>
    have := writeX_rest s r v
    calc { writeX s r v with x := s.x, intSp := s.intSp }
        = { ({ writeX s r v with x := s.x } : State) with intSp := s.intSp } := rfl
      _ = s := by rw [this]
  · rfl

/-! ## Going on to the next instruction -/

theorem nextInsn_advance (s t : State) (hc : t.cfg = s.cfg) (hp : t.pc = s.pc) :
    NextInsn s (advance t) := by
  unfold NextInsn
  rw [advance_pc, truncX_toNat, hc, hp, BitVec.toNat_add]
  exact truncX_add_mod s.cfg _ 4

/-- What advancing after a write of one register leaves. -/
theorem registersOnly_writeX (s : State) (r : Reg) (v : Word) :
    RegistersOnly s (advance (writeX s r v)) [r] where
  rest := by
    have := writeX_rest s r v
    calc { advance (writeX s r v) with x := s.x, pc := s.pc }
        = { ({ writeX s r v with x := s.x } : State) with pc := s.pc } := rfl
      _ = s := by rw [this]
  regs q hq := by
    simp only [List.mem_singleton] at hq
    simp [readX_writeX_of_ne _ _ _ _ hq]
  zero := rfl
  bytes a := .congr (by simp) (by simp) (by simp) (by simp) (by simp) (by simp) a

theorem registersOnly_writeX_writeX (s : State) (r q : Reg) (v w : Word) :
    RegistersOnly s (advance (writeX (writeX s r v) q w)) [r, q] where
  rest := by
    have h1 := writeX_rest s r v
    have h2 := writeX_rest (writeX s r v) q w
    calc { advance (writeX (writeX s r v) q w) with x := s.x, pc := s.pc }
        = { ({ ({ writeX (writeX s r v) q w with x := (writeX s r v).x } : State) with x := s.x } : State)
            with pc := s.pc } := rfl
      _ = s := by rw [h2, h1]
  regs p hp := by
    simp only [List.mem_cons, List.not_mem_nil, or_false, not_or] at hp
    simp [readX_writeX_of_ne _ _ _ _ hp.2, readX_writeX_of_ne _ _ _ _ hp.1]
  zero := rfl
  bytes a := .congr (by simp) (by simp) (by simp) (by simp) (by simp) (by simp) a

theorem registersOnly_advance (s : State) : RegistersOnly s (advance s) [] :=
  ⟨rfl, fun _ _ => rfl, rfl, fun a =>
    SameBytes.congr (s := s) (t := advance s) rfl rfl rfl rfl rfl rfl a⟩

/-- Completing with a value for one register: what `finishX` answers and what that state is. -/
theorem finishX_spec (s : State) (rd : Reg) (v : Word) :
    ∃ t, finishX s rd v = .next t ∧ NextInsn s t ∧ RegistersOnly s t [rd] ∧
      (rd ≠ 0 → readX t rd = truncX s.cfg v) :=
  ⟨_, rfl, nextInsn_advance _ _ (by simp) (by simp), registersOnly_writeX s rd v,
    fun h => by simp [readX_writeX_self _ _ _ h]⟩

/-! ## The endings of a meaning -/

/-- All that an instruction with conditions can do: run, or be illegal. -/
theorem requireLegal_cases (s : State) (i : Instr) (ok : Bool) (run : Result) :
    (ok = true ∧ requireLegal s i ok run = run) ∨
    (ok = false ∧ requireLegal s i ok run = .next (illegal s i)) := by
  cases ok <;> simp [requireLegal]

@[simp] theorem requireLegal_true (s : State) (i : Instr) (run : Result) :
    requireLegal s i true run = run := rfl

@[simp] theorem requireLegal_false (s : State) (i : Instr) (run : Result) :
    requireLegal s i false run = .next (illegal s i) := rfl

/-- All that an instruction with loads can do. -/
theorem withLoads_cases (s : State) (qs : List Req) (k : State → List Word → Result) :
    (∃ vs, (loadAll s qs).1 = .ok vs ∧ withLoads s qs k = k (loadAll s qs).2 vs) ∨
    (∃ e, (loadAll s qs).1 = .error e ∧ withLoads s qs k = .next (accessTrap (loadAll s qs).2 e)) := by
  unfold withLoads
  rcases loadAll s qs with ⟨e | vs, s'⟩
  · exact .inr ⟨e, rfl, rfl⟩
  · exact .inl ⟨vs, rfl, rfl⟩

/-- All that an instruction with stores can do. -/
theorem withStores_cases (s : State) (qs : List Req) (k : State → Result) :
    ((storeAll s qs).1 = none ∧ withStores s qs k = k (storeAll s qs).2) ∨
    (∃ e, (storeAll s qs).1 = some e ∧ withStores s qs k = .next (accessTrap (storeAll s qs).2 e)) := by
  unfold withStores
  rcases storeAll s qs with ⟨_ | e, s'⟩
  · exact .inl ⟨rfl, rfl⟩
  · exact .inr ⟨e, rfl, rfl⟩

/-! ## The exception registers -/

theorem pcAlign_pos (c : Config) : 0 < pcAlign c := by unfold pcAlign; split <;> simp

/-- Clearing the low `n` bits of a word. -/
theorem land_not_low (v : Word) (n : Nat) :
    v &&& ~~~(BitVec.ofNat 64 (2 ^ n - 1)) = v >>> n <<< n := by
  apply BitVec.eq_of_getLsbD_eq
  intro k hk
  simp only [BitVec.getLsbD_and, BitVec.getLsbD_not, BitVec.getLsbD_ofNat,
    Nat.testBit_two_pow_sub_one, BitVec.getLsbD_shiftLeft, BitVec.getLsbD_ushiftRight]
  by_cases h : k < n
  · simp [h, hk]
  · simp [h, hk, show n + (k - n) = k by omega]

theorem land_not_low_toNat (v : Word) (n : Nat) :
    (v &&& ~~~(BitVec.ofNat 64 (2 ^ n - 1))).toNat = v.toNat / 2 ^ n * 2 ^ n := by
  rw [land_not_low, BitVec.toNat_shiftLeft, BitVec.toNat_ushiftRight, Nat.shiftRight_eq_div_pow,
    Nat.shiftLeft_eq]
  exact Nat.mod_eq_of_lt (lt_of_le_of_lt (Nat.div_mul_le_self _ _) v.isLt)

theorem mepcValue_toNat (c : Config) (v : Word) :
    (mepcValue c v).toNat = v.toNat / pcAlign c * pcAlign c % 2 ^ xlenBits c := by
  unfold mepcValue pcAlign
  rw [truncX_toNat]
  congr 1
  split
  · exact land_not_low_toNat v 1
  · exact land_not_low_toNat v 2

theorem truncX_mod_pcAlign (c : Config) (v : Word) :
    (truncX c v).toNat % pcAlign c = v.toNat % pcAlign c := by
  rw [truncX_toNat]
  unfold pcAlign
  rcases xlenBits_cases c with h | h <;> rw [h] <;> split <;> omega

/-- `mepc` as it reads is aligned. -/
theorem mepcValue_aligned (c : Config) (v : Word) : (mepcValue c v).toNat % pcAlign c = 0 := by
  rw [mepcValue_toNat]
  unfold pcAlign
  rcases xlenBits_cases c with h | h <;> rw [h] <;> split <;> omega

theorem mepcValue_of_aligned (c : Config) (v : Word) (h : v.toNat % pcAlign c = 0) :
    mepcValue c v = truncX c v := by
  apply BitVec.eq_of_toNat_eq
  rw [mepcValue_toNat, truncX_toNat, Nat.div_mul_cancel (Nat.dvd_of_mod_eq_zero h)]

@[simp] theorem truncX_mepcValue (c : Config) (v : Word) : truncX c (mepcValue c v) = mepcValue c v := by
  simp [mepcValue]

@[simp] theorem mepcValue_mepcValue (c : Config) (v : Word) :
    mepcValue c (mepcValue c v) = mepcValue c v := by
  rw [mepcValue_of_aligned _ _ (mepcValue_aligned c v), truncX_mepcValue]

theorem causeWord_toNat (c : Config) (irq : Bool) (code : Nat) :
    (causeWord c irq code).toNat =
      code % 2 ^ (xlenBits c - 1) + (if irq then 2 ^ (xlenBits c - 1) else 0) := by
  have key (n : Nat) (b : Bool) : (BitVec.ofBool b ++ BitVec.ofNat n code).toNat =
      code % 2 ^ n + (if b then 2 ^ n else 0) := by
    rw [BitVec.toNat_append, Nat.shiftLeft_eq, Nat.mul_comm, ← Nat.two_pow_add_eq_or_of_lt (BitVec.isLt _)]
    cases b <;> simp [Nat.add_comm]
  unfold causeWord xlenBits
  cases c.xlen <;> simp only [BitVec.toNat_setWidth, key] <;> split <;> omega

/-- A write of `mcause` leaves a legal cause, if there is any: the value written, if it is one. -/
theorem writeMcause_spec (s : State) (v : Word) :
    (truncX s.cfg v ∈ legalCauses s.cfg → (writeMcause s v).mcause = truncX s.cfg v) ∧
    (legalCauses s.cfg ≠ [] → (writeMcause s v).mcause ∈ legalCauses s.cfg) := by
  unfold writeMcause
  by_cases h : truncX s.cfg v ∈ legalCauses s.cfg
  · simp [h]
  · refine ⟨fun h' => absurd h' h, fun hne => ?_⟩
    have hl : 0 < (legalCauses s.cfg).length := List.length_pos_iff.2 hne
    have hlt := Nat.mod_lt (Config.freeIndex s.freeCount) hl
    simp only [List.contains_eq_mem, h, decide_false, Bool.false_eq_true, if_false]
    rw [List.getD_eq_getElem _ _ hlt]
    exact List.getElem_mem hlt

end Sys2Proof.Machine
end

