-- ==== Sys2Proof/Laws/Access.lean ====
section
/-! SUPPORT. What the loads and the stores of an instruction do, in the terms `AccessMaps`, `AccessRaises`,
`loadedNat` and `HoldsBytes` of the statements. -/

namespace Sys2Proof

open Machine

/-! ## Values -/

theorem leValue_toNat (bs : List Byte) (h : bs.length ≤ 8) :
    (leValue bs).toNat = bs.foldr (fun b acc => b.toNat + 256 * acc) 0 ∧
      (leValue bs).toNat < 256 ^ bs.length := by
  induction bs with
  | nil => simp [leValue]
  | cons b bs ih =>
    obtain ⟨h1, h2⟩ := ih (by simp at h; omega)
    have hlen : bs.length ≤ 7 := by rw [List.length_cons] at h; omega
    have hb := b.isLt
    have h3 : (256 : Nat) ^ bs.length ≤ 256 ^ 7 := Nat.pow_le_pow_right (by norm_num) hlen
    have hshift : (leValue bs <<< 8).toNat = (leValue bs).toNat * 2 ^ 8 := by
      rw [BitVec.toNat_shiftLeft, Nat.shiftLeft_eq]
      apply Nat.mod_eq_of_lt
      calc (leValue bs).toNat * 2 ^ 8 < 256 ^ 7 * 2 ^ 8 := by
            apply Nat.mul_lt_mul_of_pos_right (lt_of_lt_of_le h2 h3) (by norm_num)
        _ = 2 ^ 64 := by norm_num
    have hval : (leValue (b :: bs)).toNat = b.toNat + 256 * (leValue bs).toNat := by
      rw [leValue, BitVec.toNat_or, hshift, BitVec.toNat_setWidth,
        Nat.mod_eq_of_lt (by omega : b.toNat < 2 ^ 64), Nat.mul_comm _ (2 ^ 8), Nat.or_comm,
        ← Nat.two_pow_add_eq_or_of_lt hb]
      omega
    refine ⟨by rw [hval, List.foldr_cons, ← h1], ?_⟩
    rw [hval, List.length_cons, Nat.pow_succ]
    omega

theorem loadedNat_eq (s : State) (pas : List Nat) :
    loadedNat s pas = (pas.map (dataByte s)).foldr (fun b acc => b.toNat + 256 * acc) 0 := by
  unfold loadedNat; rw [List.foldr_map]

/-- What an extension makes of a loaded value. -/
theorem extendLoad_extends (c : Config) (e : Extend) (n : Nat) (v : Word) (hv : v.toNat < 256 ^ n)
    (hn : 8 * n ≤ xlenBits c) : Extends c e n v.toNat (truncX c (extendLoad c e n v)) := by
  have h256 : (256 : Nat) ^ n = 2 ^ (8 * n) := by
    rw [show (256 : Nat) = 2 ^ 8 by norm_num, ← Nat.pow_mul]
  rw [h256] at hv
  have hle : (2 : Nat) ^ (8 * n) ≤ 2 ^ xlenBits c := Nat.pow_le_pow_right (by norm_num) hn
  have h64 : 8 * n ≤ 64 := by rcases xlenBits_cases c with h | h <;> omega
  have hw : (v.setWidth (8 * n)).toNat = v.toNat := by
    rw [BitVec.toNat_setWidth]; exact Nat.mod_eq_of_lt hv
  cases e with
  | zero =>
    show (truncX c (zextX c (v.setWidth (8 * n)))).toNat = v.toNat
    unfold zextX
    rw [truncX_truncX, truncX_toNat, BitVec.toNat_setWidth, hw, Nat.mod_eq_of_lt v.isLt]
    exact Nat.mod_eq_of_lt (by omega)
  | sign =>
    show ((truncX c (sextX c (v.setWidth (8 * n)))).toNat : Int) =
      Int.bmod v.toNat (2 ^ (8 * n)) % 2 ^ xlenBits c
    unfold sextX
    rw [truncX_truncX, truncX_toNat, Int.natCast_mod, Nat.cast_pow, Nat.cast_ofNat]
    have h1 : ((v.setWidth (8 * n)).signExtend 64).toInt = Int.bmod v.toNat (2 ^ (8 * n)) := by
      rw [BitVec.toInt_signExtend_of_le h64, BitVec.toInt_eq_toNat_bmod, hw]
    rw [← h1]
    rcases xlenBits_cases c with h | h <;> rw [h, BitVec.toInt_eq_toNat_cond] <;> split <;> omega

theorem leBytes_length (n : Nat) (v : Word) : (leBytes n v).length = n := by simp [leBytes]

/-- Byte `k` of the little-endian bytes of a value. -/
theorem leBytes_getElem_toNat (n : Nat) (v : Word) (k : Nat) (hk : k < (leBytes n v).length) :
    ((leBytes n v)[k]).toNat = v.toNat / 256 ^ k % 256 := by
  have h256 : (256 : Nat) ^ k = 2 ^ (8 * k) := by
    rw [show (256 : Nat) = 2 ^ 8 by norm_num, ← Nat.pow_mul]
  simp [leBytes, BitVec.extractLsb', h256, Nat.shiftRight_eq_div_pow]

/-! ## One access -/

theorem AccessMaps.length {s : State} {k : AccessKind} {va : Word} {n : Nat} {pas : List Nat}
    (h : AccessMaps s k va n pas) : pas.length = n := by
  rcases h with ⟨_, pa, _, _, rfl⟩ | ⟨_, _, _, h, _⟩
  · simp
  · exact h

/-- What translation and the map depend on. -/
structure SameMaps (s t : State) : Prop where
  cfg : t.cfg = s.cfg
  priv : t.priv = s.priv
  mprv : t.mstatus.mprv = s.mstatus.mprv
  mpp : t.mstatus.mpp = s.mstatus.mpp
  xlateOn : t.xlateOn = s.xlateOn
  tlb : t.tlb = s.tlb
  pageMap : t.pageMap = s.pageMap
  asid : t.asid = s.asid

theorem SameMaps.translate {s t : State} (h : SameMaps s t) (k : AccessKind) (v : Word) :
    translate t (dataPriv t) k v = translate s (dataPriv s) k v := by
  have e1 : dataPriv t = dataPriv s := by simp [dataPriv, h.priv, h.mprv, h.mpp]
  have : entryMatches t v = entryMatches s v := by funext e; simp [entryMatches, h.cfg, h.asid]
  rw [e1]
  unfold Machine.translate translated lookupEntry
  simp only [h.cfg, h.xlateOn, h.tlb, h.pageMap, this]

theorem SameMaps.resolvePart {s t : State} (h : SameMaps s t) (k : AccessKind) (p : Part) :
    resolvePart t k p = resolvePart s k p := by
  unfold Machine.resolvePart resolve
  rw [h.translate, h.cfg]

theorem StoresOnly.sameMaps {s t : State} (h : StoresOnly s t) : SameMaps s t := by
  constructor <;> rw [h.form]

/-- What translations depend on is all there without the storage. -/
theorem SameMaps.of_control {s t : State} (h : control t = control s) : SameMaps s t := by
  have e1 := congrArg (fun u : State => (u.cfg, u.priv, u.mstatus, u.xlateOn)) h
  have e2 := congrArg (fun u : State => (u.tlb, u.pageMap, u.asid)) h
  change (t.cfg, t.priv, t.mstatus, t.xlateOn) = (s.cfg, s.priv, s.mstatus, s.xlateOn) at e1
  change (t.tlb, t.pageMap, t.asid) = (s.tlb, s.pageMap, s.asid) at e2
  simp only [Prod.mk.injEq] at e1 e2
  exact ⟨e1.1, e1.2.1, by rw [e1.2.2.1], by rw [e1.2.2.1], e1.2.2.2, e2.1, e2.2.1, e2.2.2⟩

/-- A state whose translation is the same, and with as quiet inputs, has the same accesses. -/
theorem AccessMaps.congr {s t : State} {k : AccessKind} {va : Word} {n : Nat} {pas : List Nat}
    (hm : SameMaps s t) (hi : t.inter = s.inter) (h : AccessMaps s k va n pas) :
    AccessMaps t k va n pas := by
  have e3 : ∀ v j, byteVa t v j = byteVa s v j := by intro v j; simp [byteVa, hm.cfg]
  unfold AccessMaps at h ⊢
  simp only [hm.translate, e3, hm.cfg, hi]
  exact h

/-! ## Orders -/

/-- An order leaves every element there. -/
theorem arrange_perm {α : Type} (o : List Nat) (l : List α) : (arrange o l).Perm l := by
  induction o generalizing l with
  | nil => exact .refl l
  | cons i is ih =>
    unfold arrange
    cases h : l[i]? with
    | none => exact ih l
    | some a =>
      have hi : i < l.length := by
        by_contra hc
        rw [List.getElem?_eq_none (by omega)] at h
        cases h
      have ha : a = l[i] := by rw [List.getElem?_eq_getElem hi] at h; exact (Option.some.inj h).symm
      refine (List.Perm.cons a (ih _)).trans ?_
      rw [List.eraseIdx_eq_take_drop_succ]
      refine List.perm_middle.symm.trans ?_
      rw [ha, ← List.drop_eq_getElem_cons hi, List.take_append_drop]

/-! ## Parts -/

theorem mem_allParts {s : State} {qs : List Req} {p : Part} :
    p ∈ allParts s qs ↔ ∃ j q, qs[j]? = some q ∧ p ∈ partsOf s q j := by
  unfold allParts
  rw [List.mem_flatMap]
  constructor
  · rintro ⟨⟨q, j⟩, h1, h2⟩
    exact ⟨j, q, List.mem_zipIdx_iff_getElem?.1 h1, h2⟩
  · rintro ⟨j, q, h1, h2⟩
    exact ⟨(q, j), List.mem_zipIdx_iff_getElem?.2 h1, h2⟩

theorem partsOf_req {s : State} {q : Req} {j : Nat} {p : Part} (h : p ∈ partsOf s q j) :
    p.req = j ∧ p.access = q.va := by
  unfold partsOf at h
  split at h
  · rw [List.mem_singleton.1 h]; exact ⟨rfl, rfl⟩
  · split at h
    · rw [List.mem_singleton.1 h]; exact ⟨rfl, rfl⟩
    · obtain ⟨k, _, rfl⟩ := List.mem_map.1 h; exact ⟨rfl, rfl⟩

/-- An access that raises nothing: each part has an address, and its bytes are those of the access from its
offset on; each byte of the access belongs to one part alone. -/
theorem partsOf_of_maps {s : State} {k : AccessKind} {q : Req} {j : Nat} {pas : List Nat}
    (h : AccessMaps s k q.va q.n pas) :
    (∀ p ∈ partsOf s q j, ∃ pa, resolvePart s k p = .ok pa ∧
      (List.range p.n).map (pa + ·) = (pas.drop p.off).take p.n ∧
      leBytes p.n p.value = ((leBytes q.n q.value).drop p.off).take p.n) ∧
    (∀ i < q.n, ∃ p ∈ partsOf s q j, p.off ≤ i ∧ i < p.off + p.n ∧
      ∀ p' ∈ partsOf s q j, p'.off ≤ i → i < p'.off + p'.n → p' = p) ∧
    (partsOf s q j).flatMap (fun p => ((pas.drop p.off).take p.n).zip (((leBytes q.n q.value).drop p.off).take p.n))
      = pas.zip (leBytes q.n q.value) := by
  have hlen := h.length
  rcases h with ⟨ha, pa, ht, hok, rfl⟩ | ⟨ha, hm, _, hl, hall⟩
  · have e : partsOf s q j = [⟨j, q.va, 0, q.va, q.n, q.value, false⟩] := by simp [partsOf, ha]
    rw [e]
    refine ⟨?_, fun i hi => ⟨_, List.mem_singleton.2 rfl, by simp, by simpa using hi, ?_⟩, ?_⟩
    · intro p hp
      rw [List.mem_singleton.1 hp]
      exact ⟨pa, by simp [resolvePart, resolve, ht, hok], by simp [List.take_of_length_le],
        by simp [List.take_of_length_le, leBytes_length]⟩
    · intro p' hp' _ _; exact List.mem_singleton.1 hp'
    · simp [List.take_of_length_le, leBytes_length]
  · have e : partsOf s q j = (List.range q.n).map fun i =>
        ⟨j, q.va, i, byteVa s q.va i, 1, q.value >>> (8 * i), false⟩ := by simp [partsOf, ha, hm]
    rw [e]
    refine ⟨?_, fun i hi => ⟨_, List.mem_map.2 ⟨i, List.mem_range.2 hi, rfl⟩, le_refl _, by simp, ?_⟩, ?_⟩
    · intro p hp
      obtain ⟨i, hi, rfl⟩ := List.mem_map.1 hp
      have hi := List.mem_range.1 hi
      have hi' : i < pas.length := by omega
      obtain ⟨h1, h2⟩ := hall i hi'
      refine ⟨pas[i], by simp [resolvePart, resolve, h1, h2], ?_, ?_⟩
      · rw [List.drop_eq_getElem_cons hi']
        rfl
      · have hb : i < (leBytes q.n q.value).length := by rw [leBytes_length]; exact hi
        simp only [List.drop_eq_getElem_cons hb, List.take_succ_cons, List.take_zero]
        simp only [leBytes, List.getElem_map, List.getElem_range, List.range_one, List.map_cons,
          List.map_nil, Nat.mul_zero, List.cons.injEq, and_true]
        apply BitVec.eq_of_toNat_eq
        simp [BitVec.extractLsb', Nat.shiftRight_eq_div_pow]
    · intro p' hp' h1 h2
      obtain ⟨i', _, rfl⟩ := List.mem_map.1 hp'
      have : i' = i := by dsimp only at h1 h2; omega
      rw [this]
    · rw [List.flatMap_map]
      have key : ∀ (n : Nat) (as : List Nat) (bs : List Byte), as.length = n → bs.length = n →
          (List.range n).flatMap (fun i => ((as.drop i).take 1).zip ((bs.drop i).take 1)) = as.zip bs := by
        intro n as bs h1 h2
        apply List.ext_getElem?
        intro i
        have hone : ∀ i < n, ((as.drop i).take 1).zip ((bs.drop i).take 1) =
            [(as.zip bs).getD i (0, 0)] := by
          intro i hi
          rw [List.drop_eq_getElem_cons (by omega : i < as.length),
            List.drop_eq_getElem_cons (by omega : i < bs.length)]
          simp only [List.take_succ_cons, List.take_zero, List.zip_cons_cons, List.zip_nil_left]
          simp [List.getD_eq_getElem?_getD, h1, h2, hi]
        have : (List.range n).flatMap (fun i => ((as.drop i).take 1).zip ((bs.drop i).take 1)) =
            (List.range n).map fun i => (as.zip bs).getD i (0, 0) := by
          rw [← List.flatMap_pure_eq_map]
          exact List.flatMap_congr fun i hi => hone i (List.mem_range.1 hi)
        rw [this, List.getElem?_map]
        by_cases hi : i < n
        · rw [List.getElem?_range hi]
          have : i < (as.zip bs).length := by simp [h1, h2, hi]
          simp [List.getD_eq_getElem?_getD, List.getElem?_eq_getElem this]
        · rw [List.getElem?_eq_none (by simp; omega), List.getElem?_eq_none (by simp; omega)]
          rfl
      exact key q.n pas _ hl (leBytes_length _ _)

/-- The parts of an access that is performed as a whole and raises an exception. -/
theorem partsOf_of_raises {s : State} {k : AccessKind} {q : Req} {code : Nat} (j : Nat)
    (h : AccessRaises s k q.va q.n code) :
    ∃ p, partsOf s q j = [p] ∧ p.req = j ∧ resolvePart s k p = .error ⟨code, q.va, q.va⟩ := by
  rcases h with ⟨ha, hm, rfl⟩ | ⟨ha, ht, rfl⟩ | ⟨ha, ⟨pa, ht, hok⟩, rfl⟩
  · exact ⟨_, by simp [partsOf, ha, hm]; rfl, rfl, rfl⟩
  · exact ⟨_, by simp [partsOf, ha]; rfl, rfl, by simp [resolvePart, resolve, ht]⟩
  · exact ⟨_, by simp [partsOf, ha]; rfl, rfl, by simp [resolvePart, resolve, ht, hok]⟩

/-! ## Performing them -/

/-- No other agent acts between the parts: the inputs have no gaps, or there is one part. -/
def Quiet (s : State) (qs : List Req) : Prop := s.inter.gaps = [] ∨ (allParts s qs).length ≤ 1

theorem performParts_quiet (f : State → Part → Except AccessFault (List Byte) × State) (s : State)
    (gaps : List (List HartAct)) (ps : List Part) (h : (∀ g ∈ gaps, g = []) ∨ ps.length ≤ 1 ∧ gaps.headD [] = []) :
    performParts f s gaps ps = performParts f s [] ps := by
  induction ps generalizing s gaps with
  | nil => rfl
  | cons p ps ih =>
    have hd : gaps.headD [] = [] := by
      rcases h with h | h
      · cases gaps with
        | nil => rfl
        | cons g gs => exact h g List.mem_cons_self
      · exact h.2
    have ht : (∀ g ∈ gaps.tail, g = []) ∨ ps.length ≤ 1 ∧ gaps.tail.headD [] = [] ∨ ps = [] := by
      rcases h with h | h
      · exact .inl fun g hg => h g (List.mem_of_mem_tail hg)
      · exact .inr (.inr (List.length_eq_zero_iff.1 (by simpa using h.1)))
    simp only [performParts, hd, List.headD_nil, List.tail_nil, applyActs]
    rcases ht with ht | ht | rfl
    · rw [ih _ _ (.inl ht)]
    · rw [ih _ _ (.inr ht)]
    · rfl

theorem performAccesses_quiet (f : State → Part → Except AccessFault (List Byte) × State) (s : State)
    (qs : List Req) (h : Quiet s qs) :
    performAccesses f s qs = performParts f s [] (arrange s.inter.order (allParts s qs)) := by
  unfold performAccesses
  apply performParts_quiet
  rcases h with h | h
  · left; simp [h]
  · right; exact ⟨by rw [(arrange_perm _ _).length_eq]; exact h, rfl⟩

/-- What is kept by the acts of agents and by each part is kept by all of them. -/
theorem performParts_induct (f : State → Part → Except AccessFault (List Byte) × State)
    (P : State → Prop) (hA : ∀ s as, P s → P (applyActs s as)) (hf : ∀ s p, P s → P (f s p).2)
    (s : State) (gaps : List (List HartAct)) (ps : List Part) (h : P s) :
    P (performParts f s gaps ps).2 := by
  induction ps generalizing s gaps with
  | nil => exact h
  | cons p ps ih => exact ih _ _ (hf _ _ (hA _ _ h))

theorem performParts_read (s : State) (ps : List Part) :
    performParts readPart s [] ps = (ps.map fun p => (p, (readPart s p).1), s) := by
  have hr : ∀ p, (readPart s p).2 = s := by intro p; unfold readPart; split <;> rfl
  induction ps with
  | nil => rfl
  | cons p ps ih => simp only [performParts, List.headD_nil, applyActs, hr, List.tail_nil, ih, List.map_cons]

/-- The cells that a part of a store writes. -/
def cellsOf (write : Part → Bool) (s : State) (p : Part) : List (Nat × Byte) :=
  match resolvePart s .store p with
  | .ok pa => if write p then partCells p pa else []
  | .error _ => []

/-- What came of a part of a store. -/
def outcomeOf (s : State) (p : Part) : Except AccessFault (List Byte) :=
  (resolvePart s .store p).map fun _ => []

theorem writePart_eq (write : Part → Bool) (s : State) (p : Part) :
    writePart write s p = (outcomeOf s p, dataSetAll s (cellsOf write s p)) := by
  unfold writePart outcomeOf cellsOf
  cases resolvePart s .store p with
  | ok pa => simp only [Except.map]; split <;> rfl
  | error e => rfl

theorem dataSetAll_append (s : State) (l m : List (Nat × Byte)) :
    dataSetAll (dataSetAll s l) m = dataSetAll s (l ++ m) := by
  induction l generalizing s with
  | nil => rfl
  | cons c l ih => exact ih _

theorem performParts_write (write : Part → Bool) (s : State) (ps : List Part) :
    performParts (writePart write) s [] ps =
      (ps.map fun p => (p, outcomeOf s p), dataSetAll s (ps.flatMap (cellsOf write s))) := by
  induction ps generalizing s with
  | nil => rfl
  | cons p ps ih =>
    have hm := (storesOnly_dataSetAll s (cellsOf write s p)).sameMaps
    have e1 : ∀ q, outcomeOf (dataSetAll s (cellsOf write s p)) q = outcomeOf s q := by
      intro q; simp [outcomeOf, hm.resolvePart]
    have e2 : ∀ q, cellsOf write (dataSetAll s (cellsOf write s p)) q = cellsOf write s q := by
      intro q; unfold cellsOf at hm ⊢; rw [hm.resolvePart]
    simp only [performParts, List.headD_nil, applyActs, writePart_eq, List.tail_nil, ih, e1,
      dataSetAll_append, List.map_cons, List.flatMap_cons, funext e2]

/-! ## The exception to report -/

theorem lowerFault_cases (a b : AccessFault) : lowerFault a b = a ∨ lowerFault a b = b := by
  unfold lowerFault; split <;> simp

theorem lowerFault_le (a b : AccessFault) : (lowerFault a b).access.toNat ≤ a.access.toNat ∧
    (lowerFault a b).access.toNat ≤ b.access.toNat := by
  unfold lowerFault; split <;> omega

/-- No exception is reported exactly when no part raises one. -/
theorem lowestFault_eq_none {outs : List PartOutcome} :
    lowestFault outs = none ↔ ∀ o ∈ outs, ∀ e, o.2 ≠ .error e := by
  induction outs with
  | nil => simp [lowestFault]
  | cons o outs ih =>
    obtain ⟨p, r⟩ := o
    cases r with
    | ok bs => simp [lowestFault, ih]
    | error e => simp only [lowestFault]; constructor
                 · intro h; split at h <;> cases h
                 · intro h; exact absurd rfl (h (p, .error e) List.mem_cons_self e)

/-- The exception reported is one that a part raises, and none is at a lower access. -/
theorem lowestFault_eq_some {outs : List PartOutcome} {e : AccessFault} (h : lowestFault outs = some e) :
    (∃ p, (p, .error e) ∈ outs) ∧
      ∀ p e', (p, .error e') ∈ outs → e.access.toNat ≤ e'.access.toNat := by
  induction outs generalizing e with
  | nil => cases h
  | cons o outs ih =>
    obtain ⟨p, r⟩ := o
    cases r with
    | ok bs =>
      obtain ⟨⟨q, hq⟩, hm⟩ := ih h
      refine ⟨⟨q, List.mem_cons_of_mem _ hq⟩, fun q' e' hq' => ?_⟩
      rcases List.mem_cons.1 hq' with hc | hq'
      · cases hc
      · exact hm q' e' hq'
    | error e0 =>
      simp only [lowestFault] at h
      cases hr : lowestFault outs with
      | none =>
        rw [hr] at h
        cases h
        refine ⟨⟨p, List.mem_cons_self⟩, fun q' e' hq' => ?_⟩
        rcases List.mem_cons.1 hq' with hc | hq'
        · cases hc; exact le_refl _
        · exact absurd rfl (lowestFault_eq_none.1 hr _ hq' e')
      | some e1 =>
        rw [hr] at h
        cases h
        obtain ⟨⟨q, hq⟩, hm⟩ := ih hr
        refine ⟨?_, fun q' e' hq' => ?_⟩
        · rcases lowerFault_cases e0 e1 with h | h <;> rw [h]
          · exact ⟨p, List.mem_cons_self⟩
          · exact ⟨q, List.mem_cons_of_mem _ hq⟩
        · rcases List.mem_cons.1 hq' with hc | hq'
          · cases hc; exact (lowerFault_le _ _).1
          · exact le_trans (lowerFault_le _ _).2 (hm q' e' hq')

/-! ## Loads -/

theorem loadedByte_of_unique {outs : List PartOutcome} {j k : Nat} {p : Part} {bs : List Byte}
    (hm : (p, .ok bs) ∈ outs) (hc : p.req = j ∧ p.off ≤ k ∧ k < p.off + p.n)
    (hu : ∀ o ∈ outs, o.1.req = j → o.1.off ≤ k → k < o.1.off + o.1.n → o = (p, .ok bs)) :
    loadedByte outs j k = bs.getD (k - p.off) 0 := by
  unfold loadedByte
  cases hf : outs.find? fun o => o.1.req == j && decide (o.1.off ≤ k) && decide (k < o.1.off + o.1.n) with
  | none =>
    have := List.find?_eq_none.1 hf _ hm
    simp [hc.1, hc.2.1, hc.2.2] at this
  | some o =>
    have h1 := List.find?_some hf
    simp only [Bool.and_eq_true, beq_iff_eq, decide_eq_true_eq] at h1
    have := hu o (List.mem_of_find?_eq_some hf) h1.1.1 h1.1.2 h1.2
    rw [this]

/-- The loads of an instruction when none raises an exception: every value, and the state as it was. -/
theorem loadAll_of_maps {s : State} (ps : List (Req × List Nat)) (hq : Quiet s (ps.map Prod.fst))
    (h : ∀ p ∈ ps, AccessMaps s .load p.1.va p.1.n p.2) :
    loadAll s (ps.map Prod.fst) = (.ok (ps.map fun p => leValue (p.2.map (dataByte s))), s) := by
  set qs := ps.map Prod.fst with hqs
  set outs : List PartOutcome :=
    (arrange s.inter.order (allParts s qs)).map fun p => (p, (readPart s p).1) with houts
  have hmem : ∀ p, p ∈ arrange s.inter.order (allParts s qs) ↔ p ∈ allParts s qs :=
    fun p => (arrange_perm _ _).mem_iff
  have hpart : ∀ j (hj : j < ps.length), qs[j]? = some ps[j].1 := by
    intro j hj; simp [hqs, hj]
  have hok : ∀ p ∈ allParts s qs, ∃ pa, resolvePart s .load p = .ok pa := by
    intro p hp
    obtain ⟨j, q, hj, hp⟩ := mem_allParts.1 hp
    have hlt : j < ps.length := by
      by_contra hc; rw [List.getElem?_eq_none (by simp [hqs]; omega)] at hj; cases hj
    rw [hpart j hlt] at hj; cases hj
    obtain ⟨pa, h1, _⟩ := (partsOf_of_maps (h _ (List.getElem_mem hlt))).1 p hp
    exact ⟨pa, h1⟩
  have hnone : lowestFault outs = none := by
    rw [lowestFault_eq_none]
    intro o ho e
    obtain ⟨p, hp, rfl⟩ := List.mem_map.1 ho
    obtain ⟨pa, h1⟩ := hok p ((hmem p).1 hp)
    simp [readPart, h1]
  have hval : ∀ j (hj : j < ps.length), loadedValue outs j ps[j].1.n = leValue (ps[j].2.map (dataByte s)) := by
    intro j hj
    have hmaps := h _ (List.getElem_mem hj)
    have hlen := hmaps.length
    unfold loadedValue
    congr 1
    apply List.ext_getElem
    · simp [hlen]
    intro k hk1 hk2
    simp only [List.length_map, List.length_range] at hk1
    rw [List.getElem_map, List.getElem_range, List.getElem_map]
    obtain ⟨hp1, hp2, _⟩ := partsOf_of_maps (j := j) hmaps
    obtain ⟨p, hp, ho1, ho2, hu⟩ := hp2 k hk1
    obtain ⟨pa, hr, hpa, _⟩ := hp1 p hp
    have hpm : p ∈ allParts s qs := mem_allParts.2 ⟨j, _, hpart j hj, hp⟩
    have hread : (readPart s p).1 = .ok ((List.range p.n).map fun i => dataByte s (pa + i)) := by
      simp [readPart, hr]
    have hin : ((p, .ok ((List.range p.n).map fun i => dataByte s (pa + i))) : PartOutcome) ∈ outs :=
      List.mem_map.2 ⟨p, (hmem p).2 hpm, by rw [hread]⟩
    rw [loadedByte_of_unique hin ⟨(partsOf_req hp).1, ho1, ho2⟩ ?_]
    · have hi : k - p.off < p.n := by omega
      have e := congrArg (fun l => l[k - p.off]?) hpa
      simp only [List.getElem?_map, List.getElem?_range hi, Option.map_some, List.getElem?_take,
        hi, if_true, List.getElem?_drop, show p.off + (k - p.off) = k by omega] at e
      rw [List.getElem?_eq_getElem (by omega : k < ps[j].2.length)] at e
      have e' := Option.some.inj e
      simp [List.getD_eq_getElem?_getD, List.getElem?_map, List.getElem?_range hi, e']
    · intro o ho hr1 hr2 hr3
      obtain ⟨p', hp', rfl⟩ := List.mem_map.1 ho
      obtain ⟨j', q', hj', hp'⟩ := mem_allParts.1 ((hmem p').1 hp')
      have : j' = j := by rw [← (partsOf_req hp').1]; exact hr1
      subst this
      rw [hpart j' hj] at hj'; cases hj'
      rw [hu p' hp' hr2 hr3, hread]
  unfold loadAll
  simp only [performAccesses_quiet _ _ _ hq, performParts_read]
  rw [← houts, hnone]
  simp only [Prod.mk.injEq, Except.ok.injEq, and_true]
  apply List.ext_getElem
  · simp [hqs]
  intro j hj1 hj2
  simp only [List.length_map, List.length_zipIdx, hqs] at hj1
  simp only [List.getElem_map, List.getElem_zipIdx, hqs, Nat.zero_add]
  exact hval j hj1

/-- A loaded value as a number. -/
theorem leValue_loaded (s : State) (pas : List Nat) (n : Nat) (hl : pas.length = n) (hn : n ≤ 8) :
    (leValue (pas.map (dataByte s))).toNat = loadedNat s pas ∧
      (leValue (pas.map (dataByte s))).toNat < 256 ^ n := by
  have h := leValue_toNat (pas.map (dataByte s)) (by simp; omega)
  rw [loadedNat_eq]
  exact ⟨h.1, by simpa [hl] using h.2⟩

/-! ## Stores -/

/-- An access that raises nothing and stands alone is quiet. -/
theorem quiet_single {s : State} {k : AccessKind} {q : Req} {pas : List Nat}
    (h : AccessMaps s k q.va q.n pas) : Quiet s [q] := by
  rcases h with ⟨ha, _⟩ | ⟨_, _, hg, _⟩
  · right; simp [allParts, partsOf, ha]
  · left; exact hg

theorem quiet_raises {s : State} {k : AccessKind} {q : Req} {code : Nat}
    (h : AccessRaises s k q.va q.n code) : Quiet s [q] := by
  obtain ⟨p, hp, _⟩ := partsOf_of_raises 0 h
  right; simp [allParts, hp]

/-- The stores of an instruction when none raises an exception: all their cells are written, in an order of
the inputs. -/
theorem storeAll_of_maps {s : State} (ps : List (Req × List Nat)) (hq : Quiet s (ps.map Prod.fst))
    (h : ∀ p ∈ ps, AccessMaps s .store p.1.va p.1.n p.2) :
    ∃ cells, storeAll s (ps.map Prod.fst) = (none, dataSetAll s cells) ∧
      cells.Perm (ps.flatMap fun p => p.2.zip (leBytes p.1.n p.1.value)) := by
  set qs := ps.map Prod.fst with hqs
  have hpart : ∀ j (hj : j < ps.length), qs[j]? = some ps[j].1 := by
    intro j hj; simp [hqs, hj]
  have hnone : lowestFault ((arrange s.inter.order (allParts s qs)).map fun p => (p, outcomeOf s p)) = none := by
    rw [lowestFault_eq_none]
    intro o ho e
    obtain ⟨p, hp, rfl⟩ := List.mem_map.1 ho
    obtain ⟨j, q, hj, hp⟩ := mem_allParts.1 ((arrange_perm _ _).mem_iff.1 hp)
    have hlt : j < ps.length := by
      by_contra hc; rw [List.getElem?_eq_none (by simp [hqs]; omega)] at hj; cases hj
    rw [hpart j hlt] at hj; cases hj
    obtain ⟨pa, h1, _⟩ := (partsOf_of_maps (h _ (List.getElem_mem hlt))).1 p hp
    simp [outcomeOf, h1, Except.map]
  refine ⟨(arrange s.inter.order (allParts s qs)).flatMap (cellsOf (fun _ => true) s), ?_, ?_⟩
  · unfold storeAll
    simp only [performAccesses_quiet _ _ _ hq, performParts_write, hnone]
  · refine ((arrange_perm _ _).flatMap_right _).trans ?_
    unfold allParts
    rw [List.flatMap_assoc, hqs]
    have key : ∀ (l : List (Req × List Nat)) (n : Nat),
        (∀ p ∈ l, AccessMaps s .store p.1.va p.1.n p.2) →
        ((l.map Prod.fst).zipIdx n).flatMap (fun p => (partsOf s p.1 p.2).flatMap (cellsOf (fun _ => true) s)) =
          l.flatMap fun p => p.2.zip (leBytes p.1.n p.1.value) := by
      intro l
      induction l with
      | nil => intro n _; rfl
      | cons p l ih =>
        intro n hl
        simp only [List.map_cons, List.zipIdx_cons, List.flatMap_cons]
        rw [ih (n + 1) fun q hq => hl q (List.mem_cons_of_mem _ hq)]
        congr 1
        obtain ⟨h1, _, h3⟩ := partsOf_of_maps (j := n) (hl p List.mem_cons_self)
        rw [← h3]
        refine List.flatMap_congr fun x hx => ?_
        obtain ⟨pa, hr, hpa, hb⟩ := h1 x hx
        simp only [cellsOf, hr, if_true, partCells, hpa, hb]
    rw [key ps 0 h]

/-- The addresses of the cells of the stores. -/
theorem storeCells_fst (ps : List (Req × List Nat)) (h : ∀ p ∈ ps, p.2.length = p.1.n) :
    (ps.flatMap fun p => p.2.zip (leBytes p.1.n p.1.value)).map Prod.fst = ps.flatMap Prod.snd := by
  induction ps with
  | nil => rfl
  | cons p ps ih =>
    simp only [List.flatMap_cons, List.map_append, ih fun q hq => h q (List.mem_cons_of_mem _ hq)]
    rw [List.map_fst_zip (by rw [leBytes_length, h p List.mem_cons_self])]

/-- After the stores of one instruction to addresses that are all different, each access holds its value. -/
theorem holdsBytes_dataSetAll {s : State} (hs : StorageInv s) (ps : List (Req × List Nat))
    (cells : List (Nat × Byte))
    (hc : cells.Perm (ps.flatMap fun p => p.2.zip (leBytes p.1.n p.1.value)))
    (hl : ∀ p ∈ ps, p.2.length = p.1.n) (hd : (ps.flatMap Prod.snd).Nodup) (p : Req × List Nat)
    (hp : p ∈ ps) : HoldsBytes (dataSetAll s cells) p.2 p.1.value := by
  intro k hk
  have hk' : k < (leBytes p.1.n p.1.value).length := by rw [leBytes_length, ← hl p hp]; exact hk
  rw [← leBytes_getElem_toNat p.1.n p.1.value k hk']
  congr 1
  apply dataByte_dataSetAll_of_mem s _ _ _ hs
  · rw [(hc.map Prod.fst).nodup_iff, storeCells_fst ps hl]; exact hd
  · rw [hc.mem_iff]
    refine List.mem_flatMap.2 ⟨p, hp, ?_⟩
    rw [List.mem_iff_getElem]
    exact ⟨k, by simp [leBytes_length] at hk' ⊢; omega, by simp⟩

theorem HoldsBytes.congr {s t : State} {pas : List Nat} {v : Word} (h : HoldsBytes s pas v)
    (hb : ∀ a, dataByte t a = dataByte s a) : HoldsBytes t pas v := by
  intro k hk; rw [hb]; exact h k hk

/-! ## Codes -/

theorem resolvePart_code {s : State} {k : AccessKind} {p : Part} {e : AccessFault}
    (h : resolvePart s k p = .error e) :
    e.code ∈ [pageFaultCode k, accessFaultCode k, misalignedCode k] := by
  unfold resolvePart resolve at h
  split at h
  · cases h; simp
  · split at h
    · cases h; simp
    · split at h
      · cases h
      · cases h; simp

/-- The exceptions among what came of parts have the codes of their kind of access. -/
theorem performParts_code {k : AccessKind} {f : State → Part → Except AccessFault (List Byte) × State}
    (hf : ∀ s p e, (f s p).1 = .error e → resolvePart s k p = .error e) (s : State)
    (gaps : List (List HartAct)) (ps : List Part) {p : Part} {e : AccessFault}
    (h : (p, .error e) ∈ (performParts f s gaps ps).1) :
    e.code ∈ [pageFaultCode k, accessFaultCode k, misalignedCode k] := by
  induction ps generalizing s gaps with
  | nil => cases h
  | cons q ps ih =>
    rcases List.mem_cons.1 h with h | h
    · have := congrArg Prod.snd h
      exact resolvePart_code (hf _ _ _ this.symm)
    · exact ih _ _ h

theorem readPart_error {s : State} {p : Part} {e : AccessFault} (h : (readPart s p).1 = .error e) :
    resolvePart s .load p = .error e := by
  unfold readPart at h; split at h
  · cases h
  · next h' => cases h; exact h'

theorem writePart_error {w : Part → Bool} {s : State} {p : Part} {e : AccessFault}
    (h : (writePart w s p).1 = .error e) : resolvePart s .store p = .error e := by
  unfold writePart at h; split at h
  · cases h
  · next h' => cases h; exact h'

/-- The loads of an instruction raise a misaligned exception, an access fault or a page fault. -/
theorem loadAll_code {s : State} {qs : List Req} {e : AccessFault} (h : (loadAll s qs).1 = .error e) :
    e.code ∈ [13, 5, 4] := by
  unfold loadAll at h
  dsimp only at h
  split at h
  · cases h
  · next e' he =>
    cases h
    obtain ⟨⟨p, hp⟩, _⟩ := lowestFault_eq_some he
    exact performParts_code (k := .load) (fun _ _ _ => readPart_error) _ _ _ hp

theorem storeAll_code {s : State} {qs : List Req} {e : AccessFault} (h : (storeAll s qs).1 = some e) :
    e.code ∈ [15, 7, 6] := by
  unfold storeAll at h
  dsimp only at h
  split at h
  · cases h
  · next e' he =>
    cases h
    obtain ⟨⟨p, hp⟩, _⟩ := lowestFault_eq_some he
    exact performParts_code (k := .store) (fun _ _ _ => writePart_error) _ _ _ hp

/-! ## Frames of loads and stores, whatever happens between their parts -/

theorem agentsOnly_performParts {f : State → Part → Except AccessFault (List Byte) × State}
    (hf : ∀ s p, AgentsOnly s (f s p).2) (s : State) (gaps : List (List HartAct)) (ps : List Part) :
    AgentsOnly s (performParts f s gaps ps).2 :=
  performParts_induct f (AgentsOnly s) (fun _ as h => h.trans (agentsOnly_applyActs _ as))
    (fun _ p h => h.trans (hf _ p)) s gaps ps (.refl s)

theorem agentsOnly_readPart (s : State) (p : Part) : AgentsOnly s (readPart s p).2 := by
  unfold readPart; split <;> exact .refl s

theorem agentsOnly_writePart (w : Part → Bool) (s : State) (p : Part) : AgentsOnly s (writePart w s p).2 := by
  rw [writePart_eq]; exact (storesOnly_dataSetAll s _).agents

/-- The loads of an instruction change nothing themselves: what has changed, agents did. -/
theorem agentsOnly_loadAll (s : State) (qs : List Req) : AgentsOnly s (loadAll s qs).2 := by
  unfold loadAll
  dsimp only
  split <;> exact agentsOnly_performParts agentsOnly_readPart s _ _

/-- The stores of an instruction change storage, and the count of free values where one raises an exception. -/
theorem agentsOnly_storeAll (s : State) (qs : List Req) :
    AgentsOnly s { (storeAll s qs).2 with freeCount := s.freeCount } ∧
    ((storeAll s qs).1 = none → (storeAll s qs).2.freeCount = s.freeCount) := by
  have hp (w : Part → Bool) := agentsOnly_performParts (agentsOnly_writePart w) s
    ([] :: s.inter.gaps) (arrange s.inter.order (allParts s qs))
  have fix : ∀ {u : State}, AgentsOnly s u → ∀ n, AgentsOnly s { ({ u with freeCount := n } : State) with freeCount := s.freeCount } := by
    intro u hu n
    have e : u.freeCount = s.freeCount := by have := congrArg State.freeCount hu.rest; exact this
    refine ⟨?_, hu.others⟩
    have := hu.rest
    rcases s with ⟨⟨⟩, _⟩; rcases u with ⟨⟨⟩, _⟩; simp_all
  unfold storeAll
  dsimp only
  split
  · have h := hp fun _ => true
    exact ⟨fix h _, fun _ => by have := congrArg State.freeCount h.rest; exact this⟩
  · refine ⟨?_, fun h => by cases h⟩
    unfold partialStore
    dsimp only
    split
    · exact fix (hp _) _
    · exact fix (hp _) _

/-- Loads without gaps leave the state as it was. -/
theorem loadAll_quiet (s : State) (qs : List Req) (h : Quiet s qs) : (loadAll s qs).2 = s := by
  unfold loadAll
  simp only [performAccesses_quiet _ _ _ h, performParts_read]
  split <;> rfl

/-- Stores without gaps change storage alone. -/
theorem storeAll_quiet (s : State) (qs : List Req) (h : Quiet s qs) :
    StoresOnly s { (storeAll s qs).2 with freeCount := s.freeCount } := by
  have fix : ∀ {u : State}, StoresOnly s u → ∀ n,
      StoresOnly s { ({ u with freeCount := n } : State) with freeCount := s.freeCount } := by
    intro u hu n
    refine ⟨?_, hu.others.rest, hu.others.incoherent⟩
    have := hu.rest
    rcases s with ⟨⟨⟩, _⟩; rcases u with ⟨⟨⟩, _⟩; simp_all
  unfold storeAll partialStore
  simp only [performAccesses_quiet _ _ _ h, performParts_write]
  split
  · exact fix (storesOnly_dataSetAll s _) _
  · split <;> exact fix (storesOnly_dataSetAll s _) _

/-- A load or a store that raises an exception as a whole, standing alone, does nothing else. -/
theorem loadAll_of_raises {s : State} {q : Req} {code : Nat} (h : AccessRaises s .load q.va q.n code) :
    loadAll s [q] = (.error ⟨code, q.va, q.va⟩, s) := by
  obtain ⟨p, hp, _, hr⟩ := partsOf_of_raises 0 h
  have hall : arrange s.inter.order (allParts s [q]) = [p] := by
    have : allParts s [q] = [p] := by simp [allParts, hp]
    rw [this]; exact List.perm_singleton.1 (arrange_perm _ _)
  unfold loadAll
  simp only [performAccesses_quiet _ _ _ (quiet_raises h), performParts_read, hall]
  simp [readPart, hr, lowestFault]

theorem storeAll_of_raises {s : State} {q : Req} {code : Nat} (h : AccessRaises s .store q.va q.n code) :
    storeAll s [q] = (some ⟨code, q.va, q.va⟩, s) := by
  obtain ⟨p, hp, _, hr⟩ := partsOf_of_raises 0 h
  have hall : arrange s.inter.order (allParts s [q]) = [p] := by
    have : allParts s [q] = [p] := by simp [allParts, hp]
    rw [this]; exact List.perm_singleton.1 (arrange_perm _ _)
  unfold storeAll partialStore
  simp only [performAccesses_quiet _ _ _ (quiet_raises h), performParts_write, hall]
  simp [outcomeOf, cellsOf, hr, lowestFault, Except.map, anyRemain, dataSetAll]

/-- The number that four bytes hold. -/
theorem loadedNat_of_holds {s : State} {pas : List Nat} {v : Word} (hl : pas.length = 4)
    (h : HoldsBytes s pas v) : loadedNat s pas = v.toNat % 2 ^ 32 := by
  match pas, hl with
  | [a, b, c, d], _ =>
    have h0 := h 0 (by simp)
    have h1 := h 1 (by simp)
    have h2 := h 2 (by simp)
    have h3 := h 3 (by simp)
    simp only [List.getElem_cons_zero, List.getElem_cons_succ] at h0 h1 h2 h3
    simp only [loadedNat, List.foldr_cons, List.foldr_nil, h0, h1, h2, h3]
    omega

/-! ## Accesses that raise an exception -/

theorem resolvePart_access {s : State} {k : AccessKind} {p : Part} {e : AccessFault}
    (h : resolvePart s k p = .error e) : e.access = p.access := by
  unfold resolvePart resolve at h
  split at h
  · cases h; rfl
  · split at h
    · cases h; rfl
    · split at h <;> cases h; rfl

/-- The exceptions of an access are those of its parts. -/
theorem raisesAt_iff {s : State} {k : AccessKind} {q : Req} (j : Nat) {code : Nat} {info : Word} :
    RaisesAt s k q.va q.n code info ↔
      ∃ p ∈ partsOf s q j, resolvePart s k p = .error ⟨code, info, q.va⟩ := by
  constructor
  · rintro (⟨h, rfl⟩ | ⟨ha, hm, i, hi, hb, rfl⟩)
    · obtain ⟨p, h1, _, h2⟩ := partsOf_of_raises j h
      exact ⟨p, by rw [h1]; exact List.mem_singleton.2 rfl, h2⟩
    · refine ⟨⟨j, q.va, i, byteVa s q.va i, 1, q.value >>> (8 * i), false⟩, ?_, ?_⟩
      · simp only [partsOf, ha, hm, if_false]
        exact List.mem_map.2 ⟨i, List.mem_range.2 hi, rfl⟩
      · rcases hb with ⟨h1, rfl⟩ | ⟨⟨pa, h1, h2⟩, rfl⟩ <;> simp [resolvePart, resolve, *]
  · rintro ⟨p, hp, hr⟩
    unfold partsOf at hp
    split at hp
    · next ha =>
      rw [List.mem_singleton.1 hp] at hr
      refine .inl ?_
      simp only [resolvePart, resolve, Bool.false_eq_true, if_false] at hr
      split at hr
      · next ht => cases hr; exact ⟨.inr (.inl ⟨ha, ht, rfl⟩), rfl⟩
      · next pa ht =>
        split at hr
        · cases hr
        · next hx => cases hr; exact ⟨.inr (.inr ⟨ha, ⟨pa, ht, by simpa using hx⟩, rfl⟩), rfl⟩
    · next ha =>
      split at hp
      · next hm =>
        rw [List.mem_singleton.1 hp] at hr
        simp only [resolvePart, if_true] at hr
        cases hr
        exact .inl ⟨.inl ⟨ha, hm, rfl⟩, rfl⟩
      · next hm =>
        obtain ⟨i, hi, rfl⟩ := List.mem_map.1 hp
        refine .inr ⟨ha, hm, i, List.mem_range.1 hi, ?_⟩
        simp only [resolvePart, resolve, Bool.false_eq_true, if_false] at hr
        split at hr
        · next ht => cases hr; exact ⟨.inl ⟨ht, rfl⟩, rfl⟩
        · next pa ht =>
          split at hr
          · cases hr
          · next hx => cases hr; exact ⟨.inr ⟨⟨pa, ht, by simpa using hx⟩, rfl⟩, rfl⟩

/-- An access of which nothing raises an exception maps, where no other agent can come between its bytes. -/
theorem maps_or_raises (s : State) (k : AccessKind) (va : Word) (n : Nat) (hg : s.inter.gaps = []) :
    (∃ pas, AccessMaps s k va n pas) ∨ ∃ code info, RaisesAt s k va n code info := by
  by_cases ha : va.toNat % n = 0
  · cases ht : translate s (dataPriv s) k va with
    | none => exact .inr ⟨_, _, .inl ⟨.inr (.inl ⟨ha, ht, rfl⟩), rfl⟩⟩
    | some pa =>
      cases hx : accessible s.cfg pa n k with
      | true => exact .inl ⟨_, .inl ⟨ha, pa, ht, hx, rfl⟩⟩
      | false => exact .inr ⟨_, _, .inl ⟨.inr (.inr ⟨ha, ⟨pa, ht, hx⟩, rfl⟩), rfl⟩⟩
  · cases hm : s.cfg.misaligned with
    | trap => exact .inr ⟨_, _, .inl ⟨.inl ⟨ha, hm, rfl⟩, rfl⟩⟩
    | emulate =>
      by_cases hb : ∃ j < n, ∃ code, ByteRaises s k va j code
      · obtain ⟨j, hj, code, hb⟩ := hb
        exact .inr ⟨code, _, .inr ⟨ha, hm, j, hj, hb, rfl⟩⟩
      · have hall : ∀ j < n, ∃ pa, translate s (dataPriv s) k (byteVa s va j) = some pa ∧
            accessible s.cfg pa 1 k = true := by
          intro j hj
          cases ht : translate s (dataPriv s) k (byteVa s va j) with
          | none => exact absurd ⟨j, hj, _, .inl ⟨ht, rfl⟩⟩ hb
          | some pa =>
            cases hx : accessible s.cfg pa 1 k with
            | true => exact ⟨pa, rfl, hx⟩
            | false => exact absurd ⟨j, hj, _, .inr ⟨⟨pa, ht, hx⟩, rfl⟩⟩ hb
        refine .inl ⟨(List.range n).map fun j => (translate s (dataPriv s) k (byteVa s va j)).getD 0,
          .inr ⟨ha, hm, hg, by simp, fun j hj => ?_⟩⟩
        obtain ⟨pa, h1, h2⟩ := hall j (by simpa using hj)
        simp [h1, h2]

/-- The addresses of a part that has one are touched by its access. -/
theorem touches_of_part {s : State} {k : AccessKind} {q : Req} {j : Nat} {p : Part} {pa a : Nat}
    (hp : p ∈ partsOf s q j) (hr : resolvePart s k p = .ok pa) (h1 : pa ≤ a) (h2 : a < pa + p.n) :
    Touches s k q.va q.n a := by
  have ht : p.bad = false ∧ translate s (dataPriv s) k p.va = some pa := by
    unfold resolvePart resolve at hr
    split at hr
    · cases hr
    · next hb =>
      split at hr
      · cases hr
      · next pa' ht => split at hr <;> cases hr; exact ⟨by simpa using hb, ht⟩
  unfold partsOf at hp
  split at hp
  · next ha =>
    rw [List.mem_singleton.1 hp] at ht h2
    exact .inl ⟨ha, pa, ht.2, h1, h2⟩
  · next ha =>
    split at hp
    · rw [List.mem_singleton.1 hp] at ht; exact absurd ht.1 (by simp)
    · obtain ⟨i, hi, rfl⟩ := List.mem_map.1 hp
      have : pa = a := by dsimp only at h2; omega
      subst this
      exact .inr ⟨ha, i, List.mem_range.1 hi, ht.2⟩

/-- An access that is performed as a whole has one part. -/
theorem partsOf_whole {s : State} {q : Req} (j : Nat)
    (h : q.va.toNat % q.n = 0 ∨ s.cfg.misaligned = .trap) : ∃ p, partsOf s q j = [p] ∧ p.off = 0 := by
  unfold partsOf
  by_cases ha : q.va.toNat % q.n = 0
  · exact ⟨_, by rw [if_pos ha], rfl⟩
  · rcases h with h | h
    · exact absurd h ha
    · exact ⟨_, by rw [if_neg ha, h], rfl⟩

/-- Loads one of which raises an exception report the one at the lowest address. -/
theorem loadAll_raises {s : State} {qs : List Req} (hq : Quiet s qs)
    (hr : ∃ q ∈ qs, ∃ code info, RaisesAt s .load q.va q.n code info) :
    ∃ q ∈ qs, ∃ code info, RaisesAt s .load q.va q.n code info ∧
      (∀ q' ∈ qs, (∃ c i, RaisesAt s .load q'.va q'.n c i) → q.va.toNat ≤ q'.va.toNat) ∧
      loadAll s qs = (.error ⟨code, info, q.va⟩, s) := by
  have hfst : ∀ p, (∀ e, (readPart s p).1 = .error e ↔ resolvePart s .load p = .error e) := by
    intro p e; unfold readPart; split <;> simp_all
  unfold loadAll
  simp only [performAccesses_quiet _ _ _ hq, performParts_read]
  generalize hP : arrange s.inter.order (allParts s qs) = P
  have hmem : ∀ p, p ∈ P ↔ ∃ j q, qs[j]? = some q ∧ p ∈ partsOf s q j := by
    intro p; rw [← hP, (arrange_perm _ _).mem_iff, mem_allParts]
  have hex : ∀ q ∈ qs, ∀ c i, RaisesAt s .load q.va q.n c i →
      ∃ p, (p, Except.error ⟨c, i, q.va⟩) ∈ P.map fun p => (p, (readPart s p).1) := by
    intro q hq' c i h
    obtain ⟨j, hj⟩ := List.mem_iff_getElem?.1 hq'
    obtain ⟨p, hp, hr⟩ := (raisesAt_iff j).1 h
    exact ⟨p, List.mem_map.2 ⟨p, (hmem p).2 ⟨j, q, hj, hp⟩, by rw [(hfst p _).2 hr]⟩⟩
  cases hf : lowestFault (P.map fun p => (p, (readPart s p).1)) with
  | none =>
    obtain ⟨q, hq', c, i, h⟩ := hr
    obtain ⟨p, hp⟩ := hex q hq' c i h
    exact absurd rfl (lowestFault_eq_none.1 hf _ hp _)
  | some e =>
    obtain ⟨⟨p, hp⟩, hmin⟩ := lowestFault_eq_some hf
    obtain ⟨p', hp', he⟩ := List.mem_map.1 hp
    obtain ⟨rfl, he'⟩ := Prod.mk.inj he
    obtain ⟨j, q, hj, hpq⟩ := (hmem p').1 hp'
    have hre : resolvePart s .load p' = .error e := (hfst _ e).1 he'
    have hacc : e.access = q.va := by rw [resolvePart_access hre, (partsOf_req hpq).2]
    clear he hp
    obtain ⟨c, i, a⟩ := e
    subst hacc
    refine ⟨q, List.mem_of_getElem? hj, c, i, (raisesAt_iff j).2 ⟨_, hpq, hre⟩, ?_, rfl⟩
    rintro q' hq' ⟨c', i', h⟩
    obtain ⟨p'', hp''⟩ := hex q' hq' c' i' h
    exact hmin _ _ hp''

/-- The parts performed are those of the accesses. -/
theorem mem_arranged {s : State} {qs : List Req} {p : Part} :
    p ∈ arrange s.inter.order (allParts s qs) ↔ ∃ j q, qs[j]? = some q ∧ p ∈ partsOf s q j := by
  rw [(arrange_perm _ _).mem_iff, mem_allParts]

/-- The outcomes of the parts of an instruction's stores, when nothing lies between them. -/
def storeOutcomes (s : State) (qs : List Req) : List PartOutcome :=
  (arrange s.inter.order (allParts s qs)).map fun p => (p, outcomeOf s p)

theorem outcomeOf_error {s : State} {p : Part} {e : AccessFault} :
    outcomeOf s p = .error e ↔ resolvePart s .store p = .error e := by
  unfold outcomeOf; cases resolvePart s .store p <;> simp [Except.map]

/-- An access of an instruction faulted exactly when it raises an exception. -/
theorem reqFaulted_iff {s : State} {qs : List Req} {j : Nat} {q : Req} (hj : qs[j]? = some q) :
    reqFaulted (storeOutcomes s qs) j = true ↔ ∃ code info, RaisesAt s .store q.va q.n code info := by
  unfold reqFaulted storeOutcomes
  rw [List.any_eq_true]
  constructor
  · rintro ⟨o, ho, h⟩
    obtain ⟨p, hp, rfl⟩ := List.mem_map.1 ho
    obtain ⟨j', q', hj', hpq⟩ := mem_arranged.1 hp
    simp only [Bool.and_eq_true, beq_iff_eq] at h
    obtain rfl : j' = j := by rw [← h.1, (partsOf_req hpq).1]
    rw [hj] at hj'; cases hj'
    cases ho : outcomeOf s p with
    | ok b => rw [ho] at h; exact absurd h.2 (by simp)
    | error e =>
      have hr := outcomeOf_error.1 ho
      have hacc : e.access = q.va := by rw [resolvePart_access hr, (partsOf_req hpq).2]
      obtain ⟨c, i, a⟩ := e; subst hacc
      exact ⟨c, i, (raisesAt_iff j').2 ⟨p, hpq, hr⟩⟩
  · rintro ⟨c, i, h⟩
    obtain ⟨p, hp, hr⟩ := (raisesAt_iff j).1 h
    refine ⟨(p, outcomeOf s p), List.mem_map.2 ⟨p, mem_arranged.2 ⟨j, q, hj, hp⟩, rfl⟩, ?_⟩
    simp [(partsOf_req hp).1, outcomeOf_error.2 hr]

/-- Stores of which no part is a whole access's lesser part: every store that stays is of a whole access. -/
def WholeStores (s : State) (qs : List Req) : Prop :=
  s.cfg.misalignedPartial = false ∨ ∀ q ∈ qs, q.va.toNat % q.n = 0 ∨ s.cfg.misaligned = .trap

/-- The cells that remain of one access when the instruction raises an exception: all of them or none, and
none of an access that raises. -/
theorem cells_remaining {s : State} {qs : List Req} (hw : WholeStores s qs) {j : Nat} {q : Req}
    (hj : qs[j]? = some q) :
    ((∃ code info, RaisesAt s .store q.va q.n code info) →
      (partsOf s q j).flatMap (cellsOf (remains s (storeOutcomes s qs)) s) = []) ∧
    (∀ pas, AccessMaps s .store q.va q.n pas →
      (partsOf s q j).flatMap (cellsOf (remains s (storeOutcomes s qs)) s) =
        if (Config.freeMask s.freeCount).getLsbD (8 * j) then pas.zip (leBytes q.n q.value) else []) := by
  have hqm := List.mem_of_getElem? hj
  constructor
  · intro h
    rw [List.flatMap_eq_nil_iff]
    intro p hp
    unfold cellsOf
    cases hr : resolvePart s .store p with
    | error e => rfl
    | ok pa =>
      rcases hw with hw | hw
      · have : remains s (storeOutcomes s qs) p = false := by
          unfold remains mayRemain
          rw [(partsOf_req hp).1, hw, (reqFaulted_iff hj).2 h]; rfl
        simp [this]
      · obtain ⟨p', hp', _⟩ := partsOf_whole j (hw q hqm)
        obtain ⟨c, i, h⟩ := h
        obtain ⟨p2, hp2, hr2⟩ := (raisesAt_iff j).1 h
        rw [hp'] at hp hp2
        rw [List.mem_singleton.1 hp] at hr
        rw [List.mem_singleton.1 hp2, hr] at hr2; cases hr2
  · intro pas hm
    obtain ⟨h1, _, h3⟩ := partsOf_of_maps (j := j) hm
    have hnf : reqFaulted (storeOutcomes s qs) j = false := by
      rw [Bool.eq_false_iff]
      intro hc
      obtain ⟨c, i, hc⟩ := (reqFaulted_iff hj).1 hc
      obtain ⟨p, hp, hr⟩ := (raisesAt_iff j).1 hc
      obtain ⟨pa, h, _⟩ := h1 p hp
      rw [h] at hr; cases hr
    have hrem : ∀ p ∈ partsOf s q j, remains s (storeOutcomes s qs) p =
        (Config.freeMask s.freeCount).getLsbD (8 * j) := by
      intro p hp
      unfold remains mayRemain
      rw [(partsOf_req hp).1, hnf]
      simp only [Bool.not_false, Bool.or_true, Bool.true_and]
      rcases hw with hw | hw
      · simp [hw]
      · obtain ⟨p', hp', ho⟩ := partsOf_whole j (hw q hqm)
        rw [hp'] at hp
        rw [List.mem_singleton.1 hp, ho]; simp
    rw [← h3]
    cases hb : (Config.freeMask s.freeCount).getLsbD (8 * j) with
    | true =>
      simp only [if_true]
      refine List.flatMap_congr fun p hp => ?_
      obtain ⟨pa, h, h4, h5⟩ := h1 p hp
      simp only [cellsOf, h, hrem p hp, hb, if_true, partCells, h4, h5]
    | false =>
      simp only [Bool.false_eq_true, if_false]
      rw [List.flatMap_eq_nil_iff]
      intro p hp
      obtain ⟨pa, h, _⟩ := h1 p hp
      simp [cellsOf, h, hrem p hp, hb]

/-- Stores one of which raises an exception report the one at the lowest address; they leave a choice of the
others, and nothing else. -/
theorem storeAll_raises {s : State} {qs : List Req} (hq : Quiet s qs)
    (hr : ∃ q ∈ qs, ∃ code info, RaisesAt s .store q.va q.n code info) :
    ∃ q ∈ qs, ∃ code info, RaisesAt s .store q.va q.n code info ∧
      (∀ q' ∈ qs, (∃ c i, RaisesAt s .store q'.va q'.n c i) → q.va.toNat ≤ q'.va.toNat) ∧
      storeAll s qs = (some ⟨code, info, q.va⟩, partialStore s qs (storeOutcomes s qs)) := by
  unfold storeAll
  simp only [performAccesses_quiet _ _ _ hq, performParts_write]
  have hex : ∀ q ∈ qs, ∀ c i, RaisesAt s .store q.va q.n c i →
      ∃ p, (p, Except.error ⟨c, i, q.va⟩) ∈ storeOutcomes s qs := by
    intro q hq' c i h
    obtain ⟨j, hj⟩ := List.mem_iff_getElem?.1 hq'
    obtain ⟨p, hp, hr⟩ := (raisesAt_iff j).1 h
    exact ⟨p, List.mem_map.2 ⟨p, mem_arranged.2 ⟨j, q, hj, hp⟩, by rw [outcomeOf_error.2 hr]⟩⟩
  show ∃ q ∈ qs, _
  cases hf : lowestFault (storeOutcomes s qs) with
  | none =>
    obtain ⟨q, hq', c, i, h⟩ := hr
    obtain ⟨p, hp⟩ := hex q hq' c i h
    exact absurd rfl (lowestFault_eq_none.1 hf _ hp _)
  | some e =>
    obtain ⟨⟨p, hp⟩, hmin⟩ := lowestFault_eq_some hf
    obtain ⟨p', hp', he⟩ := List.mem_map.1 hp
    obtain ⟨rfl, he'⟩ := Prod.mk.inj he
    obtain ⟨j, q, hj, hpq⟩ := mem_arranged.1 hp'
    have hre := outcomeOf_error.1 he'
    have hacc : e.access = q.va := by rw [resolvePart_access hre, (partsOf_req hpq).2]
    clear he hp
    obtain ⟨c, i, a⟩ := e
    subst hacc
    refine ⟨q, List.mem_of_getElem? hj, c, i, (raisesAt_iff j).2 ⟨_, hpq, hre⟩, ?_, ?_⟩
    · rintro q' hq' ⟨c', i', h⟩
      obtain ⟨p'', hp''⟩ := hex q' hq' c' i' h
      exact hmin _ _ hp''
    · have hf' : lowestFault ((arrange s.inter.order (allParts s qs)).map fun p => (p, outcomeOf s p)) =
          some ⟨c, i, q.va⟩ := hf
      rw [hf']; rfl

/-- What the stores leave of an instruction that raises an exception, when nothing lies between them. -/
theorem partialStore_form {s : State} {qs : List Req} (hq : Quiet s qs) :
    ∃ f, partialStore s qs (storeOutcomes s qs) =
      { dataSetAll s ((arrange s.inter.order (allParts s qs)).flatMap
          (cellsOf (remains s (storeOutcomes s qs)) s)) with freeCount := f } ∧
      (anyRemain s.cfg (storeOutcomes s qs) = false → f = s.freeCount) := by
  unfold partialStore
  simp only [performAccesses_quiet _ _ _ hq, performParts_write]
  split
  · next h => exact ⟨_, rfl, fun hc => by rw [hc] at h; cases h⟩
  · refine ⟨(dataSetAll s _).freeCount, rfl, fun _ => ?_⟩
    rw [(storesOnly_dataSetAll s _).form]

theorem sameBytes_freeCount (s : State) (f a : Nat) : SameBytes s { s with freeCount := f } a :=
  by apply SameBytes.congr <;> rfl

/-- No more than storage changes, at the addresses the accesses touch. -/
theorem partlyStored_of_raises {s : State} {qs : List Req} {n : Nat} (hq : Quiet s qs)
    (hn : ∀ q ∈ qs, q.n = n) :
    PartlyStored s (partialStore s qs (storeOutcomes s qs)) (qs.map Req.va) n := by
  obtain ⟨f, h, _⟩ := partialStore_form hq
  rw [h]
  generalize hc : (arrange s.inter.order (allParts s qs)).flatMap
    (cellsOf (remains s (storeOutcomes s qs)) s) = cells
  have hso := storesOnly_dataSetAll s cells
  refine ⟨?_, ⟨hso.others.rest, hso.others.incoherent⟩, fun a ha => ?_⟩
  · rw [hso.form]
  · refine (sameBytes_dataSetAll s cells a ?_).trans
      (sameBytes_freeCount _ f a)
    intro hm
    rw [← hc] at hm
    obtain ⟨⟨a', b⟩, hcell, rfl⟩ := List.mem_map.1 hm
    obtain ⟨p, hp, hcell⟩ := List.mem_flatMap.1 hcell
    obtain ⟨j, q, hj, hpq⟩ := mem_arranged.1 hp
    have hqm := List.mem_of_getElem? hj
    refine ha q.va (List.mem_map_of_mem hqm) ?_
    rw [← hn q hqm]
    unfold cellsOf at hcell
    split at hcell
    · next pa hr =>
      split at hcell
      · have := (List.of_mem_zip hcell).1
        obtain ⟨i, hi, e⟩ := List.mem_map.1 this
        have := List.mem_range.1 hi
        exact touches_of_part hpq hr (by dsimp only at e ⊢; omega) (by dsimp only at e ⊢; omega)
      · cases hcell
    · cases hcell

theorem zip_fst_sublist {α β : Type} (l : List α) (m : List β) : ((l.zip m).map Prod.fst).Sublist l := by
  induction l generalizing m with
  | nil => simp
  | cons a l ih => cases m <;> simp [ih]

/-- Where single parts of an access cannot stay, each access that raises nothing is left whole or untouched, and
nothing else is written. -/
theorem partialStore_whole {s : State} (ps : List (Req × List Nat)) (hq : Quiet s (ps.map Prod.fst))
    (hw : WholeStores s (ps.map Prod.fst))
    (h : ∀ p ∈ ps, AccessMaps s .store p.1.va p.1.n p.2 ∨
      (∃ code info, RaisesAt s .store p.1.va p.1.n code info) ∧ p.2 = []) :
    let u := partialStore s (ps.map Prod.fst) (storeOutcomes s (ps.map Prod.fst))
    (∀ a, a ∉ ps.flatMap Prod.snd → SameBytes s u a) ∧
    (StorageInv s → (ps.flatMap Prod.snd).Nodup → ∀ p ∈ ps,
      (∀ a ∈ p.2, SameBytes s u a) ∨ HoldsBytes u p.2 p.1.value) ∧
    ((∀ p ∈ ps, ∃ code info, RaisesAt s .store p.1.va p.1.n code info) → u = s) := by
  set qs := ps.map Prod.fst with hqs
  obtain ⟨f, hu, hf⟩ := partialStore_form hq
  generalize hc : (arrange s.inter.order (allParts s qs)).flatMap
    (cellsOf (remains s (storeOutcomes s qs)) s) = cells at hu
  set sel : Nat → Bool := fun j => (Config.freeMask s.freeCount).getLsbD (8 * j) with hsel
  -- the cells written, access by access
  have hget : ∀ j (hj : j < ps.length), qs[j]? = some ps[j].1 := by intro j hj; simp [hqs, hj]
  have hcell : ∀ j (hj : j < ps.length),
      (partsOf s ps[j].1 j).flatMap (cellsOf (remains s (storeOutcomes s qs)) s) =
        if sel j then ps[j].2.zip (leBytes ps[j].1.n ps[j].1.value) else [] := by
    intro j hj
    obtain ⟨h1, h2⟩ := cells_remaining hw (hget j hj)
    rcases h _ (List.getElem_mem hj) with hm | ⟨hr, he⟩
    · exact h2 _ hm
    · rw [h1 hr, he]; simp
  have hperm : cells.Perm (ps.zipIdx.flatMap fun p =>
      if sel p.2 then p.1.2.zip (leBytes p.1.1.n p.1.1.value) else []) := by
    rw [← hc]
    refine ((arrange_perm _ _).flatMap_right _).trans ?_
    unfold allParts
    rw [List.flatMap_assoc, hqs, List.zipIdx_map, List.flatMap_map]
    refine List.Perm.of_eq (List.flatMap_congr fun p hp => ?_)
    obtain ⟨p1, j⟩ := p
    obtain ⟨h1, h2⟩ := List.mem_zipIdx' hp
    have := hcell j h1
    rw [← h2] at this
    exact this
  have hfst : ∀ a, a ∈ cells.map Prod.fst → ∃ j, ∃ hj : j < ps.length, sel j = true ∧ a ∈ ps[j].2 := by
    intro a ha
    obtain ⟨⟨a', b⟩, hm, rfl⟩ := List.mem_map.1 ha
    obtain ⟨⟨p, j⟩, hp, hm⟩ := List.mem_flatMap.1 (hperm.mem_iff.1 hm)
    obtain ⟨h1, h2⟩ := List.mem_zipIdx' hp
    dsimp only at hm
    split at hm
    · next hs => exact ⟨j, h1, hs, by rw [← h2]; exact (List.of_mem_zip hm).1⟩
    · cases hm
  have hsame : ∀ a, a ∉ cells.map Prod.fst → SameBytes s { dataSetAll s cells with freeCount := f } a :=
    fun a ha => (sameBytes_dataSetAll s cells a ha).trans (sameBytes_freeCount _ f a)
  rw [hu]
  refine ⟨fun a ha => hsame a fun hm => ?_, fun hs hd p hp => ?_, fun hall => ?_⟩
  · obtain ⟨j, hj, _, hm⟩ := hfst a hm
    exact ha (List.mem_flatMap.2 ⟨_, List.getElem_mem hj, hm⟩)
  · obtain ⟨j, hj, rfl⟩ := List.getElem_of_mem hp
    have hdis := (List.nodup_flatMap.1 hd).2
    cases hs' : sel j with
    | false =>
      refine .inl fun a ha => hsame a fun hm => ?_
      obtain ⟨j', hj', hs2, hm⟩ := hfst a hm
      have hne : j ≠ j' := by rintro rfl; rw [hs'] at hs2; cases hs2
      rw [List.pairwise_iff_getElem] at hdis
      rcases Nat.lt_or_gt_of_ne hne with hlt | hlt
      · exact hdis j j' hj hj' hlt ha hm
      · exact hdis j' j hj' hj hlt hm ha
    | true =>
      refine .inr ?_
      rcases h _ hp with hm | ⟨_, he⟩
      · intro k hk
        have hk' : k < (leBytes ps[j].1.n ps[j].1.value).length := by
          rw [leBytes_length, ← hm.length]; exact hk
        rw [← leBytes_getElem_toNat ps[j].1.n ps[j].1.value k hk']
        congr 1
        show dataByte (dataSetAll s cells) _ = _
        apply dataByte_dataSetAll_of_mem s _ _ _ hs
        · rw [(hperm.map Prod.fst).nodup_iff]
          refine List.Nodup.sublist ?_ hd
          rw [List.map_flatMap]
          have : ps.flatMap Prod.snd = ps.zipIdx.flatMap fun p => p.1.2 := by
            conv_lhs => rw [← List.zipIdx_map_fst 0 ps, List.flatMap_map]
          rw [this]
          have gen : ∀ (l : List ((Req × List Nat) × Nat)), 
              (l.flatMap fun p => List.map Prod.fst
                (if sel p.2 then p.1.2.zip (leBytes p.1.1.n p.1.1.value) else [])).Sublist
              (l.flatMap fun p => p.1.2) := by
            intro l
            induction l with
            | nil => exact .slnil
            | cons p l ih =>
              simp only [List.flatMap_cons]
              refine List.Sublist.append ?_ ih
              split
              · exact zip_fst_sublist _ _
              · exact List.nil_sublist _
          exact gen _
        · rw [hperm.mem_iff]
          refine List.mem_flatMap.2 ⟨(ps[j], j), List.mem_zipIdx_iff_getElem?.2 (by simp [hj]), ?_⟩
          simp only [hs', if_true]
          rw [List.mem_iff_getElem]
          exact ⟨k, by simp [leBytes_length] at hk' ⊢; omega, by simp⟩
      · intro k hk; rw [he] at hk; exact absurd hk (by simp)
  · have hnil : cells = [] := by
      rw [List.eq_nil_iff_forall_not_mem]
      rintro ⟨a, b⟩ hm
      obtain ⟨j, hj, hs2, hm'⟩ := hfst a (List.mem_map.2 ⟨_, hm, rfl⟩)
      rcases h _ (List.getElem_mem hj) with hmap | ⟨_, he⟩
      · obtain ⟨c, i, hr⟩ := hall _ (List.getElem_mem hj)
        obtain ⟨p, hp, hr⟩ := (raisesAt_iff 0).1 hr
        obtain ⟨pa, hok, _⟩ := (partsOf_of_maps hmap).1 p hp
        rw [hok] at hr; cases hr
      · rw [he] at hm'; cases hm'
    have hany : anyRemain s.cfg (storeOutcomes s qs) = false := by
      rw [Bool.eq_false_iff]
      intro hc
      unfold anyRemain storeOutcomes at hc
      rw [List.any_eq_true] at hc
      obtain ⟨o, ho, hc⟩ := hc
      obtain ⟨p, hp, rfl⟩ := List.mem_map.1 ho
      obtain ⟨j, q, hj, hpq⟩ := mem_arranged.1 hp
      have hlt : j < ps.length := by
        by_contra hc'; rw [List.getElem?_eq_none (by simp [hqs]; omega)] at hj; cases hj
      have hr := hall _ (List.getElem_mem hlt)
      rw [hget j hlt] at hj; cases hj
      rw [Bool.and_eq_true] at hc
      rcases hw with hw | hw
      · have h1 := hc.1
        unfold mayRemain at h1
        rw [(partsOf_req hpq).1, hw] at h1
        have := (reqFaulted_iff (hget j hlt)).2 hr
        unfold storeOutcomes at this
        rw [this] at h1; cases h1
      · obtain ⟨p', hp', _⟩ := partsOf_whole j (hw ps[j].1 (by rw [hqs]; exact List.mem_map_of_mem (List.getElem_mem hlt)))
        obtain ⟨c, i, hr⟩ := hr
        obtain ⟨p2, hp2, hr2⟩ := (raisesAt_iff j).1 hr
        rw [hp'] at hpq hp2
        rw [List.mem_singleton.1 hpq, ← List.mem_singleton.1 hp2] at hc
        rw [outcomeOf_error.2 hr2] at hc
        exact absurd hc.2 (by simp)
    rw [hnil, hf hany]; rfl

/-! ## The two accesses of a pair, with other agents between them -/

/-- Two elements in an order of the inputs: the first number below 2 says which comes first. -/
theorem arrange_pair {α : Type} (o : List Nat) (a b : α) :
    arrange o [a, b] = if o.find? (· < 2) = some 1 then [b, a] else [a, b] := by
  have one : ∀ (o : List Nat) (x : α), arrange o [x] = [x] := fun o x => List.perm_singleton.1 (arrange_perm o [x])
  induction o with
  | nil => rfl
  | cons i is ih =>
    rcases i with _ | _ | i
    · simp [arrange, one]
    · simp [arrange, one]
    · simpa [arrange, List.find?_cons] using ih

/-- An aligned access as the one part it is performed in. -/
def wholePart (q : Req) (j : Nat) : Part := ⟨j, q.va, 0, q.va, q.n, q.value, false⟩

/-- Two parts performed one after the other, with what lies between them. -/
theorem performAccesses_pair (f : State → Part → Except AccessFault (List Byte) × State) (s : State)
    (q1 q2 : Req) (h1 : q1.va.toNat % q1.n = 0) (h2 : q2.va.toNat % q2.n = 0) :
    ∃ a b, (a, b) = (if s.inter.order.find? (· < 2) = some 1 then (wholePart q2 1, wholePart q1 0)
        else (wholePart q1 0, wholePart q2 1)) ∧
      performAccesses f s [q1, q2] =
        ([(a, (f s a).1), (b, (f (applyActs (f s a).2 (s.inter.gaps.headD [])) b).1)],
          (f (applyActs (f s a).2 (s.inter.gaps.headD [])) b).2) := by
  have hp : allParts s [q1, q2] = [wholePart q1 0, wholePart q2 1] := by
    simp [allParts, partsOf, h1, h2, wholePart]
  unfold performAccesses
  rw [hp, arrange_pair]
  split
  · exact ⟨_, _, rfl, rfl⟩
  · exact ⟨_, _, rfl, rfl⟩

theorem resolvePart_whole_maps {s : State} {k : AccessKind} {q : Req} {j : Nat} {pas : List Nat}
    (ha : q.va.toNat % q.n = 0) (h : AccessMaps s k q.va q.n pas) :
    ∃ pa, resolvePart s k (wholePart q j) = .ok pa ∧ pas = (List.range q.n).map (pa + ·) := by
  rcases h with ⟨_, pa, h1, h2, h3⟩ | ⟨h, _⟩
  · exact ⟨pa, by simp [resolvePart, resolve, wholePart, h1, h2], h3⟩
  · exact absurd ha h

theorem resolvePart_whole_raises {s : State} {k : AccessKind} {q : Req} {j code : Nat}
    (ha : q.va.toNat % q.n = 0) (h : AccessRaises s k q.va q.n code) :
    resolvePart s k (wholePart q j) = .error ⟨code, q.va, q.va⟩ := by
  rcases h with ⟨h, _⟩ | ⟨_, h, rfl⟩ | ⟨_, ⟨pa, h1, h2⟩, rfl⟩
  · exact absurd ha h
  · simp [resolvePart, resolve, wholePart, h]
  · simp [resolvePart, resolve, wholePart, h1, h2]

/-- The value of an access that was read as a whole. -/
theorem loadedValue_pair {s : State} {q : Req} {j pa : Nat} (o : PartOutcome) (hj : o.1.req ≠ j) (l : List PartOutcome)
    (hl : l = [(wholePart q j, .ok ((List.range q.n).map fun k => dataByte s (pa + k))), o] ∨
      l = [o, (wholePart q j, .ok ((List.range q.n).map fun k => dataByte s (pa + k)))]) :
    loadedValue l j q.n = leValue (((List.range q.n).map (pa + ·)).map (dataByte s)) := by
  unfold loadedValue
  congr 1
  rw [List.map_map]
  refine List.map_congr_left fun k hk => ?_
  have hk := List.mem_range.1 hk
  have hb : ((List.range q.n).map fun k => dataByte s (pa + k)).getD k 0 = dataByte s (pa + k) := by
    simp [List.getD_eq_getElem?_getD, List.getElem?_range hk]
  have hj' : (o.1.req == j) = false := by simpa using hj
  unfold loadedByte
  rcases hl with rfl | rfl
  · simp [wholePart, hk]
  · simp [wholePart, hk, hj']

end Sys2Proof
end

