-- ==== Sys2Proof/Laws/Encoding.lean ====
section
/-! SUPPORT. The fields of the words the encoder writes, and a word rebuilt from its bytes. -/

namespace Sys2Proof

/-! ## Fields of concatenations -/

/-- A field that lies above the last `b` bits of a concatenation. -/
theorem field_high {a b : Nat} (x : BitVec a) (y : BitVec b) (k n : Nat) :
    (x ++ y).extractLsb' (b + k) n = x.extractLsb' k n := by
  ext i hi
  simp only [BitVec.getElem_extractLsb', BitVec.getLsbD_append]
  rw [if_neg (by omega)]
  congr 1
  omega

/-- The last `b` bits of a concatenation. -/
theorem field_low {a b : Nat} (x : BitVec a) (y : BitVec b) : (x ++ y).extractLsb' 0 b = y := by
  ext i hi
  simp [BitVec.getLsbD_append, hi]

theorem field_whole {n : Nat} (x : BitVec n) : x.extractLsb' 0 n = x := by
  ext i hi
  simp

/-! ## The fields of a word of format `R` -/

theorem opcodeF_wordR (f7 : BitVec 7) (rs2 rs1 : BitVec 5) (f3 : BitVec 3) (rd : BitVec 5) :
    opcodeF (wordR f7 rs2 rs1 f3 rd) = 0b0001011#7 := field_low _ _

theorem rdF_wordR (f7 : BitVec 7) (rs2 rs1 : BitVec 5) (f3 : BitVec 3) (rd : BitVec 5) :
    rdF (wordR f7 rs2 rs1 f3 rd) = rd :=
  (field_high _ (0b0001011#7) 0 5).trans (field_low _ _)

theorem funct3F_wordR (f7 : BitVec 7) (rs2 rs1 : BitVec 5) (f3 : BitVec 3) (rd : BitVec 5) :
    funct3F (wordR f7 rs2 rs1 f3 rd) = f3 :=
  (field_high _ (0b0001011#7) 5 3).trans ((field_high _ rd 0 3).trans (field_low _ _))

theorem rs1F_wordR (f7 : BitVec 7) (rs2 rs1 : BitVec 5) (f3 : BitVec 3) (rd : BitVec 5) :
    rs1F (wordR f7 rs2 rs1 f3 rd) = rs1 :=
  (field_high _ (0b0001011#7) 8 5).trans ((field_high _ rd 3 5).trans
    ((field_high _ f3 0 5).trans (field_low _ _)))

theorem rs2F_wordR (f7 : BitVec 7) (rs2 rs1 : BitVec 5) (f3 : BitVec 3) (rd : BitVec 5) :
    rs2F (wordR f7 rs2 rs1 f3 rd) = rs2 :=
  (field_high _ (0b0001011#7) 13 5).trans ((field_high _ rd 8 5).trans
    ((field_high _ f3 5 5).trans ((field_high _ rs1 0 5).trans (field_low _ _))))

/-! ## The opcode of the other formats -/

theorem opcodeF_wordRS (f5 : BitVec 5) (imm2 : BitVec 2) (rs2 rs1 : BitVec 5) (f3 : BitVec 3)
    (rd : BitVec 5) : opcodeF (wordRS f5 imm2 rs2 rs1 f3 rd) = 0b0001011#7 := field_low _ _

theorem opcodeF_wordI6 (hi lo : BitVec 6) (rs1 : BitVec 5) (f3 : BitVec 3) (rd : BitVec 5) :
    opcodeF (wordI6 hi lo rs1 f3 rd) = 0b0001011#7 := field_low _ _

theorem opcodeF_wordV (f6 : BitVec 6) (vm : Bool) (vs2 vs1 vd : BitVec 5) :
    opcodeF (wordV f6 vm vs2 vs1 vd) = 0b0001011#7 := field_low _ _

/-! ## Words and bytes -/

/-- The bytes of a word make it again. -/
theorem wordOfBytes_bytesOfWord (w : InsnWord) :
    wordOfBytes (w.extractLsb' 0 8) (w.extractLsb' 8 8) (w.extractLsb' 16 8) (w.extractLsb' 24 8) = w := by
  apply BitVec.eq_of_getLsbD_eq
  intro i hi
  simp only [wordOfBytes, BitVec.getLsbD_append, BitVec.getLsbD_extractLsb']
  split
  · simp [*]
  · split
    · simp [show i - 8 < 8 by omega, show 8 + (i - 8) = i by omega]
    · split
      · simp [show i - 8 - 8 < 8 by omega, show 16 + (i - 8 - 8) = i by omega]
      · simp [show i - 8 - 8 - 8 < 8 by omega, show 24 + (i - 8 - 8 - 8) = i by omega]

/-- Decoding the bytes of a word is decoding the word. -/
theorem decode_bytesOfWord (w : InsnWord) (rest : List Byte) :
    decode (bytesOfWord w ++ rest) = (decodeWord w).map fun i => (i, rest) := by
  simp only [bytesOfWord, List.cons_append, List.nil_append, decode, wordOfBytes_bytesOfWord]
  cases decodeWord w <;> rfl

end Sys2Proof
end

