-- ==== Sys2Proof/Laws/Exec.lean ====
section
/-! SUPPORT. What the shared meanings of the families do, each said once: the statements cite these in
place of unfolding a meaning. -/

namespace Sys2Proof

open Machine

/-! ## Changed fields, as an equation for the new state -/

theorem writeX_form (s : State) (r : Reg) (v : Word) :
    writeX s r v = { s with x := (writeX s r v).x } := by
  unfold writeX; split <;> rfl

theorem writeXs_form (s : State) (l : List (Reg × Word)) :
    writeXs s l = { s with x := (writeXs s l).x } := by
  have h := writeXs_rest s l
  generalize writeXs s l = t at h
  rcases s with ⟨⟨⟩, _⟩; rcases t with ⟨⟨⟩, _⟩; simp_all

theorem writeIntSp_form (s : State) (v : Word) :
    writeIntSp s v = { s with x := (writeIntSp s v).x, intSp := (writeIntSp s v).intSp } := by
  unfold writeIntSp writeX; split
  · split <;> rfl
  · rfl

/-! ## The interrupt frame -/

theorem frameStores_eq (s : State) (top : Word) (k : Nat) (vs : List Word) :
    frameStores s top k vs = (vs.zipIdx k).map fun p => ⟨slotAddr s top p.2, 4, p.1⟩ := by
  induction vs generalizing k with
  | nil => rfl
  | cons v vs ih => simp [frameStores, ih]

theorem execInM_run {i : Instr} {s : State} {run : Result} (ha : available s i = true)
    (hp : s.priv = .m) (hx : s.cfg.xlen = .rv64 → s.cfg.xtheadintOnRv64 = true) :
    execInM i s run = run := by
  unfold execInM
  rw [ha, hp]
  simp only [beq_self_eq_true, Bool.and_self, requireLegal_true]
  rw [if_neg]
  simpa [isRv64] using hx

/-- The stores of a push with the addresses `pas k` of each slot. -/
def pushCells (s : State) (pas : Nat → List Nat) : List (Req × List Nat) :=
  (frameItems s).zipIdx.map fun p => (⟨slotAddr s (readIntSp s) p.2, 4, p.1⟩, pas p.2)

theorem pushCells_fst (s : State) (pas : Nat → List Nat) :
    (pushCells s pas).map Prod.fst = frameStores s (readIntSp s) 0 (frameItems s) := by
  rw [frameStores_eq]; simp [pushCells]

theorem pushCells_snd (s : State) (pas : Nat → List Nat) :
    (pushCells s pas).flatMap Prod.snd = (List.range 18).flatMap pas := by
  simp [pushCells, frameItems, frameRegs, List.range_succ]

theorem mem_pushCells (s : State) (pas : Nat → List Nat) (p : Req × List Nat) :
    p ∈ pushCells s pas ↔ ∃ k, ∃ hk : k < (frameItems s).length,
      p = (⟨slotAddr s (readIntSp s) k, 4, (frameItems s)[k]⟩, pas k) := by
  constructor
  · intro h
    obtain ⟨q, hq, rfl⟩ := List.mem_map.1 h
    obtain ⟨h1, h2⟩ := List.mem_zipIdx' hq
    exact ⟨q.2, h1, by rw [← h2]⟩
  · rintro ⟨k, hk, rfl⟩
    refine List.mem_map.2 ⟨((frameItems s)[k], k), ?_, rfl⟩
    rw [List.mem_zipIdx_iff_getElem?]
    simp [hk]

theorem writeMcause_form (s : State) (v : Word) :
    writeMcause s v = { s with mcause := (writeMcause s v).mcause, freeCount := (writeMcause s v).freeCount } := by
  unfold writeMcause; dsimp only; split <;> rfl

/-- The frame of a pop: everything but `mcause`, `mepc`, the registers and the return. -/
theorem popFrame_spec (s : State) (vs : List Word) :
    popFrame s vs = { s with
      x := (popFrame s vs).x, intSp := (popFrame s vs).intSp
      mcause := (writeMcause s (sextX s.cfg ((vs.getD 0 0).setWidth 32))).mcause
      freeCount := (writeMcause s (sextX s.cfg ((vs.getD 0 0).setWidth 32))).freeCount
      mepc := mepcValue s.cfg (sextX s.cfg ((vs.getD 1 0).setWidth 32))
      pc := mepcValue s.cfg (mepcValue s.cfg (sextX s.cfg ((vs.getD 1 0).setWidth 32)))
      priv := s.mstatus.mpp
      mstatus := (mret s).mstatus } := by
  unfold popFrame
  dsimp only
  rw [writeIntSp_form, writeXs_form, writeMcause_form]
  rfl

theorem readX_popFrame (s : State) (vs : List Word) (r : Reg) (h : s.cfg.intSpReg ≠ .gpr r) :
    (∀ k (hk : k < frameRegs.length), r = frameRegs[k] →
      readX (popFrame s vs) r = sextX s.cfg ((vs.getD (k + 2) 0).setWidth 32)) ∧
    (r ∉ frameRegs → readX (popFrame s vs) r = readX s r) := by
  unfold popFrame
  dsimp only
  generalize hs2 : ({ writeMcause s (sextX s.cfg ((vs.getD 0 0).setWidth 32)) with
    mepc := mepcValue s.cfg (sextX s.cfg ((vs.getD 1 0).setWidth 32)) } : State) = s2
  have hc : s2.cfg = s.cfg := by rw [← hs2, writeMcause_form]
  have hx : s2.x = s.x := by rw [← hs2, writeMcause_form]
  generalize hl : (frameRegs.zipIdx.map fun p => (p.1, sextX s.cfg ((vs.getD (p.2 + 2) 0).setWidth 32))) = l
  have hfst : l.map Prod.fst = frameRegs := by rw [← hl, List.map_map]; rfl
  have hR : readX (mret (writeIntSp (writeXs s2 l) (readIntSp s + 72))) r = readX (writeXs s2 l) r := by
    show readX (writeIntSp _ _) r = _
    rw [readX_writeIntSp _ _ _ (by rw [writeXs_cfg, hc]; exact h)]
  constructor
  · intro k hk hr
    rw [hR, readX_writeXs_of_mem s2 l r (sextX s.cfg ((vs.getD (k + 2) 0).setWidth 32)), hc]
    · unfold sextX; rw [truncX_truncX]
    · rw [hfst]; decide
    · rw [← hl, hr]
      exact List.mem_map.2 ⟨(frameRegs[k], k), List.mem_zipIdx_iff_getElem?.2 (by simp [hk]), rfl⟩
    · rw [hr]
      have : ∀ q ∈ frameRegs, q ≠ 0#5 := by decide
      exact this _ (List.getElem_mem hk)
  · intro hr
    rw [hR, readX_writeXs_of_not_mem _ _ _ (by rw [hfst]; exact hr)]
    exact readX_congr hx hc r

theorem readIntSp_popFrame (s : State) (vs : List Word) (h : s.cfg.intSpReg ≠ .gpr 0) :
    (readIntSp (popFrame s vs)).toNat = ((readIntSp s).toNat + 72) % 2 ^ xlenBits s.cfg := by
  unfold popFrame
  dsimp only
  generalize hs2 : ({ writeMcause s (sextX s.cfg ((vs.getD 0 0).setWidth 32)) with
    mepc := mepcValue s.cfg (sextX s.cfg ((vs.getD 1 0).setWidth 32)) } : State) = s2
  have hc : s2.cfg = s.cfg := by rw [← hs2, writeMcause_form]
  generalize (frameRegs.zipIdx.map fun p => (p.1, sextX s.cfg ((vs.getD (p.2 + 2) 0).setWidth 32))) = l
  show (readIntSp (writeIntSp (writeXs s2 l) (readIntSp s + 72))).toNat = _
  rw [readIntSp_writeIntSp _ _ (by rw [writeXs_cfg, hc]; exact h), writeXs_cfg, hc, truncX_toNat, BitVec.toNat_add]
  have := readIntSp_lt s
  rcases xlenBits_cases s.cfg with h1 | h1 <;> rw [h1] at this ⊢ <;> simp

/-! ## Memory instructions -/

/-- Loads that raise nothing. -/
theorem withLoads_of_maps {s : State} (ps : List (Req × List Nat)) (hq : Quiet s (ps.map Prod.fst))
    (h : ∀ p ∈ ps, AccessMaps s .load p.1.va p.1.n p.2) (k : State → List Word → Result) :
    withLoads s (ps.map Prod.fst) k = k s (ps.map fun p => leValue (p.2.map (dataByte s))) := by
  unfold withLoads; rw [loadAll_of_maps ps hq h]

theorem withLoad_of_maps {s : State} {va : Word} {n : Nat} {pas : List Nat} (hn : n ≤ 8)
    (h : AccessMaps s .load va n pas) (k : State → Word → Result) :
    ∃ v, withLoad s va n k = k s v ∧ v.toNat = loadedNat s pas ∧ v.toNat < 256 ^ n := by
  have := withLoads_of_maps [(⟨va, n, 0⟩, pas)] (quiet_single (q := ⟨va, n, 0⟩) h) (by simpa using h)
    fun s' vs => k s' (vs.getD 0 0)
  exact ⟨_, this, leValue_loaded s pas n h.length hn⟩

theorem withLoad_of_raises {s : State} {va : Word} {n code : Nat}
    (h : AccessRaises s .load va n code) (k : State → Word → Result) :
    withLoad s va n k = .next (trap s code false va) := by
  unfold withLoad withLoads; rw [loadAll_of_raises (q := ⟨va, n, 0⟩) h]; rfl

theorem newBase_spec (s : State) (rs1 : Reg) (imm5 : BitVec 5) (imm2 : BitVec 2) :
    IncrementedBase s rs1 imm5 imm2 (newBase s rs1 imm5 imm2) := by
  unfold IncrementedBase newBase increment
  rw [truncX_toNat, Int.natCast_mod, BitVec.toNat_add, BitVec.toNat_shiftLeft]
  have h1 : ((imm5.signExtend 64).toNat : Int) = imm5.toInt % 2 ^ 64 := by
    have := BitVec.toInt_signExtend_of_le (x := imm5) (w := 5) (v := 64) (by omega)
    rw [← this, BitVec.toInt_eq_toNat_cond]
    have := (imm5.signExtend 64).isLt
    split <;> omega
  have hk := imm2.isLt
  generalize (readX s rs1).toNat = x
  generalize imm5.toInt = y at *
  generalize (imm5.signExtend 64).toNat = z at *
  rcases xlenBits_cases s.cfg with hx | hx <;> rw [hx, Nat.shiftLeft_eq] <;>
    interval_cases imm2.toNat <;> push_cast <;> omega

theorem truncX_newBase (s : State) (rs1 : Reg) (imm5 : BitVec 5) (imm2 : BitVec 2) :
    truncX s.cfg (newBase s rs1 imm5 imm2) = newBase s rs1 imm5 imm2 := by
  unfold newBase; rw [truncX_truncX]

/-- The value an increment store stores, if it does not refuse. -/
theorem incStoreValue_spec (s : State) (o : When) (rd rs1 : Reg) (imm5 : BitVec 5) (imm2 : BitVec 2)
    (h : ¬(o = .before ∧ rd = rs1 ∧ s.cfg.sibSameReg = .refuse)) :
    incStoreValue s o rd rs1 (newBase s rs1 imm5 imm2) =
      some (if o = .before ∧ rd = rs1 ∧ rs1 ≠ 0 ∧ s.cfg.sibSameReg = .new
        then newBase s rs1 imm5 imm2 else readX s rd) := by
  unfold incStoreValue
  cases o
  · simp
  · by_cases hr : rd = rs1
    · subst hr
      by_cases h0 : rd = 0#5
      · subst h0; cases h : s.cfg.sibSameReg <;> simp_all [writeX]
      · cases h : s.cfg.sibSameReg <;> simp_all
        rw [readX_writeX_self _ _ _ h0, truncX_newBase]
    · simp [hr]

/-- The storage after the stores of an instruction: only the levels a store writes have changed, only at
the addresses stored to, and those hold the values. -/
structure Stored (s u : State) (ps : List (Req × List Nat)) : Prop where
  only : StoresOnly s u
  bytes : ∀ a, a ∉ ps.flatMap Prod.snd → SameBytes s u a
  holds : StorageInv s → (ps.flatMap Prod.snd).Nodup → ∀ p ∈ ps, HoldsBytes u p.2 p.1.value
  inv : StorageInv s → StorageInv u

theorem withStores_of_maps {s : State} (ps : List (Req × List Nat)) (hq : Quiet s (ps.map Prod.fst))
    (h : ∀ p ∈ ps, AccessMaps s .store p.1.va p.1.n p.2) (k : State → Result) :
    ∃ u, withStores s (ps.map Prod.fst) k = k u ∧ Stored s u ps := by
  obtain ⟨cells, h1, h2⟩ := storeAll_of_maps ps hq h
  have hl := fun p hp => (h p hp).length
  refine ⟨dataSetAll s cells, by unfold withStores; rw [h1], storesOnly_dataSetAll s cells, ?_, ?_,
    fun hs => hs.dataSetAll cells⟩
  · intro a ha
    apply sameBytes_dataSetAll
    rwa [(h2.map Prod.fst).mem_iff, storeCells_fst ps hl]
  · intro hs hd p hp
    exact holdsBytes_dataSetAll hs ps cells h2 hl hd p hp

theorem withStores_of_raises {s : State} {va v : Word} {n code : Nat}
    (h : AccessRaises s .store va n code) (k : State → Result) :
    withStores s [⟨va, n, v⟩] k = .next (trap s code false va) := by
  unfold withStores; rw [storeAll_of_raises (q := ⟨va, n, v⟩) h]; rfl

/-- Loads one of which raises an exception: that of the one at the lowest address is taken. -/
theorem withLoads_raises {s : State} {qs : List Req} (hq : Quiet s qs)
    (hr : ∃ q ∈ qs, ∃ code info, RaisesAt s .load q.va q.n code info) (k : State → List Word → Result) :
    ∃ q ∈ qs, ∃ code info, RaisesAt s .load q.va q.n code info ∧
      (∀ q' ∈ qs, (∃ c i, RaisesAt s .load q'.va q'.n c i) → q.va.toNat ≤ q'.va.toNat) ∧
      withLoads s qs k = .next (trap s code false info) := by
  obtain ⟨q, hm, c, i, h1, h2, h3⟩ := loadAll_raises hq hr
  exact ⟨q, hm, c, i, h1, h2, by unfold withLoads; rw [h3]; rfl⟩

/-- Stores one of which raises an exception: that of the one at the lowest address is taken, in what the stores
leave. -/
theorem withStores_raises {s : State} {qs : List Req} (hq : Quiet s qs)
    (hr : ∃ q ∈ qs, ∃ code info, RaisesAt s .store q.va q.n code info) (k : State → Result) :
    ∃ q ∈ qs, ∃ code info, RaisesAt s .store q.va q.n code info ∧
      (∀ q' ∈ qs, (∃ c i, RaisesAt s .store q'.va q'.n c i) → q.va.toNat ≤ q'.va.toNat) ∧
      withStores s qs k = .next (trap (partialStore s qs (storeOutcomes s qs)) code false info) := by
  obtain ⟨q, hm, c, i, h1, h2, h3⟩ := storeAll_raises hq hr
  exact ⟨q, hm, c, i, h1, h2, by unfold withStores; rw [h3]; rfl⟩

theorem Stored.frame {s u : State} {ps : List (Req × List Nat)} (h : Stored s u ps) :
    StorageFrame s (advance u) [] (ps.flatMap Prod.snd) := by
  have hf := h.only.form
  constructor
  · rw [hf]; rfl
  · exact ⟨h.only.others.rest, h.only.others.incoherent⟩
  · intro r _
    show readX u r = _
    apply readX_congr <;> rw [hf]
  · simp
  · intro a ha
    exact (h.bytes a ha).trans
      (.congr (by simp) (by simp) (by simp) (by simp) (by simp) (by simp) a)

theorem Stored.frame_writeX {s u : State} {ps : List (Req × List Nat)} (h : Stored s u ps)
    (r : Reg) (v : Word) : StorageFrame s (advance (writeX u r v)) [r] (ps.flatMap Prod.snd) := by
  have hf := h.only.form
  constructor
  · rw [writeX_form, hf]; rfl
  · have := h.only.others
    exact ⟨by simpa using this.rest, fun hc => by simpa using this.incoherent hc⟩
  · intro q hq
    show readX (writeX u r v) q = _
    rw [readX_writeX_of_ne _ _ _ _ (by simpa using hq)]
    apply readX_congr <;> rw [hf]
  · simp
  · intro a ha
    exact (h.bytes a ha).trans
      (.congr (by simp) (by simp) (by simp) (by simp) (by simp) (by simp) a)

/-- A push whose stores raise nothing. -/
theorem execIpush_of_maps (s : State) (pas : Nat → List Nat) (h : enabled s .xTheadInt = true)
    (hp : s.priv = .m) (hx : s.cfg.xlen = .rv64 → s.cfg.xtheadintOnRv64 = true)
    (hg : s.inter.gaps = [])
    (hm : ∀ k < 18, AccessMaps s .store (slotAddr s (readIntSp s) k) 4 (pas k)) :
    ∃ u, execIpush s = .next (advance (pushMie (writeIntSp u (readIntSp s - 72)))) ∧
      Stored s u (pushCells s pas) := by
  unfold execIpush
  rw [execInM_run (show available s .ipush = true from h) hp hx, ← pushCells_fst s pas]
  obtain ⟨u, h1, h2⟩ := withStores_of_maps (pushCells s pas) (.inl hg) (fun p hq => by
    obtain ⟨k, hk, rfl⟩ := (mem_pushCells s pas p).1 hq
    exact hm k (by simpa [frameItems, frameRegs] using hk))
    (fun s' => .next (advance (pushMie (writeIntSp s' (readIntSp s - 72)))))
  exact ⟨u, h1, h2⟩

/-- Both halves of a pair are aligned, or neither. -/
theorem pairAddr2_mod (s : State) (n : Nat) (rs1 : Reg) (imm2 : BitVec 2) (hn : n = 4 ∨ n = 8) :
    (pairAddr2 s n rs1 imm2).toNat % n = (pairAddr s n rs1 imm2).toNat % n := by
  unfold pairAddr2
  rw [truncX_toNat, BitVec.toNat_add]
  rcases hn with rfl | rfl <;> rcases xlenBits_cases s.cfg with h | h <;> rw [h] <;> simp

/-! ## Floating-point registers -/

/-- The end of an instruction that writes a floating-point register. -/
theorem floatOnly_write (s : State) (r : Reg) (v : Word) :
    FloatOnly s (advance (markFpDirty (writeF s r v))) r := by
  constructor
  · unfold markFpDirty; split <;> rfl
  · intro q hq
    have : readF (advance (markFpDirty (writeF s r v))) q = readF (writeF s r v) q := by
      unfold markFpDirty; split <;> rfl
    rw [this, readF_writeF, if_neg hq]
  · unfold markFpDirty; show (if _ then _ else _ : State).mstatus = _
    have : (writeF s r v).cfg = s.cfg := rfl
    rw [this]
    split <;> rfl
  · intro a; exact .congr (by simp) (by simp) (by simp) (by simp) (by simp) (by simp) a

theorem markFp_cfg (s : State) (r : Reg) (v : Word) : (markFpDirty (writeF s r v)).cfg = s.cfg := by
  unfold markFpDirty; split <;> rfl

theorem markFp_pc (s : State) (r : Reg) (v : Word) : (markFpDirty (writeF s r v)).pc = s.pc := by
  unfold markFpDirty; split <;> rfl

theorem readF_finish (s : State) (r : Reg) (v : Word) :
    readF (advance (markFpDirty (writeF s r v))) r = truncF s.cfg v := by
  have : readF (advance (markFpDirty (writeF s r v))) r = readF (writeF s r v) r := by
    unfold markFpDirty; split <;> rfl
  rw [this, readF_writeF, if_pos rfl]

/-! ## The dot product -/

theorem vdotLegal_iff (s : State) (vm : Bool) (vd : Reg) (groups : List Reg) :
    vdotLegal s vm vd groups = true ↔ VdotRuns s vm vd groups := by
  constructor
  · intro h
    simp only [vdotLegal, Bool.and_eq_true, beq_iff_eq, Bool.not_eq_true', Bool.and_eq_false_iff,
      List.all_eq_true, groupOk, decide_eq_false_iff_not, unitOff] at h
    obtain ⟨⟨⟨⟨h1, h2⟩, h3⟩, h4⟩, h5⟩ := h
    refine ⟨h1, ?_, h3, h4, ?_⟩
    · intro hv he
      simp [hv, he] at h2
    · intro hvm hvd
      have : 1 ≤ lmul s.vtype := by unfold lmul; exact Nat.one_le_two_pow
      simp [hvm, hvd] at h5
      omega
  · rintro ⟨h1, h2, h3, h4, h5⟩
    simp only [vdotLegal, Bool.and_eq_true, beq_iff_eq, Bool.not_eq_true', Bool.and_eq_false_iff,
      List.all_eq_true, groupOk, decide_eq_false_iff_not, unitOff]
    refine ⟨⟨⟨⟨h1, ?_⟩, h3⟩, h4⟩, ?_⟩
    · cases hv : s.cfg.vsGated
      · simp
      · right; simpa using h2 hv
    · cases vm
      · by_cases hvd : vd = 0
        · right; rw [h5 rfl hvd]; omega
        · left; right; simpa using hvd
      · left; left; rfl

theorem factorByte_toInt (q : Factor) (v : BitVec 32) (k : Nat) :
    (factorByte q v k).toInt = factorInt q v k := by
  cases q
  · simp only [factorByte, factorInt]
    rw [BitVec.toInt_signExtend_of_le (by omega)]
  · simp only [factorByte, factorInt]
    have := (v.extractLsb' (8 * k) 8).isLt
    have h2 : ((v.extractLsb' (8 * k) 8).setWidth 32).toNat = (v.extractLsb' (8 * k) 8).toNat := by
      rw [BitVec.toNat_setWidth]; omega
    rw [BitVec.toInt_eq_toNat_of_lt (by rw [h2]; omega), h2]

/-- Where mask bit `j` lies. -/
theorem maskBit_eq (s : State) (j : Nat) :
    maskBit s j = (s.vregs.getD (maskAt s j / 32) 0).getLsbD (maskAt s j % 32) := by
  unfold maskBit maskPos maskAt
  cases s.cfg.maskLayout <;> simp

/-- The dot product is the exact sum, modulo 2^32. -/
theorem dot_toInt (on : Nat → Bool) (qa qb : Factor) (a b t : BitVec 32) :
    (dot qa qb on a b t).toInt = Int.bmod (t.toInt + dotInt on qa qb a b) (2 ^ 32) := by
  have step : ∀ (l : List Nat) (acc : BitVec 32) (x : Int), acc.toInt = Int.bmod x (2 ^ 32) →
      (l.foldl (fun acc k => if on k then
          acc + factorByte qa a k * factorByte qb b k else acc) acc).toInt =
        Int.bmod (x + (l.map fun k =>
          if on k then factorInt qa a k * factorInt qb b k else 0).sum) (2 ^ 32) := by
    intro l
    induction l with
    | nil => intro acc x h; simpa using h
    | cons k l ih =>
      intro acc x h
      simp only [List.foldl_cons, List.map_cons, List.sum_cons]
      rw [ih _ (x + if on k then factorInt qa a k * factorInt qb b k else 0), add_assoc]
      split
      · rw [BitVec.toInt_add, BitVec.toInt_mul, h, factorByte_toInt, factorByte_toInt]
        simp
      · simpa using h
  unfold dot dotInt
  exact step _ t t.toInt (by
    rw [Int.bmod_eq_of_le] <;> have := t.toInt_lt <;> have := t.le_toInt <;> norm_num at * <;> omega)

/-! ## Register arithmetic -/

theorem execArith_spec (i : Instr) (rd : Reg) (v : Word) (s : State) (ha : available s i = true) :
    ∃ t, execArith i rd v s = .next t ∧ NextInsn s t ∧ RegistersOnly s t [rd] ∧
      (rd ≠ 0 → readX t rd = truncX s.cfg v) :=
  ⟨_, by unfold execArith; rw [ha, requireLegal_true]; rfl,
    nextInsn_advance _ _ (by simp) (by rw [writeX_form]), registersOnly_writeX s rd v,
    fun h0 => readX_writeX_self _ _ _ h0⟩

/-- A sign-extended word, as a number. -/
theorem sextX_toNat (c : Config) (v : BitVec 32) :
    ((truncX c (sextX c v)).toNat : Int) = v.toInt % 2 ^ xlenBits c := by
  unfold sextX
  rw [truncX_truncX, truncX_toNat, Int.natCast_mod]
  have h1 : (v.signExtend 64).toInt = v.toInt := BitVec.toInt_signExtend_of_le (by omega)
  rw [← h1, BitVec.toInt_eq_toNat_cond]
  have := (v.signExtend 64).isLt
  rcases xlenBits_cases c with h | h <;> rw [h] <;> push_cast <;> split <;> omega

/-- The run of bits equal to `b` from the top ends at the first bit that differs. -/
theorem leadingRun_spec (v : Word) (b : Bool) (n : Nat) : leadingRun v b n ≤ n ∧
    (∀ k < leadingRun v b n, v.getLsbD (n - 1 - k) = b) ∧
    (leadingRun v b n < n → v.getLsbD (n - 1 - leadingRun v b n) ≠ b) := by
  induction n with
  | zero => simp [leadingRun]
  | succ n ih =>
    obtain ⟨h1, h2, h3⟩ := ih
    unfold leadingRun
    split
    · next h =>
      refine ⟨by omega, ?_, ?_⟩
      · intro k hk
        cases k with
        | zero => simpa using h
        | succ k => have := h2 k (by omega); rwa [show n + 1 - 1 - (k + 1) = n - 1 - k by omega]
      · intro hlt
        have := h3 (by omega)
        rwa [show n + 1 - 1 - (leadingRun v b n + 1) = n - 1 - leadingRun v b n by omega]
    · next h => simpa using h

/-! ## The set/way operand -/

theorem setWay_fields (g : CacheGeom) (v : Word) (way set lv : Nat) (hg : geomWf g = true)
    (hw : way < 2 ^ g.w) (hs : set < 2 ^ g.s) (hl : lv < 8)
    (h : v.toNat = way * 2 ^ (32 - g.w) + set * 2 ^ g.l + lv * 2) :
    setWayWay g v = way ∧ setWaySet g v = set ∧ setWayLevel v = lv := by
  simp only [geomWf, Bool.and_eq_true, decide_eq_true_eq] at hg
  obtain ⟨h4, h32⟩ := hg
  have hlow : lv * 2 < 2 ^ g.l := by
    calc lv * 2 < 16 := by omega
      _ = 2 ^ 4 := by norm_num
      _ ≤ 2 ^ g.l := Nat.pow_le_pow_right (by norm_num) h4
  have hmid : set * 2 ^ g.l + lv * 2 < 2 ^ (g.s + g.l) := by
    rw [Nat.pow_add]
    calc set * 2 ^ g.l + lv * 2 < set * 2 ^ g.l + 2 ^ g.l := by omega
      _ = (set + 1) * 2 ^ g.l := by ring
      _ ≤ 2 ^ g.s * 2 ^ g.l := Nat.mul_le_mul_right _ hs
  have hmid2 : set * 2 ^ g.l + lv * 2 < 2 ^ (32 - g.w) :=
    lt_of_lt_of_le hmid (Nat.pow_le_pow_right (by norm_num) (by omega))
  have htot : v.toNat < 2 ^ 32 := by
    rw [h]
    calc way * 2 ^ (32 - g.w) + set * 2 ^ g.l + lv * 2
        < way * 2 ^ (32 - g.w) + 2 ^ (32 - g.w) := by omega
      _ = (way + 1) * 2 ^ (32 - g.w) := by ring
      _ ≤ 2 ^ g.w * 2 ^ (32 - g.w) := Nat.mul_le_mul_right _ hw
      _ = 2 ^ 32 := by rw [← Nat.pow_add]; congr 1; omega
  refine ⟨?_, ?_, ?_⟩
  · unfold setWayWay
    rw [Nat.mod_eq_of_lt htot, h, add_assoc, Nat.mul_comm, Nat.mul_add_div (by positivity),
      Nat.div_eq_of_lt hmid2, add_zero]
  · unfold setWaySet
    have e : way * 2 ^ (32 - g.w) = (way * 2 ^ (32 - g.w - g.s - g.l)) * 2 ^ g.s * 2 ^ g.l := by
      rw [mul_assoc, mul_assoc, ← Nat.pow_add, ← Nat.pow_add]; congr 2; omega
    rw [h, e, ← Nat.add_mul, Nat.mul_comm, Nat.mul_add_div (by positivity), Nat.div_eq_of_lt hlow,
      add_zero, Nat.mul_comm, Nat.mul_add_mod, Nat.mod_eq_of_lt hs]
  · unfold setWayLevel
    have e1 : (v.extractLsb' 1 3).toNat = v.toNat / 2 % 8 := by
      simp [BitVec.extractLsb', Nat.shiftRight_eq_div_pow]
    rw [e1, h]
    have e : way * 2 ^ (32 - g.w) = (way * 2 ^ (32 - g.w - 4)) * 16 := by
      rw [mul_assoc, show 16 = 2 ^ 4 by norm_num, ← Nat.pow_add]; congr 2; omega
    have e2 : set * 2 ^ g.l = (set * 2 ^ (g.l - 4)) * 16 := by
      rw [mul_assoc, show 16 = 2 ^ 4 by norm_num, ← Nat.pow_add]; congr 2; omega
    rw [e, e2]
    omega

theorem setWay_lt (g : CacheGeom) (v : Word) (hg : geomWf g = true) :
    setWayWay g v < 2 ^ g.w ∧ setWaySet g v < 2 ^ g.s := by
  simp only [geomWf, Bool.and_eq_true, decide_eq_true_eq] at hg
  refine ⟨?_, Nat.mod_lt _ (by positivity)⟩
  unfold setWayWay
  rw [Nat.div_lt_iff_lt_mul (by positivity), ← Nat.pow_add, show g.w + (32 - g.w) = 32 by omega]
  exact Nat.mod_lt _ (by norm_num)

/-! ## Broadcasts -/

/-- Another hart after the broadcasts of a sender have been performed on it. -/
theorem completeFrom_spec (c : Config) (id : Word) (h : Hart) :
    (completeFrom c id h).pending = h.pending.filter (·.sender != id) ∧
    (completeFrom c id h).ic = (if ⟨id, .invalidateICache⟩ ∈ h.pending then [] else h.ic) ∧
    (∀ e, e ∈ (completeFrom c id h).tlb ↔ e ∈ h.tlb ∧
      ∀ va asid, ⟨id, .invalidateTlb va asid⟩ ∈ h.pending → tlbHit c va asid e = false) ∧
    { completeFrom c id h with pending := h.pending, ic := h.ic, tlb := h.tlb } = h := by
  have key : ∀ (l : List Pending) (q : Hart), (∀ p ∈ l, p.sender = id) →
      (l.foldl (fun u p => performBroadcast c u p.op) q).ic =
        (if ⟨id, .invalidateICache⟩ ∈ l then [] else q.ic) ∧
      (∀ e, e ∈ (l.foldl (fun u p => performBroadcast c u p.op) q).tlb ↔ e ∈ q.tlb ∧
        ∀ va asid, ⟨id, .invalidateTlb va asid⟩ ∈ l → tlbHit c va asid e = false) ∧
      { l.foldl (fun u p => performBroadcast c u p.op) q with
        pending := q.pending, ic := q.ic, tlb := q.tlb } = q := by
    intro l
    induction l with
    | nil => intro q _; simp
    | cons b l ih =>
      intro q hb
      obtain ⟨sender, op⟩ := b
      obtain rfl : sender = id := hb _ List.mem_cons_self
      obtain ⟨h1, h2, h3⟩ := ih (performBroadcast c q op) fun p hp => hb p (List.mem_cons_of_mem _ hp)
      rw [List.foldl_cons]
      refine ⟨?_, fun e => ?_, ?_⟩
      · rw [h1]
        cases op <;> simp [performBroadcast]
      · rw [h2]
        cases op with
        | invalidateICache => simp [performBroadcast]
        | invalidateTlb va asid =>
          simp only [performBroadcast, tlbWithout, List.mem_filter, List.mem_cons, Pending.mk.injEq,
            true_and, Broadcast.invalidateTlb.injEq]
          constructor
          · rintro ⟨⟨h3, h4⟩, h5⟩
            refine ⟨h3, fun va' asid' h => ?_⟩
            rcases h with ⟨rfl, rfl⟩ | h
            · simpa using h4
            · exact h5 _ _ h
          · rintro ⟨h3, h4⟩
            exact ⟨⟨h3, by simpa using h4 va asid (.inl ⟨rfl, rfl⟩)⟩,
              fun va' asid' h => h4 _ _ (.inr h)⟩
      · generalize l.foldl (fun u p => performBroadcast c u p.op) (performBroadcast c q op) = w at h3
        rcases q with ⟨⟩; rcases w with ⟨⟩
        cases op <;> simp_all [performBroadcast]
  obtain ⟨h1, h2, h3⟩ := key (h.pending.filter (·.sender == id)) h fun p hp => by
    simpa using (List.mem_filter.1 hp).2
  refine ⟨rfl, ?_, fun e => ?_, h3⟩
  · show (List.foldl _ h _).ic = _
    rw [h1]; simp
  · show e ∈ (List.foldl _ h _).tlb ↔ _
    rw [h2]; simp

end Sys2Proof
end

