-- ==== Sys2Proof/Laws/PerInstr.lean ====
section
/-! SUPPORT. A statement about every instruction, made constructor by constructor. -/

namespace Sys2Proof.Laws

/-- The encoding of an instruction is a word of the custom-0 opcode (30 R121). -/
def encodeOpcode.Statement (i : Instr) : Prop := opcodeF (encode i) = 0b0001011#7

theorem encodeOpcode.dcacheCall :
    encodeOpcode.Statement .dcacheCall := opcodeF_wordR ..
theorem encodeOpcode.dcacheCiall :
    encodeOpcode.Statement .dcacheCiall := opcodeF_wordR ..
theorem encodeOpcode.dcacheIall :
    encodeOpcode.Statement .dcacheIall := opcodeF_wordR ..
theorem encodeOpcode.dcacheCpa (rs1 : Reg) :
    encodeOpcode.Statement (.dcacheCpa rs1) := opcodeF_wordR ..
theorem encodeOpcode.dcacheCipa (rs1 : Reg) :
    encodeOpcode.Statement (.dcacheCipa rs1) := opcodeF_wordR ..
theorem encodeOpcode.dcacheIpa (rs1 : Reg) :
    encodeOpcode.Statement (.dcacheIpa rs1) := opcodeF_wordR ..
theorem encodeOpcode.dcacheCva (rs1 : Reg) :
    encodeOpcode.Statement (.dcacheCva rs1) := opcodeF_wordR ..
theorem encodeOpcode.dcacheCiva (rs1 : Reg) :
    encodeOpcode.Statement (.dcacheCiva rs1) := opcodeF_wordR ..
theorem encodeOpcode.dcacheIva (rs1 : Reg) :
    encodeOpcode.Statement (.dcacheIva rs1) := opcodeF_wordR ..
theorem encodeOpcode.dcacheCsw (rs1 : Reg) :
    encodeOpcode.Statement (.dcacheCsw rs1) := opcodeF_wordR ..
theorem encodeOpcode.dcacheCisw (rs1 : Reg) :
    encodeOpcode.Statement (.dcacheCisw rs1) := opcodeF_wordR ..
theorem encodeOpcode.dcacheIsw (rs1 : Reg) :
    encodeOpcode.Statement (.dcacheIsw rs1) := opcodeF_wordR ..
theorem encodeOpcode.dcacheCpal1 (rs1 : Reg) :
    encodeOpcode.Statement (.dcacheCpal1 rs1) := opcodeF_wordR ..
theorem encodeOpcode.dcacheCval1 (rs1 : Reg) :
    encodeOpcode.Statement (.dcacheCval1 rs1) := opcodeF_wordR ..
theorem encodeOpcode.icacheIall :
    encodeOpcode.Statement .icacheIall := opcodeF_wordR ..
theorem encodeOpcode.icacheIalls :
    encodeOpcode.Statement .icacheIalls := opcodeF_wordR ..
theorem encodeOpcode.icacheIpa (rs1 : Reg) :
    encodeOpcode.Statement (.icacheIpa rs1) := opcodeF_wordR ..
theorem encodeOpcode.icacheIva (rs1 : Reg) :
    encodeOpcode.Statement (.icacheIva rs1) := opcodeF_wordR ..
theorem encodeOpcode.l2cacheCall :
    encodeOpcode.Statement .l2cacheCall := opcodeF_wordR ..
theorem encodeOpcode.l2cacheCiall :
    encodeOpcode.Statement .l2cacheCiall := opcodeF_wordR ..
theorem encodeOpcode.l2cacheIall :
    encodeOpcode.Statement .l2cacheIall := opcodeF_wordR ..
theorem encodeOpcode.sfenceVmas (rs1 rs2 : Reg) :
    encodeOpcode.Statement (.sfenceVmas rs1 rs2) := opcodeF_wordR ..
theorem encodeOpcode.sync :
    encodeOpcode.Statement .sync := opcodeF_wordR ..
theorem encodeOpcode.syncS :
    encodeOpcode.Statement .syncS := opcodeF_wordR ..
theorem encodeOpcode.syncI :
    encodeOpcode.Statement .syncI := opcodeF_wordR ..
theorem encodeOpcode.syncIs :
    encodeOpcode.Statement .syncIs := opcodeF_wordR ..
theorem encodeOpcode.addsl (rd rs1 rs2 : Reg) (imm2 : BitVec 2) :
    encodeOpcode.Statement (.addsl rd rs1 rs2 imm2) := opcodeF_wordRS ..
theorem encodeOpcode.srri (rd rs1 : Reg) (imm6 : BitVec 6) :
    encodeOpcode.Statement (.srri rd rs1 imm6) := opcodeF_wordI6 ..
theorem encodeOpcode.srriw (rd rs1 : Reg) (imm5 : BitVec 5) :
    encodeOpcode.Statement (.srriw rd rs1 imm5) := opcodeF_wordR ..
theorem encodeOpcode.ext (rd rs1 : Reg) (imm1 imm2 : BitVec 6) :
    encodeOpcode.Statement (.ext rd rs1 imm1 imm2) := opcodeF_wordI6 ..
theorem encodeOpcode.extu (rd rs1 : Reg) (imm1 imm2 : BitVec 6) :
    encodeOpcode.Statement (.extu rd rs1 imm1 imm2) := opcodeF_wordI6 ..
theorem encodeOpcode.ff0 (rd rs1 : Reg) :
    encodeOpcode.Statement (.ff0 rd rs1) := opcodeF_wordR ..
theorem encodeOpcode.ff1 (rd rs1 : Reg) :
    encodeOpcode.Statement (.ff1 rd rs1) := opcodeF_wordR ..
theorem encodeOpcode.rev (rd rs1 : Reg) :
    encodeOpcode.Statement (.rev rd rs1) := opcodeF_wordR ..
theorem encodeOpcode.revw (rd rs1 : Reg) :
    encodeOpcode.Statement (.revw rd rs1) := opcodeF_wordR ..
theorem encodeOpcode.tstnbz (rd rs1 : Reg) :
    encodeOpcode.Statement (.tstnbz rd rs1) := opcodeF_wordR ..
theorem encodeOpcode.tst (rd rs1 : Reg) (imm6 : BitVec 6) :
    encodeOpcode.Statement (.tst rd rs1 imm6) := opcodeF_wordI6 ..
theorem encodeOpcode.mveqz (rd rs1 rs2 : Reg) :
    encodeOpcode.Statement (.mveqz rd rs1 rs2) := opcodeF_wordR ..
theorem encodeOpcode.mvnez (rd rs1 rs2 : Reg) :
    encodeOpcode.Statement (.mvnez rd rs1 rs2) := opcodeF_wordR ..
theorem encodeOpcode.lbia (rd rs1 : Reg) (imm5 : BitVec 5) (imm2 : BitVec 2) :
    encodeOpcode.Statement (.lbia rd rs1 imm5 imm2) := opcodeF_wordRS ..
theorem encodeOpcode.lbib (rd rs1 : Reg) (imm5 : BitVec 5) (imm2 : BitVec 2) :
    encodeOpcode.Statement (.lbib rd rs1 imm5 imm2) := opcodeF_wordRS ..
theorem encodeOpcode.lbuia (rd rs1 : Reg) (imm5 : BitVec 5) (imm2 : BitVec 2) :
    encodeOpcode.Statement (.lbuia rd rs1 imm5 imm2) := opcodeF_wordRS ..
theorem encodeOpcode.lbuib (rd rs1 : Reg) (imm5 : BitVec 5) (imm2 : BitVec 2) :
    encodeOpcode.Statement (.lbuib rd rs1 imm5 imm2) := opcodeF_wordRS ..
theorem encodeOpcode.lhia (rd rs1 : Reg) (imm5 : BitVec 5) (imm2 : BitVec 2) :
    encodeOpcode.Statement (.lhia rd rs1 imm5 imm2) := opcodeF_wordRS ..
theorem encodeOpcode.lhib (rd rs1 : Reg) (imm5 : BitVec 5) (imm2 : BitVec 2) :
    encodeOpcode.Statement (.lhib rd rs1 imm5 imm2) := opcodeF_wordRS ..
theorem encodeOpcode.lhuia (rd rs1 : Reg) (imm5 : BitVec 5) (imm2 : BitVec 2) :
    encodeOpcode.Statement (.lhuia rd rs1 imm5 imm2) := opcodeF_wordRS ..
theorem encodeOpcode.lhuib (rd rs1 : Reg) (imm5 : BitVec 5) (imm2 : BitVec 2) :
    encodeOpcode.Statement (.lhuib rd rs1 imm5 imm2) := opcodeF_wordRS ..
theorem encodeOpcode.lwia (rd rs1 : Reg) (imm5 : BitVec 5) (imm2 : BitVec 2) :
    encodeOpcode.Statement (.lwia rd rs1 imm5 imm2) := opcodeF_wordRS ..
theorem encodeOpcode.lwib (rd rs1 : Reg) (imm5 : BitVec 5) (imm2 : BitVec 2) :
    encodeOpcode.Statement (.lwib rd rs1 imm5 imm2) := opcodeF_wordRS ..
theorem encodeOpcode.lwuia (rd rs1 : Reg) (imm5 : BitVec 5) (imm2 : BitVec 2) :
    encodeOpcode.Statement (.lwuia rd rs1 imm5 imm2) := opcodeF_wordRS ..
theorem encodeOpcode.lwuib (rd rs1 : Reg) (imm5 : BitVec 5) (imm2 : BitVec 2) :
    encodeOpcode.Statement (.lwuib rd rs1 imm5 imm2) := opcodeF_wordRS ..
theorem encodeOpcode.ldia (rd rs1 : Reg) (imm5 : BitVec 5) (imm2 : BitVec 2) :
    encodeOpcode.Statement (.ldia rd rs1 imm5 imm2) := opcodeF_wordRS ..
theorem encodeOpcode.ldib (rd rs1 : Reg) (imm5 : BitVec 5) (imm2 : BitVec 2) :
    encodeOpcode.Statement (.ldib rd rs1 imm5 imm2) := opcodeF_wordRS ..
theorem encodeOpcode.sbia (rd rs1 : Reg) (imm5 : BitVec 5) (imm2 : BitVec 2) :
    encodeOpcode.Statement (.sbia rd rs1 imm5 imm2) := opcodeF_wordRS ..
theorem encodeOpcode.sbib (rd rs1 : Reg) (imm5 : BitVec 5) (imm2 : BitVec 2) :
    encodeOpcode.Statement (.sbib rd rs1 imm5 imm2) := opcodeF_wordRS ..
theorem encodeOpcode.shia (rd rs1 : Reg) (imm5 : BitVec 5) (imm2 : BitVec 2) :
    encodeOpcode.Statement (.shia rd rs1 imm5 imm2) := opcodeF_wordRS ..
theorem encodeOpcode.shib (rd rs1 : Reg) (imm5 : BitVec 5) (imm2 : BitVec 2) :
    encodeOpcode.Statement (.shib rd rs1 imm5 imm2) := opcodeF_wordRS ..
theorem encodeOpcode.swia (rd rs1 : Reg) (imm5 : BitVec 5) (imm2 : BitVec 2) :
    encodeOpcode.Statement (.swia rd rs1 imm5 imm2) := opcodeF_wordRS ..
theorem encodeOpcode.swib (rd rs1 : Reg) (imm5 : BitVec 5) (imm2 : BitVec 2) :
    encodeOpcode.Statement (.swib rd rs1 imm5 imm2) := opcodeF_wordRS ..
theorem encodeOpcode.sdia (rd rs1 : Reg) (imm5 : BitVec 5) (imm2 : BitVec 2) :
    encodeOpcode.Statement (.sdia rd rs1 imm5 imm2) := opcodeF_wordRS ..
theorem encodeOpcode.sdib (rd rs1 : Reg) (imm5 : BitVec 5) (imm2 : BitVec 2) :
    encodeOpcode.Statement (.sdib rd rs1 imm5 imm2) := opcodeF_wordRS ..
theorem encodeOpcode.lrb (rd rs1 rs2 : Reg) (imm2 : BitVec 2) :
    encodeOpcode.Statement (.lrb rd rs1 rs2 imm2) := opcodeF_wordRS ..
theorem encodeOpcode.lrbu (rd rs1 rs2 : Reg) (imm2 : BitVec 2) :
    encodeOpcode.Statement (.lrbu rd rs1 rs2 imm2) := opcodeF_wordRS ..
theorem encodeOpcode.lrh (rd rs1 rs2 : Reg) (imm2 : BitVec 2) :
    encodeOpcode.Statement (.lrh rd rs1 rs2 imm2) := opcodeF_wordRS ..
theorem encodeOpcode.lrhu (rd rs1 rs2 : Reg) (imm2 : BitVec 2) :
    encodeOpcode.Statement (.lrhu rd rs1 rs2 imm2) := opcodeF_wordRS ..
theorem encodeOpcode.lrw (rd rs1 rs2 : Reg) (imm2 : BitVec 2) :
    encodeOpcode.Statement (.lrw rd rs1 rs2 imm2) := opcodeF_wordRS ..
theorem encodeOpcode.lrwu (rd rs1 rs2 : Reg) (imm2 : BitVec 2) :
    encodeOpcode.Statement (.lrwu rd rs1 rs2 imm2) := opcodeF_wordRS ..
theorem encodeOpcode.lrd (rd rs1 rs2 : Reg) (imm2 : BitVec 2) :
    encodeOpcode.Statement (.lrd rd rs1 rs2 imm2) := opcodeF_wordRS ..
theorem encodeOpcode.srb (rd rs1 rs2 : Reg) (imm2 : BitVec 2) :
    encodeOpcode.Statement (.srb rd rs1 rs2 imm2) := opcodeF_wordRS ..
theorem encodeOpcode.srh (rd rs1 rs2 : Reg) (imm2 : BitVec 2) :
    encodeOpcode.Statement (.srh rd rs1 rs2 imm2) := opcodeF_wordRS ..
theorem encodeOpcode.srw (rd rs1 rs2 : Reg) (imm2 : BitVec 2) :
    encodeOpcode.Statement (.srw rd rs1 rs2 imm2) := opcodeF_wordRS ..
theorem encodeOpcode.srd (rd rs1 rs2 : Reg) (imm2 : BitVec 2) :
    encodeOpcode.Statement (.srd rd rs1 rs2 imm2) := opcodeF_wordRS ..
theorem encodeOpcode.lurb (rd rs1 rs2 : Reg) (imm2 : BitVec 2) :
    encodeOpcode.Statement (.lurb rd rs1 rs2 imm2) := opcodeF_wordRS ..
theorem encodeOpcode.lurbu (rd rs1 rs2 : Reg) (imm2 : BitVec 2) :
    encodeOpcode.Statement (.lurbu rd rs1 rs2 imm2) := opcodeF_wordRS ..
theorem encodeOpcode.lurh (rd rs1 rs2 : Reg) (imm2 : BitVec 2) :
    encodeOpcode.Statement (.lurh rd rs1 rs2 imm2) := opcodeF_wordRS ..
theorem encodeOpcode.lurhu (rd rs1 rs2 : Reg) (imm2 : BitVec 2) :
    encodeOpcode.Statement (.lurhu rd rs1 rs2 imm2) := opcodeF_wordRS ..
theorem encodeOpcode.lurw (rd rs1 rs2 : Reg) (imm2 : BitVec 2) :
    encodeOpcode.Statement (.lurw rd rs1 rs2 imm2) := opcodeF_wordRS ..
theorem encodeOpcode.lurwu (rd rs1 rs2 : Reg) (imm2 : BitVec 2) :
    encodeOpcode.Statement (.lurwu rd rs1 rs2 imm2) := opcodeF_wordRS ..
theorem encodeOpcode.lurd (rd rs1 rs2 : Reg) (imm2 : BitVec 2) :
    encodeOpcode.Statement (.lurd rd rs1 rs2 imm2) := opcodeF_wordRS ..
theorem encodeOpcode.surb (rd rs1 rs2 : Reg) (imm2 : BitVec 2) :
    encodeOpcode.Statement (.surb rd rs1 rs2 imm2) := opcodeF_wordRS ..
theorem encodeOpcode.surh (rd rs1 rs2 : Reg) (imm2 : BitVec 2) :
    encodeOpcode.Statement (.surh rd rs1 rs2 imm2) := opcodeF_wordRS ..
theorem encodeOpcode.surw (rd rs1 rs2 : Reg) (imm2 : BitVec 2) :
    encodeOpcode.Statement (.surw rd rs1 rs2 imm2) := opcodeF_wordRS ..
theorem encodeOpcode.surd (rd rs1 rs2 : Reg) (imm2 : BitVec 2) :
    encodeOpcode.Statement (.surd rd rs1 rs2 imm2) := opcodeF_wordRS ..
theorem encodeOpcode.ldd (rd1 rd2 rs1 : Reg) (imm2 : BitVec 2) :
    encodeOpcode.Statement (.ldd rd1 rd2 rs1 imm2) := opcodeF_wordRS ..
theorem encodeOpcode.lwd (rd1 rd2 rs1 : Reg) (imm2 : BitVec 2) :
    encodeOpcode.Statement (.lwd rd1 rd2 rs1 imm2) := opcodeF_wordRS ..
theorem encodeOpcode.lwud (rd1 rd2 rs1 : Reg) (imm2 : BitVec 2) :
    encodeOpcode.Statement (.lwud rd1 rd2 rs1 imm2) := opcodeF_wordRS ..
theorem encodeOpcode.sdd (rd1 rd2 rs1 : Reg) (imm2 : BitVec 2) :
    encodeOpcode.Statement (.sdd rd1 rd2 rs1 imm2) := opcodeF_wordRS ..
theorem encodeOpcode.swd (rd1 rd2 rs1 : Reg) (imm2 : BitVec 2) :
    encodeOpcode.Statement (.swd rd1 rd2 rs1 imm2) := opcodeF_wordRS ..
theorem encodeOpcode.flrd (rd rs1 rs2 : Reg) (imm2 : BitVec 2) :
    encodeOpcode.Statement (.flrd rd rs1 rs2 imm2) := opcodeF_wordRS ..
theorem encodeOpcode.flrw (rd rs1 rs2 : Reg) (imm2 : BitVec 2) :
    encodeOpcode.Statement (.flrw rd rs1 rs2 imm2) := opcodeF_wordRS ..
theorem encodeOpcode.flurd (rd rs1 rs2 : Reg) (imm2 : BitVec 2) :
    encodeOpcode.Statement (.flurd rd rs1 rs2 imm2) := opcodeF_wordRS ..
theorem encodeOpcode.flurw (rd rs1 rs2 : Reg) (imm2 : BitVec 2) :
    encodeOpcode.Statement (.flurw rd rs1 rs2 imm2) := opcodeF_wordRS ..
theorem encodeOpcode.fsrd (rd rs1 rs2 : Reg) (imm2 : BitVec 2) :
    encodeOpcode.Statement (.fsrd rd rs1 rs2 imm2) := opcodeF_wordRS ..
theorem encodeOpcode.fsrw (rd rs1 rs2 : Reg) (imm2 : BitVec 2) :
    encodeOpcode.Statement (.fsrw rd rs1 rs2 imm2) := opcodeF_wordRS ..
theorem encodeOpcode.fsurd (rd rs1 rs2 : Reg) (imm2 : BitVec 2) :
    encodeOpcode.Statement (.fsurd rd rs1 rs2 imm2) := opcodeF_wordRS ..
theorem encodeOpcode.fsurw (rd rs1 rs2 : Reg) (imm2 : BitVec 2) :
    encodeOpcode.Statement (.fsurw rd rs1 rs2 imm2) := opcodeF_wordRS ..
theorem encodeOpcode.mula (rd rs1 rs2 : Reg) :
    encodeOpcode.Statement (.mula rd rs1 rs2) := opcodeF_wordR ..
theorem encodeOpcode.mulah (rd rs1 rs2 : Reg) :
    encodeOpcode.Statement (.mulah rd rs1 rs2) := opcodeF_wordR ..
theorem encodeOpcode.mulaw (rd rs1 rs2 : Reg) :
    encodeOpcode.Statement (.mulaw rd rs1 rs2) := opcodeF_wordR ..
theorem encodeOpcode.muls (rd rs1 rs2 : Reg) :
    encodeOpcode.Statement (.muls rd rs1 rs2) := opcodeF_wordR ..
theorem encodeOpcode.mulsh (rd rs1 rs2 : Reg) :
    encodeOpcode.Statement (.mulsh rd rs1 rs2) := opcodeF_wordR ..
theorem encodeOpcode.mulsw (rd rs1 rs2 : Reg) :
    encodeOpcode.Statement (.mulsw rd rs1 rs2) := opcodeF_wordR ..
theorem encodeOpcode.fmvXHw (rd fs1 : Reg) :
    encodeOpcode.Statement (.fmvXHw rd fs1) := opcodeF_wordR ..
theorem encodeOpcode.fmvHwX (rd fs1 : Reg) :
    encodeOpcode.Statement (.fmvHwX rd fs1) := opcodeF_wordR ..
theorem encodeOpcode.ipush :
    encodeOpcode.Statement .ipush := opcodeF_wordR ..
theorem encodeOpcode.ipop :
    encodeOpcode.Statement .ipop := opcodeF_wordR ..
theorem encodeOpcode.vmaqaVv (vd vs1 vs2 : Reg) (vm : Bool) :
    encodeOpcode.Statement (.vmaqaVv vd vs1 vs2 vm) := opcodeF_wordV ..
theorem encodeOpcode.vmaqaVx (vd rs1 vs2 : Reg) (vm : Bool) :
    encodeOpcode.Statement (.vmaqaVx vd rs1 vs2 vm) := opcodeF_wordV ..
theorem encodeOpcode.vmaqauVv (vd vs1 vs2 : Reg) (vm : Bool) :
    encodeOpcode.Statement (.vmaqauVv vd vs1 vs2 vm) := opcodeF_wordV ..
theorem encodeOpcode.vmaqauVx (vd rs1 vs2 : Reg) (vm : Bool) :
    encodeOpcode.Statement (.vmaqauVx vd rs1 vs2 vm) := opcodeF_wordV ..
theorem encodeOpcode.vmaqasuVv (vd vs1 vs2 : Reg) (vm : Bool) :
    encodeOpcode.Statement (.vmaqasuVv vd vs1 vs2 vm) := opcodeF_wordV ..
theorem encodeOpcode.vmaqasuVx (vd rs1 vs2 : Reg) (vm : Bool) :
    encodeOpcode.Statement (.vmaqasuVx vd rs1 vs2 vm) := opcodeF_wordV ..
theorem encodeOpcode.vmaqausVx (vd rs1 vs2 : Reg) (vm : Bool) :
    encodeOpcode.Statement (.vmaqausVx vd rs1 vs2 vm) := opcodeF_wordV ..

end Sys2Proof.Laws
end

