-- ==== Sys2Proof/Laws/Sync.lean ====
section
/-! SUPPORT. What a barrier does to storage with `SYNC_I_SUFFICIENT`: that the lines it writes to the next level
leave storage as it should be and every register of every hart alone. -/

namespace Sys2Proof

open Machine

/-! ## Every line of a D-cache written -/

/-- The lines of the D-cache, each marked dirty. -/
def dirtied (s : State) : State := { s with dc := s.dc.map fun ln => { ln with dirty := true } }

theorem writeAllLines_eq (s : State) :
    writeAllLines s = cleanLines (dirtied s) .dc (allLines (dirtied s) .dc) := rfl

theorem cacheLines_dirtied (s : State) :
    cacheLines (dirtied s) .dc = (cacheLines s .dc).map fun ln => { ln with dirty := true } := by
  unfold cacheLines
  split <;> simp_all [dirtied, storedLines]

theorem cacheLines_dirtied_of_ne (s : State) {c : CacheId} (h : c ≠ .dc) :
    cacheLines (dirtied s) c = cacheLines s c := by
  cases c <;> first | rfl | exact absurd rfl h

theorem StorageInv.dirtied {s : State} (h : StorageInv s) : StorageInv (dirtied s) where
  mem_wf := h.mem_wf
  caches := by
    refine ⟨fun c => ?_, fun ln hl => h.caches.ic_clean ln hl, h.caches.others⟩
    by_cases e : c = .dc
    · subst e
      rw [cacheLines_dirtied]
      exact (h.caches.lines .dc).map _ fun _ => ⟨rfl, rfl, rfl⟩
    · rw [cacheLines_dirtied_of_ne s e]; exact h.caches.lines c
  l2_clean ln hl hd a ha := h.l2_clean ln hl hd a ha
  copies_agree := by
    refine h.copies_agree.sub rfl fun q hq => ?_
    rcases List.mem_cons.1 hq with rfl | hq
    · refine ⟨s.toHart, List.mem_cons_self, fun ln hl => ?_⟩
      obtain ⟨m, hm, rfl⟩ := List.mem_map.1 hl
      exact ⟨m, hm, rfl, rfl⟩
    · exact ⟨q, List.mem_cons_of_mem _ hq, fun ln hl => ⟨ln, hl, rfl, rfl⟩⟩

theorem lowerByte_dirtied (s : State) (a : Nat) : lowerByte (dirtied s) a = lowerByte s a := rfl

theorem dataByte_dirtied (s : State) (a : Nat) : dataByte (dirtied s) a = dataByte s a := by
  have hv : viewByte (dirtied s) .dc a = viewByte s .dc a := by
    unfold viewByte heldLine
    rw [cacheLines_dirtied, List.find?_map, Option.map_map]
    rfl
  rw [dataByte_eq, dataByte_eq, hv]
  rfl

/-- Lines cleaned one after another: what the next level holds then, and what data accesses read. -/
theorem lowerByte_cleanLines {s : State} (h : StorageInv s) (as : List Nat) (a : Nat) :
    dataByte (cleanLines s .dc as) a = dataByte s a ∧
    lowerByte (cleanLines s .dc as) a =
      if ∃ ln ∈ cacheLines s .dc, ln.addr ∈ as ∧ ln.dirty = true ∧ lineAddr s.cfg.dcGeom a = ln.addr
      then dataByte s a else lowerByte s a := by
  induction as generalizing s with
  | nil => simp [cleanLines]
  | cons a0 as ih =>
    obtain ⟨_, h2, _, h4, h5, _⟩ := writeback_spec s .dc a0 h.toLevelsInv
    have hcfg := (sameButData_writeback s .dc a0).cfg
    obtain ⟨i1, i2⟩ := ih (h.writeback .dc a0)
    refine ⟨i1.trans (h4 a), ?_⟩
    show lowerByte (cleanLines (writeback s .dc a0) .dc as) a = _
    rw [i2, h4, h5 rfl, h2, hcfg]
    by_cases hA : ∃ ln ∈ cacheLines s .dc, ln.addr ∈ a0 :: as ∧ ln.dirty = true ∧
        lineAddr s.cfg.dcGeom a = ln.addr
    · rw [if_pos hA]
      obtain ⟨ln, hl, hm, hd, e⟩ := hA
      by_cases e0 : ln.addr = a0
      · rw [if_pos (c := ∃ ln ∈ cacheLines s .dc, ln.addr = a0 ∧ ln.dirty = true ∧
          lineAddr s.cfg.dcGeom a = a0) ⟨ln, hl, e0, hd, e.trans e0⟩, ite_self]
      · rw [if_pos ⟨ln, List.mem_map.2 ⟨ln, hl, by simp [e0]⟩, by simpa [e0] using hm, hd, e⟩]
    · rw [if_neg hA, if_neg, if_neg]
      · rintro ⟨ln, hl, e0, hd, e⟩
        exact hA ⟨ln, hl, by simp [e0], hd, by rw [e, e0]⟩
      · rintro ⟨ln, hl, hm, hd, e⟩
        obtain ⟨l, hl', rfl⟩ := List.mem_map.1 hl
        split at hd
        · cases hd
        · next hne => rw [if_neg hne] at hm e; exact hA ⟨l, hl', List.mem_cons_of_mem _ hm, hd, e⟩

theorem sameButData_writeAllLines (s : State) : SameButData s (writeAllLines s) :=
  (show SameButData s (dirtied s) from rfl).trans (sameButData_cleanLines _ .dc _)

/-- Every line of the D-cache written: storage is as it should be, data accesses read as before, and the next
level holds what they read wherever the D-cache has a line. -/
theorem writeAllLines_spec {s : State} (h : StorageInv s) :
    StorageInv (writeAllLines s) ∧ SameButData s (writeAllLines s) ∧
    ∀ a, dataByte (writeAllLines s) a = dataByte s a ∧
      lowerByte (writeAllLines s) a =
        if ∃ ln ∈ cacheLines s .dc, lineAddr s.cfg.dcGeom a = ln.addr then dataByte s a else lowerByte s a := by
  refine ⟨h.dirtied.cleanLines .dc _, sameButData_writeAllLines s, fun a => ?_⟩
  obtain ⟨h1, h2⟩ := lowerByte_cleanLines h.dirtied (allLines (dirtied s) .dc) a
  refine ⟨h1.trans (dataByte_dirtied s a), h2.trans ?_⟩
  rw [dataByte_dirtied, lowerByte_dirtied]
  congr 1
  rw [eq_iff_iff, allLines, cacheLines_dirtied]
  constructor
  · rintro ⟨ln, hl, _, _, e⟩
    obtain ⟨m, hm, rfl⟩ := List.mem_map.1 hl
    exact ⟨m, hm, e⟩
  · rintro ⟨m, hm, e⟩
    exact ⟨_, List.mem_map_of_mem hm, List.mem_map_of_mem (List.mem_map_of_mem hm), rfl, e⟩

/-! ## What is visible, written -/

theorem StorageInv.writeOthersLines {s : State} (h : StorageInv s) (n : Nat) :
    StorageInv (writeOthersLines n s) := by
  induction n with
  | zero => exact h
  | succ n ih => exact ih.onHart (some n) _ fun u hu => (writeAllLines_spec hu).1

theorem StorageInv.writeVisible {s : State} (h : StorageInv s) : StorageInv (writeVisible s) := by
  unfold Machine.writeVisible
  split
  · exact (writeAllLines_spec h).1.writeOthersLines _
  · exact h.cacheOp .clean .dc _

/-- What a barrier with a flush does with `SYNC_I_SUFFICIENT` keeps storage as it should be. -/
theorem StorageInv.syncFetch {s : State} (h : StorageInv s) : StorageInv (syncFetch s) := by
  unfold Machine.syncFetch
  split
  · exact h.writeVisible.cacheOp .invalidate .ic _
  · exact h

theorem agentsOnly_writeOthersLines (s : State) (n : Nat) : AgentsOnly s (writeOthersLines n s) := by
  induction n with
  | zero => exact .refl s
  | succ n ih =>
    exact ih.trans (agentsOnly_onHart _ (some n) _ fun u => (sameButData_writeAllLines u).lines.agents)

/-- It changes no register of any hart. -/
theorem agentsOnly_syncFetch (s : State) : AgentsOnly s (syncFetch s) := by
  unfold syncFetch
  split
  · refine AgentsOnly.trans ?_ (sameButLines_cacheOp .invalidate _ .ic _).agents
    unfold writeVisible
    split
    · exact (sameButData_writeAllLines s).lines.agents.trans (agentsOnly_writeOthersLines _ _)
    · exact (sameButLines_cacheOp .clean s .dc _).agents
  · exact .refl s

end Sys2Proof
end

