-- ==== Sys2Proof/Laws/Turns.lean ====
section
/-! SUPPORT. What the loads and the stores of an instruction do with other agents acting between their
pieces, each said once: `withLoads_inTurn` and `withStores_inTurn`. -/

namespace Sys2Proof

open Machine

/-! ## Orders -/

theorem arrange_map {α β : Type} (f : α → β) (o : List Nat) (l : List α) :
    arrange o (l.map f) = (arrange o l).map f := by
  induction o generalizing l with
  | nil => rfl
  | cons i is ih =>
    simp only [arrange, List.getElem?_map]
    cases l[i]? with
    | none => exact ih l
    | some a => simp only [Option.map_some, List.map_cons, ← ih, List.eraseIdx_map]

/-- Every order of a list is that of some numbers. -/
theorem perm_iff_arrange {α : Type} (l l' : List α) : l'.Perm l ↔ ∃ o, l' = arrange o l := by
  constructor
  · intro h
    induction l' generalizing l with
    | nil => rw [List.nil_perm.1 h]; exact ⟨[], rfl⟩
    | cons a l' ih =>
      obtain ⟨i, hi, ha⟩ := List.mem_iff_getElem.1 (h.mem_iff.1 List.mem_cons_self)
      have hp : l.Perm (a :: l.eraseIdx i) := by
        rw [List.eraseIdx_eq_take_drop_succ]
        refine .trans ?_ List.perm_middle
        rw [← ha, ← List.drop_eq_getElem_cons hi, List.take_append_drop]
      obtain ⟨o, ho⟩ := ih (l.eraseIdx i) ((h.trans hp).cons_inv)
      exact ⟨i :: o, by simp only [arrange, List.getElem?_eq_getElem hi, ha, ho]⟩
  · rintro ⟨o, rfl⟩; exact arrange_perm o l

/-! ## Pieces and parts -/

/-- A part, as the statements say it. -/
def pieceOf (p : Part) : Piece := ⟨p.req, p.access, p.off, p.va, p.n, p.value⟩

theorem pieces_eq (s : State) (qs : List Req) : pieces s qs = (allParts s qs).map pieceOf := by
  unfold pieces allParts
  rw [List.map_flatMap]
  refine List.flatMap_congr fun ⟨q, j⟩ _ => ?_
  unfold partsOf
  by_cases ha : q.va.toNat % q.n = 0
  · simp [ha, pieceOf]
  · cases hm : s.cfg.misaligned <;> simp [ha, pieceOf, Function.comp_def]

/-- The parts of an instruction's accesses in the order of its inputs. -/
def partsInTurn (s : State) (qs : List Req) : List Part := arrange s.inter.order (allParts s qs)

theorem inTurn_eq (s : State) (qs : List Req) : inTurn s qs = (partsInTurn s qs).map pieceOf := by
  unfold inTurn partsInTurn; rw [pieces_eq, arrange_map]

theorem mem_partsInTurn {s : State} {qs : List Req} {p : Part} :
    p ∈ partsInTurn s qs ↔ ∃ j q, qs[j]? = some q ∧ p ∈ partsOf s q j := by
  unfold partsInTurn; rw [(arrange_perm _ _).mem_iff, mem_allParts]

/-- A part is aligned, or it is a misaligned access that traps. -/
theorem part_cases {s : State} {q : Req} {j : Nat} {p : Part} (h : p ∈ partsOf s q j) :
    (p.va.toNat % p.n = 0 ∧ p.bad = false) ∨
      (p.va.toNat % p.n ≠ 0 ∧ s.cfg.misaligned = .trap ∧ p.bad = true) := by
  unfold partsOf at h
  split at h
  · next ha => rw [List.mem_singleton.1 h]; exact .inl ⟨ha, rfl⟩
  · next ha =>
    split at h
    · next hm => rw [List.mem_singleton.1 h]; exact .inr ⟨ha, hm, rfl⟩
    · obtain ⟨k, _, rfl⟩ := List.mem_map.1 h; exact .inl ⟨Nat.mod_one _, rfl⟩

/-- What comes of a part in a state of the same configuration. -/
theorem part_resolves {s u : State} {k : AccessKind} {q : Req} {j : Nat} {p : Part} (h : p ∈ partsOf s q j)
    (hc : u.cfg = s.cfg) :
    (∀ pas, AccessMaps u k p.va p.n pas →
      ∃ pa, resolvePart u k p = .ok pa ∧ pas = (List.range p.n).map (pa + ·)) ∧
    (∀ code, AccessRaises u k p.va p.n code ↔ resolvePart u k p = .error ⟨code, p.va, p.access⟩) ∧
    (∀ e, resolvePart u k p = .error e → e = ⟨e.code, p.va, p.access⟩) := by
  rcases part_cases h with ⟨ha, hb⟩ | ⟨ha, hm, hb⟩
  · refine ⟨?_, fun code => ⟨?_, fun hr => ?_⟩, fun e hr => ?_⟩
    · rintro pas (⟨_, pa, ht, hok, rfl⟩ | ⟨hx, _⟩)
      · exact ⟨pa, by simp [resolvePart, resolve, hb, ht, hok], rfl⟩
      · exact absurd ha hx
    · rintro (⟨hx, _⟩ | ⟨_, ht, rfl⟩ | ⟨_, ⟨pa, ht, hok⟩, rfl⟩)
      · exact absurd ha hx
      · simp [resolvePart, resolve, hb, ht]
      · simp [resolvePart, resolve, hb, ht, hok]
    · simp only [resolvePart, resolve, hb, Bool.false_eq_true, if_false] at hr
      split at hr
      · next ht => cases hr; exact .inr (.inl ⟨ha, ht, rfl⟩)
      · next pa ht =>
        split at hr
        · cases hr
        · next hx => cases hr; exact .inr (.inr ⟨ha, ⟨pa, ht, by simpa using hx⟩, rfl⟩)
    · simp only [resolvePart, resolve, hb, Bool.false_eq_true, if_false] at hr
      split at hr
      · cases hr; rfl
      · split at hr <;> cases hr; rfl
  · refine ⟨?_, fun code => ⟨?_, fun hr => ?_⟩, fun e hr => ?_⟩
    · rintro pas (⟨hx, _⟩ | ⟨_, hx, _⟩)
      · exact absurd hx ha
      · rw [hc, hm] at hx; cases hx
    · rintro (⟨_, _, rfl⟩ | ⟨hx, _⟩ | ⟨hx, _⟩)
      · simp [resolvePart, hb]
      · exact absurd hx ha
      · exact absurd hx ha
    · simp only [resolvePart, hb, if_true] at hr
      cases hr
      exact .inl ⟨ha, by rw [hc, hm], rfl⟩
    · simp only [resolvePart, hb, if_true] at hr
      cases hr; rfl

/-- Each byte of an access belongs to one part alone. -/
theorem part_covers {s : State} {q : Req} {j : Nat} (hn : 0 < q.n) :
    (∀ p ∈ partsOf s q j, p.off + p.n ≤ q.n ∧ 0 < p.n) ∧
    (∀ i < q.n, ∃ p ∈ partsOf s q j, p.off ≤ i ∧ i < p.off + p.n) ∧
    (∀ p ∈ partsOf s q j, ∀ p' ∈ partsOf s q j, ∀ i, p.off ≤ i → i < p.off + p.n → p'.off ≤ i →
      i < p'.off + p'.n → p' = p) ∧ (partsOf s q j).Nodup := by
  have one : ∀ p0 : Part, p0.off = 0 → p0.n = q.n → partsOf s q j = [p0] →
      (∀ p ∈ partsOf s q j, p.off + p.n ≤ q.n ∧ 0 < p.n) ∧
      (∀ i < q.n, ∃ p ∈ partsOf s q j, p.off ≤ i ∧ i < p.off + p.n) ∧
      (∀ p ∈ partsOf s q j, ∀ p' ∈ partsOf s q j, ∀ i, p.off ≤ i → i < p.off + p.n → p'.off ≤ i →
        i < p'.off + p'.n → p' = p) ∧ (partsOf s q j).Nodup := by
    intro p0 h0 h1 e
    rw [e]
    refine ⟨?_, fun i hi => ⟨p0, by simp, by omega, by omega⟩, ?_, by simp⟩
    · intro p hp; rw [List.mem_singleton.1 hp]; omega
    · intro p hp p' hp' _ _ _ _ _; rw [List.mem_singleton.1 hp, List.mem_singleton.1 hp']
  by_cases ha : q.va.toNat % q.n = 0
  · exact one ⟨j, q.va, 0, q.va, q.n, q.value, false⟩ rfl rfl (by simp only [partsOf, ha, if_true])
  · cases hm : s.cfg.misaligned with
    | trap => exact one ⟨j, q.va, 0, q.va, q.n, q.value, true⟩ rfl rfl (by simp only [partsOf, ha, hm, if_false])
    | emulate =>
      have e : partsOf s q j = (List.range q.n).map fun i =>
          ⟨j, q.va, i, byteVa s q.va i, 1, q.value >>> (8 * i), false⟩ := by simp [partsOf, ha, hm]
      rw [e]
      refine ⟨?_, fun i hi => ⟨_, List.mem_map.2 ⟨i, List.mem_range.2 hi, rfl⟩, by simp⟩, ?_, ?_⟩
      · intro p hp
        obtain ⟨i, hi, rfl⟩ := List.mem_map.1 hp
        have := List.mem_range.1 hi
        dsimp only; omega
      · intro p hp p' hp' i h1 h2 h3 h4
        obtain ⟨x, _, rfl⟩ := List.mem_map.1 hp
        obtain ⟨y, _, rfl⟩ := List.mem_map.1 hp'
        have : x = y := by dsimp only at h1 h2 h3 h4; omega
        rw [this]
      · refine List.Nodup.map (fun x y h => ?_) List.nodup_range
        exact congrArg Part.off h

theorem partsInTurn_nodup {s : State} {qs : List Req} (hn : ∀ q ∈ qs, 0 < q.n) :
    (partsInTurn s qs).Nodup := by
  unfold partsInTurn
  rw [(arrange_perm _ _).nodup_iff]
  unfold allParts
  rw [List.nodup_flatMap]
  constructor
  · rintro ⟨q, j⟩ hq
    exact (part_covers (hn q (List.fst_mem_of_mem_zipIdx hq))).2.2.2
  · refine List.Pairwise.imp_of_mem (R := fun a b => a.2 ≠ b.2) ?_ ?_
    · intro a b _ _ hab p hp hp'
      exact hab ((partsOf_req hp).1.symm.trans (partsOf_req hp').1)
    · have : ((qs.zipIdx).map Prod.snd).Nodup := by
        rw [List.zipIdx_map_snd]; exact List.nodup_range'
      exact List.pairwise_map.1 this

/-! ## The states they meet -/

/-- The state after the activity of some gaps. -/
def afterGaps (s : State) (gaps : List (List HartAct)) (i : Nat) : State := (gaps.take i).foldl applyActs s

theorem agentsOnly_afterGaps (s : State) (gaps : List (List HartAct)) (i : Nat) :
    AgentsOnly s (afterGaps s gaps i) := by
  unfold afterGaps
  induction gaps.take i generalizing s with
  | nil => exact .refl s
  | cons g gs ih => exact (agentsOnly_applyActs s g).trans (ih _)

theorem afterGaps_control {s t : State} (h : control s = control t) (gaps : List (List HartAct)) (i : Nat) :
    control (afterGaps s gaps i) = control (afterGaps t gaps i) := by
  unfold afterGaps
  induction gaps.take i generalizing s t with
  | nil => exact h
  | cons g gs ih => exact ih (control_applyActs h g)

theorem afterGaps_succ (s : State) (gaps : List (List HartAct)) (i : Nat) :
    afterGaps s gaps (i + 1) = afterGaps (applyActs s (gaps.headD [])) gaps.tail i := by
  cases gaps with
  | nil => simp [afterGaps, applyActs]
  | cons g gs => rfl

theorem atTurn_eq (s : State) (i : Nat) : atTurn s i = afterGaps s ([] :: s.inter.gaps) (i + 1) := rfl

theorem agentsOnly_atTurn (s : State) (i : Nat) : AgentsOnly s (atTurn s i) := agentsOnly_afterGaps s _ i

/-- Agents change no register of the hart, no input and no configuration. -/
theorem AgentsOnly.same {s t : State} (h : AgentsOnly s t) : t.cfg = s.cfg ∧ t.pc = s.pc ∧ t.x = s.x ∧
    t.f = s.f ∧ t.mstatus = s.mstatus ∧ t.intSp = s.intSp ∧ t.inter = s.inter := by
  have e := congrArg (fun u : State => (u.cfg, u.pc, u.x, u.f, u.mstatus, u.intSp, u.inter)) h.rest
  change (t.cfg, t.pc, t.x, t.f, t.mstatus, t.intSp, t.inter) =
    (s.cfg, s.pc, s.x, s.f, s.mstatus, s.intSp, s.inter) at e
  simpa only [Prod.mk.injEq] using e

theorem atTurn_cfg (s : State) (i : Nat) : (atTurn s i).cfg = s.cfg := (agentsOnly_atTurn s i).same.1

/-! ## Performing them -/

theorem performParts_read_gaps (s : State) (gaps : List (List HartAct)) (ps : List Part) :
    performParts readPart s gaps ps =
      (ps.mapIdx fun i p => (p, (readPart (afterGaps s gaps (i + 1)) p).1), afterGaps s gaps ps.length) := by
  have hr : ∀ u p, (readPart u p).2 = u := by intro u p; unfold readPart; split <;> rfl
  induction ps generalizing s gaps with
  | nil => rfl
  | cons p ps ih =>
    simp only [performParts, hr, ih, List.mapIdx_cons, List.length_cons, afterGaps_succ s gaps]
    simp [afterGaps]

theorem performParts_write_gaps (write : Part → Bool) (s s0 : State) (hc : control s = control s0)
    (gaps : List (List HartAct)) (ps : List Part) :
    (performParts (writePart write) s gaps ps).1 =
      ps.mapIdx fun i p => (p, outcomeOf (afterGaps s0 gaps (i + 1)) p) := by
  induction ps generalizing s s0 gaps with
  | nil => rfl
  | cons p ps ih =>
    have hg := control_applyActs hc (gaps.headD [])
    simp only [performParts, writePart_eq, List.mapIdx_cons, afterGaps_succ s0 gaps]
    rw [ih _ (applyActs s0 (gaps.headD []))]
    · congr 2
      simp only [outcomeOf, afterGaps, List.take_zero, List.foldl_nil, (SameMaps.of_control hg).resolvePart]
    · rw [← hg]; exact (storesOnly_dataSetAll _ _).control

/-- The stores of parts, one after another: of each part that is written, those at its addresses. -/
theorem storedInTurn_performParts (write : Part → Bool) (s s0 : State) (hc : control s = control s0)
    (gaps : List (List HartAct)) (ps : List Part) (pas : Nat → List Nat)
    (h : ∀ i (hi : i < ps.length), write ps[i] = true →
      (∃ pa, resolvePart (afterGaps s0 gaps (i + 1)) .store ps[i] = .ok pa ∧
        pas i = (List.range ps[i].n).map (pa + ·)) ∨
      (∃ e, resolvePart (afterGaps s0 gaps (i + 1)) .store ps[i] = .error e) ∧ pas i = []) :
    StoredInTurn gaps (ps.mapIdx fun i p => (if write p then pas i else [], p.value)) s
      (performParts (writePart write) s gaps ps).2 := by
  induction ps generalizing s s0 gaps pas with
  | nil => rfl
  | cons p ps ih =>
    have hg := control_applyActs hc (gaps.headD [])
    simp only [List.mapIdx_cons, performParts, StoredInTurn]
    generalize hv : applyActs s (gaps.headD []) = v at hg
    generalize hv0 : applyActs s0 (gaps.headD []) = v0 at hg
    have hkeep : v.pc = s.pc := by rw [← hv]; exact (agentsOnly_applyActs s _).same.2.1
    have hinv : StorageInv s → StorageInv v := by rw [← hv]; exact fun hs => hs.applyActs _
    have hres : resolvePart v .store p = resolvePart v0 .store p := (SameMaps.of_control hg).resolvePart _ _
    generalize hu' : (writePart write v p).2 = u
    have hu : u = dataSetAll v (cellsOf write v p) := by rw [← hu', writePart_eq]
    have hso := storesOnly_dataSetAll v (cellsOf write v p)
    rw [← hu] at hso
    have hcells : (write p = true ∧ ∃ pa, resolvePart v .store p = .ok pa ∧
          pas 0 = (List.range p.n).map (pa + ·) ∧ cellsOf write v p = partCells p pa) ∨
        ((if write p then pas 0 else []) = [] ∧ cellsOf write v p = []) := by
      by_cases hw : write p = true
      · rcases h 0 (by simp) hw with ⟨pa, h1, h2⟩ | ⟨⟨e, h1⟩, h2⟩
        · rw [afterGaps_succ, hv0] at h1
          have h1' : resolvePart v .store p = .ok pa := by rw [hres]; exact h1
          exact .inl ⟨hw, pa, h1', h2, by simp [cellsOf, h1', hw]⟩
        · rw [afterGaps_succ, hv0] at h1
          have h1' : resolvePart v .store p = .error e := by rw [hres]; exact h1
          exact .inr ⟨by simp [h2], by simp [cellsOf, h1']⟩
      · refine .inr ⟨by simp [hw], ?_⟩
        unfold cellsOf; split <;> simp [hw]
    have hfst : (cellsOf write v p).map Prod.fst = if write p then pas 0 else [] := by
      rcases hcells with ⟨hw, pa, h1, h2, h3⟩ | ⟨h1, h2⟩
      · rw [h3, if_pos hw, h2]
        unfold partCells
        rw [List.map_fst_zip (by simp [leBytes_length])]
      · rw [h1, h2]; rfl
    refine ⟨u, ⟨?_, hso.others, ?_, readX_zero _, ?_⟩, ?_, ?_, fun hs => ⟨?_, ?_⟩, ?_⟩
    · rw [hso.form]
    · intro r _; apply readX_congr <;> rw [hso.form]
    · intro a ha; rw [hu]; apply sameBytes_dataSetAll; rwa [hfst]
    · rw [hso.form]; exact hkeep
    · intro h0
      rw [h0] at hfst
      rw [hu, List.map_eq_nil_iff.1 hfst]; rfl
    · rcases hcells with ⟨hw, pa, h1, h2, h3⟩ | ⟨h1, h2⟩
      · rw [if_pos hw, h2, hu, h3]
        refine holdsBytes_dataSetAll (hinv hs) [(⟨p.va, p.n, p.value⟩, (List.range p.n).map (pa + ·))] _
          (by simp [partCells]) (by simp) ?_ (⟨p.va, p.n, p.value⟩, _) List.mem_cons_self
        simp only [List.flatMap_cons, List.flatMap_nil, List.append_nil]
        exact List.Nodup.map (fun _ _ h => by simpa using h) List.nodup_range
      · rw [h1]; intro k hk; simp at hk
    · rw [hu]; exact (hinv hs).dataSetAll _
    · refine ih u v0 ?_ gaps.tail (fun i => pas (i + 1)) ?_
      · rw [← hg]; exact hso.control
      · intro i hi hw
        have := h (i + 1) (by simpa using hi) (by simpa using hw)
        rw [afterGaps_succ, hv0] at this
        simpa using this

/-! ## What comes of them -/

theorem pieceRaises_iff {s : State} {k : AccessKind} {qs : List Req} {i code : Nat} :
    PieceRaises s k (inTurn s qs) i code ↔ ∃ h : i < (partsInTurn s qs).length,
      resolvePart (atTurn s i) k (partsInTurn s qs)[i] =
        .error ⟨code, (partsInTurn s qs)[i].va, (partsInTurn s qs)[i].access⟩ := by
  unfold PieceRaises
  simp only [inTurn_eq, List.length_map, List.getElem_map]
  refine exists_congr fun h => ?_
  obtain ⟨j, q, _, hp⟩ := mem_partsInTurn.1 (List.getElem_mem h)
  exact (part_resolves hp (atTurn_cfg s i)).2.1 code

theorem part_error {s : State} {k : AccessKind} {qs : List Req} {i : Nat} {e : AccessFault}
    {h : i < (partsInTurn s qs).length} (hr : resolvePart (atTurn s i) k (partsInTurn s qs)[i] = .error e) :
    e = ⟨e.code, (partsInTurn s qs)[i].va, (partsInTurn s qs)[i].access⟩ := by
  obtain ⟨j, q, _, hp⟩ := mem_partsInTurn.1 (List.getElem_mem h)
  exact (part_resolves hp (atTurn_cfg s i)).2.2 e hr

theorem part_maps {s : State} {k : AccessKind} {qs : List Req} {pas : Nat → List Nat}
    (hm : PiecesMap s k (inTurn s qs) pas) (i : Nat) (h : i < (partsInTurn s qs).length) :
    (∃ pa, resolvePart (atTurn s i) k (partsInTurn s qs)[i] = .ok pa ∧
      pas i = (List.range (partsInTurn s qs)[i].n).map (pa + ·)) ∨
    (∃ e, resolvePart (atTurn s i) k (partsInTurn s qs)[i] = .error e) ∧ pas i = [] := by
  obtain ⟨j, q, _, hp⟩ := mem_partsInTurn.1 (List.getElem_mem h)
  rcases hm i (by simpa [inTurn_eq] using h) with h1 | ⟨⟨c, h1⟩, h2⟩
  · refine .inl ((part_resolves hp (atTurn_cfg s i)).1 _ ?_)
    simpa only [inTurn_eq, List.getElem_map, pieceOf] using h1
  · obtain ⟨_, h1⟩ := pieceRaises_iff.1 h1
    exact .inr ⟨⟨_, h1⟩, h2⟩

/-- Each piece of any accesses in any state either maps or raises an exception. -/
theorem exists_piecesMap (s : State) (k : AccessKind) (qs : List Req) :
    ∃ pas, PiecesMap s k (inTurn s qs) pas := by
  have one : ∀ i : Nat, ∃ l : List Nat, ∀ h : i < (inTurn s qs).length,
      AccessMaps (atTurn s i) k (inTurn s qs)[i].va (inTurn s qs)[i].n l ∨
        (∃ code, PieceRaises s k (inTurn s qs) i code) ∧ l = [] := by
    intro i
    by_cases h : i < (inTurn s qs).length
    · have h' : i < (partsInTurn s qs).length := by simpa [inTurn_eq] using h
      cases hr : resolvePart (atTurn s i) k (partsInTurn s qs)[i] with
      | error e => exact ⟨[], fun _ => .inr ⟨⟨e.code, pieceRaises_iff.2 ⟨h', by rw [hr, part_error hr]⟩⟩, rfl⟩⟩
      | ok pa =>
        obtain ⟨j, q, _, hp⟩ := mem_partsInTurn.1 (List.getElem_mem h')
        refine ⟨(List.range (inTurn s qs)[i].n).map (pa + ·), fun _ => .inl ?_⟩
        simp only [inTurn_eq, List.getElem_map, pieceOf]
        rcases part_cases hp with ⟨ha, hb⟩ | ⟨_, _, hb⟩
        · simp only [resolvePart, resolve, hb, Bool.false_eq_true, if_false] at hr
          split at hr
          · cases hr
          · next pa' ht => split at hr <;> cases hr; exact .inl ⟨ha, pa, ht, by assumption, rfl⟩
        · simp [resolvePart, hb] at hr
    · exact ⟨[], fun h' => absurd h' h⟩
  exact ⟨fun i => (one i).choose, fun i h => (one i).choose_spec h⟩

/-- Of outcomes that fail where their pieces raise, the one reported; none fails if no piece raises. -/
theorem lowestFault_turns {s : State} {k : AccessKind} {qs : List Req} {outs : List PartOutcome}
    (ho : ∃ r : Nat → Part → Except AccessFault (List Byte),
      outs = (partsInTurn s qs).mapIdx (fun i p => (p, r i p)) ∧
      ∀ i p e, r i p = .error e ↔ resolvePart (atTurn s i) k p = .error e) :
    ((∀ j code, ¬ PieceRaises s k (inTurn s qs) j code) → lowestFault outs = none) ∧
    ((∃ j code, PieceRaises s k (inTurn s qs) j code) →
      ∃ code info a, lowestFault outs = some ⟨code, info, a⟩ ∧ Reported s k (inTurn s qs) code info) := by
  obtain ⟨r, rfl, hr⟩ := ho
  have hin : ∀ i (h : i < (partsInTurn s qs).length) e, r i (partsInTurn s qs)[i] = .error e →
      ((partsInTurn s qs)[i], .error e) ∈ (partsInTurn s qs).mapIdx fun i p => (p, r i p) := by
    intro i h e he
    exact List.mem_mapIdx.2 ⟨i, h, by rw [he]⟩
  constructor
  · intro hno
    rw [lowestFault_eq_none]
    rintro o ho e he
    obtain ⟨i, h, rfl⟩ := List.mem_mapIdx.1 ho
    have h1 := (hr _ _ _).1 he
    exact hno i e.code (pieceRaises_iff.2 ⟨h, by rw [h1, part_error h1]⟩)
  · rintro ⟨j, code, hj⟩
    cases hf : lowestFault ((partsInTurn s qs).mapIdx fun i p => (p, r i p)) with
    | none =>
      obtain ⟨h, h1⟩ := pieceRaises_iff.1 hj
      exact absurd rfl (lowestFault_eq_none.1 hf _ (hin j h _ ((hr _ _ _).2 h1)) _)
    | some e =>
      obtain ⟨⟨p, hp⟩, hmin⟩ := lowestFault_eq_some hf
      obtain ⟨i, h, he⟩ := List.mem_mapIdx.1 hp
      obtain ⟨rfl, he'⟩ := Prod.mk.inj he
      have h1 := (hr _ _ _).1 he'
      have h2 := part_error h1
      have hi : i < (inTurn s qs).length := by simpa [inTurn_eq] using h
      refine ⟨e.code, e.va, e.access, rfl, i, hi, pieceRaises_iff.2 ⟨h, by rw [h1, ← h2]⟩, ?_, ?_⟩
      · rw [h2]; simp only [inTurn_eq, List.getElem_map]; rfl
      · rintro l hl ⟨c, hc⟩
        obtain ⟨h', h3⟩ := pieceRaises_iff.1 hc
        have := hmin _ _ (hin l h' _ ((hr _ _ _).2 h3))
        rw [h2] at this
        simpa only [inTurn_eq, List.getElem_map, pieceOf] using this

/-! ## Loads -/

theorem foldr_slice (bs : List Byte) (k n : Nat) :
    ((bs.drop k).take n).foldr (fun b acc => b.toNat + 256 * acc) 0 =
      bs.foldr (fun b acc => b.toNat + 256 * acc) 0 / 256 ^ k % 256 ^ n := by
  have htake : ∀ (bs : List Byte) (n : Nat), (bs.take n).foldr (fun b acc => b.toNat + 256 * acc) 0 =
      bs.foldr (fun b acc => b.toNat + 256 * acc) 0 % 256 ^ n := by
    intro bs
    induction bs with
    | nil => intro n; simp
    | cons b bs ih =>
      intro n
      cases n with
      | zero => simp [Nat.mod_one]
      | succ n =>
        have hb := b.isLt
        rw [List.take_succ_cons, List.foldr_cons, List.foldr_cons, ih, Nat.pow_succ, Nat.mul_comm (256 ^ n),
          Nat.mod_mul, Nat.add_mul_mod_self_left, Nat.add_mul_div_left _ _ (by omega : 0 < 256),
          Nat.mod_eq_of_lt (by omega : b.toNat < 256), Nat.div_eq_of_lt (by omega : b.toNat < 256), Nat.zero_add]
  have hdrop : ∀ (k : Nat) (bs : List Byte), (bs.drop k).foldr (fun b acc => b.toNat + 256 * acc) 0 =
      bs.foldr (fun b acc => b.toNat + 256 * acc) 0 / 256 ^ k := by
    intro k
    induction k with
    | zero => intro bs; simp
    | succ k ih =>
      intro bs
      cases bs with
      | nil => simp
      | cons b bs =>
        have hb := b.isLt
        rw [List.drop_succ_cons, ih, List.foldr_cons, Nat.pow_succ, Nat.mul_comm (256 ^ k),
          ← Nat.div_div_eq_div_mul]
        congr 1
        omega
  rw [htake, hdrop]

/-- Each part finds the bytes it has read in the value of its access. -/
theorem loadedValue_slice {s : State} {qs : List Req} (hn : ∀ q ∈ qs, 0 < q.n ∧ q.n ≤ 8)
    (r : Nat → Part → Except AccessFault (List Byte)) (i : Nat) (h : i < (partsInTurn s qs).length)
    {pas : List Nat} {u : State} (hl : pas.length = (partsInTurn s qs)[i].n)
    (hr : r i (partsInTurn s qs)[i] = .ok (pas.map (dataByte u))) :
    ∃ q, qs[(partsInTurn s qs)[i].req]? = some q ∧
      (loadedValue ((partsInTurn s qs).mapIdx fun i p => (p, r i p)) (partsInTurn s qs)[i].req q.n).toNat
        / 256 ^ (partsInTurn s qs)[i].off % 256 ^ (partsInTurn s qs)[i].n = loadedNat u pas := by
  obtain ⟨j, q, hq, hp⟩ := mem_partsInTurn.1 (List.getElem_mem h)
  have hnq := hn q (List.mem_of_getElem? hq)
  have hj := (partsOf_req hp).1
  refine ⟨q, by rw [hj]; exact hq, ?_⟩
  obtain ⟨hlen, _, huniq, _⟩ := part_covers (s := s) (q := q) (j := j) hnq.1
  have hle := hlen _ hp
  generalize hP : partsInTurn s qs = P at *
  have hnd : P.Nodup := by rw [← hP]; exact partsInTurn_nodup fun q hq => (hn q hq).1
  unfold loadedValue
  rw [(leValue_toNat _ (by simp; exact hnq.2)).1, ← foldr_slice, loadedNat_eq]
  congr 1
  apply List.ext_getElem
  · simp [hl]; omega
  intro x hx1 hx2
  simp only [List.length_map] at hx2
  simp only [List.getElem_take, List.getElem_drop, List.getElem_map, List.getElem_range]
  have hin : (P[i], r i P[i]) ∈ P.mapIdx fun i p => (p, r i p) := List.mem_mapIdx.2 ⟨i, h, rfl⟩
  rw [hr] at hin
  rw [loadedByte_of_unique hin ⟨rfl, by omega, by omega⟩ ?_]
  · rw [show P[i].off + x - P[i].off = x by omega]
    simp [List.getD_eq_getElem?_getD, hx2]
  · intro o ho h1 h2 h3
    obtain ⟨l, hlt, rfl⟩ := List.mem_mapIdx.1 ho
    obtain ⟨j', q', hq', hp'⟩ := mem_partsInTurn.1 (by rw [hP]; exact List.getElem_mem hlt : P[l] ∈ partsInTurn s qs)
    have : j' = j := by rw [← (partsOf_req hp').1, ← hj]; exact h1
    subst this
    rw [hq] at hq'; cases hq'
    have hpl := huniq _ hp _ hp' (P[i].off + x) (by omega) (by omega) h2 h3
    have : l = i := (List.Nodup.getElem_inj_iff hnd).1 hpl
    subst this
    rw [hr]

theorem performAccesses_read (s : State) (qs : List Req) : performAccesses readPart s qs =
    ((partsInTurn s qs).mapIdx fun i p => (p, (readPart (atTurn s i) p).1),
      atTurn s ((inTurn s qs).length - 1)) := by
  unfold performAccesses
  rw [performParts_read_gaps, inTurn_eq, List.length_map]
  show (_, afterGaps s ([] :: s.inter.gaps) (partsInTurn s qs).length) = _
  cases hl : (partsInTurn s qs).length with
  | zero => rfl
  | succ n => rfl

/-- The loads of an instruction, whatever other agents do between their pieces. -/
theorem withLoads_inTurn {s : State} {qs : List Req} (hn : ∀ q ∈ qs, 0 < q.n ∧ q.n ≤ 8)
    {pas : Nat → List Nat} (hm : PiecesMap s .load (inTurn s qs) pas) (k : State → List Word → Result) :
    ((∀ j code, ¬ PieceRaises s .load (inTurn s qs) j code) → ∃ vs : List Word,
      withLoads s qs k = k (atTurn s ((inTurn s qs).length - 1)) vs ∧
      (∀ j (h : j < qs.length), (vs.getD j 0).toNat < 256 ^ qs[j].n) ∧
      ∀ j (h : j < (inTurn s qs).length), (vs.getD (inTurn s qs)[j].req 0).toNat / 256 ^ (inTurn s qs)[j].off
        % 256 ^ (inTurn s qs)[j].n = loadedNat (atTurn s j) (pas j)) ∧
    ((∃ j code, PieceRaises s .load (inTurn s qs) j code) → ∃ code info,
      Reported s .load (inTurn s qs) code info ∧
      withLoads s qs k = .next (trap (atTurn s ((inTurn s qs).length - 1)) code false info)) := by
  have hfst : ∀ u p e, (readPart u p).1 = .error e ↔ resolvePart u .load p = .error e := by
    intro u p e; unfold readPart; split <;> simp_all
  obtain ⟨hl1, hl2⟩ := lowestFault_turns (s := s) (k := .load) (qs := qs)
    ⟨fun i p => (readPart (atTurn s i) p).1, rfl, fun i p e => hfst _ _ _⟩
  unfold withLoads loadAll
  simp only [performAccesses_read]
  constructor
  · intro hno
    rw [hl1 hno]
    refine ⟨_, rfl, fun j h => ?_, fun i h => ?_⟩
    · have := (leValue_toNat ((List.range qs[j].n).map (loadedByte ((partsInTurn s qs).mapIdx fun i p =>
        (p, (readPart (atTurn s i) p).1)) j)) (by simpa using (hn _ (List.getElem_mem h)).2)).2
      simpa [List.getD_eq_getElem?_getD, List.getElem?_eq_getElem h, loadedValue] using this
    · have h' : i < (partsInTurn s qs).length := by simpa [inTurn_eq] using h
      rcases part_maps hm i h' with ⟨pa, h1, h2⟩ | ⟨⟨e, h1⟩, _⟩
      · obtain ⟨q, hq, hv⟩ := loadedValue_slice hn (fun i p => (readPart (atTurn s i) p).1) i h'
          (pas := pas i) (u := atTurn s i) (by simp [h2]) (by
            simp [readPart, h1, h2])
        rw [← hv]
        simp only [inTurn_eq, List.getElem_map, pieceOf]
        simp [List.getD_eq_getElem?_getD, hq]
      · exact absurd (pieceRaises_iff.2 ⟨h', by rw [h1, part_error h1]⟩) (hno i e.code)
  · intro hyes
    obtain ⟨code, info, a, h1, h2⟩ := hl2 hyes
    rw [h1]
    exact ⟨code, info, h2, rfl⟩

/-! ## Stores -/

theorem performAccesses_write (write : Part → Bool) (s : State) (qs : List Req) {pas : Nat → List Nat}
    (hm : PiecesMap s .store (inTurn s qs) pas) :
    (performAccesses (writePart write) s qs).1 =
      (partsInTurn s qs).mapIdx (fun i p => (p, outcomeOf (atTurn s i) p)) ∧
    StoredInTurn ([] :: s.inter.gaps)
      ((partsInTurn s qs).mapIdx fun i p => (if write p then pas i else [], p.value)) s
      (performAccesses (writePart write) s qs).2 :=
  ⟨performParts_write_gaps write s s rfl _ _,
    storedInTurn_performParts write s s rfl _ _ pas fun i h _ => part_maps hm i h⟩

theorem zipIdx_inTurn {β : Type} (s : State) (qs : List Req) (f : Piece → Nat → β) :
    (inTurn s qs).zipIdx.map (fun p => f p.1 p.2) = (partsInTurn s qs).mapIdx fun i p => f (pieceOf p) i := by
  rw [inTurn_eq]
  apply List.ext_getElem
  · simp
  · intro i h1 h2; simp

/-- The stores of an instruction, whatever other agents do between their pieces. -/
theorem withStores_inTurn {s : State} {qs : List Req} {pas : Nat → List Nat}
    (hm : PiecesMap s .store (inTurn s qs) pas) (k : State → Result) :
    ((∀ j code, ¬ PieceRaises s .store (inTurn s qs) j code) → ∃ w, withStores s qs k = k w ∧ AgentsOnly s w ∧
      StoredInTurn ([] :: s.inter.gaps) ((inTurn s qs).zipIdx.map fun (p, j) => (pas j, p.value)) s w) ∧
    ((∃ j code, PieceRaises s .store (inTurn s qs) j code) →
      ∃ (code : Nat) (info : Word) (w : State) (done : Nat → Bool) (f : Nat),
      Reported s .store (inTurn s qs) code info ∧
      withStores s qs k = .next (trap { w with freeCount := f } code false info) ∧
      StoredInTurn ([] :: s.inter.gaps)
        ((inTurn s qs).zipIdx.map fun (p, j) => (if done j then pas j else [], p.value)) s w ∧
      (s.cfg.misalignedPartial = false → ∀ j (h : j < (inTurn s qs).length) l (h' : l < (inTurn s qs).length),
        (inTurn s qs)[j].req = (inTurn s qs)[l].req →
          done j = done l ∧ ((∃ c, PieceRaises s .store (inTurn s qs) l c) → done j = false))) := by
  have hfst : ∀ u p e, outcomeOf u p = .error e ↔ resolvePart u .store p = .error e := by
    intro u p e; unfold outcomeOf; cases resolvePart u .store p <;> simp [Except.map]
  have hall := fun write => performAccesses_write write s qs hm
  obtain ⟨hl1, hl2⟩ := lowestFault_turns (s := s) (k := .store) (qs := qs)
    ⟨fun i p => outcomeOf (atTurn s i) p, rfl, fun i p e => hfst _ _ _⟩
  unfold withStores storeAll
  simp only [(hall _).1]
  constructor
  · intro hno
    rw [hl1 hno]
    refine ⟨_, rfl, agentsOnly_performParts (agentsOnly_writePart _) s _ _, ?_⟩
    rw [zipIdx_inTurn s qs fun p j => (pas j, p.value)]
    simpa [pieceOf] using (hall fun _ => true).2
  · intro hyes
    obtain ⟨code, info, a, h1, h2⟩ := hl2 hyes
    rw [h1]
    generalize ho : (partsInTurn s qs).mapIdx (fun i p => (p, outcomeOf (atTurn s i) p)) = outs
    refine ⟨code, info, (performAccesses (writePart (remains s outs)) s qs).2,
      fun i => ((partsInTurn s qs)[i]?.map (remains s outs)).getD false, (partialStore s qs outs).freeCount, h2, ?_, ?_, ?_⟩
    · unfold partialStore; dsimp only; split <;> rfl
    · rw [zipIdx_inTurn s qs fun p j =>
        (if ((partsInTurn s qs)[j]?.map (remains s outs)).getD false then pas j else [], p.value)]
      have := (hall (remains s outs)).2
      convert this using 1
      apply List.ext_getElem
      · simp
      · intro i h3 h4
        have : i < (partsInTurn s qs).length := by simpa using h3
        simp [pieceOf, this]
    · intro hmp j h l h' hreq
      have hj : j < (partsInTurn s qs).length := by simpa [inTurn_eq] using h
      have hl : l < (partsInTurn s qs).length := by simpa [inTurn_eq] using h'
      simp only [inTurn_eq, List.getElem_map, pieceOf] at hreq
      simp only [List.getElem?_eq_getElem hj, List.getElem?_eq_getElem hl, Option.map_some, Option.getD_some]
      refine ⟨by simp [remains, mayRemain, hmp, hreq], ?_⟩
      rintro ⟨c, hc⟩
      obtain ⟨_, hc⟩ := pieceRaises_iff.1 hc
      have hfault : reqFaulted outs (partsInTurn s qs)[j].req = true := by
        unfold reqFaulted
        rw [List.any_eq_true]
        refine ⟨((partsInTurn s qs)[l], .error ⟨c, (partsInTurn s qs)[l].va, (partsInTurn s qs)[l].access⟩), ?_,
          by simp [hreq]⟩
        rw [← ho]
        exact List.mem_mapIdx.2 ⟨l, hl, by rw [(hfst _ _ _).2 hc]⟩
      simp [remains, mayRemain, hmp, hfault]

/-! ## Whole instructions -/

/-- An instruction whose meaning is its loads and what it makes of their values. -/
theorem loadsInTurn_of_exec {i : Instr} {s : State} {qs : List Req} {k : State → List Word → Result}
    {ends : State → (Nat → Nat) → State → Prop} (hn : ∀ q ∈ qs, 0 < q.n ∧ q.n ≤ 8)
    (hex : exec i s = withLoads s qs k)
    (hk : ∀ u vs, AgentsOnly s u → (∀ j (h : j < qs.length), (vs.getD j 0).toNat < 256 ^ qs[j].n) →
      ∃ t, k u vs = .next t ∧ ends u (fun j => (vs.getD j 0).toNat) t) : LoadsInTurn i s qs ends := by
  unfold LoadsInTurn
  intro ps u pas hm
  obtain ⟨h1, h2⟩ := withLoads_inTurn hn hm k
  rw [hex]
  refine ⟨fun hno => ?_, h2⟩
  obtain ⟨vs, h3, h4, h5⟩ := h1 hno
  obtain ⟨t, h6, h7⟩ := hk u vs (agentsOnly_atTurn _ _) h4
  exact ⟨_, t, h3.trans h6, h7, h4, h5⟩

/-- An instruction whose meaning is its stores and what it does after them. -/
theorem storesInTurn_of_exec {i : Instr} {s : State} {qs : List Req} {k : State → Result}
    {ends : State → State → Prop} (hex : exec i s = withStores s qs k)
    (hk : ∀ w, AgentsOnly s w → ∃ t, k w = .next t ∧ ends w t) : StoresInTurn i s qs ends := by
  unfold StoresInTurn
  intro ps gaps pas hm
  obtain ⟨h1, h2⟩ := withStores_inTurn hm k
  rw [hex]
  refine ⟨fun hno => ?_, h2⟩
  obtain ⟨w, h3, h4, h5⟩ := h1 hno
  obtain ⟨t, h6, h7⟩ := hk w h4
  exact ⟨w, t, h3.trans h6, h5, h7⟩

end Sys2Proof
end

