-- ==== Sys2Proof/Tests/Slice0.lean ====
section
/-! SUPPORT. Tests: ill-formed terms, a word for every constructor, effects worked out in the rules and
tables of the spec, and for every statement with hypotheses a state and operands that meet them. -/

namespace Sys2Proof.Tests

-- One theorem after another: each waiting `decide +kernel` holds a thread of its own.
set_option Elab.async false

open Machine

/-! ## Well-formedness -/

/-- An increment load with `rd = rs1` (30 R142 a), `x0` included (43 R261). -/
theorem test_illFormed_incLoad :
    Instr.wellFormed (.lbia 11 11 1 0) = false ∧ Instr.wellFormed (.lwib 0 0 0 0) = false ∧
      Instr.wellFormed (.lbia 10 11 1 0) = true := by decide

/-- A pair load with any two equal registers (30 R142 b). -/
theorem test_illFormed_pairLoad :
    Instr.wellFormed (.ldd 10 10 12 0) = false ∧ Instr.wellFormed (.lwd 12 13 12 0) = false ∧
      Instr.wellFormed (.lwud 10 12 12 0) = false ∧ Instr.wellFormed (.ldd 10 13 12 0) = true := by decide

/-- A bit field whose upper end lies below its lower end (42 R234, R235). -/
theorem test_illFormed_field :
    Instr.wellFormed (.ext 10 11 31 32) = false ∧ Instr.wellFormed (.extu 10 11 3 4) = false ∧
      Instr.wellFormed (.ext 10 11 8 8) = true := by decide

/-! ## Decoding: a word of every constructor, from 95 §2.1 and the rules' encodings -/

/-- Every word decodes to the instruction beside it, which encodes to that word, and the four bytes in
memory order decode to it as well (20 R85). -/
def decodesTo (l : List (InsnWord × Instr)) : Bool :=
  l.all fun p => decodeWord p.1 == .ok p.2 && encode p.2 == p.1 &&
    decode (bytesOfWord p.1) == .ok (p.2, [])

/-- The words of 40 R175 to R195. -/
theorem test_decode_Cmo : decodesTo [
    (0x0010000b, .dcacheCall),
    (0x0030000b, .dcacheCiall),
    (0x0020000b, .dcacheIall),
    (0x0295800b, .dcacheCpa 11),
    (0x02b5800b, .dcacheCipa 11),
    (0x02a5800b, .dcacheIpa 11),
    (0x0255800b, .dcacheCva 11),
    (0x0275800b, .dcacheCiva 11),
    (0x0265800b, .dcacheIva 11),
    (0x0215800b, .dcacheCsw 11),
    (0x0235800b, .dcacheCisw 11),
    (0x0225800b, .dcacheIsw 11),
    (0x0285800b, .dcacheCpal1 11),
    (0x0245800b, .dcacheCval1 11),
    (0x0100000b, .icacheIall),
    (0x0110000b, .icacheIalls),
    (0x0385800b, .icacheIpa 11),
    (0x0305800b, .icacheIva 11),
    (0x0150000b, .l2cacheCall),
    (0x0170000b, .l2cacheCiall),
    (0x0160000b, .l2cacheIall)] = true := by decide +kernel

/-- The words of 41 R212 to R216. -/
theorem test_decode_Sync : decodesTo [
    (0x04c5800b, .sfenceVmas 11 12),
    (0x0180000b, .sync),
    (0x0190000b, .syncS),
    (0x01a0000b, .syncI),
    (0x01b0000b, .syncIs)] = true := by decide +kernel

/-- The word of 42 R231. -/
theorem test_decode_Ba : decodesTo [
    (0x04c5950b, .addsl 10 11 12 2)] = true := by decide +kernel

/-- The words of 42 R232 to R240. -/
theorem test_decode_Bb : decodesTo [
    (0x1155950b, .srri 10 11 21),
    (0x15d5950b, .srriw 10 11 29),
    (0x5c45a50b, .ext 10 11 23 4),
    (0x5c45b50b, .extu 10 11 23 4),
    (0x8405950b, .ff0 10 11),
    (0x8605950b, .ff1 10 11),
    (0x8205950b, .rev 10 11),
    (0x9005950b, .revw 10 11),
    (0x8005950b, .tstnbz 10 11)] = true := by decide +kernel

/-- The word of 42 R241. -/
theorem test_decode_Bs : decodesTo [
    (0x8955950b, .tst 10 11 21)] = true := by decide +kernel

/-- The words of 42 R242 to R243. -/
theorem test_decode_CondMov : decodesTo [
    (0x40c5950b, .mveqz 10 11 12),
    (0x42c5950b, .mvnez 10 11 12)] = true := by decide +kernel

/-- The words of 43 R263 to R284, each written from its format MI. -/
theorem test_decode_MemIdx_increment : decodesTo [
    (0x1dd5c50b, .lbia 10 11 (-3) 2),
    (0x0dd5c50b, .lbib 10 11 (-3) 2),
    (0x9dd5c50b, .lbuia 10 11 (-3) 2),
    (0x8dd5c50b, .lbuib 10 11 (-3) 2),
    (0x3dd5c50b, .lhia 10 11 (-3) 2),
    (0x2dd5c50b, .lhib 10 11 (-3) 2),
    (0xbdd5c50b, .lhuia 10 11 (-3) 2),
    (0xadd5c50b, .lhuib 10 11 (-3) 2),
    (0x5dd5c50b, .lwia 10 11 (-3) 2),
    (0x4dd5c50b, .lwib 10 11 (-3) 2),
    (0xddd5c50b, .lwuia 10 11 (-3) 2),
    (0xcdd5c50b, .lwuib 10 11 (-3) 2),
    (0x7dd5c50b, .ldia 10 11 (-3) 2),
    (0x6dd5c50b, .ldib 10 11 (-3) 2),
    (0x1dd5d50b, .sbia 10 11 (-3) 2),
    (0x0dd5d50b, .sbib 10 11 (-3) 2),
    (0x3dd5d50b, .shia 10 11 (-3) 2),
    (0x2dd5d50b, .shib 10 11 (-3) 2),
    (0x5dd5d50b, .swia 10 11 (-3) 2),
    (0x4dd5d50b, .swib 10 11 (-3) 2),
    (0x7dd5d50b, .sdia 10 11 (-3) 2),
    (0x6dd5d50b, .sdib 10 11 (-3) 2)] = true := by decide +kernel

/-- The words of 44 R302 to R323, each written from its format RS. -/
theorem test_decode_MemIdx_register : decodesTo [
    (0x04c5c50b, .lrb 10 11 12 2),
    (0x84c5c50b, .lrbu 10 11 12 2),
    (0x24c5c50b, .lrh 10 11 12 2),
    (0xa4c5c50b, .lrhu 10 11 12 2),
    (0x44c5c50b, .lrw 10 11 12 2),
    (0xc4c5c50b, .lrwu 10 11 12 2),
    (0x64c5c50b, .lrd 10 11 12 2),
    (0x04c5d50b, .srb 10 11 12 2),
    (0x24c5d50b, .srh 10 11 12 2),
    (0x44c5d50b, .srw 10 11 12 2),
    (0x64c5d50b, .srd 10 11 12 2),
    (0x14c5c50b, .lurb 10 11 12 2),
    (0x94c5c50b, .lurbu 10 11 12 2),
    (0x34c5c50b, .lurh 10 11 12 2),
    (0xb4c5c50b, .lurhu 10 11 12 2),
    (0x54c5c50b, .lurw 10 11 12 2),
    (0xd4c5c50b, .lurwu 10 11 12 2),
    (0x74c5c50b, .lurd 10 11 12 2),
    (0x14c5d50b, .surb 10 11 12 2),
    (0x34c5d50b, .surh 10 11 12 2),
    (0x54c5d50b, .surw 10 11 12 2),
    (0x74c5d50b, .surd 10 11 12 2)] = true := by decide +kernel

/-- The words of 45 R342 to R346. -/
theorem test_decode_MemPair : decodesTo [
    (0xfcd6450b, .ldd 10 13 12 2),
    (0xe4d6450b, .lwd 10 13 12 2),
    (0xf4d6450b, .lwud 10 13 12 2),
    (0xfcd6550b, .sdd 10 13 12 2),
    (0xe4d6550b, .swd 10 13 12 2)] = true := by decide +kernel

/-- The words of 46 R360 to R367. -/
theorem test_decode_FMemIdx : decodesTo [
    (0x64c5e50b, .flrd 10 11 12 2),
    (0x44c5e50b, .flrw 10 11 12 2),
    (0x74c5e50b, .flurd 10 11 12 2),
    (0x54c5e50b, .flurw 10 11 12 2),
    (0x64c5f50b, .fsrd 10 11 12 2),
    (0x44c5f50b, .fsrw 10 11 12 2),
    (0x74c5f50b, .fsurd 10 11 12 2),
    (0x54c5f50b, .fsurw 10 11 12 2)] = true := by decide +kernel

/-- The words of 47 R381 to R386. -/
theorem test_decode_Mac : decodesTo [
    (0x20c5950b, .mula 10 11 12),
    (0x28c5950b, .mulah 10 11 12),
    (0x24c5950b, .mulaw 10 11 12),
    (0x22c5950b, .muls 10 11 12),
    (0x2ac5950b, .mulsh 10 11 12),
    (0x26c5950b, .mulsw 10 11 12)] = true := by decide +kernel

/-- The words of 48 R400 to R401. -/
theorem test_decode_Fmv : decodesTo [
    (0xc005950b, .fmvXHw 10 11),
    (0xa005950b, .fmvHwX 10 11)] = true := by decide +kernel

/-- The words of 48 R404 to R405. -/
theorem test_decode_Int : decodesTo [
    (0x0040000b, .ipush),
    (0x0050000b, .ipop)] = true := by decide +kernel

/-- The words of 49 R421 to R427. -/
theorem test_decode_Vdot : decodesTo [
    (0x8241e10b, .vmaqaVv 2 3 4 true),
    (0x8645e10b, .vmaqaVx 2 11 4 true),
    (0x8a41e10b, .vmaqauVv 2 3 4 true),
    (0x8e45e10b, .vmaqauVx 2 11 4 true),
    (0x9241e10b, .vmaqasuVv 2 3 4 true),
    (0x9645e10b, .vmaqasuVx 2 11 4 true),
    (0x9e45e10b, .vmaqausVx 2 11 4 true)] = true := by decide +kernel

/-- Words written field by field, the highest first, from the encodings the rules print, one of each
format (30 R123 to R133). -/
theorem test_decode_fields :
    decodeWord (0b0000001#7 ++ 0b01001#5 ++ 0b01010#5 ++ 0b000#3 ++ 0#5 ++ 0b0001011#7) =
      .ok (.dcacheCpa 10) ∧
    decodeWord (0b0000010#7 ++ 0b01011#5 ++ 0b01010#5 ++ 0b000#3 ++ 0#5 ++ 0b0001011#7) =
      .ok (.sfenceVmas 10 11) ∧
    decodeWord (0b00000#5 ++ 0b10#2 ++ 0b01100#5 ++ 0b01011#5 ++ 0b001#3 ++ 0b01010#5 ++ 0b0001011#7) =
      .ok (.addsl 10 11 12 2) ∧
    decodeWord (0b001111#6 ++ 0b001000#6 ++ 0b01011#5 ++ 0b010#3 ++ 0b01010#5 ++ 0b0001011#7) =
      .ok (.ext 10 11 15 8) ∧
    decodeWord (0b01111#5 ++ 0b10#2 ++ 0b11101#5 ++ 0b01011#5 ++ 0b100#3 ++ 0b01010#5 ++ 0b0001011#7) =
      .ok (.ldia 10 11 (-3) 2) ∧
    decodeWord (0b11111#5 ++ 0b01#2 ++ 0b01101#5 ++ 0b01100#5 ++ 0b101#3 ++ 0b01010#5 ++ 0b0001011#7) =
      .ok (.sdd 10 13 12 1) ∧
    decodeWord (0b1000001#7 ++ 0#5 ++ 0b01011#5 ++ 0b001#3 ++ 0b01010#5 ++ 0b0001011#7) =
      .ok (.rev 10 11) ∧
    decodeWord (0b100000#6 ++ 0b0#1 ++ 0b00100#5 ++ 0b00011#5 ++ 0b110#3 ++ 0b00010#5 ++ 0b0001011#7) =
      .ok (.vmaqaVv 2 3 4 false) := by decide +kernel

/-- Words one bit or one field away from a listed one decode to nothing (30 R141; 95 §2.1). -/
theorem test_decode_unlisted :
    ([0x0000000b, 0x0060000b, 0x0100008b, 0x01c0000b, 0x0405850b, 0x0800100b, 0x8415950b, 0x9800600b,
      0x0000700b, 0xe800400b, 0x8000500b, 0xe000600b] : List InsnWord).all
      (fun w => decodeWord w == .error (.unlisted w)) = true := by decide +kernel

/-! ## Effects, with results from the tables of 95 to 98 -/

/-- The machine after reset at `XLEN` = 32. -/
def rv32 : State := { State.reset with cfg := { platform with xlen := .rv32 } }

/-- A state with misaligned accesses performed byte by byte (20 R88). -/
def emulating (s : State) : State := { s with cfg := { s.cfg with misaligned := .emulate } }

/-- Bytes of memory set from an address on. -/
def withBytes (s : State) (a : Nat) (bs : List Byte) : State := { s with mem := memSetLine s.mem a bs }

/-- The bytes of the load tables of 96 and 97, at 0x2000. -/
def tableBytes : List Byte :=
  [0x80, 0x91, 0xa2, 0xb3, 0xc4, 0xd5, 0xe6, 0xf7, 0x08, 0x19, 0x2a, 0x3b, 0x4c, 0x5d, 0x6e, 0x7f]

/-- An instruction on a state with these registers leaves these registers so, having gone on. -/
def gives (s : State) (i : Instr) (before after : List (Reg × Word)) : Bool :=
  match exec i (writeXs s before) with
  | .next t => t.pc == s.pc + 4 && after.all fun p => readX t p.1 == p.2
  | _ => false

/-- An instruction on a state with these registers stores these bytes from an address on. -/
def stores (s : State) (i : Instr) (before : List (Reg × Word)) (a : Nat) (bs : List Byte)
    (after : List (Reg × Word)) : Bool :=
  match exec i (writeXs s before) with
  | .next t => t.pc == s.pc + 4 && t.mem == memSetLine s.mem a bs &&
      after.all fun p => readX t p.1 == p.2
  | _ => false

/-- An instruction traps with this cause and trap value and leaves these registers so. -/
def traps (s : State) (i : Instr) (before : List (Reg × Word)) (code : Nat) (info : Word)
    (after : List (Reg × Word)) : Bool :=
  match exec i (writeXs s before) with
  | .next t => t.mcause == BitVec.ofNat 64 code && t.mtval == info && t.mepc == s.pc &&
      t.pc == s.mtvec && after.all fun p => readX t p.1 == p.2
  | _ => false

/-- An instruction on a state with these registers is refused. -/
def refuses (s : State) (i : Instr) (before : List (Reg × Word)) (r : Refusal) : Bool :=
  match exec i (writeXs s before) with
  | .refused r' => r' == r
  | _ => false

theorem test_addsl :
    gives .reset (.addsl 10 11 12 3) [(11, 0xfffffffffffffff0), (12, 0x4000000000000002)] [(10, 0)] ∧
    gives .reset (.addsl 0 11 12 1) [(11, 5), (12, 6)] [(0, 0), (11, 5), (12, 6)] ∧
    gives rv32 (.addsl 10 11 12 3) [(11, 0xffffffff), (12, 1)] [(10, 7)] := by decide +kernel

theorem test_srri :
    gives .reset (.srri 10 11 8) [(11, 0x0123456789abcdef)] [(10, 0xef0123456789abcd)] ∧
    gives rv32 (.srri 10 11 33) [(11, 1)] [(10, 0x80000000)] := by decide +kernel

theorem test_srriw :
    gives .reset (.srriw 10 11 4) [(11, 0xdeadbeef12345678)] [(10, 0xffffffff81234567)] ∧
    traps rv32 (.srriw 10 11 4) [(10, 7)] 2 0x1445950b [(10, 7)] := by decide +kernel

theorem test_ext :
    gives .reset (.ext 10 11 15 8) [(11, 0xf234)] [(10, 0xfffffffffffffff2)] ∧
    gives rv32 (.ext 10 11 31 28) [(11, 0x80000000)] [(10, 0xfffffff8)] ∧
    refuses .reset (.ext 10 11 31 32) [(11, 1)] .reservedField ∧
    refuses rv32 (.ext 10 11 32 0) [(11, 1)] .reservedBitIndex := by decide +kernel

theorem test_extu :
    gives .reset (.extu 10 11 63 60) [(11, 0x8000000000000000)] [(10, 8)] ∧
    gives rv32 (.extu 10 11 31 16) [(11, 0xdeadbeef)] [(10, 0xdead)] := by decide +kernel

theorem test_ff0 :
    gives .reset (.ff0 10 11) [(11, 0xffff0000ffffffff)] [(10, 16)] ∧
    gives rv32 (.ff0 10 11) [(11, 0xffffffff)] [(10, 32)] := by decide +kernel

theorem test_ff1 :
    gives .reset (.ff1 10 11) [(11, 0x0000000100000000)] [(10, 31)] ∧
    gives .reset (.ff1 10 0) [(10, 5)] [(10, 64)] := by decide +kernel

theorem test_rev :
    gives .reset (.rev 10 10) [(10, 0x0102030405060708)] [(10, 0x0807060504030201)] ∧
    gives rv32 (.rev 10 11) [(11, 0x12345678)] [(10, 0x78563412)] := by decide +kernel

theorem test_revw :
    gives .reset (.revw 10 11) [(11, 0x12345680)] [(10, 0xffffffff80563412)] := by decide +kernel

theorem test_tstnbz :
    gives .reset (.tstnbz 11 11) [(11, 0x1100220033004400)] [(11, 0x00ff00ff00ff00ff)] ∧
    gives rv32 (.tstnbz 10 11) [(11, 0x00ff0100)] [(10, 0xff0000ff)] := by decide +kernel

theorem test_tst :
    gives .reset (.tst 10 11 63) [(11, 0x8000000000000000)] [(10, 1)] ∧
    refuses rv32 (.tst 10 11 32) [(11, 0xffffffff)] .reservedBitIndex := by decide +kernel

theorem test_mveqz :
    gives .reset (.mveqz 10 11 12) [(10, 7), (11, 9), (12, 0x100000000)] [(10, 7)] ∧
    gives .reset (.mveqz 10 11 10) [(10, 0), (11, 9)] [(10, 9)] := by decide +kernel

theorem test_mvnez :
    gives .reset (.mvnez 10 11 12) [(10, 7), (11, 9), (12, 0x8000000000000000)] [(10, 9)] ∧
    gives .reset (.mvnez 10 11 0) [(10, 7), (11, 9)] [(10, 7)] := by decide +kernel

/-- 98 §2.9. -/
theorem test_mac :
    gives .reset (.mula 10 10 10) [(10, 3)] [(10, 12)] ∧
    gives .reset (.muls 10 11 12) [(10, 5), (11, 2), (12, 3)] [(10, 0xffffffffffffffff)] ∧
    gives .reset (.mulah 10 11 12) [(10, 1), (11, 0x1ffff), (12, 2)] [(10, 0xffffffffffffffff)] ∧
    gives .reset (.mulsh 10 11 12) [(10, 0), (11, 0x8000), (12, 0x8000)] [(10, 0xffffffffc0000000)] ∧
    gives .reset (.mulaw 14 12 13) [(14, 0xdeadbeef00000000), (12, 3), (13, 10)] [(14, 30)] ∧
    gives rv32 (.mulsw 10 11 12) [(10, 1), (11, 2), (12, 3)] [(10, 0xfffffffb)] := by decide +kernel

/-- 96 §2.5, the first row of each increment load at `XLEN` = 64: sign and zero extension, and the new
base. -/
theorem test_incLoads :
    let s := withBytes .reset 0x2000 tableBytes
    gives s (.lbia 10 11 1 0) [(11, 0x2000)] [(10, 0xffffffffffffff80), (11, 0x2001)] ∧
    gives s (.lbib 10 11 (-1) 0) [(11, 0x2001)] [(10, 0xffffffffffffff80), (11, 0x2000)] ∧
    gives s (.lbuia 10 11 1 0) [(11, 0x2000)] [(10, 0x80), (11, 0x2001)] ∧
    gives s (.lbuib 10 11 (-1) 0) [(11, 0x2001)] [(10, 0x80), (11, 0x2000)] ∧
    gives s (.lhia 10 11 1 1) [(11, 0x2000)] [(10, 0xffffffffffff9180), (11, 0x2002)] ∧
    gives s (.lhib 10 11 (-1) 1) [(11, 0x2002)] [(10, 0xffffffffffff9180), (11, 0x2000)] ∧
    gives s (.lhuia 10 11 1 1) [(11, 0x2000)] [(10, 0x9180), (11, 0x2002)] ∧
    gives s (.lhuib 10 11 (-1) 1) [(11, 0x2002)] [(10, 0x9180), (11, 0x2000)] ∧
    gives s (.lwia 10 11 1 2) [(11, 0x2000)] [(10, 0xffffffffb3a29180), (11, 0x2004)] ∧
    gives s (.lwib 10 11 (-1) 2) [(11, 0x2004)] [(10, 0xffffffffb3a29180), (11, 0x2000)] ∧
    gives s (.lwuia 10 11 1 2) [(11, 0x2000)] [(10, 0xb3a29180), (11, 0x2004)] ∧
    gives s (.lwuib 10 11 (-1) 2) [(11, 0x2004)] [(10, 0xb3a29180), (11, 0x2000)] ∧
    gives s (.ldia 10 11 1 3) [(11, 0x2000)] [(10, 0xf7e6d5c4b3a29180), (11, 0x2008)] ∧
    gives s (.ldib 10 11 1 3) [(11, 0x2000)] [(10, 0x7f6e5d4c3b2a1908), (11, 0x2008)] := by decide +kernel

/-- 96 §2.5, corner cases: `rd = x0`, an address and a base that wrap, a misaligned access under both
policies. -/
theorem test_incLoads_corners :
    gives (withBytes .reset 0x2000 tableBytes) (.lwia 0 11 4 0) [(11, 0x2000)] [(0, 0), (11, 0x2004)] ∧
    gives (withBytes .reset 0xffffffffffffffff [0x7e]) (.lbib 10 0 (-1) 0) [] [(10, 0x7e), (0, 0)] ∧
    gives (withBytes rv32 0xffffffff [0x81]) (.lbia 10 11 1 0) [(11, 0xffffffff)]
      [(10, 0xffffff81), (11, 0)] ∧
    traps .reset (.lhia 10 11 1 0) [(10, 7), (11, 0x2001)] 4 0x2001 [(10, 7), (11, 0x2001)] ∧
    gives (emulating (withBytes .reset 0x2000 tableBytes)) (.lhia 10 11 1 0) [(11, 0x2001)]
      [(10, 0xffffffffffffa291), (11, 0x2002)] ∧
    refuses .reset (.lbia 11 11 1 0) [] .reservedOperands := by decide +kernel

/-- 96 §2.5, the first row of each increment store. -/
theorem test_incStores :
    let s := State.reset
    let x : Word := 0x1122334455667788
    stores s (.sbia 10 11 1 0) [(10, x), (11, 0x2000)] 0x2000 [0x88] [(11, 0x2001)] ∧
    stores s (.sbib 10 11 (-16) 3) [(10, x), (11, 0x2080)] 0x2000 [0x88] [(11, 0x2000)] ∧
    stores s (.shia 10 11 1 1) [(10, x), (11, 0x2000)] 0x2000 [0x88, 0x77] [(11, 0x2002)] ∧
    stores s (.shib 10 11 (-16) 3) [(10, x), (11, 0x2080)] 0x2000 [0x88, 0x77] [(11, 0x2000)] ∧
    stores s (.swia 10 11 1 2) [(10, x), (11, 0x2000)] 0x2000 [0x88, 0x77, 0x66, 0x55]
      [(11, 0x2004)] ∧
    stores s (.swib 10 11 (-16) 3) [(10, x), (11, 0x2080)] 0x2000 [0x88, 0x77, 0x66, 0x55]
      [(11, 0x2000)] ∧
    stores s (.sdia 10 11 1 3) [(10, x), (11, 0x2000)] 0x2000
      [0x88, 0x77, 0x66, 0x55, 0x44, 0x33, 0x22, 0x11] [(11, 0x2008)] ∧
    stores s (.sdib 10 11 (-16) 3) [(10, x), (11, 0x2080)] 0x2000
      [0x88, 0x77, 0x66, 0x55, 0x44, 0x33, 0x22, 0x11] [(11, 0x2000)] := by decide +kernel

/-- 96 §2.5, an increment store of its own base: the old one after, and before by `SIB_SAME_REG`. -/
theorem test_incStores_sameReg :
    let sib (p : SibPolicy) : State := { State.reset with cfg := { platform with sibSameReg := p } }
    stores .reset (.swia 11 11 2 2) [(11, 0x2000)] 0x2000 [0x00, 0x20] [(11, 0x2008)] ∧
    stores (sib .new) (.swib 11 11 2 2) [(11, 0x2000)] 0x2008 [0x08, 0x20] [(11, 0x2008)] ∧
    stores (sib .old) (.swib 11 11 2 2) [(11, 0x2000)] 0x2008 [0x00, 0x20] [(11, 0x2008)] ∧
    refuses (sib .refuse) (.swib 11 11 2 2) [(11, 0x2000)] .sibSameReg ∧
    traps .reset (.sdib 10 11 1 0) [(11, 0x2000)] 6 0x2001 [(11, 0x2000)] := by decide +kernel

/-- 97 §2.6: a negative index, and the `u` forms' zero-extended one. -/
theorem test_idxLoads :
    let s := withBytes .reset 0x2000 tableBytes
    let minus : List (Reg × Word) := [(11, 0x2008), (12, 0xffffffffffffffff)]
    let low : List (Reg × Word) := [(11, 0xffffffff00002008), (12, 0x00000000fffffff8)]
    gives s (.lrb 10 11 12 3) minus [(10, 0xffffffffffffff80)] ∧
    gives s (.lrbu 10 11 12 3) minus [(10, 0x80)] ∧
    gives s (.lrh 10 11 12 2) minus [(10, 0xffffffffffffd5c4)] ∧
    gives s (.lrhu 10 11 12 2) minus [(10, 0xd5c4)] ∧
    gives s (.lrw 10 11 12 2) minus [(10, 0xfffffffff7e6d5c4)] ∧
    gives s (.lrwu 10 11 12 2) minus [(10, 0xf7e6d5c4)] ∧
    gives s (.lrd 10 11 12 3) minus [(10, 0xf7e6d5c4b3a29180)] ∧
    gives s (.lurb 10 11 12 0) low [(10, 0xffffffffffffff80)] ∧
    gives s (.lurbu 10 11 12 0) low [(10, 0x80)] ∧
    gives s (.lurh 10 11 12 0) low [(10, 0xffffffffffff9180)] ∧
    gives s (.lurhu 10 11 12 0) low [(10, 0x9180)] ∧
    gives s (.lurw 10 11 12 0) low [(10, 0xffffffffb3a29180)] ∧
    gives s (.lurwu 10 11 12 0) low [(10, 0xb3a29180)] ∧
    gives s (.lurd 10 11 12 0) low [(10, 0xf7e6d5c4b3a29180)] := by decide +kernel

/-- 97 §2.6, corner cases: `rd = rs1`, `rd = rs2`, an index shifted out. -/
theorem test_idxLoads_corners :
    let s := withBytes .reset 0x2000 tableBytes
    gives s (.lrw 11 11 12 0) [(11, 0x2000), (12, 4)] [(11, 0xfffffffff7e6d5c4)] ∧
    gives s (.lrbu 12 11 12 2) [(11, 0x2000), (12, 3)] [(12, 0x4c)] ∧
    gives s (.lrd 10 11 12 3) [(11, 0x2008), (12, 0x2000000000000000)] [(10, 0x7f6e5d4c3b2a1908)] ∧
    traps rv32 (.srw 10 11 12 0) [(11, 0x2000), (12, 2)] 6 0x2002 [] := by decide +kernel

/-- 97 §2.6, stores. -/
theorem test_idxStores :
    let s := State.reset
    let r : List (Reg × Word) := [(10, 0x1122334455667788), (11, 0x2000), (12, 3)]
    let u : List (Reg × Word) := [(10, 0x1122334455667788), (11, 0x2000), (12, 0xabcdef0000000002)]
    stores s (.srb 10 11 12 2) r 0x200c [0x88] r ∧
    stores s (.srh 10 11 12 2) r 0x200c [0x88, 0x77] r ∧
    stores s (.srw 10 11 12 2) r 0x200c [0x88, 0x77, 0x66, 0x55] r ∧
    stores s (.srd 10 11 12 3) r 0x2018 [0x88, 0x77, 0x66, 0x55, 0x44, 0x33, 0x22, 0x11] r ∧
    stores s (.surb 10 11 12 3) u 0x2010 [0x88] u ∧
    stores s (.surh 10 11 12 3) u 0x2010 [0x88, 0x77] u ∧
    stores s (.surw 10 11 12 3) u 0x2010 [0x88, 0x77, 0x66, 0x55] u ∧
    stores s (.surd 10 11 12 3) u 0x2010 [0x88, 0x77, 0x66, 0x55, 0x44, 0x33, 0x22, 0x11] u := by
  decide +kernel

/-- 97 §2.7. -/
theorem test_pairs :
    let s := withBytes .reset 0x2000 tableBytes
    gives s (.ldd 10 13 12 0) [(12, 0x2000)] [(10, 0xf7e6d5c4b3a29180), (13, 0x7f6e5d4c3b2a1908)] ∧
    gives s (.lwd 10 13 12 0) [(12, 0x2000)] [(10, 0xffffffffb3a29180), (13, 0xfffffffff7e6d5c4)] ∧
    gives s (.lwud 10 13 12 1) [(12, 0x2000)] [(10, 0x3b2a1908), (13, 0x7f6e5d4c)] ∧
    refuses s (.ldd 10 10 12 0) [(12, 0x2000)] .reservedOperands ∧
    stores .reset (.sdd 10 13 12 2) [(10, 0x1122334455667788), (13, 0x99aabbccddeeff00), (12, 0x2000)]
      0x2020 [0x88, 0x77, 0x66, 0x55, 0x44, 0x33, 0x22, 0x11,
        0x00, 0xff, 0xee, 0xdd, 0xcc, 0xbb, 0xaa, 0x99] [] ∧
    stores .reset (.swd 10 13 12 1) [(10, 0x55667788), (13, 0xddeeff00), (12, 0x2000)]
      0x2008 [0x88, 0x77, 0x66, 0x55, 0x00, 0xff, 0xee, 0xdd] [] := by decide +kernel

/-- The floating-point register and unit status after an instruction. -/
def givesF (s : State) (i : Instr) (before : List (Reg × Word)) (fr : Reg) (v : Word) : Bool :=
  match exec i (writeXs s before) with
  | .next t => t.pc == s.pc + 4 && readF t fr == v && t.mstatus.fs == 3
  | _ => false

/-- 46 R370: 8 bytes whole, 4 bytes under ones, whole and zero-extended index. -/
theorem test_floatLoads :
    let s := withBytes .reset 0x2000 tableBytes
    let low : List (Reg × Word) := [(11, 0xffffffff00002008), (12, 0x00000000fffffff8)]
    givesF s (.flrd 10 11 12 3) [(11, 0x2008), (12, 0xffffffffffffffff)] 10 0xf7e6d5c4b3a29180 ∧
    givesF s (.flrw 0 11 12 2) [(11, 0x2008), (12, 0xffffffffffffffff)] 0 0xfffffffff7e6d5c4 ∧
    givesF s (.flurd 10 11 12 0) low 10 0xf7e6d5c4b3a29180 ∧
    givesF s (.flurw 10 11 12 0) low 10 0xffffffffb3a29180 ∧
    traps { s with mstatus := { s.mstatus with fs := 0 } } (.flrd 10 11 12 0) [(11, 0x2001)] 2
      0x60c5e50b [] := by decide +kernel

/-- 46 R370: the low bytes of the register. -/
theorem test_floatStores :
    let s := writeF .reset 10 0x1122334455667788
    let u : List (Reg × Word) := [(11, 0x2000), (12, 0xabcdef0000000002)]
    stores s (.fsrd 10 11 12 3) [(11, 0x2000), (12, 2)] 0x2010
      [0x88, 0x77, 0x66, 0x55, 0x44, 0x33, 0x22, 0x11] [] ∧
    stores s (.fsrw 10 11 12 2) [(11, 0x2000), (12, 3)] 0x200c [0x88, 0x77, 0x66, 0x55] [] ∧
    stores s (.fsurd 10 11 12 3) u 0x2010 [0x88, 0x77, 0x66, 0x55, 0x44, 0x33, 0x22, 0x11] [] ∧
    stores s (.fsurw 10 11 12 3) u 0x2010 [0x88, 0x77, 0x66, 0x55] [] := by decide +kernel

/-- 48 R400, R401. -/
theorem test_floatMoves :
    let s := writeF rv32 11 0x3ff8000012345678
    gives s (.fmvXHw 10 11) [] [(10, 0x3ff80000)] ∧
    givesF s (.fmvHwX 10 11) [(10, 0xc0000000)] 11 0xc000000012345678 ∧
    traps .reset (.fmvXHw 10 11) [] 2 0xc005950b [] := by decide +kernel

/-- The machine of 98 §2.11: RV32, `INT_SP_REG` = x2, registers that hold their number in each byte. -/
def frameState : State :=
  { (writeXs rv32 ((2, 0x80001000) :: frameRegs.map fun r =>
      (r, (r ++ (0 : BitVec 3)).setWidth 64 / 8 * 0x01010101))) with
    mcause := 0x80000007, mepc := 0x120, pc := 0x200
    mstatus := { State.reset.mstatus with mie := false, mpie := true, mpp := .m } }

/-- 98 §2.11: the pushed slots at both ends of the frame, `int_sp`, and nothing above it. -/
theorem test_ipush :
    (match exec .ipush frameState with
      | .next t => readX t 2 == 0x80000fb8 && t.pc == 0x204 && t.mstatus == frameState.mstatus &&
          (loadAll t [⟨0x80000ffc, 4, 0⟩]).1.toOption == some [0x80000007] &&
          (loadAll t [⟨0x80000ff8, 4, 0⟩]).1.toOption == some [0x120] &&
          (loadAll t [⟨0x80000ff4, 4, 0⟩]).1.toOption == some [0x01010101] &&
          (loadAll t [⟨0x80000fb8, 4, 0⟩]).1.toOption == some [0x1f1f1f1f] &&
          memRead t.mem 0x80001000 == 0
      | _ => false) = true ∧
    traps { rv32 with priv := .u } .ipush [] 2 0x0040000b [] := by decide +kernel

/-- 98 §2.11, the last row but one: `mepc` and `mcause` as CSRs, the sixteen registers, the return. -/
theorem test_ipop :
    let s : State := { withBytes (withBytes rv32 0x1040 [0x23, 0x01, 0, 0]) 0x1044 [0x0b, 0, 0, 0x80] with
      cfg := { rv32.cfg with ialign16 := false }
      mstatus := { State.reset.mstatus with mpp := .u, mpie := false, mie := true, mprv := true } }
    (match exec .ipop (writeX s 2 0x1000) with
      | .next t => t.mcause == 0x8000000b && t.mepc == 0x120 && t.pc == 0x120 && t.priv == .u &&
          !t.mstatus.mie && t.mstatus.mpie && t.mstatus.mpp == .u && !t.mstatus.mprv &&
          readX t 2 == 0x1048 && frameRegs.all fun r => readX t r == 0
      | _ => false) = true := by decide +kernel

/-- 98 §2.11, RV64: the low words are stored and come back sign-extended (decision D19). -/
theorem test_frame_rv64 :
    let s : State := { writeXs .reset [(2, 0x1000), (1, 0xaaaaaaaa80000001)] with
      mcause := 0x8000000000000007, mepc := 0x123456780 }
    (match exec .ipush s with
      | .next t => match exec .ipop t with
        | .next u => u.mcause == 7 && u.mepc == 0x23456780 && readX u 1 == 0xffffffff80000001
        | _ => false
      | _ => false) = true := by decide +kernel

/-- The machine of 98 §2.12: elements of `v4`, `v8` and `v12`, and of the mask register. -/
def vectorState (mask : BitVec 32) (v4 v8 v12 : List (BitVec 32)) : State :=
  { State.reset with
    vl := 2
    vregs := (([mask] ++ List.replicate 15 0 ++ v4 ++ List.replicate 14 0 ++ v8 ++
      List.replicate 14 0 ++ v12) ++ List.replicate 128 0).take 128
    cfg := { platform with maskLayout := .dense } }

/-- The two elements of `v4` after a dot product, with `th.vstart` 0. -/
def givesV (s : State) (i : Instr) (x10 : Word) (v4 : List (BitVec 32)) : Bool :=
  match exec i (writeX s 10 x10) with
  | .next t => t.pc == s.pc + 4 && [elem32 t 4 0, elem32 t 4 1] == v4 && t.vstart == 0
  | _ => false

/-- 98 §2.12, the seven instructions. -/
theorem test_vdot :
    let s := vectorState 0 [0x64, 0xffffffff] [0x01020304, 0x80ff7f01] [0x05060708, 0x80ff7f02]
    givesV s (.vmaqaVv 4 8 12 true) 0 [0x000000aa, 0x00007f03] ∧
    givesV s (.vmaqauVv 4 8 12 true) 0 [0x000000aa, 0x00017d03] ∧
    givesV s (.vmaqasuVv 4 8 12 true) 0 [0x000000aa, 0xfffffe03] ∧
    givesV s (.vmaqaVx 4 10 12 true) 0xdeadbeef80ff7f01 [0x0000015f, 0x00007f03] ∧
    givesV s (.vmaqauVx 4 10 12 true) 0xdeadbeef80ff7f01 [0x00000c5f, 0x00017d03] ∧
    givesV s (.vmaqasuVx 4 10 12 true) 0xdeadbeef80ff7f01 [0x0000015f, 0xfffffe03] ∧
    givesV s (.vmaqausVx 4 10 12 true) 0xdeadbeef80ff7f01 [0x00000c5f, 0xfffffe03] := by decide +kernel

/-- 98 §2.12: masked products, and an element width that is illegal. -/
theorem test_vdot_mask :
    let s := vectorState 0b00110101 [0x1000, 0x2000] [0x04030201, 0x04030201] [0x0a0a0a0a, 0x0a0a0a0a]
    givesV s (.vmaqaVv 4 8 12 false) 0 [0x1028, 0x201e] ∧
    traps { s with vtype := 4 } (.vmaqaVv 4 8 12 true) [] 2 0x82c4620b [] := by decide +kernel

/-- The machine of 95 §2.2: no `L2`, the word at 0x2040 being 0xaa in memory and 0xbb in a dirty line of
the D-cache. -/
def cacheState : State :=
  { writeX .reset 11 0x2065 with
    cfg := { platform with hasL2 := false }
    mem := memSetLine [] 0x2040 [0xaa]
    dc := [{ addr := 0x2040, way := 0, dirty := true, data := 0xbb :: List.replicate 63 0 }] }

/-- Presence and dirtiness of the line, the byte in memory, and the byte a load reads, after an
instruction. -/
def givesC (i : Instr) (s : State) (line : Option Bool) (mem data : Byte) : Bool :=
  match exec i s with
  | .next t => t.pc == s.pc + 4 && (heldLine t .dc 0x2040).map Line.dirty == line &&
      memRead t.mem 0x2040 == mem && dataByte t 0x2040 == data
  | _ => false

/-- 95 §2.2, the D-cache. -/
theorem test_dcache :
    let s := cacheState
    givesC .dcacheCall s (some false) 0xbb 0xbb ∧ givesC .dcacheCiall s none 0xbb 0xbb ∧
    givesC .dcacheIall s none 0xaa 0xaa ∧ givesC (.dcacheCpa 11) s (some false) 0xbb 0xbb ∧
    givesC (.dcacheCipa 11) s none 0xbb 0xbb ∧ givesC (.dcacheIpa 11) s none 0xaa 0xaa ∧
    givesC (.dcacheCva 11) s (some false) 0xbb 0xbb ∧ givesC (.dcacheCiva 11) s none 0xbb 0xbb ∧
    givesC (.dcacheIva 11) s none 0xaa 0xaa ∧
    givesC (.dcacheCpa 11) (writeX s 11 0x2080) (some true) 0xaa 0xbb := by decide +kernel

/-- 95 §1 E3: the line of set 129 and way 0 named by its set/way word, and no other. -/
theorem test_dcache_setWay :
    let s := writeX cacheState 11 0x2040
    givesC (.dcacheCsw 11) s (some false) 0xbb 0xbb ∧ givesC (.dcacheCisw 11) s none 0xbb 0xbb ∧
    givesC (.dcacheIsw 11) s none 0xaa 0xaa ∧
    givesC (.dcacheIsw 11) (writeX s 11 0x80002040) (some true) 0xaa 0xbb ∧
    refuses s (.dcacheIsw 11) [(11, 0x2041)] .setWayReserved := by decide +kernel

/-- 95 §2.2: what needs an `L2` does nothing without it, and the I-cache instructions leave the D-cache
alone. -/
theorem test_cache_others :
    let s := cacheState
    givesC (.dcacheCpal1 11) s (some true) 0xaa 0xbb ∧ givesC (.dcacheCval1 11) s (some true) 0xaa 0xbb ∧
    givesC .icacheIall s (some true) 0xaa 0xbb ∧ givesC .icacheIalls s (some true) 0xaa 0xbb ∧
    givesC (.icacheIpa 11) s (some true) 0xaa 0xbb ∧ givesC (.icacheIva 11) s (some true) 0xaa 0xbb ∧
    givesC .l2cacheCall s (some true) 0xaa 0xbb ∧ givesC .l2cacheCiall s (some true) 0xaa 0xbb ∧
    givesC .l2cacheIall s (some true) 0xaa 0xbb := by decide +kernel

/-- With an `L2` and two harts: the level-1 clean stops in `L2`, `L2` goes to memory, the I-cache
instructions empty the I-cache, and the broadcast is on its way (40 R187, R193, R190). -/
theorem test_cache_levels :
    let s : State := { cacheState with
      cfg := platform
      ic := [{ addr := 0x2040, way := 0, dirty := false, data := List.replicate 64 0 }] }
    (match exec (.dcacheCpal1 11) s with
      | .next t => memRead t.mem 0x2040 == 0xaa && lowerByte t 0x2040 == 0xbb &&
          (match exec .l2cacheCiall t with
            | .next u => memRead u.mem 0x2040 == 0xbb && u.l2 == []
            | _ => false)
      | _ => false) = true ∧
    (match exec .icacheIalls s with
      | .next t => t.ic == [] && t.others.map Hart.pending == [[⟨0, .invalidateICache⟩]]
      | _ => false) = true ∧
    (match exec (.icacheIpa 11) (writeX s 11 0x2080) with
      | .next t => t.ic == s.ic
      | _ => false) = true := by decide +kernel

/-- The machine of 95 §1 E4: four translations, of two pages in two address spaces. -/
def tlbState (va asid : Word) : State :=
  { writeXs .reset [(10, va), (11, asid)] with
    tlb := [⟨4, 1, 4, []⟩, ⟨4, 2, 4, []⟩, ⟨5, 1, 5, []⟩, ⟨5, 2, 5, []⟩] }

/-- The pages and address spaces left in the TLB. -/
def tlbAfter (s : State) : Option (List (Nat × Word)) :=
  match exec (.sfenceVmas 10 11) s with
  | .next t => some (t.tlb.map fun e => (e.vpn, e.asid))
  | _ => none

/-- 95 §1 E4. -/
theorem test_sfence :
    tlbAfter (tlbState 0x4000 1) = some [(4, 2), (5, 1), (5, 2)] ∧
    tlbAfter (tlbState 0x4000 0) = some [(5, 1), (5, 2)] ∧
    tlbAfter (tlbState 0 2) = some [(4, 1), (5, 1)] ∧ tlbAfter (tlbState 0 0) = some [] ∧
    tlbAfter (tlbState 0x6000 1) = some [(4, 1), (4, 2), (5, 1), (5, 2)] := by decide +kernel

/-- 95 §2.3: every barrier performs the broadcasts on their way, the `i` forms discard what was fetched
ahead. -/
theorem test_sync :
    let s : State := { State.reset with
      pipeline := [⟨0x3000, 0x0180000b⟩]
      others := [{ resetHart 1 with tlb := [⟨4, 1, 4, []⟩], pending := [⟨0, .invalidateTlb 0 1⟩] }] }
    let done (i : Instr) (p : List Fetched) : Bool := match exec i s with
      | .next t => t.pc == s.pc + 4 && t.pipeline == p && t.others.all fun r => r.tlb == [] && r.pending == []
      | _ => false
    done .sync s.pipeline ∧ done .syncS s.pipeline ∧ done .syncI [] ∧ done .syncIs [] := by decide +kernel

/-- 98 §2.13: a trap from U mode, and the vectored base, which an exception does not use. -/
theorem test_trap :
    let s : State := { writeX .reset 11 0x2001 with
      pc := 0x3000, priv := .u, mtvec := 0x801
      mstatus := { State.reset.mstatus with mie := true, mpie := false, mpp := .m } }
    (match exec (.ldia 10 11 0 0) s with
      | .next t => t.mepc == 0x3000 && t.mcause == 4 && t.mtval == 0x2001 && t.mstatus.mpp == .u &&
          t.mstatus.mpie && !t.mstatus.mie && t.priv == .m && t.pc == 0x800
      | _ => false) = true ∧
    traps { s with mtvec := 0x800 } .dcacheCall [] 2 0x0010000b [] := by decide +kernel

/-- A step fetches the word placed at `pc`, a step on an unlisted word traps, and an interrupt at the
boundary goes to its vector (60 R470, R475). -/
theorem test_step :
    (match step (writeXs (State.reset.withFetchWord 32 0x04c5950b) [(11, 0x1000), (12, 5)]) with
      | .next t => readX t 10 == 0x1014 && t.pc == 0x1004
      | _ => false) = true ∧
    (match step (State.reset.withFetchWord 32 0x0000000b) with
      | .next t => t.mcause == 2 && t.mtval == 0xb && t.mepc == 0x1000 && t.pc == 0x800
      | _ => false) = true ∧
    (match step { State.reset with priv := .u, mtvec := 0x801, oracle := [⟨none, [], [7], ⟨[], []⟩⟩] } with
      | .next t => t.mcause == 0x8000000000000007 && t.pc == 0x81c && t.priv == .m
      | _ => false) = true := by decide +kernel

/-- 95 §2.3, fresh code: a word stored over one in the instruction cache is fetched only after the line is
invalidated there (20 R103). -/
theorem test_staleFetch :
    let s : State := { State.reset with
      pc := 0x3000
      mem := memSetLine [] 0x3000 (bytesOfWord 0x0190000b)
      ic := [{ addr := 0x3000, way := 0, dirty := false,
               data := bytesOfWord 0x0180000b ++ List.replicate 60 0 }] }
    readInsn s 0x3000 = .word 0x0180000b ∧
    readInsn (cacheOp .invalidate s .ic (lineAt s .ic 0x3000)) 0x3000 = .word 0x0190000b := by
  decide +kernel

/-- What the inputs of a boundary may hold: the hart that goes on, its activity, its interrupts. -/
def slotOf (run : Option Nat) (acts : List HartAct) (irqs : List Nat) : Slot := ⟨run, acts, irqs, ⟨[], []⟩⟩

/-- 60 R484: the other hart executes `th.sfence.vmas`, and the entry leaves this hart's TLB when the
broadcast reaches it (41 R211). -/
theorem test_harts :
    let s : State := { State.reset.withFetchWord 32 0x04b5000b with
      tlb := [⟨4, 1, 4, []⟩], oracle := [slotOf (some 0) [] [], slotOf (some 0) [⟨none, .deliver 0⟩] []] }
    let s : State := { s with others := s.others.map fun h => { h with x := (h.x.set 10 0).set 11 1 } }
    (match step s with
      | .next t => t.mhartid == 1 && t.pc == 0x1004 &&
          t.others.map Hart.pending == [[⟨1, .invalidateTlb 0 1⟩]] &&
          (background t).mhartid == 0 && (background t).tlb == [] && (background t).pending == []
      | _ => false) = true := by decide +kernel

/-- 60 R456, R475: the external interrupt before the software one, and a masked source not at all. -/
theorem test_interrupts :
    let s : State := { State.reset with
      mstatus := { State.reset.mstatus with mie := true }, oracle := [slotOf none [] [7, 3, 11]] }
    takenInterrupt s = some 11 ∧ takenInterrupt { s with mie := 0x88 } = some 3 ∧
      takenInterrupt { s with mie := 0 } = none ∧
      takenInterrupt { s with mstatus := State.reset.mstatus } = none := by decide +kernel

/-- 45 R340: another agent stores over both words of a pair between its two loads, one word being loaded
before that, and the other after. -/
theorem test_pairGap :
    let s (order : List Nat) : State := { State.reset with
      inter := ⟨order, [[⟨none, .extStore 0x2004 0x55⟩, ⟨none, .extStore 0x2000 0x44⟩]]⟩ }
    gives (s []) (.lwd 10 13 12 0) [(12, 0x2000)] [(10, 0), (13, 0x55)] ∧
    gives (s [1]) (.lwd 10 13 12 0) [(12, 0x2000)] [(10, 0x44), (13, 0)] := by decide +kernel

/-- Decision D5: a misaligned store whose second byte faults writes nothing, `misalignedPartial` being off. -/
theorem test_misalignedFault :
    (match exec (.shia 10 11 1 0) (writeX { State.reset with
        cfg := { platform with misaligned := .emulate, regions := [⟨0x1ff0, 16, [.store]⟩] } } 11 0x1fff) with
      | .next t => t.mcause == 7 && t.mtval == 0x2000 && readX t 11 == 0x1fff && t.mem == []
      | _ => false) = true := by decide +kernel
/-! ## Witnesses: for each statement with hypotheses, a state and operands that meet them together -/

/-- The result is a next state. -/
def isNext (r : Host.Outcome State Fault Refusal) : Bool :=
  match r with
  | .next _ => true
  | _ => false

theorem exists_next {r : Host.Outcome State Fault Refusal} (h : isNext r = true) : ∃ t, r = .next t := by
  cases r with
  | next t => exact ⟨t, rfl⟩
  | fault _ => cases h
  | refused _ => cases h

/-- `th.addsl a0, a1, a2, 2` placed where the first step fetches. -/
def placed : State := State.reset.withFetchWord 32 0x04c5950b

/-- A platform with memory at 0x2000 to 0x200f only. -/
def smallMem : State := { State.reset with cfg := { platform with regions := [⟨0x2000, 16, [.load, .store, .fetch]⟩] } }

/-- S mode with translation on and no page mapped. -/
def unmapped : State := { State.reset with priv := .s, xlateOn := true }

theorem opcodeF_encode (i : Instr) : opcodeF (encode i) = 0b0001011#7 := by
  cases i <;> rw [encode] <;>
    first
    | rw [opcodeF_wordR]
    | rw [opcodeF_wordRS]
    | rw [opcodeF_wordI6]
    | rw [opcodeF_wordV]

theorem funct3F_encode_ne (i : Instr) (h : encode i = 0x0000700b) : False := by
  have h3 := congrArg (fun w : InsnWord => w.extractLsb' 12 3) h
  have h5 := congrArg (fun w : InsnWord => w.extractLsb' 27 5) h
  have e3 : (0x0000700b : InsnWord).extractLsb' 12 3 = 0b111#3 := by decide
  have e5 : (0x0000700b : InsnWord).extractLsb' 27 5 = 0#5 := by decide
  have r3 (f7 : BitVec 7) (a b : BitVec 5) (f3 : BitVec 3) (d : BitVec 5) :
      (wordR f7 a b f3 d).extractLsb' 12 3 = f3 := funct3F_wordR f7 a b f3 d
  have s3 (f5 : BitVec 5) (m : BitVec 2) (a b : BitVec 5) (f3 : BitVec 3) (d : BitVec 5) :
      (wordRS f5 m a b f3 d).extractLsb' 12 3 = f3 :=
    (field_high _ (0b0001011#7) 5 3).trans ((field_high _ d 0 3).trans (field_low _ _))
  have s5 (f5 : BitVec 5) (m : BitVec 2) (a b : BitVec 5) (f3 : BitVec 3) (d : BitVec 5) :
      (wordRS f5 m a b f3 d).extractLsb' 27 5 = f5 :=
    (field_high _ (0b0001011#7) 20 5).trans ((field_high _ d 15 5).trans ((field_high _ f3 12 5).trans
      ((field_high _ b 7 5).trans ((field_high _ a 2 5).trans ((field_high _ m 0 5).trans
        (field_whole _))))))
  have i3 (hi lo : BitVec 6) (b : BitVec 5) (f3 : BitVec 3) (d : BitVec 5) :
      (wordI6 hi lo b f3 d).extractLsb' 12 3 = f3 :=
    (field_high _ (0b0001011#7) 5 3).trans ((field_high _ d 0 3).trans (field_low _ _))
  have v3 (f6 : BitVec 6) (vm : Bool) (a b d : BitVec 5) :
      (wordV f6 vm a b d).extractLsb' 12 3 = 0b110#3 :=
    (field_high _ (0b0001011#7) 5 3).trans ((field_high _ d 0 3).trans (field_low _ _))
  rw [e3] at h3
  rw [e5] at h5
  cases i <;>
    first
    | (rw [encode, r3] at h3; exact absurd h3 (by decide))
    | (rw [encode, i3] at h3; exact absurd h3 (by decide))
    | (rw [encode, v3] at h3; exact absurd h3 (by decide))
    | (rw [encode, s3] at h3; exact absurd h3 (by decide))
    | (rw [encode, s5] at h5; exact absurd h5 (by decide))

/-- An access of an untranslated, aligned address that the platform answers. -/
theorem maps_bare (s : State) (k : AccessKind) (va : Word) (n : Nat)
    (ht : translated s (dataPriv s) = false) (ha : va.toNat % n = 0)
    (hacc : accessible s.cfg va.toNat n k = true) :
    AccessMaps s k va n ((List.range n).map (va.toNat + ·)) :=
  .inl ⟨ha, va.toNat, by unfold Machine.translate; rw [ht]; rfl, hacc, rfl⟩

theorem linesWf_one (g : CacheGeom) (ln : Line) (h1 : ln.addr % 2 ^ g.l = 0)
    (h2 : ln.data.length = 2 ^ g.l) (h3 : ln.way < 2 ^ g.w) : LinesWf g [ln] :=
  ⟨by simpa using h1, by simpa using h2, by simpa using h3, List.pairwise_singleton _ _,
    List.pairwise_singleton _ _⟩

/-- Storage whose instruction caches are empty, whose `L2` is dirty throughout, and in which the other harts
hold nothing. -/
theorem storageInv_of (s : State) (hm : Memory.wf s.mem = true) (hd : LinesWf s.cfg.dcGeom s.dc)
    (h2 : LinesWf s.cfg.l2Geom s.l2) (hdirty : ∀ ln ∈ s.l2, ln.dirty = true) (hi : s.ic = [])
    (ho : ∀ h ∈ s.others, h.dc = [] ∧ h.ic = []) : StorageInv s := by
  have ic : cacheLines s .ic = [] := by unfold cacheLines storedLines; split <;> simp [hi]
  refine { mem_wf := hm, caches := ⟨?_, by simp [ic], ?_⟩, l2_clean := ?_, copies_agree := ?_ }
  · intro c
    cases c with
    | dc => unfold cacheLines storedLines; split
            · exact hd
            · exact .nil _
    | ic => rw [ic]; exact .nil _
    | l2 => unfold cacheLines storedLines; split
            · exact h2
            · exact .nil _
  · intro h hh
    exact ⟨fun _ => (ho h hh).1 ▸ .nil _, fun _ => (ho h hh).2 ▸ .nil _, fun _ => by simp [(ho h hh).2]⟩
  · intro ln hl hdl
    have : ln ∈ s.l2 := by
      unfold cacheLines storedLines at hl
      split at hl
      · exact hl
      · simp at hl
    rw [hdirty ln this] at hdl
    cases hdl
  · intro _ _ h hh h' hh' ln hl ln' hl' e
    have own : ∀ q ∈ harts s, ∀ m ∈ q.dc, m ∈ s.dc := by
      intro q hq m hm
      rcases List.mem_cons.1 hq with rfl | hq
      · exact hm
      · rw [(ho q hq).1] at hm; cases hm
    rw [hd.eq_of_addr (own h hh ln hl) (own h' hh' ln' hl') e]

/-- Storage with nothing cached. -/
theorem storageInv_bare (s : State) (hm : Memory.wf s.mem = true) (hd : s.dc = []) (h2 : s.l2 = [])
    (hi : s.ic = []) (ho : ∀ h ∈ s.others, h.dc = [] ∧ h.ic = []) : StorageInv s :=
  storageInv_of s hm (hd ▸ .nil _) (h2 ▸ .nil _) (by simp [h2]) hi ho

/-! ### Encoding and the step -/

theorem witness_EncodeOfDecode : decodeWord 0x04c5950b = .ok (.addsl 10 11 12 2) := by decide +kernel

theorem witness_UnlistedWordsAreIllegal :
    ((∀ i, encode i ≠ 0x0000700b) ∧ opcodeF 0x0000700b = 0b0001011#7) ∧
    ((∀ i, encode i ≠ 0x00000013) ∧ opcodeF 0x00000013 ≠ 0b0001011#7) := by
  refine ⟨⟨fun i h => funct3F_encode_ne i h, by decide⟩, fun i h => ?_, by decide⟩
  have := opcodeF_encode i
  rw [h] at this
  exact absurd this (by decide)

/-- The inputs that put `th.sync` at 0x1000 and fetch it ahead. -/
def aheadState : State :=
  { State.reset with oracle := [slotOf none [⟨none, .extStore 0x1000 0x0b⟩, ⟨none, .extStore 0x1002 0x80⟩,
      ⟨none, .extStore 0x1003 1⟩, ⟨none, .prefetch 0x1000⟩] []] }

/-- A word that decodes, a parcel of 16 bits, and a word fetched ahead. -/
theorem witness_StepRunsDecoded :
    (let b := background placed
     configWf placed.cfg = true ∧ takenInterrupt placed = none ∧ b.pc.toNat % pcAlign b.cfg = 0 ∧
      decodeWord 0x04c5950b = .ok (.addsl 10 11 12 2) ∧ fetchedAhead b b.pc = none ∧
      translate b b.priv .fetch b.pc = some 0x1000 ∧ accessible b.cfg 0x1000 2 .fetch = true ∧
      (fetchByte b 0x1000).toNat % 4 = 3 ∧
      translate b b.priv .fetch (byteVa b b.pc 2) = some 0x1002 ∧
      accessible b.cfg 0x1002 2 .fetch = true ∧
      (0x04c5950b : InsnWord) = fetchByte b 0x1003 ++ fetchByte b 0x1002 ++ fetchByte b 0x1001 ++
        fetchByte b 0x1000) ∧
    (let b := background State.reset
     takenInterrupt State.reset = none ∧ b.pc.toNat % pcAlign b.cfg = 0 ∧ fetchedAhead b b.pc = none ∧
      translate b b.priv .fetch b.pc = some 0x1000 ∧ accessible b.cfg 0x1000 2 .fetch = true ∧
      (fetchByte b 0x1000).toNat % 4 ≠ 3) ∧
    (let b := background aheadState
     configWf aheadState.cfg = true ∧ takenInterrupt aheadState = none ∧
      b.pc.toNat % pcAlign b.cfg = 0 ∧ decodeWord 0x0180000b = .ok .sync ∧
      fetchedAhead b b.pc = some 0x0180000b) := by
  decide +kernel

/-- Either half without a translation, either half beyond the memory there is, and a misaligned `pc`. -/
theorem witness_FetchFaults :
    (let b := background unmapped
     configWf unmapped.cfg = true ∧ takenInterrupt unmapped = none ∧ fetchedAhead b b.pc = none ∧
      b.pc.toNat % pcAlign b.cfg = 0 ∧ translate b b.priv .fetch b.pc = none) ∧
    (let b := background smallMem
     configWf smallMem.cfg = true ∧ takenInterrupt smallMem = none ∧ fetchedAhead b b.pc = none ∧
      b.pc.toNat % pcAlign b.cfg = 0 ∧ translate b b.priv .fetch b.pc = some 0x1000 ∧
      accessible b.cfg 0x1000 2 .fetch = false) ∧
    (let s : State := { unmapped with
       pc := 0x1ffe, mem := [(0x5ffe, 3)], pageMap := [⟨1, 1, 5, [(.s, .fetch)]⟩] }
     let b := background s
     configWf s.cfg = true ∧ takenInterrupt s = none ∧ fetchedAhead b b.pc = none ∧
      b.pc.toNat % pcAlign b.cfg = 0 ∧ translate b b.priv .fetch b.pc = some 0x5ffe ∧
      accessible b.cfg 0x5ffe 2 .fetch = true ∧ (fetchByte b 0x5ffe).toNat % 4 = 3 ∧
      translate b b.priv .fetch (byteVa b b.pc 2) = none) ∧
    (let s : State := { smallMem with pc := 0x200e, mem := [(0x200e, 3)] }
     let b := background s
     configWf s.cfg = true ∧ takenInterrupt s = none ∧ fetchedAhead b b.pc = none ∧
      b.pc.toNat % pcAlign b.cfg = 0 ∧ translate b b.priv .fetch b.pc = some 0x200e ∧
      accessible b.cfg 0x200e 2 .fetch = true ∧ (fetchByte b 0x200e).toNat % 4 = 3 ∧
      translate b b.priv .fetch (byteVa b b.pc 2) = some 0x2010 ∧
      accessible b.cfg 0x2010 2 .fetch = false) ∧
    (let s : State := { State.reset with pc := 0x1001 }
     configWf s.cfg = true ∧ takenInterrupt s = none ∧ fetchedAhead (background s) s.pc = none ∧
      (background s).pc.toNat % pcAlign s.cfg ≠ 0) := by decide +kernel

/-- A state with a dirty line of the D-cache and a dirty line of `L2`. -/
def dirtyState : State :=
  { State.reset with
    dc := [{ addr := 0x2040, way := 0, dirty := true, data := List.replicate 64 0xbb }]
    l2 := [{ addr := 0x3000, way := 2, dirty := true, data := List.replicate 64 0xcc }] }

theorem dirtyState_inv : StorageInv dirtyState :=
  storageInv_of _ (by decide +kernel)
    (linesWf_one _ _ (by decide +kernel) (by decide +kernel) (by decide +kernel))
    (linesWf_one _ _ (by decide +kernel) (by decide +kernel) (by decide +kernel))
    (by simp [dirtyState]) (by decide +kernel) (by decide +kernel)

/-- The same with `DCACHE_COHERENT` and `SYNC_I_SUFFICIENT`. -/
def coherentDirty : State :=
  { dirtyState with cfg := { platform with dcacheCoherent := true, syncISufficient := true } }

theorem coherentDirty_inv : StorageInv coherentDirty :=
  storageInv_of _ (by decide +kernel)
    (linesWf_one _ _ (by decide +kernel) (by decide +kernel) (by decide +kernel))
    (linesWf_one _ _ (by decide +kernel) (by decide +kernel) (by decide +kernel))
    (by simp [coherentDirty, dirtyState]) (by decide +kernel) (by decide +kernel)

/-- 41 R215, R216, 20 R103: what another hart stored and this hart's loads see, its fetches see after the barrier,
and the line stays where it is. -/
theorem test_syncFetch :
    let s := switchTo 0 coherentDirty
    let sees (i : Instr) : Bool := match exec i s with
      | .next t => fetchByte t 0x2040 == 0xbb && dataByte t 0x2040 == 0xbb &&
          t.others.map (fun h => h.dc.map fun ln => (ln.addr, ln.dirty)) == [[(0x2040, false)]]
      | _ => false
    fetchByte s 0x2040 = 0 ∧ sees .syncI ∧ sees .syncIs := by decide +kernel

/-- A byte of a dirty line and one of a line that is clean and true; each broadcast; another hart. -/
theorem witness_AgentsLeaveTheHart :
    (StorageInv dirtyState ∧
      ∀ ln ∈ cacheLines dirtyState .dc, lineAddr dirtyState.cfg.dcGeom 0x2041 = ln.addr → ln.dirty = false →
        lineByte dirtyState.cfg.dcGeom ln 0x2041 = belowByte dirtyState 0x2041) ∧
    (let s : State := { State.reset with
       dc := [{ addr := 0x2040, way := 0, dirty := false, data := List.replicate 64 0 }] }
     ∀ ln ∈ cacheLines s .dc, lineAddr s.cfg.dcGeom 0x2041 = ln.addr → ln.dirty = false →
        lineByte s.cfg.dcGeom ln 0x2041 = belowByte s 0x2041) ∧
    (let s : State := { State.reset with
       pending := [⟨1, .invalidateICache⟩, ⟨1, .invalidateTlb 0x4000 1⟩] }
     ∃ (h0 : 0 < s.pending.length) (h1 : 1 < s.pending.length),
       s.pending[0].op = .invalidateICache ∧ s.pending[1].op = .invalidateTlb 0x4000 1) ∧
    0 < State.reset.others.length :=
  ⟨⟨dirtyState_inv, by decide +kernel⟩, by decide +kernel, ⟨by decide +kernel, by decide +kernel, by decide +kernel,
    by decide +kernel⟩, by decide +kernel⟩

/-- Below M and in M with the interrupts on, all three sources, each with those before it absent; a source
masked in `mie`, one beyond it, and interrupts off. -/
theorem witness_InterruptTakenOrMasked :
    let at_ (irqs : List Nat) : State := { State.reset with priv := .u, oracle := [slotOf none [] irqs] }
    let ok (s : State) (c : Nat) : Prop := c ∈ (takeSlot s).1.irqs ∧
      ((background s).priv ≠ .m ∨ (background s).mstatus.mie = true) ∧
      (xlenBits (background s).cfg ≤ c ∨ (background s).mie.getLsbD c = true)
    configWf State.reset.cfg = true ∧
    ok (at_ [7, 3, 11]) 11 ∧ (ok (at_ [7, 3]) 3 ∧ ¬ ok (at_ [7, 3]) 11) ∧
    (ok (at_ [7]) 7 ∧ ¬ ok (at_ [7]) 11 ∧ ¬ ok (at_ [7]) 3) ∧ ok (at_ [64]) 64 ∧ ¬ ok (at_ [63]) 63 ∧
    ok { State.reset with
      mstatus := { State.reset.mstatus with mie := true }, oracle := [slotOf none [] [11]] } 11 ∧
    ¬ ok { State.reset with oracle := [slotOf none [] [11]] } 11 ∧
    (∀ c, ¬ ok { at_ [] with oracle := [slotOf none [] []] } c) :=
  ⟨by decide +kernel, by decide +kernel, by decide +kernel, by decide +kernel, by decide +kernel,
    by decide +kernel, by decide +kernel, by decide +kernel, fun c h => by cases h.1⟩

/-- An aligned `pc` that is saved as it is, and a vectored interrupt. -/
theorem witness_TrapEntry :
    State.reset.pc.toNat % pcAlign State.reset.cfg = 0 ∧
      truncX State.reset.cfg State.reset.pc = State.reset.pc ∧
      (trap { State.reset with mtvec := 0x801 } 7 true 0).pc = 0x81c := by decide +kernel

theorem witness_TrapReturn : State.reset.mepc.toNat % pcAlign State.reset.cfg = 0 ∧
    (mret State.reset).pc = 0x100 := by decide +kernel

/-! ### Availability and privilege -/

theorem witness_UnavailableIsIllegal :
    available State.reset (.fmvXHw 10 11) = false ∧
    (let s : State := { State.reset with mxstatus := { theadisaee := false, ucme := true } }
     s.cfg.theadisaeeGated = true ∧ s.mxstatus.theadisaee = false) ∧
    rv32.cfg.xlen = .rv32 ∧ State.reset.cfg.xlen = .rv64 ∧
    (let s : State := { rv32 with cfg := { rv32.cfg with mulswOnRv32 := false, fmemidxUOnRv32 := false } }
     s.cfg.xlen = .rv32 ∧ s.cfg.mulswOnRv32 = false ∧ s.cfg.fmemidxUOnRv32 = false ∧
      configWf s.cfg = true) ∧
    (let s : State := { State.reset with cfg := { platform with hasD := false } }
     s.cfg.hasD = false ∧ configWf s.cfg = true) ∧
    (let s : State := { State.reset with cfg := { platform with hasD := false, hasF := false } }
     s.cfg.hasF = false ∧ configWf s.cfg = true) := by decide +kernel

theorem witness_NotPermittedIsIllegal :
    (let s : State := { State.reset with priv := .u, mxstatus := { theadisaee := true, ucme := false } }
     s.priv = .u ∧ s.cfg.ucmeGated = true ∧ s.mxstatus.ucme = false ∧ s.priv ≠ .m) ∧
    unmapped.priv ≠ .m ∧
    (let s : State := { State.reset with mstatus := { State.reset.mstatus with fs := 0 } }
     s.cfg.fsGated = true ∧ s.mstatus.fs = 0) := by decide +kernel

theorem witness_CompletesReturnsOrTraps :
    (∃ t, exec (.addsl 10 11 12 2) .reset = .next t) ∧ (∃ t, exec .ipop .reset = .next t) ∧
      ∃ t, exec (.lhia 10 11 1 0) (writeX .reset 11 0x2001) = .next t :=
  ⟨exists_next (by decide +kernel), exists_next (by decide +kernel), exists_next (by decide +kernel)⟩

/-! ### Invariants -/

theorem witness_StepKeepsSystemRegisters : ∃ t, step placed = .next t :=
  exists_next (by decide +kernel)

/-- The control state of a hart, checked. -/
def controlOk (c : Config) (h : Hart) : Bool :=
  h.pc.toNat % pcAlign c == 0 && truncX c h.pc == h.pc && mepcValue c h.mepc == h.mepc &&
    privExists c h.priv && privExists c h.mstatus.mpp

theorem controlInv_of (s : State) (hc : configWf s.cfg = true) (hh : (harts s).all (controlOk s.cfg) = true)
    (hn : (harts s).map Hart.mhartid = (List.range s.cfg.nharts).map (BitVec.ofNat 64)) : ControlInv s := by
  refine ⟨hc, fun h hm => ?_, hn ▸ .refl _⟩
  have := List.all_eq_true.1 hh h hm
  simp only [controlOk, Bool.and_eq_true, beq_iff_eq] at this
  exact ⟨this.1.1.1.1, this.1.1.1.2, this.1.1.2, this.1.2, this.2⟩

/-- The register files of a hart, checked. -/
def registersOk (c : Config) (h : Hart) : Bool :=
  decide ((∀ r : Fin 32, truncX c h.x[r] = h.x[r]) ∧ h.x[0] = 0 ∧ (∀ r : Fin 32, truncF c h.f[r] = h.f[r]) ∧
    h.vregs.length = 32 * (c.vlen / 32))

theorem registersInv_of (s : State) (hh : (harts s).all (registersOk s.cfg) = true) : RegistersInv s := by
  intro h hm
  have := of_decide_eq_true (List.all_eq_true.1 hh h hm)
  exact ⟨this.1, this.2.1, this.2.2.1, this.2.2.2⟩

theorem witness_StepKeepsControl : ControlInv placed ∧ ∃ t, step placed = .next t :=
  ⟨controlInv_of placed (by decide +kernel) (by decide +kernel) (by decide +kernel),
    exists_next (by decide +kernel)⟩

theorem witness_StepKeepsRegisters : RegistersInv placed ∧ ∃ t, step placed = .next t :=
  ⟨registersInv_of placed (by decide +kernel), exists_next (by decide +kernel)⟩

theorem witness_StepKeepsStorage : StorageInv placed ∧ ∃ t, step placed = .next t :=
  ⟨storageInv_bare placed (by decide +kernel) (by decide +kernel) (by decide +kernel)
    (by decide +kernel) (by decide +kernel), exists_next (by decide +kernel)⟩

/-- A byte of a line this hart holds and another does not. -/
theorem witness_CoherentCachesAgree :
    StorageInv coherentDirty ∧ coherentDirty.cfg.dcacheCoherent = true ∧
      dataByte (switchTo 0 coherentDirty) 0x2040 = 0xbb :=
  ⟨coherentDirty_inv, rfl, by decide +kernel⟩

theorem witness_NeverFaults : ∃ t, ControlInv placed ∧ Reaches placed t := by
  obtain ⟨h, t, ht⟩ := witness_StepKeepsControl
  exact ⟨t, h, .tail (.refl _) ht⟩

/-! ### Register arithmetic -/

theorem witness_AddslResult : enabled State.reset .xTheadBa = true ∧ (10 : Reg) ≠ 0 := by decide +kernel

theorem witness_SrriResult : enabled State.reset .xTheadBb = true ∧ (10 : Reg) ≠ 0 := by decide +kernel

theorem witness_WordResults : enabled State.reset .xTheadBb = true ∧ State.reset.cfg.xlen = .rv64 ∧
    (10 : Reg) ≠ 0 := by decide +kernel

/-- The widest and the narrowest field, a field that names no bit, and a bit RV32 does not have. -/
theorem witness_ExtractResults :
    enabled State.reset .xTheadBb = true ∧ enabled rv32 .xTheadBb = true ∧
    ((0 : BitVec 6).toNat ≤ (63 : BitVec 6).toNat ∧ (63 : BitVec 6).toNat < xlenBits State.reset.cfg) ∧
    ((31 : BitVec 6).toNat ≤ (31 : BitVec 6).toNat ∧ (31 : BitVec 6).toNat < xlenBits rv32.cfg) ∧
    (31 : BitVec 6).toNat < (32 : BitVec 6).toNat ∧
    ((32 : BitVec 6).toNat ≤ (32 : BitVec 6).toNat ∧ xlenBits rv32.cfg ≤ (32 : BitVec 6).toNat) := by
  decide +kernel

theorem witness_FindFirstResults : enabled State.reset .xTheadBb = true ∧ (10 : Reg) ≠ 0 := by
  decide +kernel

theorem witness_ByteResults : enabled rv32 .xTheadBb = true ∧ (10 : Reg) ≠ 0 := by decide +kernel

theorem witness_TstResult :
    (enabled State.reset .xTheadBs = true ∧ (63 : BitVec 6).toNat < xlenBits State.reset.cfg) ∧
    (enabled rv32 .xTheadBs = true ∧ xlenBits rv32.cfg ≤ (32 : BitVec 6).toNat) := by decide +kernel

theorem witness_ConditionalMoves : enabled State.reset .xTheadCondMov = true ∧ (10 : Reg) ≠ 0 := by
  decide +kernel

theorem witness_WholeMultiplyAccumulate : enabled State.reset .xTheadMac = true ∧ (10 : Reg) ≠ 0 := by
  decide +kernel

theorem witness_HalfMultiplyAccumulate : enabled rv32 .xTheadMac = true ∧ (10 : Reg) ≠ 0 := by
  decide +kernel

theorem witness_WordMultiplyAccumulate :
    (enabled State.reset .xTheadMac = true ∧ decide (State.reset.cfg.xlen = .rv64) = true) ∧
    (enabled rv32 .xTheadMac = true ∧
      (decide (rv32.cfg.xlen = .rv64) || rv32.cfg.mulswOnRv32) = true) := by decide +kernel

/-! ### Memory -/

/-- Two bytes that wrap round the top of the address space, one by one. -/
theorem maps_wrap (k : AccessKind) (hk : k ∈ [.load, .store]) :
    AccessMaps (emulating .reset) k 0xffffffffffffffff 2 [0xffffffffffffffff, 0] := by
  refine .inr ⟨by decide +kernel, rfl, rfl, rfl, ?_⟩
  simp only [List.mem_cons, List.not_mem_nil, or_false] at hk
  rcases hk with rfl | rfl <;> decide +kernel

theorem witness_IncrementLoads :
    (enabled State.reset .xTheadMemIdx = true ∧ State.reset.cfg.xlen = .rv64 ∧ (10 : Reg) ≠ 11 ∧
      AccessMaps .reset .load (incAddr .reset .before 11 1 3) 8 ((List.range 8).map (0xb008 + ·))) ∧
    (let s := writeX (emulating .reset) 11 0xffffffffffffffff
     enabled s .xTheadMemIdx = true ∧ (10 : Reg) ≠ 11 ∧
      AccessMaps s .load (incAddr s .after 11 1 0) 2 [0xffffffffffffffff, 0]) :=
  ⟨⟨by decide +kernel, rfl, by decide, maps_bare _ _ 0xb008 8 (by decide +kernel) (by decide +kernel)
      (by decide +kernel)⟩,
    by decide +kernel, by decide,
    .inr ⟨by decide +kernel, rfl, rfl, rfl, by decide +kernel⟩⟩

theorem witness_IncrementStores :
    (let s : State := { State.reset with cfg := { platform with sibSameReg := .refuse } }
     enabled s .xTheadMemIdx = true ∧ s.cfg.xlen = .rv64 ∧ When.before = .before ∧ s.cfg.sibSameReg = .refuse) ∧
    (enabled State.reset .xTheadMemIdx = true ∧ State.reset.cfg.xlen = .rv64 ∧
      ¬(When.before = .before ∧ (11 : Reg) = 11 ∧ State.reset.cfg.sibSameReg = .refuse) ∧
      AccessMaps .reset .store (incAddr .reset .before 11 1 3) 8 ((List.range 8).map (0xb008 + ·)) ∧
      StorageInv (emulating .reset) ∧ ((List.range 8).map (0xb008 + ·)).Nodup) :=
  ⟨by decide +kernel, by decide +kernel, rfl, by decide +kernel,
    maps_bare _ _ 0xb008 8 (by decide +kernel) (by decide +kernel) (by decide +kernel),
    storageInv_bare _ (by decide +kernel) (by decide +kernel) (by decide +kernel) (by decide +kernel)
      (by decide +kernel), by decide +kernel⟩

theorem witness_IndexedLoads :
    enabled State.reset .xTheadMemIdx = true ∧ State.reset.cfg.xlen = .rv64 ∧
      AccessMaps .reset .load (indexedAddr .reset .low32 11 12 3) 8
        ((List.range 8).map (0x6b000 + ·)) :=
  ⟨by decide +kernel, rfl, maps_bare _ _ 0x6b000 8 (by decide +kernel) (by decide +kernel)
    (by decide +kernel)⟩

theorem witness_IndexedStores :
    enabled (emulating .reset) .xTheadMemIdx = true ∧ (emulating .reset).cfg.xlen = .rv64 ∧
      AccessMaps (emulating .reset) .store (indexedAddr (emulating .reset) .whole 11 12 3) 8
        ((List.range 8).map (0x6b000 + ·)) ∧
      StorageInv (emulating .reset) ∧ ((List.range 8).map (0x6b000 + ·)).Nodup :=
  ⟨by decide +kernel, rfl, maps_bare _ _ 0x6b000 8 (by decide +kernel) (by decide +kernel)
    (by decide +kernel), witness_IncrementStores.2.2.2.2.2.1, by decide +kernel⟩

theorem witness_PairLoads :
    enabled State.reset .xTheadMemPair = true ∧ State.reset.cfg.xlen = .rv64 ∧ State.reset.inter.gaps = [] ∧
      (10 : Reg) ≠ 13 ∧ (10 : Reg) ≠ 12 ∧ (13 : Reg) ≠ 12 ∧
      AccessMaps .reset .load (pairAddr .reset 8 12 3) 8 ((List.range 8).map (0xc030 + ·)) ∧
      AccessMaps .reset .load (pairAddr2 .reset 8 12 3) 8 ((List.range 8).map (0xc038 + ·)) :=
  ⟨by decide +kernel, rfl, rfl, by decide, by decide, by decide,
    maps_bare _ _ 0xc030 8 (by decide +kernel) (by decide +kernel) (by decide +kernel),
    maps_bare _ _ 0xc038 8 (by decide +kernel) (by decide +kernel) (by decide +kernel)⟩

theorem witness_PairStores :
    let s := emulating .reset
    enabled s .xTheadMemPair = true ∧ s.cfg.xlen = .rv64 ∧ s.inter.gaps = [] ∧
      AccessMaps s .store (pairAddr s 8 12 3) 8 ((List.range 8).map (0xc030 + ·)) ∧
      AccessMaps s .store (pairAddr2 s 8 12 3) 8 ((List.range 8).map (0xc038 + ·)) ∧ StorageInv s ∧
      ((List.range 8).map (0xc030 + ·) ++ (List.range 8).map (0xc038 + ·)).Nodup :=
  ⟨by decide +kernel, rfl, rfl,
    maps_bare _ _ 0xc030 8 (by decide +kernel) (by decide +kernel) (by decide +kernel),
    maps_bare _ _ 0xc038 8 (by decide +kernel) (by decide +kernel) (by decide +kernel),
    witness_IncrementStores.2.2.2.2.2.1, by decide +kernel⟩

/-- An aligned access of an untranslated address that the platform does not answer. -/
theorem raises_bare (s : State) (k : AccessKind) (va : Word) (n : Nat)
    (ht : translated s (dataPriv s) = false) (ha : va.toNat % n = 0)
    (hacc : accessible s.cfg va.toNat n k = false) : AccessRaises s k va n (accessFaultCode k) :=
  .inr (.inr ⟨ha, ⟨va.toNat, by unfold Machine.translate; rw [ht]; rfl, hacc⟩, rfl⟩)

/-- Misaligned accesses byte by byte, which may leave single bytes written, and memory at 0x2000 to 0x200f
only. -/
def bytewise : State :=
  { smallMem with cfg := { smallMem.cfg with misaligned := .emulate, misalignedPartial := true } }

/-- Either half beyond the memory there is, of a store and of a load; both, the second one lower where the
addresses wrap; and a misaligned half of which one byte lies beyond. -/
theorem witness_PairTraps :
    (let s := writeX smallMem 12 0x2008
     enabled s .xTheadMemPair = true ∧ s.cfg.xlen = .rv64 ∧ s.inter.gaps = [] ∧
      s.cfg.misalignedPartial = false ∧
      RaisesAt s .store (pairAddr2 s 8 12 0) 8 7 0x2010 ∧
      AccessMaps s .store (pairAddr s 8 12 0) 8 ((List.range 8).map (0x2008 + ·)) ∧ StorageInv s ∧
      ((List.range 8).map (0x2008 + ·)).Nodup) ∧
    (let s := writeX smallMem 12 0x1ff8
     enabled s .xTheadMemPair = true ∧ s.cfg.xlen = .rv64 ∧ s.inter.gaps = [] ∧
      ((10 : Reg) ≠ 13 ∧ (10 : Reg) ≠ 12 ∧ (13 : Reg) ≠ 12) ∧
      RaisesAt s .load (pairAddr s 8 12 0) 8 5 0x1ff8 ∧
      AccessMaps s .load (pairAddr2 s 8 12 0) 8 ((List.range 8).map (0x2000 + ·))) ∧
    (let s := writeX smallMem 12 0xfffffffffffffff8
     enabled s .xTheadMemPair = true ∧ s.cfg.xlen = .rv64 ∧ s.inter.gaps = [] ∧
      RaisesAt s .store (pairAddr s 8 12 0) 8 7 0xfffffffffffffff8 ∧
      RaisesAt s .store (pairAddr2 s 8 12 0) 8 7 0 ∧
      (pairAddr2 s 8 12 0).toNat < (pairAddr s 8 12 0).toNat) ∧
    (let s := writeX bytewise 12 0x2005
     enabled s .xTheadMemPair = true ∧ s.cfg.xlen = .rv64 ∧ s.inter.gaps = [] ∧
      RaisesAt s .store (pairAddr2 s 8 12 0) 8 7 0x2010 ∧
      AccessMaps s .store (pairAddr s 8 12 0) 8 ((List.range 8).map (0x2005 + ·))) :=
  ⟨⟨by decide +kernel, rfl, rfl, rfl,
      .inl ⟨raises_bare _ _ _ _ (by decide +kernel) (by decide +kernel) (by decide +kernel), by decide +kernel⟩,
      maps_bare _ _ 0x2008 8 (by decide +kernel) (by decide +kernel) (by decide +kernel),
      storageInv_bare _ (by decide +kernel) (by decide +kernel) (by decide +kernel) (by decide +kernel)
        (by decide +kernel), by decide +kernel⟩,
    ⟨by decide +kernel, rfl, rfl, by decide,
      .inl ⟨raises_bare _ _ _ _ (by decide +kernel) (by decide +kernel) (by decide +kernel), by decide +kernel⟩,
      maps_bare _ _ 0x2000 8 (by decide +kernel) (by decide +kernel) (by decide +kernel)⟩,
    ⟨by decide +kernel, rfl, rfl,
      .inl ⟨raises_bare _ _ _ _ (by decide +kernel) (by decide +kernel) (by decide +kernel), by decide +kernel⟩,
      .inl ⟨raises_bare _ _ _ _ (by decide +kernel) (by decide +kernel) (by decide +kernel), by decide +kernel⟩,
      by decide +kernel⟩,
    ⟨by decide +kernel, rfl, rfl,
      .inr ⟨by decide +kernel, rfl, 3, by decide, .inr ⟨⟨0x2010, by decide +kernel, by decide +kernel⟩, rfl⟩,
        by decide +kernel⟩,
      .inr ⟨by decide +kernel, rfl, rfl, rfl, by decide +kernel⟩⟩⟩

/-- S mode with these translations of page 2 and, between two accesses, those; `x12` is 0x2000. -/
def gapState (order : List Nat) (before after : List MapEntry) : State :=
  { writeX unmapped 12 0x2000 with pageMap := before, inter := ⟨order, [[⟨none, .remap after⟩]]⟩ }

/-- What an agent does between the accesses of `gapState`. -/
def between (s : State) : State := applyActs s (s.inter.gaps.headD [])

/-- A page, its absence, and both orders: both halves map, either one raises, or both do, of loads and of
stores; after a store the second half still maps or raises. -/
theorem witness_AccessInterleaving_pairs :
    let page : MapEntry := ⟨2, 1, 2, [(.s, .load), (.s, .store)]⟩
    let maps (s : State) (k : AccessKind) (va : Word) := AccessMaps s k va 8 ((List.range 8).map (va.toNat + ·))
    (let s := gapState [] [page] [page]
     enabled s .xTheadMemPair = true ∧ s.cfg.xlen = .rv64 ∧ (pairAddr s 8 12 0).toNat % 8 = 0 ∧
      s.inter.order.find? (· < 2) ≠ some 1 ∧ ((10 : Reg) ≠ 13 ∧ (10 : Reg) ≠ 12 ∧ (13 : Reg) ≠ 12) ∧
      ∀ k ∈ [AccessKind.load, .store],
        maps s k (pairAddr s 8 12 0) ∧ maps (between s) k (pairAddr2 s 8 12 0)) ∧
    (let s := gapState [17, 1] [page] []
     s.inter.order.find? (· < 2) = some 1 ∧ maps s .load (pairAddr2 s 8 12 0) ∧
      AccessRaises (between s) .load (pairAddr s 8 12 0) 8 13) ∧
    (let s := gapState [] [page] []
     let u := dataSetAll s (partCells ⟨0, 0x2000, 0, 0x2000, 8, readX s 10, false⟩ 0x2000)
     maps s .store (pairAddr s 8 12 0) ∧ StorageInv s ∧ ((List.range 8).map (0x2000 + ·)).Nodup ∧
      AccessRaises (between u) .store (pairAddr2 s 8 12 0) 8 15) ∧
    (let s := gapState [] [] [page]
     AccessRaises s .store (pairAddr s 8 12 0) 8 15 ∧ maps (between s) .store (pairAddr2 s 8 12 0)) ∧
    (let s := gapState [1] [] []
     AccessRaises s .load (pairAddr2 s 8 12 0) 8 13 ∧ AccessRaises (between s) .load (pairAddr s 8 12 0) 8 13 ∧
      (pairAddr s 8 12 0).toNat < (pairAddr2 s 8 12 0).toNat) :=
  ⟨⟨by decide +kernel, rfl, by decide +kernel, by decide +kernel, by decide, fun k hk => by
      simp only [List.mem_cons, List.not_mem_nil, or_false] at hk
      rcases hk with rfl | rfl <;>
        exact ⟨.inl ⟨by decide +kernel, 0x2000, by decide +kernel, by decide +kernel, by decide +kernel⟩,
          .inl ⟨by decide +kernel, 0x2008, by decide +kernel, by decide +kernel, by decide +kernel⟩⟩⟩,
    ⟨by decide +kernel,
      .inl ⟨by decide +kernel, 0x2008, by decide +kernel, by decide +kernel, by decide +kernel⟩,
      .inr (.inl ⟨by decide +kernel, by decide +kernel, rfl⟩)⟩,
    ⟨.inl ⟨by decide +kernel, 0x2000, by decide +kernel, by decide +kernel, by decide +kernel⟩,
      storageInv_bare _ (by decide +kernel) (by decide +kernel) (by decide +kernel) (by decide +kernel)
        (by decide +kernel), by decide +kernel,
      .inr (.inl ⟨by decide +kernel, by decide +kernel, rfl⟩)⟩,
    ⟨.inr (.inl ⟨by decide +kernel, by decide +kernel, rfl⟩),
      .inl ⟨by decide +kernel, 0x2008, by decide +kernel, by decide +kernel, by decide +kernel⟩⟩,
    ⟨.inr (.inl ⟨by decide +kernel, by decide +kernel, rfl⟩),
      .inr (.inl ⟨by decide +kernel, by decide +kernel, rfl⟩), by decide +kernel⟩⟩

/-- `gapState` with misaligned accesses performed byte by byte and `x12` at 0x2001; some other order. -/
def oddGapState (after : List MapEntry) : State :=
  let s := gapState [1, 1] [⟨2, 1, 2, [(.s, .load), (.s, .store)]⟩] after
  writeX { s with cfg := { s.cfg with misaligned := .emulate } } 12 0x2001

/-- A stack frame at this address, another agent writing into it after the first access. -/
def gapFrame (s : State) (top : Word) : State :=
  { writeX s 2 top with inter := ⟨[17, 3], [[⟨none, .extStore 0x2004 0x5a⟩]]⟩ }

/-- Whether a piece raises an exception at its moment. -/
def raisesInTurn (s : State) (k : AccessKind) (qs : List Req) : Bool :=
  (partsInTurn s qs).zipIdx.any fun p => match resolvePart (atTurn s p.2) k p.1 with
    | .ok _ => false
    | .error _ => true

theorem raisesInTurn_spec (s : State) (k : AccessKind) (qs : List Req) :
    raisesInTurn s k qs = true ↔ ∃ j code, PieceRaises s k (inTurn s qs) j code := by
  unfold raisesInTurn
  rw [List.any_eq_true]
  constructor
  · rintro ⟨⟨p, j⟩, hp, hr⟩
    obtain ⟨h, hpj⟩ := List.mem_zipIdx' hp
    dsimp only at hr hpj h
    rw [hpj] at hr
    split at hr
    · cases hr
    · next e he => exact ⟨j, e.code, pieceRaises_iff.2 ⟨h, by rw [he, part_error he]⟩⟩
  · rintro ⟨j, code, h⟩
    obtain ⟨h, hr⟩ := pieceRaises_iff.1 h
    exact ⟨((partsInTurn s qs)[j], j), List.mem_zipIdx_iff_getElem?.2 (by simp [h]), by rw [hr]⟩

/-- The clauses on accesses in pieces: their hypotheses, with an agent at work between the pieces, are met by accesses
that raise nothing and by accesses that raise an exception. -/
theorem witness_AccessInterleaving :
    (let s := oddGapState [⟨2, 1, 2, [(.s, .load), (.s, .store)]⟩]
     let r := oddGapState []
     s.inter.gaps ≠ [] ∧ r.inter.gaps ≠ [] ∧ (10 : Reg) ≠ 12 ∧ (10 : Reg) ≠ 13 ∧ (13 : Reg) ≠ 12 ∧
      s.mstatus.fs ≠ 0 ∧ r.mstatus.fs ≠ 0 ∧ r.cfg.misalignedPartial = false ∧ StorageInv s ∧ StorageInv r ∧
      (∀ i ∈ [Instr.lhia 10 12 0 0, .lrh 10 12 0 0, .flrd 10 12 0 0, .ldd 10 13 12 0, .shia 10 12 0 0,
        .srh 10 12 0 0, .fsrd 10 12 0 0, .sdd 10 13 12 0], available s i = true ∧ available r i = true) ∧
      ∀ p ∈ ([(.load, [⟨incAddr s .after 12 0 0, 2, 0⟩]), (.load, [⟨indexedAddr s .whole 12 0 0, 2, 0⟩]),
          (.load, [⟨indexedAddr s .whole 12 0 0, 8, 0⟩]),
          (.load, [⟨pairAddr s 8 12 0, 8, 0⟩, ⟨pairAddr2 s 8 12 0, 8, 0⟩]),
          (.store, [⟨incAddr s .after 12 0 0, 2, readX s 10⟩]),
          (.store, [⟨indexedAddr s .whole 12 0 0, 2, readX s 10⟩]),
          (.store, [⟨indexedAddr s .whole 12 0 0, 8, readF s 10⟩]),
          (.store, [⟨pairAddr s 8 12 0, 8, readX s 10⟩, ⟨pairAddr2 s 8 12 0, 8, readX s 13⟩])] :
          List (AccessKind × List Req)),
        (∃ pas, PiecesMap s p.1 (inTurn s p.2) pas) ∧ (∀ j code, ¬ PieceRaises s p.1 (inTurn s p.2) j code) ∧
        (∃ pas, PiecesMap r p.1 (inTurn r p.2) pas) ∧ ∃ j code, PieceRaises r p.1 (inTurn r p.2) j code) ∧
    (let s := gapFrame .reset 0x2048
     let r := gapFrame smallMem 0x2008
     s.inter.gaps ≠ [] ∧ r.inter.gaps ≠ [] ∧ s.priv = .m ∧ r.priv = .m ∧
      (s.cfg.xlen = .rv64 → s.cfg.xtheadintOnRv64 = true) ∧ (r.cfg.xlen = .rv64 → r.cfg.xtheadintOnRv64 = true) ∧
      (∀ i ∈ [Instr.ipush, .ipop], available s i = true ∧ available r i = true) ∧
      ∀ q ∈ [fun s : State => (AccessKind.store,
            (frameItems s).zipIdx.map fun p => (⟨slotAddr s (readIntSp s) p.2, 4, p.1⟩ : Req)),
          fun s => (.load, (List.range 18).map fun j => ⟨slotAddr s (readIntSp s + 72) j, 4, 0⟩)],
        (∃ pas, PiecesMap s (q s).1 (inTurn s (q s).2) pas) ∧
        (∀ j code, ¬ PieceRaises s (q s).1 (inTurn s (q s).2) j code) ∧
        (∃ pas, PiecesMap r (q r).1 (inTurn r (q r).2) pas) ∧
        ∃ j code, PieceRaises r (q r).1 (inTurn r (q r).2) j code) := by
  have none (s : State) (k : AccessKind) (qs : List Req) (h : raisesInTurn s k qs = false) :
      ∀ j code, ¬ PieceRaises s k (inTurn s qs) j code := fun j code hp => by
    rw [(raisesInTurn_spec s k qs).2 ⟨j, code, hp⟩] at h; cases h
  refine ⟨⟨by decide +kernel, by decide +kernel, by decide, by decide, by decide, by decide +kernel,
      by decide +kernel, rfl, ?_, ?_, by decide +kernel, fun p hp => ?_⟩,
    ⟨by decide +kernel, by decide +kernel, rfl, rfl, fun _ => rfl, fun _ => rfl, by decide +kernel,
      fun q hq => ?_⟩⟩
  · exact storageInv_bare _ (by decide +kernel) (by decide +kernel) (by decide +kernel) (by decide +kernel)
      (by decide +kernel)
  · exact storageInv_bare _ (by decide +kernel) (by decide +kernel) (by decide +kernel) (by decide +kernel)
      (by decide +kernel)
  · refine ⟨exists_piecesMap _ _ _, none _ _ _ ?_, exists_piecesMap _ _ _, (raisesInTurn_spec _ _ _).1 ?_⟩
    all_goals
      revert p
      decide +kernel
  · refine ⟨exists_piecesMap _ _ _, none _ _ _ ?_, exists_piecesMap _ _ _, (raisesInTurn_spec _ _ _).1 ?_⟩
    all_goals
      simp only [List.mem_cons, List.not_mem_nil, or_false] at hq
      rcases hq with rfl | rfl <;> decide +kernel

theorem witness_FloatLoads :
    (let s := State.reset
     enabled s .xTheadFMemIdx = true ∧ s.cfg.xlen = .rv64 ∧ s.cfg.hasD = true ∧ s.mstatus.fs ≠ 0 ∧
      AccessMaps s .load (indexedAddr s .low32 11 12 3) 8 ((List.range 8).map (0x6b000 + ·))) ∧
    (let s := rv32
     enabled s .xTheadFMemIdx = true ∧ s.cfg.fmemidxUOnRv32 = true ∧ s.cfg.hasF = true ∧
      s.mstatus.fs ≠ 0 ∧
      AccessMaps s .load (indexedAddr s .low32 11 12 3) 4 ((List.range 4).map (0x6b000 + ·))) :=
  ⟨⟨by decide +kernel, rfl, rfl, by decide +kernel,
      maps_bare _ _ 0x6b000 8 (by decide +kernel) (by decide +kernel) (by decide +kernel)⟩,
    ⟨by decide +kernel, rfl, rfl, by decide +kernel,
      maps_bare _ _ 0x6b000 4 (by decide +kernel) (by decide +kernel) (by decide +kernel)⟩⟩

theorem witness_FloatStores :
    let s := emulating .reset
    enabled s .xTheadFMemIdx = true ∧ s.cfg.xlen = .rv64 ∧ s.cfg.hasD = true ∧ s.mstatus.fs ≠ 0 ∧
      AccessMaps s .store (indexedAddr s .low32 11 12 3) 8 ((List.range 8).map (0x6b000 + ·)) ∧
      StorageInv s ∧ ((List.range 8).map (0x6b000 + ·)).Nodup :=
  ⟨by decide +kernel, rfl, rfl, by decide +kernel,
    maps_bare _ _ 0x6b000 8 (by decide +kernel) (by decide +kernel) (by decide +kernel),
    witness_IncrementStores.2.2.2.2.2.1, by decide +kernel⟩

theorem witness_FloatMoves :
    enabled rv32 .xTheadFmv = true ∧ rv32.cfg.xlen = .rv32 ∧ rv32.cfg.hasD = true ∧
      (rv32.cfg.fsGated = true → rv32.mstatus.fs ≠ 0) ∧
      ((11, 10) : Reg × Reg) = (if rv32.cfg.fmvHwXSwapped then (10, 11) else (11, 10)) := by
  decide +kernel

/-- A misaligned access, one without a translation, and ones the platform does not answer, in each list; a
misaligned store of which one byte lies beyond the memory; and an integer access with the floating-point unit
off. -/
theorem witness_AccessExceptions :
    (let s := writeX .reset 11 0x2001
     (10 : Reg) ≠ 11 ∧ available s (.lhia 10 11 0 0) = true ∧ s.cfg.misaligned ≠ .emulate ∧
      RaisesAt s .load (incAddr s .after 11 0 0) 2 4 0x2001) ∧
    (let s := unmapped
     available s (.sbia 10 11 0 0) = true ∧ s.cfg.sibSameReg ≠ .refuse ∧ (incAddr s .after 11 0 0).toNat % 1 = 0 ∧
      RaisesAt s .store (incAddr s .after 11 0 0) 1 15 0xb000) ∧
    (let s := writeX bytewise 11 0x200f
     available s (.shia 10 11 0 0) = true ∧ s.inter.gaps = [] ∧
      RaisesAt s .store (incAddr s .after 11 0 0) 2 7 0x2010) ∧
    (let s : State := { smallMem with mstatus := { smallMem.mstatus with fs := 0 } }
     available s (.srd 10 11 12 0) = true ∧ (indexedAddr s .whole 11 12 0).toNat % 8 = 0 ∧
      RaisesAt s .store (indexedAddr s .whole 11 12 0) 8 7 0x17000) ∧
    (let s := smallMem
     (s.cfg.fsGated = true → s.mstatus.fs ≠ 0) ∧ available s (.flrd 10 11 12 0) = true ∧
      (indexedAddr s .whole 11 12 0).toNat % 8 = 0 ∧
      RaisesAt s .load (indexedAddr s .whole 11 12 0) 8 5 0x17000) :=
  ⟨⟨by decide, by decide +kernel, by decide, .inl ⟨.inl ⟨by decide +kernel, rfl, rfl⟩, by decide +kernel⟩⟩,
    ⟨by decide +kernel, by decide, by decide +kernel,
      .inl ⟨.inr (.inl ⟨by decide +kernel, by decide +kernel, rfl⟩), by decide +kernel⟩⟩,
    ⟨by decide +kernel, rfl,
      .inr ⟨by decide +kernel, rfl, 1, by decide, .inr ⟨⟨0x2010, by decide +kernel, by decide +kernel⟩, rfl⟩,
        by decide +kernel⟩⟩,
    ⟨by decide +kernel, by decide +kernel,
      .inl ⟨raises_bare _ _ _ _ (by decide +kernel) (by decide +kernel) (by decide +kernel), by decide +kernel⟩⟩,
    ⟨by decide +kernel, by decide +kernel, by decide +kernel,
      .inl ⟨raises_bare _ _ _ _ (by decide +kernel) (by decide +kernel) (by decide +kernel), by decide +kernel⟩⟩⟩

theorem witness_ReservedIsRefused :
    available State.reset (.lbia 10 10 0 0) = true ∧ available State.reset (.lwd 10 10 12 0) = true ∧
    (let s : State := { State.reset with cfg := { platform with xtheadintOnRv64 := false } }
     s.priv = .m ∧ s.cfg.xlen = .rv64 ∧ s.cfg.xtheadintOnRv64 = false ∧ available s .ipush = true) := by
  decide +kernel

/-! ### The interrupt stack -/

/-- The byte addresses of slot `k` below a stack top. -/
def slotBytes (s : State) (top : Word) (k : Nat) : List Nat :=
  (List.range 4).map ((slotAddr s top k).toNat + ·)

theorem slots_map (s : State) (kind : AccessKind) (top : Word)
    (ht : translated s (dataPriv s) = false)
    (h : ∀ k < 18, (slotAddr s top k).toNat % 4 = 0 ∧
      accessible s.cfg (slotAddr s top k).toNat 4 kind = true) :
    ∀ k < 18, AccessMaps s kind (slotAddr s top k) 4 (slotBytes s top k) :=
  fun k hk => maps_bare s kind _ 4 ht (h k hk).1 (h k hk).2

theorem witness_PushFrame :
    let s := emulating .reset
    enabled s .xTheadInt = true ∧ s.priv = .m ∧ (s.cfg.xlen = .rv64 → s.cfg.xtheadintOnRv64 = true) ∧
      s.inter.gaps = [] ∧ (∀ k < 18, AccessMaps s .store (slotAddr s (readIntSp s) k) 4 (slotBytes s (readIntSp s) k)) ∧
      s.cfg.intSpReg ≠ .gpr 0 ∧ StorageInv s ∧
      ((List.range 18).flatMap (slotBytes s (readIntSp s))).Nodup :=
  ⟨by decide +kernel, rfl, fun _ => rfl, rfl, slots_map _ _ _ (by decide +kernel) (by decide +kernel),
    by decide, witness_IncrementStores.2.2.2.2.2.1, by decide +kernel⟩

theorem witness_PopFrame :
    let s := State.reset
    enabled s .xTheadInt = true ∧ s.priv = .m ∧ (s.cfg.xlen = .rv64 → s.cfg.xtheadintOnRv64 = true) ∧
      s.inter.gaps = [] ∧ (∀ k < 18, AccessMaps s .load (slotAddr s (readIntSp s + 72) k) 4
        (slotBytes s (readIntSp s + 72) k)) ∧
      legalCauses s.cfg ≠ [] ∧ s.cfg.intSpReg ≠ .gpr 0 :=
  ⟨by decide +kernel, rfl, fun _ => rfl, rfl, slots_map _ _ _ (by decide +kernel) (by decide +kernel),
    by decide +kernel, by decide⟩

/-- A frame whose two highest slots are in memory and whose others are not, pushed and popped, and a misaligned
one. -/
theorem witness_FrameTraps :
    (let s := writeX smallMem 2 0x2008
     let pas (k : Nat) : List Nat := if k < 2 then slotBytes s (readIntSp s) k else []
     enabled s .xTheadInt = true ∧ s.priv = .m ∧ (s.cfg.xlen = .rv64 → s.cfg.xtheadintOnRv64 = true) ∧
      s.inter.gaps = [] ∧ s.cfg.misalignedPartial = false ∧ (slotAddr s (readIntSp s) 0).toNat % 4 = 0 ∧
      (∃ code info, RaisesAt s .store (slotAddr s (readIntSp s) 2) 4 code info) ∧
      (∀ j < 18, AccessMaps s .store (slotAddr s (readIntSp s) j) 4 (pas j) ∨
        (∃ code info, RaisesAt s .store (slotAddr s (readIntSp s) j) 4 code info) ∧ pas j = []) ∧
      StorageInv s ∧ ((List.range 18).flatMap pas).Nodup ∧ 1 < (frameItems s).length) ∧
    (let s := writeX smallMem 2 0x1fc0
     enabled s .xTheadInt = true ∧ s.priv = .m ∧ s.inter.gaps = [] ∧
      RaisesAt s .load (slotAddr s (readIntSp s + 72) 2) 4 5 0x1ffc) ∧
    (let s := writeX bytewise 2 0x2012
     s.inter.gaps = [] ∧ RaisesAt s .store (slotAddr s (readIntSp s) 0) 4 7 0x2010) := by
  refine ⟨⟨by decide +kernel, rfl, fun _ => rfl, rfl, rfl, by decide +kernel,
      ⟨7, 0x1ffc, .inl ⟨raises_bare _ _ _ _ (by decide +kernel) (by decide +kernel) (by decide +kernel),
        by decide +kernel⟩⟩, ?_,
      storageInv_bare _ (by decide +kernel) (by decide +kernel) (by decide +kernel) (by decide +kernel)
        (by decide +kernel), by decide +kernel, by decide +kernel⟩,
    ⟨by decide +kernel, rfl, rfl,
      .inl ⟨raises_bare _ _ _ _ (by decide +kernel) (by decide +kernel) (by decide +kernel), by decide +kernel⟩⟩,
    ⟨rfl, .inr ⟨by decide +kernel, rfl, 2, by decide,
      .inr ⟨⟨0x2010, by decide +kernel, by decide +kernel⟩, rfl⟩, by decide +kernel⟩⟩⟩
  have aligned : ∀ j < 18, (slotAddr (writeX smallMem 2 0x2008) (readIntSp (writeX smallMem 2 0x2008)) j).toNat % 4 = 0 ∧
      accessible (writeX smallMem 2 0x2008).cfg
        (slotAddr (writeX smallMem 2 0x2008) (readIntSp (writeX smallMem 2 0x2008)) j).toNat 4 .store =
          decide (j < 2) := by decide +kernel
  intro j hj
  by_cases h : j < 2
  · refine .inl ?_
    simp only [h, if_true]
    exact maps_bare _ _ _ 4 (by decide +kernel) (aligned j hj).1 ((aligned j hj).2.trans (decide_eq_true h))
  · refine .inr ⟨⟨7, _, .inl ⟨raises_bare _ _ _ _ (by decide +kernel) (aligned j hj).1
      ((aligned j hj).2.trans (decide_eq_false h)), rfl⟩⟩, by simp only [h, if_false]⟩

theorem witness_PushThenPop :
    let s := frameState
    enabled s .xTheadInt = true ∧ s.priv = .m ∧ s.cfg.xlen = .rv32 ∧ StorageInv s ∧
      s.cfg.ipushSetsMie = false ∧ s.inter.gaps = [] ∧ (∀ r ∈ 0 :: frameRegs, s.cfg.intSpReg ≠ .gpr r) ∧
      s.mcause ∈ legalCauses s.cfg ∧ mepcValue s.cfg s.mepc = s.mepc ∧
      (∀ k < 18, AccessMaps s .store (slotAddr s (readIntSp s) k) 4 (slotBytes s (readIntSp s) k) ∧
        AccessMaps s .load (slotAddr s (readIntSp s) k) 4 (slotBytes s (readIntSp s) k)) ∧
      ((List.range 18).flatMap (slotBytes s (readIntSp s))).Nodup :=
  ⟨by decide +kernel, by decide +kernel, by decide +kernel,
    storageInv_bare _ (by decide +kernel) (by decide +kernel) (by decide +kernel) (by decide +kernel)
      (by decide +kernel),
    by decide +kernel, rfl, by decide +kernel, by decide +kernel, by decide +kernel,
    fun k hk => ⟨slots_map _ _ _ (by decide +kernel) (by decide +kernel) k hk,
      slots_map _ _ _ (by decide +kernel) (by decide +kernel) k hk⟩, by decide +kernel⟩

/-! ### Vectors -/

/-- A masked group of two registers that does not reach register 0. -/
theorem witness_VectorDotProducts :
    let s : State := { State.reset with vtype := 9, vl := 5, vstart := 2 }
    enabled s .xTheadVdot = true ∧ s.vregs.length = 32 * elemsPerReg s.cfg ∧
      VdotRuns s false 30 [30, 8, 12] ∧ VdotRuns s false 30 [30, 12] ∧
      s.vstart.toNat < s.vl.toNat ∧ s.vl.toNat < vlmax s :=
  ⟨by decide +kernel, by decide +kernel,
    ⟨by decide +kernel, by decide +kernel, by decide +kernel, by decide +kernel, by decide +kernel⟩,
    ⟨by decide +kernel, by decide +kernel, by decide +kernel, by decide +kernel, by decide +kernel⟩,
    by decide +kernel, by decide +kernel⟩

/-- An element width, a register number, and a destination that overlaps the mask. -/
theorem witness_VectorIllegal :
    ¬ VdotRuns { State.reset with vtype := 4 } true 4 [4, 8, 12] ∧
    ¬ VdotRuns { State.reset with vtype := 9 } true 4 [4, 9, 12] ∧
    ¬ VdotRuns { State.reset with vtype := 9 } false 0 [0, 12] :=
  ⟨fun h => absurd h.element_width (by decide +kernel), fun h => absurd h.aligned (by decide +kernel),
    fun h => absurd (h.no_overlap rfl rfl) (by decide +kernel)⟩

/-! ### Caches and synchronisation -/

theorem witness_CacheMissingHardware :
    let s : State := { State.reset with
      cfg := { platform with hasDCache := false, hasICache := false, hasL2 := false, hasMmu := false } }
    let u : State := { s with priv := .u, mxstatus := { s.mxstatus with ucme := true } }
    enabled s .xTheadCmo = true ∧ s.priv ≠ .u ∧ s.cfg.hasDCache = false ∧ s.cfg.hasICache = false ∧
      (s.cfg.hasDCache && mmuForVa s.cfg) = false ∧
      ((s.cfg.hasDCache || s.cfg.hasICache) && s.cfg.hasL2) = false ∧
      enabled u .xTheadCmo = true ∧ (u.priv = .u → u.cfg.ucmeGated = true → u.mxstatus.ucme = true) ∧
      u.priv = .u ∧ (u.cfg.hasDCache && mmuForVa u.cfg) = false ∧
      (u.cfg.hasDCache && u.cfg.hasL2 && mmuForVa u.cfg) = false ∧
      (u.cfg.hasICache && mmuForVa u.cfg) = false := by decide +kernel

theorem witness_CacheWholeOperations :
    let s := State.reset
    enabled s .xTheadCmo = true ∧ s.priv ≠ .u ∧ s.cfg.hasDCache = true ∧ s.cfg.hasICache = true ∧
      ((s.cfg.hasDCache || s.cfg.hasICache) && s.cfg.hasL2) = true ∧ s.cfg.multicore = true := by
  decide +kernel

/-- The last address within `PALEN` and the first beyond it; a translated and an untranslatable one; U mode
with the gate open. -/
theorem witness_CacheAddressOperations :
    (let s : State := { State.reset with cfg := { platform with palen := 32 } }
     enabled s .xTheadCmo = true ∧ s.priv ≠ .u ∧ s.cfg.hasDCache = true ∧
      (s.cfg.hasDCache && s.cfg.hasL2) = true ∧ s.cfg.hasICache = true ∧
      (readX (writeX s 10 0xffffffff) 10).toNat < 2 ^ s.cfg.palen ∧
      2 ^ s.cfg.palen ≤ (readX (writeX s 10 0x100000000) 10).toNat) ∧
    (let s : State := { unmapped with
       priv := .u, pageMap := [⟨2, 1, 7, []⟩] }
     enabled s .xTheadCmo = true ∧ mmuForVa s.cfg = true ∧ (s.cfg.hasDCache && uModeOk s) = true ∧
      translateForCache (writeX s 10 0x2040) (readX (writeX s 10 0x2040) 10) = some 0x7040 ∧
      translateForCache (writeX s 10 0x3000) (readX (writeX s 10 0x3000) 10) = none) := by
  decide +kernel

/-- The highest set and way of each level, held and not held, a word with a bit beyond them, and levels
without a cache, with a reserved bit set. -/
theorem witness_SetWayOperations :
    (let s : State := { writeX .reset 10 0x80007fc0 with
       dc := [{ addr := 0x7fc0, way := 1, dirty := true, data := List.replicate 64 0 }] }
     enabled s .xTheadCmo = true ∧ s.priv ≠ .u ∧ s.cfg.hasDCache = true ∧ StorageInv s ∧
      cachePresent s.cfg .dc = true ∧ geomWf (cacheGeom s.cfg .dc) = true ∧
      (readX s 10).toNat / 2 % 8 = 0 ∧ 1 < 2 ^ (cacheGeom s.cfg .dc).w ∧ 511 < 2 ^ (cacheGeom s.cfg .dc).s ∧
      (readX s 10).toNat = 1 * 2 ^ (32 - (cacheGeom s.cfg .dc).w) + 511 * 2 ^ (cacheGeom s.cfg .dc).l + 0 * 2 ∧
      ∃ ln ∈ cacheLines s .dc, setIndex (cacheGeom s.cfg .dc) ln.addr = 511 ∧ ln.way = 1) ∧
    (let s : State := writeX (emulating .reset) 10 0xf000ffc2
     StorageInv s ∧ cachePresent s.cfg .l2 = true ∧ geomWf (cacheGeom s.cfg .l2) = true ∧
      (readX s 10).toNat / 2 % 8 = 1 ∧
      (readX s 10).toNat = 15 * 2 ^ (32 - (cacheGeom s.cfg .l2).w) + 1023 * 2 ^ (cacheGeom s.cfg .l2).l + 1 * 2 ∧
      ∀ ln ∈ cacheLines s .l2, setIndex (cacheGeom s.cfg .l2) ln.addr = 1023 → ln.way ≠ 15) ∧
    (let s : State := writeX .reset 10 0x8000
     (readX s 10).toNat / 2 % 8 = 0 ∧
      ∀ way set, way < 2 ^ (cacheGeom s.cfg .dc).w → set < 2 ^ (cacheGeom s.cfg .dc).s →
        (readX s 10).toNat ≠ way * 2 ^ (32 - (cacheGeom s.cfg .dc).w) + set * 2 ^ (cacheGeom s.cfg .dc).l + 0 * 2) ∧
    (let s : State := { writeX .reset 10 3 with cfg := { platform with hasL2 := false } }
     (readX s 10).toNat / 2 % 8 = 1 ∧ s.cfg.hasL2 = false ∧ (readX s 10).toNat % 2 = 1) ∧
    2 ≤ (readX (writeX .reset 10 5) 10).toNat / 2 % 8 := by
  refine ⟨⟨by decide +kernel, by decide +kernel, by decide +kernel,
      storageInv_of _ (by decide +kernel)
        (linesWf_one _ _ (by decide +kernel) (by decide +kernel) (by decide +kernel)) (.nil _)
        (by intro ln h; cases h) (by decide +kernel) (by decide +kernel),
      by decide +kernel, by decide +kernel, by decide +kernel, by decide +kernel, by decide +kernel,
      by decide +kernel, _, List.mem_singleton.2 rfl, by decide +kernel, by decide +kernel⟩,
    ⟨storageInv_bare _ (by decide +kernel) (by decide +kernel) (by decide +kernel) (by decide +kernel)
        (by decide +kernel), by decide +kernel, by decide +kernel, by decide +kernel, by decide +kernel,
      by intro ln h; cases h⟩,
    ⟨by decide +kernel, ?_⟩, by decide +kernel, by decide +kernel⟩
  intro way set hw hs h
  have e1 : (readX (writeX .reset 10 0x8000) 10).toNat = 0x8000 := by decide +kernel
  have e2 : cacheGeom (writeX .reset 10 0x8000).cfg .dc = ⟨1, 9, 6⟩ := by decide +kernel
  rw [e1, e2] at h
  rw [e2] at hw hs
  norm_num at h hw hs
  omega

/-- Dirty lines in both levels, and a machine without `L2`. -/
theorem witness_CleanKeepsData :
    StorageInv dirtyState ∧
    (let s : State := { State.reset with cfg := { platform with hasL2 := false } }
     StorageInv s ∧ s.cfg.hasL2 = false) :=
  ⟨dirtyState_inv, storageInv_bare _ (by decide +kernel) (by decide +kernel) (by decide +kernel)
    (by decide +kernel) (by decide +kernel), rfl⟩

/-- Bytes in a dirty line that is named, and bytes in none, of each level. -/
theorem witness_CleanReachesNextLevel :
    StorageInv dirtyState ∧
    (∃ ln ∈ cacheLines dirtyState .dc, ln.addr ∈ [0x2040] ∧ ln.dirty = true ∧
      lineAddr dirtyState.cfg.dcGeom 0x207f = ln.addr) ∧
    (¬ ∃ ln ∈ cacheLines dirtyState .dc, ln.addr ∈ [0x2040] ∧ ln.dirty = true ∧
      lineAddr dirtyState.cfg.dcGeom 0x2080 = ln.addr) ∧
    (∃ ln ∈ cacheLines dirtyState .l2, ln.addr ∈ [0x3000] ∧ ln.dirty = true ∧
      lineAddr dirtyState.cfg.l2Geom 0x303f = ln.addr) ∧
    (¬ ∃ ln ∈ cacheLines dirtyState .l2, ln.addr ∈ [0x3000] ∧ ln.dirty = true ∧
      lineAddr dirtyState.cfg.l2Geom 0x3040 = ln.addr) :=
  ⟨dirtyState_inv, by decide +kernel, by decide +kernel, by decide +kernel, by decide +kernel⟩

/-- Bytes whose line is selected, dirty or not held, and a byte whose line is not selected, of each cache. -/
theorem witness_InvalidateForgets :
    StorageInv dirtyState ∧ dirtyState.cfg.dcacheCoherent = false ∧
    ({ State.reset with cfg := { platform with hasL2 := false } } : State).cfg.hasL2 = false ∧
    (let dirty (c : CacheId) (as : List Nat) (a : Nat) : Prop :=
       ∃ ln ∈ cacheLines dirtyState c, ln.addr ∈ as ∧ ln.dirty = true ∧
         lineAddr (cacheGeom dirtyState.cfg c) a = ln.addr
     dirty .dc [0x2040] 0x207f ∧ ¬ dirty .dc [0x2040] 0x2080 ∧ dirty .l2 [0x3000] 0x3000 ∧
       ¬ dirty .l2 [0x3000] 0x2fff) ∧
    [0x2040].contains (lineAddr dirtyState.cfg.dcGeom 0x207f) = true ∧
    [0x2040].contains (lineAddr dirtyState.cfg.dcGeom 0x2080) = false :=
  ⟨dirtyState_inv, rfl, rfl, by decide +kernel, by decide +kernel, by decide +kernel⟩

theorem witness_SfenceResult :
    (enabled State.reset .xTheadSync = true ∧ State.reset.priv ≠ .u ∧ State.reset.cfg.hasMmu = true) ∧
    (let s : State := { State.reset with cfg := { platform with hasMmu := false } }
     enabled s .xTheadSync = true ∧ s.priv ≠ .u ∧ s.cfg.hasMmu = false) := by decide +kernel

/-- `SYNC_I_SUFFICIENT` without and with `DCACHE_COHERENT`, the dirty line in this hart's D-cache or in another's;
and broadcasts of this hart and of another on their way. -/
theorem witness_BarrierResults :
    enabled State.reset .xTheadSync = true ∧ State.reset.cfg.syncISufficient = false ∧
    (let s : State := { dirtyState with cfg := { platform with syncISufficient := true } }
     enabled s .xTheadSync = true ∧ s.cfg.syncISufficient = true ∧ s.cfg.dcacheCoherent = false ∧ StorageInv s ∧
      dataByte s 0x2040 = 0xbb ∧ fetchByte s 0x2040 = 0) ∧
    (let s : State := switchTo 0 coherentDirty
     enabled s .xTheadSync = true ∧ s.cfg.syncISufficient = true ∧ s.cfg.dcacheCoherent = true ∧ StorageInv s ∧
      dataByte s 0x2040 = 0xbb ∧ fetchByte s 0x2040 = 0) ∧
    (let s : State := { State.reset with others := [{ resetHart 1 with pending := [⟨0, .invalidateICache⟩,
         ⟨0, .invalidateTlb 0x4000 1⟩, ⟨2, .invalidateTlb 0 0⟩] }] }
     ∃ h ∈ s.others, ⟨s.mhartid, .invalidateICache⟩ ∈ h.pending ∧
       ⟨s.mhartid, .invalidateTlb 0x4000 1⟩ ∈ h.pending) :=
  ⟨by decide +kernel, by decide +kernel, ⟨by decide +kernel, by decide +kernel, by decide +kernel,
    storageInv_of _ (by decide +kernel)
      (linesWf_one _ _ (by decide +kernel) (by decide +kernel) (by decide +kernel))
      (linesWf_one _ _ (by decide +kernel) (by decide +kernel) (by decide +kernel))
      (by simp [dirtyState]) (by decide +kernel) (by decide +kernel), by decide +kernel, by decide +kernel⟩,
    ⟨by decide +kernel, by decide +kernel, by decide +kernel, coherentDirty_inv.switchTo 0, by decide +kernel,
      by decide +kernel⟩, by decide +kernel⟩

end Sys2Proof.Tests
end

section
/-! SUPPORT. What an instruction writes before it goes on, how it ends, and what a step does to the registers of every
hart; then the statements about the registers and the control state (10 R30 to R59; 60 R450 to R484). -/

namespace Sys2Proof

open Machine

/-! ## What an instruction writes before it goes on -/

/-- A hart without the registers that an instruction may write before it goes on to the next word: the register files,
`th.vstart`, `int_sp`, the fields `FS`, `VS` and `MIE` of `mstatus`; and without what agents reach. -/
def systemPart (h : Hart) : Hart :=
  { hartRegisters h with
    x := .replicate 32 0, f := .replicate 32 0, vregs := [], vstart := 0, intSp := 0,
    mstatus := { h.mstatus with fs := 0, vs := 0, mie := false } }

/-- From `s` to `t` an instruction has done its work, `pc` apart: no register of `systemPart` has changed, nor any of
another hart, and register files that are as the spec says have stayed so. -/
structure InstrWork (s t : State) : Prop where
  cfg : t.cfg = s.cfg
  system : systemPart t.toHart = systemPart s.toHart
  others : t.others.map hartRegisters = s.others.map hartRegisters
  files : HartRegisters s.cfg s.toHart → HartRegisters s.cfg t.toHart

theorem InstrWork.trans {s t u : State} (h1 : InstrWork s t) (h2 : InstrWork t u) : InstrWork s u where
  cfg := h2.cfg.trans h1.cfg
  system := h2.system.trans h1.system
  others := h2.others.trans h1.others
  files hs := h1.cfg ▸ h2.files (h1.cfg ▸ h1.files hs)

theorem InstrWork.pc {s t : State} (h : InstrWork s t) : t.pc = s.pc := (congrArg Hart.pc h.system :)

theorem InstrWork.priv {s t : State} (h : InstrWork s t) : t.priv = s.priv := (congrArg Hart.priv h.system :)

/-- The register files of a hart are `x`, `f` and `vregs` alone. -/
theorem HartRegisters.congr {c : Config} {h h' : Hart} (hh : HartRegisters c h) (hx : h'.x = h.x)
    (hf : h'.f = h.f) (hv : h'.vregs = h.vregs) : HartRegisters c h' where
  x_width := hx ▸ hh.x_width
  x_zero := hx ▸ hh.x_zero
  f_width := hf ▸ hh.f_width
  vregs_length := hv ▸ hh.vregs_length

theorem hartRegisters_eq {s t : State} (h : AgentsOnly s t) : hartRegisters t.toHart = hartRegisters s.toHart :=
  (congrArg (fun u : State => hartRegisters u.toHart) h.rest :)

theorem AgentsOnly.work {s t : State} (h : AgentsOnly s t) : InstrWork s t where
  cfg := h.same.1
  system := (congrArg systemPart (hartRegisters_eq h) :)
  others := h.others
  files hs :=
    have e := hartRegisters_eq h
    hs.congr (congrArg Hart.x e :) (congrArg Hart.f e :) (congrArg Hart.vregs e :)

theorem HartRegisters.writeX {s : State} (h : HartRegisters s.cfg s.toHart) (r : Reg) (v : Word) :
    HartRegisters s.cfg (writeX s r v).toHart := by
  unfold Machine.writeX
  split
  · exact h
  · next h0 =>
    refine ⟨fun q => ?_, ?_, h.f_width, h.vregs_length⟩
    · have hq := h.x_width q
      simp only [Fin.getElem_fin, Vector.getElem_set] at hq ⊢
      split
      · exact truncX_truncX _ _
      · exact hq
    · have hr : r.toNat ≠ 0 := fun e => h0 (BitVec.eq_of_toNat_eq e)
      simpa [Vector.getElem_set, hr] using h.x_zero

theorem work_writeX (s : State) (r : Reg) (v : Word) : InstrWork s (writeX s r v) where
  cfg := writeX_cfg s r v
  system := by rw [writeX_form]; rfl
  others := by rw [writeX_others]
  files h := h.writeX r v

theorem work_writeXs (s : State) (l : List (Reg × Word)) : InstrWork s (writeXs s l) := by
  induction l generalizing s with
  | nil => exact (AgentsOnly.refl s).work
  | cons p l ih => exact (work_writeX s p.1 p.2).trans (ih _)

theorem work_writeIntSp (s : State) (v : Word) : InstrWork s (writeIntSp s v) := by
  unfold writeIntSp
  split
  · exact work_writeX s _ v
  · exact ⟨rfl, rfl, rfl, fun h => h.congr rfl rfl rfl⟩

theorem work_writeF (s : State) (r : Reg) (v : Word) : InstrWork s (writeF s r v) where
  cfg := rfl
  system := rfl
  others := rfl
  files h := by
    refine ⟨h.x_width, h.x_zero, fun q => ?_, h.vregs_length⟩
    have hq := h.f_width q
    simp only [Fin.getElem_fin, writeF_f, Vector.getElem_set] at hq ⊢
    split
    · exact truncF_truncF _ _
    · exact hq

theorem work_markFpDirty (s : State) : InstrWork s (markFpDirty s) where
  cfg := markFpDirty_cfg s
  system := by unfold markFpDirty; split <;> rfl
  others := by rw [markFpDirty_others]
  files h := h.congr (markFpDirty_x s) (markFpDirty_f s) (markFpDirty_vregs s)

theorem work_pushMie (s : State) : InstrWork s (pushMie s) where
  cfg := pushMie_cfg s
  system := by unfold pushMie; split <;> rfl
  others := by rw [pushMie_others]
  files h := h.congr (pushMie_x s) (pushMie_f s) (pushMie_vregs s)

theorem work_setElems (s : State) (vd : Reg) (g : Nat → BitVec 32) : InstrWork s (setElems s vd g) where
  cfg := rfl
  system := rfl
  others := rfl
  files h := ⟨h.x_width, h.x_zero, h.f_width, by simpa [setElems] using h.vregs_length⟩

theorem work_finishVector (s : State) : InstrWork s (finishVector s) where
  cfg := finishVector_cfg s
  system := by unfold finishVector; split <;> rfl
  others := by rw [finishVector_others]
  files h := h.congr (finishVector_x s) (finishVector_f s) (finishVector_vregs s)

/-! ### What instructions do that agents do as well -/

theorem agentsOnly_cacheOp (op : CacheOp) (s : State) (c : CacheId) (as : List Nat) :
    AgentsOnly s (cacheOp op s c as) := (sameButLines_cacheOp op s c as).agents

theorem agentsOnly_dcacheAtPa (op : CacheOp) (s : State) (pa : Nat) : AgentsOnly s (dcacheAtPa op s pa) := by
  unfold dcacheAtPa
  dsimp only
  split
  · exact (agentsOnly_cacheOp ..).trans (agentsOnly_cacheOp ..)
  · exact agentsOnly_cacheOp ..

theorem agentsOnly_broadcast (s : State) (b : Broadcast) : AgentsOnly s (broadcast s b) where
  rest := rfl
  others := by simp only [broadcast, List.map_map]; rfl

theorem hartRegisters_completeFrom (c : Config) (id : Word) (h : Hart) :
    hartRegisters (completeFrom c id h) = hartRegisters h := by
  obtain ⟨_, _, _, hrest⟩ := completeFrom_spec c id h
  exact (congrArg hartRegisters hrest :)

theorem agentsOnly_completeAllPending (s : State) : AgentsOnly s (completeAllPending s) where
  rest := rfl
  others := by
    simp only [completeAllPending, List.map_map, Function.comp_def, hartRegisters_completeFrom]

theorem agentsOnly_flushPipeline (s : State) : AgentsOnly s (flushPipeline s) := ⟨rfl, rfl⟩

theorem agentsOnly_retire (s : State) (va : Word) : AgentsOnly s (retire s va) := ⟨rfl, rfl⟩

/-- Stores that raise nothing use no free value. -/
theorem agentsOnly_storeAll_ok {s : State} {qs : List Req} (h : (storeAll s qs).1 = none) :
    AgentsOnly s (storeAll s qs).2 := by
  obtain ⟨hagents, hcount⟩ := agentsOnly_storeAll s qs
  rwa [← hcount h] at hagents

/-! ## How an instruction ends -/

/-- What an instruction leaves of `s` before it takes an exception: other agents may have acted and some of its
stores been performed, which may have used a free value; without other agents nothing but those stores has (60 R471,
decision D5). -/
structure LeftByTrap (s u : State) : Prop where
  agents : AgentsOnly s { u with freeCount := s.freeCount }
  quiet : s.inter.gaps = [] →
    { u with mem := s.mem, dc := s.dc, l2 := s.l2, others := s.others, freeCount := s.freeCount } = s ∧
      OthersKept s u

theorem LeftByTrap.refl (s : State) : LeftByTrap s s := ⟨.refl s, fun _ => ⟨rfl, .refl s⟩⟩

theorem leftByTrap_loadAll (s : State) (qs : List Req) : LeftByTrap s (loadAll s qs).2 where
  agents := by
    have h := agentsOnly_loadAll s qs
    have hcount : (loadAll s qs).2.freeCount = s.freeCount := (congrArg State.freeCount h.rest :)
    rwa [← hcount]
  quiet hg := by
    rw [loadAll_quiet s qs (.inl hg)]
    exact ⟨rfl, .refl s⟩

theorem leftByTrap_storeAll (s : State) (qs : List Req) : LeftByTrap s (storeAll s qs).2 where
  agents := (agentsOnly_storeAll s qs).1
  quiet hg :=
    have h := storeAll_quiet s qs (.inl hg)
    ⟨h.rest, h.others.rest, h.others.incoherent⟩

/-- The causes of the exceptions that instructions of the collection raise (60 R451, R452). -/
def instrCauses : List Nat := [2, 4, 5, 6, 7, 13, 15]

/-- The three ways in which an instruction comes to a next state: it goes on to the next word, or it is `th.ipop`
and returns, or it takes an exception. -/
inductive InstrEnds (i : Instr) (s : State) : State → Prop where
  | goesOn {u : State} (work : InstrWork s u) : InstrEnds i s (advance u)
  | returns {u : State} (vs : List Word) (isPop : i = .ipop) (inM : s.priv = .m) (agents : AgentsOnly s u) :
      InstrEnds i s (popFrame u vs)
  | traps {u : State} {code : Nat} (info : Word) (left : LeftByTrap s u) (cause : code ∈ instrCauses) :
      InstrEnds i s (trap u code false info)

/-- An outcome is one an instruction can have: a next state as `InstrEnds` has it, or a refusal, and no fault. -/
def Ends (i : Instr) (s : State) : Result → Prop
  | .next t => InstrEnds i s t
  | .fault _ => False
  | .refused _ => True

/-! ### The endings of a meaning -/

section

variable {i : Instr} {s : State}

theorem ends_advance {u : State} (h : InstrWork s u) : Ends i s (.next (advance u)) := .goesOn h

theorem ends_finishX {u : State} (h : InstrWork s u) (rd : Reg) (v : Word) : Ends i s (finishX u rd v) :=
  ends_advance (h.trans (work_writeX u rd v))

theorem ends_ite {p : Prop} [Decidable p] {a b : Result} (ha : Ends i s a) (hb : Ends i s b) :
    Ends i s (if p then a else b) := by split <;> assumption

/-- What is reserved is refused; else the instruction runs. -/
theorem ends_unless {p : Prop} [Decidable p] (r : Refusal) {run : Result} (h : Ends i s run) :
    Ends i s (if p then .refused r else run) := ends_ite trivial h

theorem ends_requireLegal (ok : Bool) {run : Result} (h : Ends i s run) : Ends i s (requireLegal s i ok run) := by
  obtain ⟨_, e⟩ | ⟨_, e⟩ := requireLegal_cases s i ok run
  · rwa [e]
  · rw [e]
    exact .traps _ (.refl s) (by decide)

theorem ends_withLoads {qs : List Req} {k : State → List Word → Result}
    (hk : ∀ u vs, AgentsOnly s u → Ends i s (k u vs)) : Ends i s (withLoads s qs k) := by
  obtain ⟨vs, _, e⟩ | ⟨f, hf, e⟩ := withLoads_cases s qs k
  · rw [e]
    exact hk _ vs (agentsOnly_loadAll s qs)
  · rw [e]
    have codes : ∀ c ∈ [13, 5, 4], c ∈ instrCauses := by decide
    exact .traps _ (leftByTrap_loadAll s qs) (codes _ (loadAll_code hf))

theorem ends_withStores {qs : List Req} {k : State → Result} (hk : ∀ u, AgentsOnly s u → Ends i s (k u)) :
    Ends i s (withStores s qs k) := by
  obtain ⟨hok, e⟩ | ⟨f, hf, e⟩ := withStores_cases s qs k
  · rw [e]
    exact hk _ (agentsOnly_storeAll_ok hok)
  · rw [e]
    have codes : ∀ c ∈ [15, 7, 6], c ∈ instrCauses := by decide
    exact .traps _ (leftByTrap_storeAll s qs) (codes _ (storeAll_code hf))

/-! ### The families -/

theorem ends_execArith (rd : Reg) (v : Word) : Ends i s (execArith i rd v s) :=
  ends_requireLegal _ (ends_finishX (AgentsOnly.refl s).work rd v)

theorem ends_execMac (rd : Reg) (v : Word) : Ends i s (execMac i rd v s) :=
  ends_requireLegal _ (ends_finishX (AgentsOnly.refl s).work rd v)

theorem ends_execExtract (rd : Reg) (imm1 imm2 : BitVec 6) (v : Word) :
    Ends i s (execExtract i rd imm1 imm2 v s) :=
  ends_requireLegal _ (ends_unless _ (ends_unless _ (ends_finishX (AgentsOnly.refl s).work rd v)))

theorem ends_execMove (rd rs1 : Reg) (cond : Bool) : Ends i s (execMove i rd rs1 cond s) :=
  ends_requireLegal _
    (ends_ite (ends_finishX (AgentsOnly.refl s).work rd _) (ends_advance (AgentsOnly.refl s).work))

theorem ends_execCmo (permitted hardware : Bool) {run : Result} (h : Ends i s run) :
    Ends i s (execCmo i permitted hardware s run) :=
  ends_requireLegal _ (ends_ite h (ends_advance (AgentsOnly.refl s).work))

theorem ends_finishCache {u : State} (h : AgentsOnly s u) (op : CacheOp) (c : CacheId) (as : List Nat) :
    Ends i s (finishCache op u c as) :=
  ends_advance (h.trans (agentsOnly_cacheOp op u c as)).work

theorem ends_withPa (rs1 : Reg) {k : Nat → Result} (hk : ∀ pa, Ends i s (k pa)) : Ends i s (withPa s rs1 k) :=
  ends_ite (hk _) trivial

theorem ends_withVa (rs1 : Reg) {k : Nat → Result} (hk : ∀ pa, Ends i s (k pa)) : Ends i s (withVa s rs1 k) := by
  unfold withVa
  split
  · exact hk _
  · exact ends_advance (AgentsOnly.refl s).work

theorem ends_dcacheAtPa (op : CacheOp) (pa : Nat) : Ends i s (.next (advance (dcacheAtPa op s pa))) :=
  ends_advance (agentsOnly_dcacheAtPa op s pa).work

theorem ends_execSetWay (op : CacheOp) (rs1 : Reg) : Ends i s (execSetWay i op rs1 s) := by
  refine ends_execCmo _ _ ?_
  split
  · exact ends_advance (AgentsOnly.refl s).work
  · exact ends_ite (ends_advance (AgentsOnly.refl s).work) (ends_unless _ (ends_finishCache (.refl s) ..))

theorem ends_barrier : Ends i s (barrier i s) :=
  ends_requireLegal _ (ends_advance (agentsOnly_completeAllPending s).work)

theorem ends_barrierFlush : Ends i s (barrierFlush i s) :=
  ends_requireLegal _ (ends_advance (((agentsOnly_completeAllPending s).trans
    (agentsOnly_flushPipeline _)).trans (agentsOnly_syncFetch _)).work)

theorem ends_execLoadInc (t : When) (e : Extend) (n : Nat) (rd rs1 : Reg) (imm5 : BitVec 5) (imm2 : BitVec 2) :
    Ends i s (execLoadInc i t e n rd rs1 imm5 imm2 s) :=
  ends_requireLegal _ (ends_unless _ (ends_withLoads fun u _ hu =>
    ends_finishX (hu.work.trans (work_writeX u rd _)) rs1 _))

theorem ends_execStoreInc (t : When) (n : Nat) (rd rs1 : Reg) (imm5 : BitVec 5) (imm2 : BitVec 2) :
    Ends i s (execStoreInc i t n rd rs1 imm5 imm2 s) := by
  refine ends_requireLegal _ ?_
  split
  · trivial
  · exact ends_withStores fun _ hu => ends_finishX hu.work rs1 _

theorem ends_execLoadIdx (k : Index) (e : Extend) (n : Nat) (rd rs1 rs2 : Reg) (imm2 : BitVec 2) :
    Ends i s (execLoadIdx i k e n rd rs1 rs2 imm2 s) :=
  ends_requireLegal _ (ends_withLoads fun _ _ hu => ends_finishX hu.work rd _)

theorem ends_execStoreIdx (k : Index) (n : Nat) (rd rs1 rs2 : Reg) (imm2 : BitVec 2) :
    Ends i s (execStoreIdx i k n rd rs1 rs2 imm2 s) :=
  ends_requireLegal _ (ends_withStores fun _ hu => ends_advance hu.work)

theorem ends_execLoadPair (e : Extend) (n : Nat) (rd1 rd2 rs1 : Reg) (imm2 : BitVec 2) :
    Ends i s (execLoadPair i e n rd1 rd2 rs1 imm2 s) :=
  ends_requireLegal _ (ends_unless _ (ends_withLoads fun u _ hu =>
    ends_finishX (hu.work.trans (work_writeX u rd1 _)) rd2 _))

theorem ends_execStorePair (n : Nat) (rd1 rd2 rs1 : Reg) (imm2 : BitVec 2) :
    Ends i s (execStorePair i n rd1 rd2 rs1 imm2 s) :=
  ends_requireLegal _ (ends_withStores fun _ hu => ends_advance hu.work)

/-- The end of an instruction that writes a floating-point register. -/
theorem ends_writeF {u : State} (h : AgentsOnly s u) (r : Reg) (v : Word) :
    Ends i s (.next (advance (markFpDirty (writeF u r v)))) :=
  ends_advance ((h.work.trans (work_writeF u r v)).trans (work_markFpDirty _))

theorem ends_execFload (k : Index) (n : Nat) (rd rs1 rs2 : Reg) (imm2 : BitVec 2) :
    Ends i s (execFload i k n rd rs1 rs2 imm2 s) :=
  ends_requireLegal _ (ends_withLoads fun _ _ hu => ends_writeF hu rd _)

theorem ends_execFstore (k : Index) (n : Nat) (rd rs1 rs2 : Reg) (imm2 : BitVec 2) :
    Ends i s (execFstore i k n rd rs1 rs2 imm2 s) :=
  ends_requireLegal _ (ends_withStores fun _ hu => ends_advance hu.work)

theorem ends_execVdot (vm : Bool) (qa qb : Factor) (first : Nat → BitVec 32) (vd vs2 : Reg) (groups : List Reg) :
    Ends i s (execVdot i vm qa qb first vd vs2 groups s) :=
  ends_requireLegal _ (ends_advance ((work_setElems s vd _).trans (work_finishVector _)))

theorem ends_execInM {run : Result} (h : s.priv = .m → Ends i s run) : Ends i s (execInM i s run) := by
  unfold execInM
  by_cases hm : s.priv = .m
  · exact ends_requireLegal _ (ends_unless _ (h hm))
  · have hok : (available s i && s.priv == .m) = false := by simp [hm]
    rw [hok]
    exact ends_requireLegal false (run := .refused .rv64Frame) trivial

end

/-! ### Instructions that share no meaning -/

theorem ends_execTst (rd rs1 : Reg) (imm6 : BitVec 6) (s : State) :
    Ends (.tst rd rs1 imm6) s (execTst rd rs1 imm6 s) :=
  ends_requireLegal _ (ends_unless _ (ends_finishX (AgentsOnly.refl s).work rd _))

theorem ends_execSfenceVmas (rs1 rs2 : Reg) (s : State) :
    Ends (.sfenceVmas rs1 rs2) s (execSfenceVmas rs1 rs2 s) := by
  refine ends_requireLegal _ (ends_advance (AgentsOnly.work ?_))
  split
  · exact ⟨rfl, (agentsOnly_broadcast _ _).others⟩
  · exact .refl s

theorem ends_execFmvXHw (rd fs1 : Reg) (s : State) : Ends (.fmvXHw rd fs1) s (execFmvXHw rd fs1 s) :=
  ends_requireLegal _ (ends_finishX (AgentsOnly.refl s).work rd _)

theorem ends_execFmvHwX (rd fs1 : Reg) (s : State) : Ends (.fmvHwX rd fs1) s (execFmvHwX rd fs1 s) :=
  ends_requireLegal _ (ends_writeF (.refl s) _ _)

theorem ends_execIpush (s : State) : Ends .ipush s (execIpush s) :=
  ends_execInM fun _ => ends_withStores fun u hu =>
    ends_advance ((hu.work.trans (work_writeIntSp u _)).trans (work_pushMie _))

theorem ends_execIpop (s : State) : Ends .ipop s (execIpop s) :=
  ends_execInM fun hm => ends_withLoads fun _ vs hu => .returns vs rfl hm hu

/-- Every instruction ends in one of these ways, and none in a fault. -/
theorem exec_ends (i : Instr) (s : State) : Ends i s (exec i s) := by
  cases i with
  | dcacheCall | dcacheCiall | dcacheIall | icacheIall | l2cacheCall | l2cacheCiall | l2cacheIall =>
    exact ends_execCmo _ _ (ends_finishCache (.refl s) ..)
  | icacheIalls => exact ends_execCmo _ _ (ends_finishCache (agentsOnly_broadcast s _) ..)
  | dcacheCpa | dcacheCipa | dcacheIpa => exact ends_execCmo _ _ (ends_withPa _ fun _ => ends_dcacheAtPa ..)
  | dcacheCva | dcacheCiva | dcacheIva => exact ends_execCmo _ _ (ends_withVa _ fun _ => ends_dcacheAtPa ..)
  | dcacheCsw | dcacheCisw | dcacheIsw => exact ends_execSetWay ..
  | dcacheCpal1 | icacheIpa =>
    exact ends_execCmo _ _ (ends_withPa _ fun _ => ends_finishCache (.refl s) ..)
  | dcacheCval1 | icacheIva =>
    exact ends_execCmo _ _ (ends_withVa _ fun _ => ends_finishCache (.refl s) ..)
  | sfenceVmas => exact ends_execSfenceVmas ..
  | sync | syncS => exact ends_barrier
  | syncI | syncIs => exact ends_barrierFlush
  | addsl | srri | srriw | ff0 | ff1 | rev | revw | tstnbz => exact ends_execArith ..
  | ext | extu => exact ends_execExtract ..
  | tst => exact ends_execTst ..
  | mveqz | mvnez => exact ends_execMove ..
  | lbia | lbib | lbuia | lbuib | lhia | lhib | lhuia | lhuib | lwia | lwib | lwuia | lwuib | ldia | ldib =>
    exact ends_execLoadInc ..
  | sbia | shia | swia | sdia => exact ends_execStoreInc .after ..
  | sbib | shib | swib | sdib => exact ends_execStoreInc .before ..
  | lrb | lrbu | lrh | lrhu | lrw | lrwu | lrd | lurb | lurbu | lurh | lurhu | lurw | lurwu | lurd =>
    exact ends_execLoadIdx ..
  | srb | srh | srw | srd | surb | surh | surw | surd => exact ends_execStoreIdx ..
  | ldd | lwd | lwud => exact ends_execLoadPair ..
  | sdd | swd => exact ends_execStorePair ..
  | flrd | flrw | flurd | flurw => exact ends_execFload ..
  | fsrd | fsrw | fsurd | fsurw => exact ends_execFstore ..
  | mula | mulah | mulaw | muls | mulsh | mulsw => exact ends_execMac ..
  | fmvXHw => exact ends_execFmvXHw ..
  | fmvHwX => exact ends_execFmvHwX ..
  | ipush => exact ends_execIpush s
  | ipop => exact ends_execIpop s
  | vmaqaVv | vmaqaVx | vmaqauVv | vmaqauVx | vmaqasuVv | vmaqasuVx | vmaqausVx => exact ends_execVdot ..

theorem instrEnds_of_exec {i : Instr} {s t : State} (h : exec i s = .next t) : InstrEnds i s t := by
  have := exec_ends i s
  rwa [h] at this

theorem exec_ne_fault (i : Instr) (s : State) (r : Fault) : exec i s ≠ .fault r := fun h => by
  have := exec_ends i s
  rwa [h] at this

/-- Settles O13: each of the three endings is one of the three cases. -/
theorem completesReturnsOrTraps : Obligations.CompletesReturnsOrTraps := by
  unfold Obligations.CompletesReturnsOrTraps
  intro i s t h
  cases instrEnds_of_exec h with
  | goesOn work => exact .inl ⟨nextInsn_advance s _ work.cfg work.pc, work.priv⟩
  | returns vs isPop inM agents =>
    obtain ⟨_, _, _, _, hmstatus, _, _⟩ := agents.same
    refine .inr (.inl ⟨isPop, inM, ?_, rfl⟩)
    rw [popFrame_spec, hmstatus]
  | traps info left cause => exact .inr (.inr ⟨_, _, info, rfl, cause, left.agents, left.quiet⟩)

/-! ## What a step does to the harts -/

/-- The registers of a hart that no instruction writes (10 R41, R45 to R48; 20 R98; 60 R475, R484). -/
def unwritten (h : Hart) : Word × Word × Word × Mxstatus × Word × Word × BitVec 1 × BitVec 2 × Bool × Word :=
  (h.mhartid, h.mie, h.mtvec, h.mxstatus, h.vl, h.vtype, h.vxsat, h.vxrm, h.xlateOn, h.asid)

/-- From `s` to `t` the executing hart alone has written registers, none of those that no instruction writes; and its
control state and its register files are as the spec says if they were. -/
structure HartStep (s t : State) : Prop where
  cfg : t.cfg = s.cfg
  own : unwritten t.toHart = unwritten s.toHart
  others : t.others.map hartRegisters = s.others.map hartRegisters
  control : HartControl s.cfg s.toHart → HartControl s.cfg t.toHart
  files : HartRegisters s.cfg s.toHart → HartRegisters s.cfg t.toHart

theorem HartStep.trans {s t u : State} (h1 : HartStep s t) (h2 : HartStep t u) : HartStep s u where
  cfg := h2.cfg.trans h1.cfg
  own := h2.own.trans h1.own
  others := h2.others.trans h1.others
  control hs := h1.cfg ▸ h2.control (h1.cfg ▸ h1.control hs)
  files hs := h1.cfg ▸ h2.files (h1.cfg ▸ h1.files hs)

/-- The control state of a hart is in its `systemPart`. -/
theorem hartControl_systemPart (c : Config) (h : Hart) : HartControl c (systemPart h) ↔ HartControl c h :=
  ⟨fun ⟨pcA, pcW, mepc, priv, mpp⟩ => ⟨pcA, pcW, mepc, priv, mpp⟩,
    fun ⟨pcA, pcW, mepc, priv, mpp⟩ => ⟨pcA, pcW, mepc, priv, mpp⟩⟩

theorem InstrWork.hartStep {s t : State} (h : InstrWork s t) : HartStep s t where
  cfg := h.cfg
  own := (congrArg unwritten h.system :)
  others := h.others
  control hs := by rwa [← hartControl_systemPart, h.system, hartControl_systemPart]
  files := h.files

theorem AgentsOnly.hartStep {s t : State} (h : AgentsOnly s t) : HartStep s t := h.work.hartStep

/-! ### Going on, trap entry and trap return -/

theorem pcAlign_cases (c : Config) : pcAlign c = 2 ∨ pcAlign c = 4 := by
  unfold pcAlign; split <;> simp

/-- `pc` plus a multiple of 4 is as aligned as `pc`. -/
theorem truncX_add_aligned (c : Config) (v w : Word) (hv : v.toNat % pcAlign c = 0) (hw : w.toNat % 4 = 0) :
    (truncX c (v + w)).toNat % pcAlign c = 0 := by
  rw [truncX_mod_pcAlign, BitVec.toNat_add]
  rcases pcAlign_cases c with e | e <;> rw [e] at hv ⊢ <;> omega

theorem hartStep_advance (s : State) : HartStep s (advance s) where
  cfg := rfl
  own := rfl
  others := rfl
  control h := { h with
    pc_aligned := truncX_add_aligned s.cfg s.pc 4 h.pc_aligned rfl
    pc_width := truncX_truncX _ _ }
  files h := h.congr rfl rfl rfl

/-- A trap goes to an aligned address: the base of `mtvec`, or a multiple of 4 above it (60 R470). -/
theorem trap_pc_aligned (s : State) (code : Nat) (irq : Bool) (info : Word) :
    (trap s code irq info).pc.toNat % pcAlign s.cfg = 0 := by
  have base : (s.mtvec &&& ~~~3#64).toNat % 4 = 0 := by
    have e : (s.mtvec &&& ~~~3#64).toNat = s.mtvec.toNat / 4 * 4 := land_not_low_toNat s.mtvec 2
    omega
  have wide : ∀ v : Word, v.toNat % 4 = 0 → v.toNat % pcAlign s.cfg = 0 := by
    intro v hv
    rcases pcAlign_cases s.cfg with e | e <;> rw [e] <;> omega
  unfold trap
  dsimp only
  split
  · refine truncX_add_aligned _ _ _ (wide _ base) ?_
    rw [BitVec.toNat_ofNat]
    omega
  · rw [truncX_mod_pcAlign]
    exact wide _ base

theorem hartStep_trap (s : State) (code : Nat) (irq : Bool) (info : Word) :
    HartStep s (trap s code irq info) where
  cfg := rfl
  own := rfl
  others := rfl
  control h :=
    { pc_aligned := trap_pc_aligned s code irq info
      pc_width := truncX_truncX _ _
      mepc_legal := mepcValue_mepcValue _ _
      priv_exists := rfl
      mpp_exists := h.priv_exists }
  files h := h.congr rfl rfl rfl

theorem hartStep_mret (s : State) : HartStep s (mret s) where
  cfg := rfl
  own := rfl
  others := rfl
  control h :=
    { pc_aligned := mepcValue_aligned _ _
      pc_width := truncX_mepcValue _ _
      mepc_legal := h.mepc_legal
      priv_exists := h.mpp_exists
      mpp_exists := by
        unfold mret
        dsimp only
        split
        · assumption
        · rfl }
  files h := h.congr rfl rfl rfl

/-- A pop's writes of `mcause` and `mepc`. -/
theorem hartStep_writeEpc (s : State) (cause epc : Word) :
    HartStep s { writeMcause s cause with mepc := mepcValue s.cfg epc } := by
  rw [writeMcause_form]
  exact ⟨rfl, rfl, rfl, fun h => { h with mepc_legal := mepcValue_mepcValue _ _ }, fun h => h.congr rfl rfl rfl⟩

theorem hartStep_popFrame (s : State) (vs : List Word) : HartStep s (popFrame s vs) :=
  (((hartStep_writeEpc s _ _).trans (work_writeXs _ _).hartStep).trans (work_writeIntSp _ _).hartStep).trans
    (hartStep_mret _)

theorem InstrEnds.hartStep {i : Instr} {s t : State} (h : InstrEnds i s t) : HartStep s t := by
  cases h with
  | goesOn work => exact work.hartStep.trans (hartStep_advance _)
  | returns vs _ _ agents => exact agents.hartStep.trans (hartStep_popFrame _ vs)
  | @traps u _ info left _ =>
    obtain ⟨cfg, own, others, control, files⟩ := left.agents.hartStep
    exact HartStep.trans (t := u) ⟨cfg, own, others, control, files⟩ (hartStep_trap u _ false info)

/-! ### The step -/

/-- All that running a word can do. -/
theorem runWord_cases (w : InsnWord) (s : State) :
    (∃ i, runWord w s = exec i s) ∨ runWord w s = .next (illegalWord s w) ∨
      runWord w s = .refused .baseInstruction := by
  unfold runWord
  split
  · exact .inl ⟨_, rfl⟩
  · exact .inr (.inl rfl)
  · exact .inr (.inr rfl)

/-- All that fetching and running an instruction can do. -/
theorem runNext_cases (s : State) :
    (∃ w u, AgentsOnly s u ∧ runNext s = runWord w u) ∨ runNext s = .refused .baseInstruction ∨
      (∃ e, runNext s = .next (accessTrap s e)) ∨
      (s.pc.toNat % pcAlign s.cfg ≠ 0 ∧ runNext s = .fault .pcMisaligned) := by
  unfold runNext fetch
  by_cases hpc : s.pc.toNat % pcAlign s.cfg = 0
  · rw [if_neg (not_not.2 hpc)]
    cases fetchedAhead s s.pc with
    | some w => exact .inl ⟨w, _, agentsOnly_retire s s.pc, rfl⟩
    | none =>
      cases readInsn s s.pc with
      | word w => exact .inl ⟨w, s, .refl s, rfl⟩
      | short p => exact .inr (.inl rfl)
      | fault e => exact .inr (.inr (.inl ⟨e, rfl⟩))
  · rw [if_pos hpc]
    exact .inr (.inr (.inr ⟨hpc, rfl⟩))

/-- All that a step can do, after the activity of its boundary. -/
theorem step_cases (s : State) :
    (∃ code, step s = .next (trap (background s) code true 0)) ∨ step s = runNext (background s) ∨
      step s = .refused .illFormedConfig := by
  unfold step
  split
  · split
    · exact .inl ⟨_, rfl⟩
    · exact .inr (.inl rfl)
  · exact .inr (.inr rfl)

theorem runWord_hartStep {w : InsnWord} {s t : State} (h : runWord w s = .next t) : HartStep s t := by
  obtain ⟨i, e⟩ | e | e := runWord_cases w s <;> rw [e] at h
  · exact (instrEnds_of_exec h).hartStep
  · cases h
    exact hartStep_trap ..
  · cases h

theorem runNext_hartStep {s t : State} (h : runNext s = .next t) : HartStep s t := by
  obtain ⟨w, u, hu, e⟩ | e | ⟨f, e⟩ | ⟨_, e⟩ := runNext_cases s <;> rw [e] at h
  · exact hu.hartStep.trans (runWord_hartStep h)
  · cases h
  · cases h
    exact hartStep_trap ..
  · cases h

theorem step_hartStep {s t : State} (h : step s = .next t) : HartStep (background s) t := by
  obtain ⟨code, e⟩ | e | e := step_cases s <;> rw [e] at h
  · cases h
    exact hartStep_trap ..
  · exact runNext_hartStep h
  · cases h

/-- The one fault is that of a misaligned `pc` (10 R36). -/
theorem pc_misaligned_of_step_fault {s : State} {r : Fault} (h : step s = .fault r) :
    (background s).pc.toNat % pcAlign (background s).cfg ≠ 0 := by
  obtain ⟨code, e⟩ | e | e := step_cases s <;> rw [e] at h
  · cases h
  · obtain ⟨w, u, _, e⟩ | e | ⟨f, e⟩ | ⟨hpc, _⟩ := runNext_cases (background s)
    · rw [e] at h
      obtain ⟨i, e⟩ | e | e := runWord_cases w u <;> rw [e] at h
      · exact absurd h (exec_ne_fault i u r)
      · cases h
      · cases h
    · rw [e] at h; cases h
    · rw [e] at h; cases h
    · exact hpc
  · cases h

/-! ### Every hart -/

/-- What is said of the registers of the other harts stays true while they keep them. -/
theorem forall_others_of_registers {P : Hart → Prop} (hP : ∀ h, P (hartRegisters h) ↔ P h) {s t : State}
    (e : t.others.map hartRegisters = s.others.map hartRegisters) (h : ∀ q ∈ s.others, P q) :
    ∀ q ∈ t.others, P q := by
  intro q hq
  have hmem : hartRegisters q ∈ s.others.map hartRegisters := e ▸ List.mem_map_of_mem hq
  obtain ⟨p, hp, hpq⟩ := List.mem_map.1 hmem
  exact (hP q).1 (hpq ▸ (hP p).2 (h p hp))

theorem hartControl_hartRegisters (c : Config) (h : Hart) : HartControl c (hartRegisters h) ↔ HartControl c h :=
  (hartControl_systemPart c (hartRegisters h)).symm.trans (hartControl_systemPart c h)

theorem hartRegisters_hartRegisters (c : Config) (h : Hart) :
    HartRegisters c (hartRegisters h) ↔ HartRegisters c h :=
  ⟨fun hh => hh.congr rfl rfl rfl, fun hh => hh.congr rfl rfl rfl⟩

theorem HartStep.map_unwritten {s t : State} (h : HartStep s t) :
    (harts t).map unwritten = (harts s).map unwritten := by
  have e := congrArg (List.map unwritten) h.others
  rw [List.map_map, List.map_map] at e
  exact congrArg₂ List.cons h.own e

theorem map_mhartid_eq (l : List Hart) : l.map Hart.mhartid = (l.map unwritten).map Prod.fst := by
  rw [List.map_map]; rfl

theorem HartStep.controlInv {s t : State} (h : HartStep s t) (hs : ControlInv s) : ControlInv t where
  cfg_wf := h.cfg ▸ hs.cfg_wf
  harts_ok := by
    obtain ⟨hown, hothers⟩ := List.forall_mem_cons.1 hs.harts_ok
    rw [h.cfg]
    exact List.forall_mem_cons.2
      ⟨h.control hown, forall_others_of_registers (hartControl_hartRegisters s.cfg) h.others hothers⟩
  numbered := by
    rw [map_mhartid_eq, h.map_unwritten, ← map_mhartid_eq, h.cfg]
    exact hs.numbered

theorem HartStep.registersInv {s t : State} (h : HartStep s t) (hs : RegistersInv s) : RegistersInv t := by
  obtain ⟨hown, hothers⟩ := List.forall_mem_cons.1 hs
  unfold RegistersInv
  rw [h.cfg]
  exact List.forall_mem_cons.2
    ⟨h.files hown, forall_others_of_registers (hartRegisters_hartRegisters s.cfg) h.others hothers⟩

theorem harts_takeSlot (s : State) : harts (takeSlot s).2 = harts s := by
  unfold takeSlot; split <;> rfl

theorem takeSlot_cfg (s : State) : (takeSlot s).2.cfg = s.cfg := by
  unfold takeSlot; split <;> rfl

theorem harts_chooseHart_perm (run : Option Nat) (s : State) : (harts (chooseHart run s)).Perm (harts s) := by
  cases run with
  | none => exact .refl _
  | some k => exact harts_switchTo_perm k s

theorem chooseHart_cfg (run : Option Nat) (s : State) : (chooseHart run s).cfg = s.cfg := by
  cases run with
  | none => rfl
  | some k => exact switchTo_cfg k s

/-- Before its agents act, a boundary does no more to the harts than let two of them change places. -/
theorem background_harts (s : State) :
    ∃ u, AgentsOnly u (background s) ∧ (harts u).Perm (harts s) ∧ u.cfg = s.cfg := by
  obtain ⟨u, hu, rfl⟩ := background_eq s
  refine ⟨_, hu, ?_, ?_⟩
  · have h := harts_chooseHart_perm (takeSlot s).1.run (takeSlot s).2
    rwa [harts_takeSlot] at h
  · exact (chooseHart_cfg _ _).trans (takeSlot_cfg s)

theorem ControlInv.background {s : State} (h : ControlInv s) : ControlInv (background s) := by
  obtain ⟨u, hu, hperm, hcfg⟩ := background_harts s
  refine hu.hartStep.controlInv ⟨hcfg ▸ h.cfg_wf, fun q hq => ?_, ?_⟩
  · rw [hcfg]
    exact h.harts_ok q (hperm.mem_iff.1 hq)
  · rw [hcfg]
    exact (hperm.map _).trans h.numbered

theorem RegistersInv.background {s : State} (h : RegistersInv s) : RegistersInv (background s) := by
  obtain ⟨u, hu, hperm, hcfg⟩ := background_harts s
  refine hu.hartStep.registersInv fun q hq => ?_
  rw [hcfg]
  exact h q (hperm.mem_iff.1 hq)

/-! ## The statements about a step -/

/-- Settles O15: the boundary keeps the control invariant, and so does what the executing hart then does. -/
theorem stepKeepsControl : Obligations.StepKeepsControl := by
  unfold Obligations.StepKeepsControl
  exact fun s t hs h => (step_hartStep h).controlInv hs.background

/-- Settles O16, as O15. -/
theorem stepKeepsRegisters : Obligations.StepKeepsRegisters := by
  unfold Obligations.StepKeepsRegisters
  exact fun s t hs h => (step_hartStep h).registersInv hs.background

/-- Settles O14: the boundary permutes the harts, and the step that follows writes none of these registers. -/
theorem stepKeepsSystemRegisters : Obligations.StepKeepsSystemRegisters := by
  unfold Obligations.StepKeepsSystemRegisters
  intro s t h kept
  have hstep := step_hartStep h
  obtain ⟨u, hu, hperm, hcfg⟩ := background_harts s
  refine ⟨?_, ?_, hstep.own, hstep.others⟩
  · rw [hstep.cfg, hu.hartStep.cfg, hcfg]
  · show ((harts t).map unwritten).Perm ((harts s).map unwritten)
    rw [hstep.map_unwritten, hu.hartStep.map_unwritten]
    exact hperm.map unwritten

theorem Reaches.controlInv {s t : State} (h : Reaches s t) (hs : ControlInv s) : ControlInv t := by
  induction h with
  | refl => exact hs
  | tail _ hstep ih => exact stepKeepsControl _ _ ih hstep

/-- Settles O20: every state of the run meets the control invariant, by which `pc` is aligned when it fetches. -/
theorem neverFaults : Obligations.NeverFaults := by
  unfold Obligations.NeverFaults
  intro s t hs hreach r hfault
  have hinv := (hreach.controlInv hs).background
  exact pc_misaligned_of_step_fault hfault (hinv.harts_ok _ List.mem_cons_self).pc_aligned

/-! ## The state after reset -/

theorem mem_harts_reset {h : Hart} (hm : h ∈ harts State.reset) : ∃ id, h = resetHart id := by
  rcases List.mem_cons.1 hm with rfl | hm
  · exact ⟨0, rfl⟩
  · obtain ⟨k, _, rfl⟩ := List.mem_map.1 hm
    exact ⟨k + 1, rfl⟩

theorem hartControl_resetHart (id : Nat) : HartControl platform (resetHart id) where
  pc_aligned := show platform.resetVector.toNat % pcAlign platform = 0 by decide
  pc_width := rfl
  mepc_legal := show mepcValue platform resetMepc = resetMepc by decide
  priv_exists := rfl
  mpp_exists := rfl

theorem hartRegisters_resetHart (id : Nat) : HartRegisters platform (resetHart id) where
  x_width _ := rfl
  x_zero := by simp [resetHart, resetX]
  f_width _ := rfl
  vregs_length := by simp [resetHart]

theorem controlInv_reset : ControlInv State.reset where
  cfg_wf := by decide
  harts_ok h hm := by
    obtain ⟨id, rfl⟩ := mem_harts_reset hm
    exact hartControl_resetHart id
  numbered := .refl _

theorem registersInv_reset : RegistersInv State.reset := by
  intro h hm
  obtain ⟨id, rfl⟩ := mem_harts_reset hm
  exact hartRegisters_resetHart id

theorem hartCaches_resetHart (id : Nat) : HartCaches platform (resetHart id) where
  dc _ := .nil _
  ic _ := .nil _
  ic_clean _ _ hl := absurd hl List.not_mem_nil

/-- Memory and every cache are empty. -/
theorem storageInv_reset : StorageInv State.reset where
  mem_wf := rfl
  caches := .of_harts
    (fun h hm => by
      obtain ⟨id, rfl⟩ := mem_harts_reset hm
      exact hartCaches_resetHart id)
    (.nil _)
  l2_clean _ hl := absurd hl List.not_mem_nil
  copies_agree _ _ h hm _ _ ln hl := by
    obtain ⟨id, rfl⟩ := mem_harts_reset hm
    exact absurd hl List.not_mem_nil

/-- Settles O19. -/
theorem resetMeetsInvariants : Obligations.ResetMeetsInvariants :=
  ⟨controlInv_reset, registersInv_reset, storageInv_reset⟩

end Sys2Proof
end

section
/-! SUPPORT. Every step keeps storage as it should be: what instructions change beside the storage, what they do to
it, and the step (20 R94; 40 R172, R173). -/

namespace Sys2Proof

open Machine

/-! ## Changes beside the storage -/

/-- All of the machine that `StorageInv` speaks of. -/
def storagePart (s : State) : Config × Memory × List Line × List Line × List Line × List Hart :=
  (s.cfg, s.mem, s.dc, s.ic, s.l2, s.others)

theorem StorageInv.of_part {s t : State} (h : StorageInv s) (e : storagePart t = storagePart s) :
    StorageInv t := by
  simp only [storagePart, Prod.mk.injEq] at e
  obtain ⟨hcfg, hmem, hdc, hic, hl2, hothers⟩ := e
  exact h.congr hcfg hmem hdc hic hl2 hothers

@[simp] theorem storagePart_advance (s : State) : storagePart (advance s) = storagePart s := rfl

@[simp] theorem storagePart_trap (s : State) (code : Nat) (irq : Bool) (info : Word) :
    storagePart (trap s code irq info) = storagePart s := rfl

@[simp] theorem storagePart_retire (s : State) (va : Word) : storagePart (retire s va) = storagePart s := rfl

@[simp] theorem storagePart_flushPipeline (s : State) : storagePart (flushPipeline s) = storagePart s := rfl

@[simp] theorem storagePart_writeX (s : State) (r : Reg) (v : Word) :
    storagePart (writeX s r v) = storagePart s := by
  rw [writeX_form]; rfl

@[simp] theorem storagePart_writeIntSp (s : State) (v : Word) :
    storagePart (writeIntSp s v) = storagePart s := by
  rw [writeIntSp_form]; rfl

@[simp] theorem storagePart_writeF (s : State) (r : Reg) (v : Word) :
    storagePart (writeF s r v) = storagePart s := rfl

@[simp] theorem storagePart_markFpDirty (s : State) : storagePart (markFpDirty s) = storagePart s := by
  unfold markFpDirty; split <;> rfl

@[simp] theorem storagePart_pushMie (s : State) : storagePart (pushMie s) = storagePart s := by
  unfold pushMie; split <;> rfl

@[simp] theorem storagePart_setElems (s : State) (vd : Reg) (g : Nat → BitVec 32) :
    storagePart (setElems s vd g) = storagePart s := rfl

@[simp] theorem storagePart_finishVector (s : State) : storagePart (finishVector s) = storagePart s := by
  unfold finishVector; split <;> rfl

@[simp] theorem storagePart_popFrame (s : State) (vs : List Word) :
    storagePart (popFrame s vs) = storagePart s := by
  rw [popFrame_spec]; rfl

/-! ## Messages to the other harts -/

/-- The other harts may lose all lines of their instruction caches, and change in all that is no line. -/
theorem StorageInv.map_others {s : State} (h : StorageInv s) (f : Hart → Hart) (hdc : ∀ q, (f q).dc = q.dc)
    (hic : ∀ q, (f q).ic = q.ic ∨ (f q).ic = []) : StorageInv { s with others := s.others.map f } where
  mem_wf := h.mem_wf
  caches :=
    { lines := h.caches.lines
      ic_clean := h.caches.ic_clean
      others := by
        intro q' hq'
        obtain ⟨q, hq, rfl⟩ := List.mem_map.1 hq'
        have hold := h.caches.others q hq
        refine ⟨fun hp => hdc q ▸ hold.dc hp, fun hp => ?_, fun hp => ?_⟩ <;> rcases hic q with e | e <;> rw [e]
        · exact hold.ic hp
        · exact .nil _
        · exact hold.ic_clean hp
        · exact fun _ hl => absurd hl List.not_mem_nil }
  l2_clean := h.l2_clean
  copies_agree := h.copies_agree.congr rfl rfl (by simp [Function.comp_def, hdc])

theorem StorageInv.broadcast {s : State} (h : StorageInv s) (b : Broadcast) : StorageInv (broadcast s b) :=
  h.map_others _ (fun _ => rfl) (fun _ => .inl rfl)

theorem StorageInv.completeAllPending {s : State} (h : StorageInv s) : StorageInv (completeAllPending s) := by
  refine h.map_others _ (fun q => ?_) (fun q => ?_)
  · obtain ⟨_, _, _, hrest⟩ := completeFrom_spec s.cfg s.mhartid q
    exact (congrArg Hart.dc hrest :)
  · obtain ⟨_, hic, _, _⟩ := completeFrom_spec s.cfg s.mhartid q
    rw [hic]
    split
    · exact .inr rfl
    · exact .inl rfl

/-! ## Loads and stores -/

/-- Parts performed one after another keep storage as it should be if each does: agents do, in every gap. -/
theorem StorageInv.performAccesses {s : State} (h : StorageInv s)
    {f : State → Part → Except AccessFault (List Byte) × State}
    (hf : ∀ u p, StorageInv u → StorageInv (f u p).2) (qs : List Req) :
    StorageInv (performAccesses f s qs).2 :=
  performParts_induct f StorageInv (fun _ as hu => hu.applyActs as) hf s _ _ h

theorem StorageInv.readPart {s : State} (h : StorageInv s) (p : Part) : StorageInv (readPart s p).2 := by
  unfold Machine.readPart
  split <;> exact h

theorem StorageInv.writePart {s : State} (h : StorageInv s) (w : Part → Bool) (p : Part) :
    StorageInv (writePart w s p).2 := by
  rw [writePart_eq]
  exact h.dataSetAll _

theorem StorageInv.loadAll {s : State} (h : StorageInv s) (qs : List Req) : StorageInv (loadAll s qs).2 := by
  have hread := h.performAccesses (fun _ p hu => hu.readPart p) qs
  unfold Machine.loadAll
  dsimp only
  split <;> exact hread

theorem StorageInv.storeAll {s : State} (h : StorageInv s) (qs : List Req) : StorageInv (storeAll s qs).2 := by
  have hwrite (w : Part → Bool) := h.performAccesses (fun _ p hu => hu.writePart w p) qs
  unfold Machine.storeAll partialStore
  dsimp only
  split
  · exact hwrite _
  · dsimp only
    split
    · exact (hwrite _).of_part rfl
    · exact hwrite _

/-! ## Outcomes -/

/-- Storage is as it should be in the state that an outcome answers, if it answers one. -/
def StorageKept : Result → Prop
  | .next t => StorageInv t
  | .fault _ => True
  | .refused _ => True

section

variable {i : Instr} {s : State}

theorem kept_of_part {t : State} (h : StorageInv s) (e : storagePart t = storagePart s) :
    StorageKept (.next t) := h.of_part e

theorem kept_advance (h : StorageInv s) : StorageKept (.next (advance s)) := h.of_part rfl

theorem kept_finishX (h : StorageInv s) (rd : Reg) (v : Word) : StorageKept (finishX s rd v) :=
  h.of_part (by simp)

theorem kept_ite {p : Prop} [Decidable p] {a b : Result} (ha : StorageKept a) (hb : StorageKept b) :
    StorageKept (if p then a else b) := by split <;> assumption

/-- What is reserved is refused; else the instruction runs. -/
theorem kept_unless {p : Prop} [Decidable p] (r : Refusal) {run : Result} (h : StorageKept run) :
    StorageKept (if p then .refused r else run) := kept_ite trivial h

theorem kept_requireLegal (h : StorageInv s) {ok : Bool} {run : Result} (hrun : StorageKept run) :
    StorageKept (requireLegal s i ok run) := by
  obtain ⟨_, e⟩ | ⟨_, e⟩ := requireLegal_cases s i ok run <;> rw [e]
  · exact hrun
  · exact kept_of_part h rfl

theorem kept_withLoads (h : StorageInv s) {qs : List Req} {k : State → List Word → Result}
    (hk : ∀ u vs, StorageInv u → StorageKept (k u vs)) : StorageKept (withLoads s qs k) := by
  obtain ⟨vs, _, e⟩ | ⟨f, _, e⟩ := withLoads_cases s qs k <;> rw [e]
  · exact hk _ vs (h.loadAll qs)
  · exact kept_of_part (h.loadAll qs) rfl

theorem kept_withStores (h : StorageInv s) {qs : List Req} {k : State → Result}
    (hk : ∀ u, StorageInv u → StorageKept (k u)) : StorageKept (withStores s qs k) := by
  obtain ⟨_, e⟩ | ⟨f, _, e⟩ := withStores_cases s qs k <;> rw [e]
  · exact hk _ (h.storeAll qs)
  · exact kept_of_part (h.storeAll qs) rfl

/-! ## The instructions that reach storage -/

theorem kept_execCmo (h : StorageInv s) {permitted hardware : Bool} {run : Result} (hrun : StorageKept run) :
    StorageKept (execCmo i permitted hardware s run) :=
  kept_requireLegal h (kept_ite hrun (kept_advance h))

theorem kept_finishCache (h : StorageInv s) (op : CacheOp) (c : CacheId) (as : List Nat) :
    StorageKept (finishCache op s c as) := kept_advance (h.cacheOp op c as)

theorem StorageInv.dcacheAtPa (h : StorageInv s) (op : CacheOp) (pa : Nat) : StorageInv (dcacheAtPa op s pa) := by
  unfold Machine.dcacheAtPa
  dsimp only
  split
  · exact (h.cacheOp op .dc _).cacheOp op .l2 _
  · exact h.cacheOp op .dc _

theorem kept_withPa {rs1 : Reg} {k : Nat → Result} (hk : ∀ pa, StorageKept (k pa)) :
    StorageKept (withPa s rs1 k) := kept_ite (hk _) trivial

theorem kept_withVa (h : StorageInv s) {rs1 : Reg} {k : Nat → Result} (hk : ∀ pa, StorageKept (k pa)) :
    StorageKept (withVa s rs1 k) := by
  unfold withVa
  split
  · exact hk _
  · exact kept_advance h

theorem kept_execSetWay (h : StorageInv s) (op : CacheOp) (rs1 : Reg) : StorageKept (execSetWay i op rs1 s) := by
  refine kept_execCmo h ?_
  split
  · exact kept_advance h
  · exact kept_ite (kept_advance h) (kept_unless _ (kept_finishCache h ..))

theorem kept_execSfenceVmas (h : StorageInv s) (rs1 rs2 : Reg) : StorageKept (execSfenceVmas rs1 rs2 s) := by
  have hflushed : StorageInv { s with tlb := tlbWithout s.cfg (readX s rs1) (readX s rs2) s.tlb } := h.of_part rfl
  refine kept_requireLegal h (kept_advance ?_)
  split
  · exact hflushed.broadcast _
  · exact h

theorem kept_barrierFlush (h : StorageInv s) : StorageKept (barrierFlush i s) :=
  kept_requireLegal h (kept_advance
    (StorageInv.syncFetch (h.completeAllPending.of_part (storagePart_flushPipeline _))))

theorem kept_execLoadInc (h : StorageInv s) (t : When) (e : Extend) (n : Nat) (rd rs1 : Reg) (imm5 : BitVec 5)
    (imm2 : BitVec 2) : StorageKept (execLoadInc i t e n rd rs1 imm5 imm2 s) :=
  kept_requireLegal h (kept_unless _ (kept_withLoads h fun _ _ hu => kept_of_part hu (by simp)))

theorem kept_execStoreInc (h : StorageInv s) (t : When) (n : Nat) (rd rs1 : Reg) (imm5 : BitVec 5)
    (imm2 : BitVec 2) : StorageKept (execStoreInc i t n rd rs1 imm5 imm2 s) := by
  refine kept_requireLegal h ?_
  split
  · trivial
  · exact kept_withStores h fun _ hu => kept_finishX hu ..

theorem kept_execInM (h : StorageInv s) {run : Result} (hrun : StorageKept run) :
    StorageKept (execInM i s run) := kept_requireLegal h (kept_unless _ hrun)

/-- Every instruction keeps storage as it should be: it writes registers, or it reaches storage by accesses, cache
operations and messages alone. -/
theorem kept_exec (i : Instr) (h : StorageInv s) : StorageKept (exec i s) := by
  cases i with
  | dcacheCall | dcacheCiall | dcacheIall | icacheIall | l2cacheCall | l2cacheCiall | l2cacheIall =>
    exact kept_execCmo h (kept_finishCache h ..)
  | icacheIalls => exact kept_execCmo h (kept_finishCache (h.broadcast _) ..)
  | dcacheCpa | dcacheCipa | dcacheIpa =>
    exact kept_execCmo h (kept_withPa fun pa => kept_advance (h.dcacheAtPa _ pa))
  | dcacheCva | dcacheCiva | dcacheIva =>
    exact kept_execCmo h (kept_withVa h fun pa => kept_advance (h.dcacheAtPa _ pa))
  | dcacheCpal1 | icacheIpa => exact kept_execCmo h (kept_withPa fun _ => kept_finishCache h ..)
  | dcacheCval1 | icacheIva => exact kept_execCmo h (kept_withVa h fun _ => kept_finishCache h ..)
  | dcacheCsw | dcacheCisw | dcacheIsw => exact kept_execSetWay h ..
  | sfenceVmas => exact kept_execSfenceVmas h ..
  | sync | syncS => exact kept_requireLegal h (kept_advance h.completeAllPending)
  | syncI | syncIs => exact kept_barrierFlush h
  | addsl | srri | srriw | ff0 | ff1 | rev | revw | tstnbz | mula | mulah | mulaw | muls | mulsh | mulsw | fmvXHw =>
    exact kept_requireLegal h (kept_finishX h ..)
  | tst => exact kept_requireLegal h (kept_unless _ (kept_finishX h ..))
  | ext | extu => exact kept_requireLegal h (kept_unless _ (kept_unless _ (kept_finishX h ..)))
  | mveqz | mvnez => exact kept_requireLegal h (kept_ite (kept_finishX h ..) (kept_advance h))
  | lbia | lbib | lbuia | lbuib | lhia | lhib | lhuia | lhuib | lwia | lwib | lwuia | lwuib | ldia | ldib =>
    exact kept_execLoadInc h ..
  | sbia | shia | swia | sdia => exact kept_execStoreInc h .after ..
  | sbib | shib | swib | sdib => exact kept_execStoreInc h .before ..
  | lrb | lrbu | lrh | lrhu | lrw | lrwu | lrd | lurb | lurbu | lurh | lurhu | lurw | lurwu | lurd =>
    exact kept_requireLegal h (kept_withLoads h fun _ _ hu => kept_finishX hu ..)
  | srb | srh | srw | srd | surb | surh | surw | surd | sdd | swd | fsrd | fsrw | fsurd | fsurw =>
    exact kept_requireLegal h (kept_withStores h fun _ hu => kept_advance hu)
  | ldd | lwd | lwud =>
    exact kept_requireLegal h (kept_unless _ (kept_withLoads h fun _ _ hu => kept_of_part hu (by simp)))
  | flrd | flrw | flurd | flurw =>
    exact kept_requireLegal h (kept_withLoads h fun _ _ hu => kept_of_part hu (by simp))
  | fmvHwX | vmaqaVv | vmaqaVx | vmaqauVv | vmaqauVx | vmaqasuVv | vmaqasuVx | vmaqausVx =>
    exact kept_requireLegal h (kept_of_part h (by simp))
  | ipush => exact kept_execInM h (kept_withStores h fun _ hu => kept_of_part hu (by simp))
  | ipop => exact kept_execInM h (kept_withLoads h fun _ _ hu => kept_of_part hu (by simp))

/-! ## The step -/

theorem kept_runWord (w : InsnWord) (h : StorageInv s) : StorageKept (runWord w s) := by
  obtain ⟨i, e⟩ | e | e := runWord_cases w s <;> rw [e]
  · exact kept_exec i h
  · exact kept_of_part h rfl
  · trivial

theorem kept_runNext (h : StorageInv s) : StorageKept (runNext s) := by
  unfold runNext fetch
  by_cases hpc : s.pc.toNat % pcAlign s.cfg = 0
  · rw [if_neg (not_not.2 hpc)]
    cases fetchedAhead s s.pc with
    | some w => exact kept_runWord w (h.of_part (storagePart_retire s s.pc))
    | none =>
      cases readInsn s s.pc with
      | word w => exact kept_runWord w h
      | short p => trivial
      | fault e => exact kept_of_part h rfl
  · rw [if_pos hpc]
    trivial

theorem kept_step (h : StorageInv s) : StorageKept (step s) := by
  obtain ⟨code, e⟩ | e | e := step_cases s <;> rw [e]
  · exact kept_of_part h.background rfl
  · exact kept_runNext h.background
  · trivial

end

/-- Settles O17: the boundary keeps storage as it should be, and so does the instruction that runs then. -/
theorem stepKeepsStorage : Obligations.StepKeepsStorage := by
  unfold Obligations.StepKeepsStorage
  intro s t hs h
  have hkept := kept_step hs
  rwa [h] at hkept

end Sys2Proof
end

section
/-! SUPPORT. What the three cache operations do to the lines they select and to what is read at every level
(20 R95, R96), and what agents and other harts' D-caches leave of what a data access reads (20 R94, R100). -/

namespace Sys2Proof

open Machine

/-! ## Clean -/

theorem cacheLines_cleanLines {s : State} (h : StorageInv s) (c : CacheId) (as : List Nat) :
    cacheLines (cleanLines s c as) c =
      (cacheLines s c).map fun ln => if as.contains ln.addr then { ln with dirty := false } else ln := by
  induction as generalizing s with
  | nil => exact (List.map_id' _).symm
  | cons a as ih =>
    obtain ⟨_, hlines, _⟩ := writeback_spec s c a h.toLevelsInv
    rw [cleanLines, ih (h.writeback c a), hlines, List.map_map]
    refine List.map_congr_left fun ln _ => ?_
    by_cases e : ln.addr = a <;> by_cases e' : ln.addr ∈ as <;> simp [e, e']

theorem dataByte_cleanLines {s : State} (h : StorageInv s) (c : CacheId) (as : List Nat) (a : Nat) :
    dataByte (cleanLines s c as) a = dataByte s a := by
  induction as generalizing s with
  | nil => rfl
  | cons a0 as ih =>
    obtain ⟨_, _, _, hdata, _⟩ := writeback_spec s c a0 h.toLevelsInv
    exact (ih (h.writeback c a0)).trans (hdata a)

theorem peerByte_cleanLines (s : State) (c : CacheId) (as : List Nat) (a : Nat) :
    peerByte (cleanLines s c as) a = peerByte s a :=
  have hdata := sameButData_cleanLines s c as
  peerByte_of_others hdata.cfg hdata.others a

/-- A line held dirty, at one of the addresses, that says what byte `a` is. -/
abbrev DirtyIn (g : CacheGeom) (ls : List Line) (as : List Nat) (a : Nat) : Prop :=
  ∃ ln ∈ ls, ln.addr ∈ as ∧ ln.dirty = true ∧ lineAddr g a = ln.addr

/-- Of the lines at several addresses one is cleaned first. -/
theorem dirtyIn_cons {g : CacheGeom} {ls : List Line} {a0 : Nat} {as : List Nat} {a : Nat} :
    DirtyIn g ls (a0 :: as) a ↔
      (∃ ln ∈ ls, ln.addr = a0 ∧ ln.dirty = true ∧ lineAddr g a = a0) ∨
        DirtyIn g (ls.map fun ln => if ln.addr == a0 then { ln with dirty := false } else ln) as a := by
  constructor
  · rintro ⟨ln, hl, hmem, hd, e⟩
    by_cases e0 : ln.addr = a0
    · exact .inl ⟨ln, hl, e0, hd, e.trans e0⟩
    · exact .inr ⟨ln, List.mem_map.2 ⟨ln, hl, by simp [e0]⟩, (List.mem_cons.1 hmem).resolve_left e0, hd, e⟩
  · rintro (⟨ln, hl, e0, hd, e⟩ | ⟨ln, hl, hmem, hd, e⟩)
    · exact ⟨ln, hl, e0 ▸ List.mem_cons_self, hd, e.trans e0.symm⟩
    · obtain ⟨l, hl', rfl⟩ := List.mem_map.1 hl
      by_cases e0 : l.addr = a0
      · simp [e0] at hd
      · simp only [beq_iff_eq, e0, if_false] at hmem hd e
        exact ⟨l, hl', List.mem_cons_of_mem _ hmem, hd, e⟩

/-- What memory holds after lines of `L2` were cleaned, and that what is read through `L2` is as before. -/
theorem memRead_cleanLines_l2 {s : State} (h : StorageInv s) (as : List Nat) (a : Nat) :
    lowerByte (cleanLines s .l2 as) a = lowerByte s a ∧
    memRead (cleanLines s .l2 as).mem a =
      if DirtyIn s.cfg.l2Geom (cacheLines s .l2) as a then lowerByte s a else memRead s.mem a := by
  induction as generalizing s with
  | nil => simp [cleanLines, DirtyIn]
  | cons a0 as ih =>
    have hlow := lowerByte_writebackL2 s a0 a h.toLevelsInv
    have hcons := dirtyIn_cons (g := s.cfg.l2Geom) (ls := cacheLines s .l2) (a0 := a0) (as := as) (a := a)
    obtain ⟨ihlow, ihmem⟩ := ih (h.writeback .l2 a0)
    refine ⟨ihlow.trans hlow, ihmem.trans ?_⟩
    show (if DirtyIn (writebackL2 s a0).cfg.l2Geom (cacheLines (writebackL2 s a0) .l2) as a then
      lowerByte (writebackL2 s a0) a else memRead (writebackL2 s a0).mem a) = _
    rw [(sameButData_writebackL2 s a0).cfg, hlow, memRead_writebackL2 s a0 a h.toLevelsInv]
    rw [← cacheLines_writebackL2] at hcons
    by_cases hrest : DirtyIn s.cfg.l2Geom (cacheLines (writebackL2 s a0) .l2) as a
    · rw [if_pos hrest, if_pos (hcons.2 (.inr hrest))]
    · rw [if_neg hrest]
      exact if_congr ⟨fun hfirst => hcons.2 (.inl hfirst), fun hd => (hcons.1 hd).resolve_right hrest⟩ rfl rfl

/-- Where no dirty line of `L2` holds a byte, memory says what is read through `L2`. -/
theorem memRead_eq_lowerByte {s : State} (h : StorageInv s) (a : Nat)
    (hclean : ∀ ln ∈ cacheLines s .l2, lineAddr s.cfg.l2Geom a = ln.addr → ln.dirty = false) :
    memRead s.mem a = lowerByte s a := by
  unfold lowerByte
  split
  · next ln hl =>
    obtain ⟨hm, e⟩ := heldLine_mem hl
    exact h.l2_clean ln hm (hclean ln hm e.symm) a e.symm
  · rfl

/-- Settles O56. -/
theorem cleanKeepsData : Obligations.CleanKeepsData := by
  unfold Obligations.CleanKeepsData
  intro s c as h
  exact ⟨h.cacheOp .clean c as, dataByte_cleanLines h c as, cacheLines_cleanLines h c as,
    sameButData_cleanLines s c as, onlyCacheAndBelow_cacheOp .clean s c as, cleanLines_ic s as⟩

/-- Settles O57: each level below is what `lowerByte_cleanLines` and `memRead_cleanLines_l2` give. -/
theorem cleanReachesNextLevel : Obligations.CleanReachesNextLevel := by
  unfold Obligations.CleanReachesNextLevel
  intro s as a h
  obtain ⟨_, hdc⟩ := lowerByte_cleanLines h as a
  obtain ⟨_, hl2⟩ := memRead_cleanLines_l2 h as a
  exact ⟨fun hd => hdc.trans (if_pos hd), fun hd => hdc.trans (if_neg hd),
    fun hd => hl2.trans (if_pos hd), fun hd => hl2.trans (if_neg hd)⟩

/-! ## Invalidate -/

theorem viewByte_invalidateLines (s : State) (c : CacheId) (as : List Nat) (a : Nat) :
    viewByte (invalidateLines s c as) c a =
      if as.contains (lineAddr (cacheGeom s.cfg c) a) then none else viewByte s c a := by
  unfold viewByte invalidateLines
  rw [heldLine_setLines_filter s c (fun x => !as.contains x), setLines_cfg']
  cases as.contains (lineAddr (cacheGeom s.cfg c) a) <;> rfl

theorem viewByte_invalidateLines_of_ne (s : State) {c d : CacheId} (hne : d ≠ c) (as : List Nat) (a : Nat) :
    viewByte (invalidateLines s c as) d a = viewByte s d a := viewByte_setLines_of_ne s c d _ hne a

theorem lowerByte_invalidateLines_of_ne (s : State) {c : CacheId} (hne : .l2 ≠ c) (as : List Nat) (a : Nat) :
    lowerByte (invalidateLines s c as) a = lowerByte s a := by
  rw [lowerByte_eq, lowerByte_eq, viewByte_invalidateLines_of_ne s hne]
  unfold invalidateLines
  rw [setLines_mem']

/-- The level below `L2` is memory. -/
theorem lowerByte_invalidateLines_l2 (s : State) (as : List Nat) (a : Nat) :
    lowerByte (invalidateLines s .l2 as) a =
      if as.contains (lineAddr s.cfg.l2Geom a) then memRead s.mem a else lowerByte s a := by
  rw [lowerByte_eq, lowerByte_eq, viewByte_invalidateLines]
  cases h : as.contains (lineAddr s.cfg.l2Geom a) <;> simp only [cacheGeom, h] <;> rfl

theorem fetchByte_invalidateLines_ic (s : State) (as : List Nat) (a : Nat) :
    fetchByte (invalidateLines s .ic as) a =
      if as.contains (lineAddr s.cfg.icGeom a) then lowerByte s a else fetchByte s a := by
  rw [fetchByte_eq, fetchByte_eq, viewByte_invalidateLines, lowerByte_invalidateLines_of_ne s (by decide)]
  cases h : as.contains (lineAddr s.cfg.icGeom a) <;> simp only [cacheGeom, h] <;> rfl

theorem dataByte_invalidateLines_dc (s : State) (as : List Nat) (a : Nat) :
    dataByte (invalidateLines s .dc as) a =
      if as.contains (lineAddr s.cfg.dcGeom a) then belowByte s a else dataByte s a := by
  have hbelow : belowByte (invalidateLines s .dc as) a = belowByte s a := by
    rw [belowByte_eq, belowByte_eq, lowerByte_invalidateLines_of_ne s (by decide)]
    unfold invalidateLines
    rw [peerByte_setLines]
  rw [dataByte_eq, dataByte_eq, viewByte_invalidateLines, hbelow]
  cases h : as.contains (lineAddr s.cfg.dcGeom a) <;> simp only [cacheGeom, h] <;> rfl

theorem belowByte_of_incoherent {s : State} (h : s.cfg.dcacheCoherent = false) (a : Nat) :
    belowByte s a = lowerByte s a := by
  rw [belowByte_eq, peerByte, h]
  rfl

/-! ## Clean and invalidate -/

/-- The lines left were not among those cleaned. -/
theorem cacheLines_cleanInvalidate {s : State} (h : StorageInv s) (c : CacheId) (as : List Nat) :
    cacheLines (cacheOp .cleanInvalidate s c as) c = (cacheLines s c).filter fun ln => !as.contains ln.addr := by
  show cacheLines (invalidateLines (cleanLines s c as) c as) c = _
  unfold invalidateLines
  rw [cacheLines_setLines_filter, cacheLines_cleanLines h, List.filter_map]
  refine Eq.trans ?_ (List.map_id _)
  have haddr : (fun ln : Line => !as.contains ln.addr) ∘
      (fun ln => if as.contains ln.addr then { ln with dirty := false } else ln) =
        fun ln => !as.contains ln.addr := by
    funext ln
    simp only [Function.comp]
    split <;> rfl
  rw [haddr]
  refine List.map_congr_left fun ln hl => ?_
  have hkept : as.contains ln.addr = false := by simpa using (List.mem_filter.1 hl).2
  rw [hkept]
  rfl

theorem lowerByte_cleanInvalidate_dc {s : State} (as : List Nat) (a : Nat) :
    lowerByte (cacheOp .cleanInvalidate s .dc as) a = lowerByte (cleanLines s .dc as) a :=
  lowerByte_invalidateLines_of_ne _ (by decide) as a

/-- What a data access reads then: below the D-cache, after the clean, where the line is gone. -/
theorem dataByte_cleanInvalidate_dc {s : State} (h : StorageInv s) (as : List Nat) (a : Nat) :
    dataByte (cacheOp .cleanInvalidate s .dc as) a =
      if as.contains (lineAddr s.cfg.dcGeom a) then (peerByte s a).getD (lowerByte (cleanLines s .dc as) a)
      else dataByte s a := by
  show dataByte (invalidateLines (cleanLines s .dc as) .dc as) a = _
  rw [dataByte_invalidateLines_dc, (sameButData_cleanLines s .dc as).cfg, dataByte_cleanLines h, belowByte_eq,
    peerByte_cleanLines]

/-- Where this hart's D-cache holds a byte, another hart's copy that is looked at says the same. -/
theorem peerByte_getD_dataByte {s : State} (h : StorageInv s) {a : Nat} {ln : Line} (hl : ln ∈ cacheLines s .dc)
    (e : lineAddr s.cfg.dcGeom a = ln.addr) : (peerByte s a).getD (dataByte s a) = dataByte s a := by
  have hview : viewByte s .dc a = some (lineByte s.cfg.dcGeom ln a) := by
    unfold viewByte
    rw [heldLine_of_mem h.caches hl e.symm]
    rfl
  cases hp : peerByte s a with
  | none => rfl
  | some w =>
    rw [dataByte_eq, hview]
    exact peerByte_of_own h hview hp

theorem memRead_cleanInvalidate_l2 (s : State) (as : List Nat) (a : Nat) :
    memRead (cacheOp .cleanInvalidate s .l2 as).mem a = memRead (cleanLines s .l2 as).mem a := rfl

/-- No byte read through `L2` is lost: a dirty line is in memory by then, and a clean one always was. -/
theorem lowerByte_cleanInvalidate_l2 {s : State} (h : StorageInv s) (as : List Nat) (a : Nat) :
    lowerByte (cacheOp .cleanInvalidate s .l2 as) a = lowerByte s a := by
  obtain ⟨hlow, hmem⟩ := memRead_cleanLines_l2 h as a
  show lowerByte (invalidateLines (cleanLines s .l2 as) .l2 as) a = _
  rw [lowerByte_invalidateLines_l2, hlow, hmem, (sameButData_cleanLines s .l2 as).cfg]
  by_cases hsel : lineAddr s.cfg.l2Geom a ∈ as
  · rw [if_pos (by simpa using hsel)]
    split
    · rfl
    · next hd =>
      refine memRead_eq_lowerByte h a fun ln hl e => ?_
      by_contra hdirty
      exact hd ⟨ln, hl, e ▸ hsel, by simpa using hdirty, e⟩
  · rw [if_neg (by simpa using hsel)]

theorem dataByte_cleanInvalidate_l2 {s : State} (h : StorageInv s) (as : List Nat) (a : Nat) :
    dataByte (cacheOp .cleanInvalidate s .l2 as) a = dataByte s a := by
  have hview : viewByte (cacheOp .cleanInvalidate s .l2 as) .dc a = viewByte (cleanLines s .l2 as) .dc a :=
    viewByte_invalidateLines_of_ne _ (by decide) as a
  have hpeer : peerByte (cacheOp .cleanInvalidate s .l2 as) a = peerByte (cleanLines s .l2 as) a :=
    peerByte_setLines _ .l2 _ a
  obtain ⟨hlow, _⟩ := memRead_cleanLines_l2 h as a
  rw [← dataByte_cleanLines h .l2 as a, dataByte_views, dataByte_views, hview, hpeer, hlow,
    lowerByte_cleanInvalidate_l2 h]

/-- Settles O58. -/
theorem invalidateForgets : Obligations.InvalidateForgets := by
  unfold Obligations.InvalidateForgets
  intro s as a
  refine ⟨fun c => ⟨cacheLines_setLines_filter s c _, fun c' hne => cacheLines_setLines_of_ne s c c' _ hne,
      ?_, onlyCache_setLines s c _⟩,
    dataByte_invalidateLines_dc s as a, fun hco => belowByte_of_incoherent hco a,
    lowerByte_invalidateLines_of_ne s (by decide) as a, fetchByte_invalidateLines_ic s as a,
    lowerByte_invalidateLines_l2 s as a, fun c => ⟨rfl, onlyCacheAndBelow_cacheOp .cleanInvalidate s c as⟩,
    fun h => ⟨fun c => ⟨h.cacheOp .cleanInvalidate c as, cacheLines_cleanInvalidate h c as,
      sameButLines_cacheOp .cleanInvalidate s c as⟩, ⟨?_, ?_, ?_, ?_⟩,
      lowerByte_cleanInvalidate_l2 h as a, dataByte_cleanInvalidate_l2 h as a⟩⟩
  · cases c <;> rfl
  · intro hd
    have hdc := (lowerByte_cleanLines h as a).2.trans (if_pos hd)
    obtain ⟨ln, hl, hsel, _, e⟩ := hd
    refine ⟨(lowerByte_cleanInvalidate_dc as a).trans hdc, ?_⟩
    rw [dataByte_cleanInvalidate_dc h, hdc, peerByte_getD_dataByte h hl e, ite_self]
  · intro hd
    have hdc := (lowerByte_cleanLines h as a).2.trans (if_neg hd)
    refine ⟨(lowerByte_cleanInvalidate_dc as a).trans hdc, ?_⟩
    rw [dataByte_cleanInvalidate_dc h, hdc, belowByte_eq]
  · intro hd
    obtain ⟨_, hmem⟩ := memRead_cleanLines_l2 h as a
    exact (memRead_cleanInvalidate_l2 s as a).trans (hmem.trans (if_pos hd))
  · intro hd
    obtain ⟨_, hmem⟩ := memRead_cleanLines_l2 h as a
    exact (memRead_cleanInvalidate_l2 s as a).trans (hmem.trans (if_neg hd))

end Sys2Proof
end

section
/-! SUPPORT. What the data accesses of all harts have in common with `DCACHE_COHERENT` (20 R100), and what agents
leave of the executing hart (20 R94, R99; 41 R211). -/

namespace Sys2Proof

open Machine

/-! ## Copies in the D-caches -/

/-- A line of some hart's D-cache that says what byte `a` is. -/
def CopyOf (s : State) (a : Nat) (ln : Line) : Prop :=
  s.cfg.hasDCache = true ∧ ∃ q ∈ harts s, ln ∈ q.dc ∧ ln.addr = lineAddr s.cfg.dcGeom a

/-- The copies are the same whichever hart is looked from. -/
theorem copyOf_switchTo (k : Nat) (s : State) (a : Nat) (ln : Line) :
    CopyOf (switchTo k s) a ln ↔ CopyOf s a ln := by
  simp only [CopyOf, switchTo_cfg, mem_harts_switchTo]

theorem copyOf_heldLine {s : State} {a : Nat} {ln : Line} (h : heldLine s .dc a = some ln) : CopyOf s a ln := by
  obtain ⟨hm, e⟩ := heldLine_mem h
  cases hdc : s.cfg.hasDCache with
  | false => simp [cacheLines, cachePresent, hdc] at hm
  | true =>
    have hown : ln ∈ s.dc := by simpa [cacheLines, cachePresent, hdc, storedLines] using hm
    exact ⟨hdc, s.toHart, List.mem_cons_self, hown, e⟩

theorem copyOf_peerLine {s : State} {a : Nat} {ln : Line} (h : peerLine s a = some ln) : CopyOf s a ln := by
  obtain ⟨q, hq, hl, e⟩ := peerLine_mem h
  have hdc : s.cfg.hasDCache = true := by
    unfold peerLine at h
    split at h
    · next hc => exact (Bool.and_eq_true_iff.1 hc).2
    · cases h
  exact ⟨hdc, q, List.mem_cons_of_mem _ hq, hl, e⟩

/-- With `DCACHE_COHERENT` a copy is found if there is one. -/
theorem not_copyOf {s : State} (hco : s.cfg.dcacheCoherent = true) {a : Nat} (hheld : heldLine s .dc a = none)
    (hpeer : peerLine s a = none) (ln : Line) : ¬ CopyOf s a ln := by
  rintro ⟨hdc, q, hq, hl, e⟩
  rcases List.mem_cons.1 hq with rfl | hq
  · exact heldLine_eq_none hheld ln (by simpa [cacheLines, cachePresent, hdc, storedLines] using hl) e
  · exact peerLine_none hpeer hco hdc q hq ln hl e

/-- Two copies of a byte agree. -/
theorem lineByte_of_copies {s : State} (h : StorageInv s) (hco : s.cfg.dcacheCoherent = true) {a : Nat}
    {ln ln' : Line} (hl : CopyOf s a ln) (hl' : CopyOf s a ln') :
    lineByte s.cfg.dcGeom ln a = lineByte s.cfg.dcGeom ln' a := by
  obtain ⟨hdc, q, hq, hm, e⟩ := hl
  obtain ⟨_, q', hq', hm', e'⟩ := hl'
  unfold lineByte
  rw [h.copies_agree hco hdc q hq q' hq' ln hm ln' hm' (e.trans e'.symm)]

/-- With `DCACHE_COHERENT` a data access reads a copy, whichever hart's, and else below the D-caches. -/
theorem dataByte_coherent {s : State} (h : StorageInv s) (hco : s.cfg.dcacheCoherent = true) (a : Nat) :
    (∀ ln, CopyOf s a ln → dataByte s a = lineByte s.cfg.dcGeom ln a) ∧
      ((∀ ln, ¬ CopyOf s a ln) → dataByte s a = lowerByte s a) := by
  unfold dataByte belowByte
  cases hheld : heldLine s .dc a with
  | some m =>
    have hm := copyOf_heldLine hheld
    exact ⟨fun ln hl => lineByte_of_copies h hco hm hl, fun hno => absurd hm (hno m)⟩
  | none =>
    cases hpeer : peerLine s a with
    | some m =>
      have hm := copyOf_peerLine hpeer
      exact ⟨fun ln hl => lineByte_of_copies h hco hm hl, fun hno => absurd hm (hno m)⟩
    | none => exact ⟨fun ln hl => absurd hl (not_copyOf hco hheld hpeer ln), fun _ => rfl⟩

/-- Settles O18: from either hart the copies are the same, and so is what lies below. -/
theorem coherentCachesAgree : Obligations.CoherentCachesAgree := by
  unfold Obligations.CoherentCachesAgree
  intro s k a h hco
  obtain ⟨copy, below⟩ := dataByte_coherent h hco a
  obtain ⟨copy', below'⟩ := dataByte_coherent (h.switchTo k) (by rwa [switchTo_cfg]) a
  simp only [copyOf_switchTo, switchTo_cfg, lowerByte_switchTo] at copy' below'
  by_cases hex : ∃ ln, CopyOf s a ln
  · obtain ⟨ln, hl⟩ := hex
    rw [copy ln hl, copy' ln hl]
  · rw [below (not_exists.1 hex), below' (not_exists.1 hex)]

/-! ## Agents -/

/-- A fill, writeback or evict of this hart's caches changes nothing that its data accesses read, if a clean line of
its D-cache says what lies below. -/
theorem dataByte_applyAct_lines {s : State} (h : StorageInv s) (c : CacheId) (pa way a : Nat)
    (hclean : ∀ ln ∈ cacheLines s .dc, lineAddr s.cfg.dcGeom a = ln.addr → ln.dirty = false →
      lineByte s.cfg.dcGeom ln a = belowByte s a) :
    ∀ act ∈ [AgentAct.fill c pa way, .writeback c pa, .evict c pa], dataByte (applyAct s act) a = dataByte s a := by
  simp only [List.forall_mem_cons, List.not_mem_nil, false_implies, implies_true, and_true]
  refine ⟨dataByte_fill h c pa way a hclean, ?_, dataByte_evict h c _ a hclean⟩
  obtain ⟨_, _, _, hdata, _⟩ := writeback_spec s c (lineAddr (cacheGeom s.cfg c) pa) h.toLevelsInv
  exact hdata a

theorem tlbHit_iff (c : Config) (va asid : Word) (e : MapEntry) :
    tlbHit c va asid e = true ↔ (va = 0 ∨ e.vpn = va.toNat / 2 ^ c.pageBits) ∧
      (asid = 0 ∨ e.asid.toNat % 2 ^ c.asidBits = asid.toNat % 2 ^ c.asidBits) := by
  simp [tlbHit, vpnOf]

/-- What is left of a TLB after an invalidation (41 R212). -/
theorem mem_tlbWithout (c : Config) (va asid : Word) (t : List MapEntry) (e : MapEntry) :
    e ∈ tlbWithout c va asid t ↔ e ∈ t ∧ ¬((va = 0 ∨ e.vpn = va.toNat / 2 ^ c.pageBits) ∧
      (asid = 0 ∨ e.asid.toNat % 2 ^ c.asidBits = asid.toNat % 2 ^ c.asidBits)) := by
  rw [← tlbHit_iff, tlbWithout, List.mem_filter, Bool.not_eq_true', Bool.not_eq_true]

/-- A broadcast delivered: performed on this hart, and no longer on its way. -/
theorem deliver_eq (s : State) (j : Nat) (h : j < s.pending.length) :
    deliver s j = { s with
      toHart := { performBroadcast s.cfg s.toHart s.pending[j].op with pending := s.pending.eraseIdx j } } := by
  unfold deliver
  rw [List.getElem?_eq_getElem h]

/-- What a broadcast does to the hart it reaches, by its kind (41 R211, R212). -/
theorem deliver_spec (s : State) (j : Nat) (h : j < s.pending.length) :
    { deliver s j with pending := s.pending, ic := s.ic, tlb := s.tlb } = s ∧
    (deliver s j).pending = s.pending.eraseIdx j ∧
    (s.pending[j].op = .invalidateICache → (deliver s j).ic = [] ∧ (deliver s j).tlb = s.tlb) ∧
    (∀ va asid, s.pending[j].op = .invalidateTlb va asid →
      (deliver s j).ic = s.ic ∧ (deliver s j).tlb = tlbWithout s.cfg va asid s.tlb) := by
  rw [deliver_eq s j h]
  cases s.pending[j].op with
  | invalidateICache => exact ⟨rfl, rfl, fun _ => ⟨rfl, rfl⟩, nofun⟩
  | invalidateTlb va asid =>
    refine ⟨rfl, rfl, nofun, fun va' asid' e => ?_⟩
    cases e
    exact ⟨rfl, rfl⟩

/-- Two harts change places, and nothing else changes (60 R484). -/
theorem switchTo_spec (k : Nat) (s : State) (h : k < s.others.length) :
    { switchTo k s with toHart := s.toHart, others := s.others } = s ∧
      (switchTo k s).toHart = s.others[k] ∧ (switchTo k s).others = s.others.set k s.toHart := by
  unfold switchTo
  rw [List.getElem?_eq_getElem h]
  exact ⟨rfl, rfl, rfl⟩

/-- Settles O7. -/
theorem agentsLeaveTheHart : Obligations.AgentsLeaveTheHart := by
  unfold Obligations.AgentsLeaveTheHart
  intro s
  refine ⟨agentsOnly_applyActs _ _, fun h c pa way a hclean => dataByte_applyAct_lines h c pa way a hclean,
    fun j hj => ?_, fun k hk => switchTo_spec k s hk⟩
  obtain ⟨hrest, hpending, hicache, htlb⟩ := deliver_spec s j hj
  refine ⟨hrest, hpending, hicache, fun va asid hop => ?_⟩
  obtain ⟨hic, hleft⟩ := htlb va asid hop
  refine ⟨hic, fun e => ?_⟩
  show e ∈ (deliver s j).tlb ↔ _
  rw [hleft, mem_tlbWithout]

end Sys2Proof
end

section
/-! SUPPORT. The effective addresses (20 R82), and what a step fetches and runs (20 R85, R103; 30 R121). -/

namespace Sys2Proof

open Machine

/-! ## Addresses -/

theorem indexedAddr_toNat (s : State) (k : Index) (rs1 rs2 : Reg) (imm2 : BitVec 2) :
    (indexedAddr s k rs1 rs2 imm2).toNat =
      ((readX s rs1).toNat + (indexValue s k rs2).toNat * 2 ^ imm2.toNat) % 2 ^ xlenBits s.cfg := by
  rw [indexedAddr, truncX_toNat, BitVec.toNat_add, BitVec.toNat_shiftLeft, Nat.shiftLeft_eq, Nat.add_mod_mod,
    truncX_add_mod]

theorem indexValue_low32_toNat (s : State) (rs2 : Reg) :
    (indexValue s .low32 rs2).toNat = (readX s rs2).toNat % 2 ^ 32 := by
  simp only [indexValue, BitVec.toNat_setWidth]
  omega

theorem pairAddr_toNat (s : State) (n : Nat) (rs1 : Reg) (imm2 : BitVec 2) :
    (pairAddr s n rs1 imm2).toNat = ((readX s rs1).toNat + imm2.toNat * (2 * n)) % 2 ^ xlenBits s.cfg := by
  rw [pairAddr, truncX_toNat, BitVec.toNat_add, BitVec.toNat_ofNat, Nat.add_mod_mod, truncX_add_mod,
    Nat.mul_comm (2 * n)]

theorem pairAddr2_toNat (s : State) (n : Nat) (rs1 : Reg) (imm2 : BitVec 2) :
    (pairAddr2 s n rs1 imm2).toNat =
      ((readX s rs1).toNat + imm2.toNat * (2 * n) + n) % 2 ^ xlenBits s.cfg := by
  rw [pairAddr2, truncX_toNat, BitVec.toNat_add, BitVec.toNat_ofNat, Nat.add_mod_mod, truncX_add_mod,
    pairAddr_toNat, Nat.mod_add_mod]

/-- The slots lie below the frame's top: a difference, which wraps as well. -/
theorem slotAddr_toNat (s : State) (top : Word) (k : Nat) :
    ((slotAddr s top k).toNat : Int) = ((top.toNat : Int) - 4 - 4 * k) % 2 ^ xlenBits s.cfg := by
  rw [slotAddr, truncX_toNat, BitVec.toNat_sub, BitVec.toNat_ofNat]
  rcases xlenBits_cases s.cfg with h | h <;> rw [h] <;> push_cast <;> omega

/-- Settles O32. -/
theorem addressArithmetic : Obligations.AddressArithmetic := by
  unfold Obligations.AddressArithmetic
  intro s rs1 rs2 imm5 imm2 n k top
  refine ⟨rfl, newBase_spec s rs1 imm5 imm2, indexedAddr_toNat s .whole rs1 rs2 imm2, ?_,
    pairAddr_toNat s n rs1 imm2, pairAddr2_toNat s n rs1 imm2, slotAddr_toNat s top k⟩
  rw [indexedAddr_toNat, indexValue_low32_toNat]

/-! ## The fetch -/

theorem runWord_of_decode {w : InsnWord} {i : Instr} (h : decodeWord w = .ok i) (s : State) :
    runWord w s = exec i s := by
  unfold runWord
  rw [h]

/-- A step with no interrupt to take runs the instruction at `pc`. -/
theorem step_eq_runNext {s : State} (hcfg : configWf s.cfg = true) (hirq : takenInterrupt s = none) :
    step s = runNext (background s) := by
  unfold step
  rw [if_pos hcfg, hirq]

theorem fetchParcel_of_maps {s : State} {access va : Word} {pa : Nat}
    (ht : translate s s.priv .fetch va = some pa) (ha : accessible s.cfg pa 2 .fetch = true) :
    fetchParcel s access va = .ok (fetchByte s (pa + 1) ++ fetchByte s pa) := by
  simp only [fetchParcel, resolve, ht, ha, if_true]

/-- The low two bits of a half are those of its first byte (30 R121). -/
theorem parcel_is_long_iff (hi lo : Byte) : (hi ++ lo).extractLsb' 0 2 = 0b11#2 ↔ lo.toNat % 4 = 3 := by
  have hlow : (hi ++ lo).toNat = hi.toNat * 256 + lo.toNat := by
    rw [BitVec.toNat_append, ← Nat.shiftLeft_add_eq_or_of_lt lo.isLt, Nat.shiftLeft_eq]
  rw [← BitVec.toNat_inj, BitVec.extractLsb'_toNat, hlow, Nat.shiftRight_zero]
  simp only [BitVec.toNat_ofNat]
  omega

theorem append_halves (a b c d : Byte) : (a ++ b) ++ (c ++ d) = a ++ b ++ c ++ d :=
  (BitVec.append_assoc (x₁ := a ++ b) (x₂ := c) (x₃ := d)).symm

section

variable {s : State} {va : Word} {b0 b1 b2 b3 : Byte}

theorem readInsn_of_long (hlo : fetchParcel s va va = .ok (b1 ++ b0)) (hlong : b0.toNat % 4 = 3)
    (hhi : fetchParcel s va (byteVa s va 2) = .ok (b3 ++ b2)) : readInsn s va = .word (b3 ++ b2 ++ b1 ++ b0) := by
  unfold readInsn
  rw [hlo]
  dsimp only
  rw [if_pos ((parcel_is_long_iff b1 b0).2 hlong), hhi, ← append_halves]

theorem readInsn_of_short (hlo : fetchParcel s va va = .ok (b1 ++ b0)) (hshort : b0.toNat % 4 ≠ 3) :
    readInsn s va = .short (b1 ++ b0) := by
  unfold readInsn
  rw [hlo]
  dsimp only
  rw [if_neg (mt (parcel_is_long_iff b1 b0).1 hshort)]

/-- A word fetched ahead runs in place of the storage's, and its entry is used up (20 R103). -/
theorem runNext_of_fetchedAhead {w : InsnWord} (hpc : s.pc.toNat % pcAlign s.cfg = 0)
    (h : fetchedAhead s s.pc = some w) : runNext s = runWord w (retire s s.pc) := by
  unfold runNext fetch
  rw [if_neg (not_not.2 hpc), h]

theorem runNext_of_word {w : InsnWord} (hpc : s.pc.toNat % pcAlign s.cfg = 0)
    (hahead : fetchedAhead s s.pc = none) (h : readInsn s s.pc = .word w) : runNext s = runWord w s := by
  unfold runNext fetch
  rw [if_neg (not_not.2 hpc), hahead]
  dsimp only
  rw [h]

theorem runNext_of_short {p : BitVec 16} (hpc : s.pc.toNat % pcAlign s.cfg = 0)
    (hahead : fetchedAhead s s.pc = none) (h : readInsn s s.pc = .short p) :
    runNext s = .refused .baseInstruction := by
  unfold runNext fetch
  rw [if_neg (not_not.2 hpc), hahead]
  dsimp only
  rw [h]

end

/-- Settles O5. -/
theorem stepRunsDecoded : Obligations.StepRunsDecoded := by
  unfold Obligations.StepRunsDecoded
  rintro s b w rfl hcfg hirq hpc
  rw [step_eq_runNext hcfg hirq]
  refine ⟨fun i u hi => runWord_of_decode hi u, fun pa hahead ht ha => ?_, runNext_of_fetchedAhead hpc⟩
  have hlo := fetchParcel_of_maps (access := (background s).pc) ht ha
  refine ⟨fun hlong pa' ht' ha' hw => ?_, fun hshort => runNext_of_short hpc hahead (readInsn_of_short hlo hshort)⟩
  rw [hw]
  exact runNext_of_word hpc hahead (readInsn_of_long hlo hlong (fetchParcel_of_maps ht' ha'))

end Sys2Proof
end

section
/-! SUPPORT. The decoder and the encoder as each other's inverse (30 R120 to R148): the fields of the words the encoder
writes, a word rebuilt from its fields, and the rows of the opcode map one group after the other; then what runs of the
words that encode nothing, and of the instructions that are not available. -/

namespace Sys2Proof

open Machine

/-! ## The fields of the words the encoder writes

Formats `RS` and `V` are format `R` with a function code in two parts. -/

section

variable (f7 : BitVec 7) (f6 hi lo : BitVec 6) (f5 rs2 rs1 rd : BitVec 5) (f3 : BitVec 3) (imm2 : BitVec 2) (vm : Bool)

@[simp] theorem funct7F_wordR : funct7F (wordR f7 rs2 rs1 f3 rd) = f7 :=
  (field_high _ (0b0001011#7) 18 7).trans ((field_high _ rd 13 7).trans ((field_high _ f3 10 7).trans
    ((field_high _ rs1 5 7).trans ((field_high _ rs2 0 7).trans (field_whole _)))))

theorem fields_wordR : funct3F (wordR f7 rs2 rs1 f3 rd) = f3 ∧ rs2F (wordR f7 rs2 rs1 f3 rd) = rs2 ∧
    rs1F (wordR f7 rs2 rs1 f3 rd) = rs1 ∧ rdF (wordR f7 rs2 rs1 f3 rd) = rd :=
  ⟨funct3F_wordR .., rs2F_wordR .., rs1F_wordR .., rdF_wordR ..⟩

@[simp] theorem rdF_wordRS : rdF (wordRS f5 imm2 rs2 rs1 f3 rd) = rd := rdF_wordR (f5 ++ imm2) ..

@[simp] theorem funct3F_wordRS : funct3F (wordRS f5 imm2 rs2 rs1 f3 rd) = f3 := funct3F_wordR (f5 ++ imm2) ..

@[simp] theorem rs1F_wordRS : rs1F (wordRS f5 imm2 rs2 rs1 f3 rd) = rs1 := rs1F_wordR (f5 ++ imm2) ..

@[simp] theorem rs2F_wordRS : rs2F (wordRS f5 imm2 rs2 rs1 f3 rd) = rs2 := rs2F_wordR (f5 ++ imm2) ..

@[simp] theorem imm2F_wordRS : imm2F (wordRS f5 imm2 rs2 rs1 f3 rd) = imm2 :=
  (field_high _ (0b0001011#7) 18 2).trans ((field_high _ rd 13 2).trans ((field_high _ f3 10 2).trans
    ((field_high _ rs1 5 2).trans ((field_high _ rs2 0 2).trans (field_low _ _)))))

@[simp] theorem funct5F_wordRS : funct5F (wordRS f5 imm2 rs2 rs1 f3 rd) = f5 :=
  (field_high _ (0b0001011#7) 20 5).trans ((field_high _ rd 15 5).trans ((field_high _ f3 12 5).trans
    ((field_high _ rs1 7 5).trans ((field_high _ rs2 2 5).trans ((field_high _ imm2 0 5).trans (field_whole _))))))

@[simp] theorem rdF_wordV : rdF (wordV f6 vm rs2 rs1 rd) = rd := rdF_wordR (f6 ++ BitVec.ofBool vm) ..

@[simp] theorem funct3F_wordV : funct3F (wordV f6 vm rs2 rs1 rd) = 0b110#3 :=
  funct3F_wordR (f6 ++ BitVec.ofBool vm) ..

@[simp] theorem rs1F_wordV : rs1F (wordV f6 vm rs2 rs1 rd) = rs1 := rs1F_wordR (f6 ++ BitVec.ofBool vm) ..

@[simp] theorem rs2F_wordV : rs2F (wordV f6 vm rs2 rs1 rd) = rs2 := rs2F_wordR (f6 ++ BitVec.ofBool vm) ..

@[simp] theorem vmF_wordV : vmF (wordV f6 vm rs2 rs1 rd) = vm := by
  have h : (wordV f6 vm rs2 rs1 rd).extractLsb' 25 1 = BitVec.ofBool vm :=
    (field_high _ (0b0001011#7) 18 1).trans ((field_high _ rd 13 1).trans ((field_high _ (0b110#3) 10 1).trans
      ((field_high _ rs1 5 1).trans ((field_high _ rs2 0 1).trans (field_low _ _)))))
  unfold vmF
  rw [h]
  cases vm <;> rfl

@[simp] theorem imm1F_wordV : imm1F (wordV f6 vm rs2 rs1 rd) = f6 :=
  (field_high _ (0b0001011#7) 19 6).trans ((field_high _ rd 14 6).trans ((field_high _ (0b110#3) 11 6).trans
    ((field_high _ rs1 6 6).trans ((field_high _ rs2 1 6).trans ((field_high _ (BitVec.ofBool vm) 0 6).trans
      (field_whole _))))))

@[simp] theorem rdF_wordI6 : rdF (wordI6 hi lo rs1 f3 rd) = rd :=
  (field_high _ (0b0001011#7) 0 5).trans (field_low _ _)

@[simp] theorem funct3F_wordI6 : funct3F (wordI6 hi lo rs1 f3 rd) = f3 :=
  (field_high _ (0b0001011#7) 5 3).trans ((field_high _ rd 0 3).trans (field_low _ _))

@[simp] theorem rs1F_wordI6 : rs1F (wordI6 hi lo rs1 f3 rd) = rs1 :=
  (field_high _ (0b0001011#7) 8 5).trans ((field_high _ rd 3 5).trans
    ((field_high _ f3 0 5).trans (field_low _ _)))

@[simp] theorem imm6F_wordI6 : imm6F (wordI6 hi lo rs1 f3 rd) = lo :=
  (field_high _ (0b0001011#7) 13 6).trans ((field_high _ rd 8 6).trans
    ((field_high _ f3 5 6).trans ((field_high _ rs1 0 6).trans (field_low _ _))))

@[simp] theorem imm1F_wordI6 : imm1F (wordI6 hi lo rs1 f3 rd) = hi :=
  (field_high _ (0b0001011#7) 19 6).trans ((field_high _ rd 14 6).trans ((field_high _ f3 11 6).trans
    ((field_high _ rs1 6 6).trans ((field_high _ lo 0 6).trans (field_whole _)))))

end

/-! ## Function codes that share bits -/

theorem funct5F_toNat (w : InsnWord) : (funct5F w).toNat = (funct7F w).toNat / 4 := by
  simp only [funct5F, funct7F, BitVec.extractLsb'_toNat, Nat.shiftRight_eq_div_pow]
  omega

theorem imm1F_toNat (w : InsnWord) : (imm1F w).toNat = (funct7F w).toNat / 2 := by
  simp only [imm1F, funct7F, BitVec.extractLsb'_toNat, Nat.shiftRight_eq_div_pow]
  omega

theorem msb_eq_imm1F (w : InsnWord) : w.msb = decide (32 ≤ (imm1F w).toNat) := by
  have := w.isLt
  simp only [imm1F, BitVec.msb_eq_decide, BitVec.extractLsb'_toNat, Nat.shiftRight_eq_div_pow]
  exact decide_eq_decide.2 (by omega)

theorem msb_eq_funct5F (w : InsnWord) : w.msb = decide (16 ≤ (funct5F w).toNat) := by
  have := w.isLt
  simp only [funct5F, BitVec.msb_eq_decide, BitVec.extractLsb'_toNat, Nat.shiftRight_eq_div_pow]
  exact decide_eq_decide.2 (by omega)

theorem funct7F_eq_imm2 (w : InsnWord) : funct7F w = funct5F w ++ imm2F w := by
  unfold funct7F funct5F imm2F
  rw [BitVec.extractLsb'_append_extractLsb'_eq_extractLsb' (by rfl)]

theorem funct7F_eq_vm (w : InsnWord) : funct7F w = imm1F w ++ BitVec.ofBool (vmF w) := by
  have bit (b : BitVec 1) : BitVec.ofBool (b == 1#1) = b := by revert b; decide
  rw [vmF, bit]
  unfold funct7F imm1F
  rw [BitVec.extractLsb'_append_extractLsb'_eq_extractLsb' (by rfl)]

/-! ## A word rebuilt from its fields

A word of the custom-0 opcode is the word of each format with its fields: of a field with a code, here as a number, the
code, and of a field with an operand the field itself. -/

section

variable {w : InsnWord} {f3 : BitVec 3} (hop : opcodeF w = 0b0001011#7)

include hop

/-- Adjacent fields of a word, put together from the top, are one field of it, in the end the word. -/
theorem wordR_fields : wordR (funct7F w) (rs2F w) (rs1F w) (funct3F w) (rdF w) = w := by
  unfold wordR funct7F rs2F rs1F funct3F rdF
  rw [← hop, opcodeF]
  iterate 5 rw [BitVec.extractLsb'_append_extractLsb'_eq_extractLsb' (by rfl)]
  exact field_whole w

theorem wordI6_fields : wordI6 (imm1F w) (imm6F w) (rs1F w) (funct3F w) (rdF w) = w := by
  unfold wordI6 imm1F imm6F rs1F funct3F rdF
  rw [← hop, opcodeF]
  iterate 5 rw [BitVec.extractLsb'_append_extractLsb'_eq_extractLsb' (by rfl)]
  exact field_whole w

theorem wordR_eq (h3 : funct3F w = f3) {f7 : BitVec 7} (h7 : (funct7F w).toNat = f7.toNat) {rs2 rs1 rd : BitVec 5}
    (h2 : rs2F w = rs2) (h1 : rs1F w = rs1) (hd : rdF w = rd) : wordR f7 rs2 rs1 f3 rd = w := by
  obtain rfl := BitVec.eq_of_toNat_eq h7
  subst h3 h2 h1 hd
  exact wordR_fields hop

theorem wordRS_eq (h3 : funct3F w = f3) {f5 : BitVec 5} (h5 : (funct5F w).toNat = f5.toNat) :
    wordRS f5 (imm2F w) (rs2F w) (rs1F w) f3 (rdF w) = w := by
  obtain rfl := BitVec.eq_of_toNat_eq h5
  exact wordR_eq hop h3 (congrArg BitVec.toNat (funct7F_eq_imm2 w)) rfl rfl rfl

theorem wordI6_eq (h3 : funct3F w = f3) {hi : BitVec 6} (hhi : (imm1F w).toNat = hi.toNat) :
    wordI6 hi (imm6F w) (rs1F w) f3 (rdF w) = w := by
  subst h3
  obtain rfl := BitVec.eq_of_toNat_eq hhi
  exact wordI6_fields hop

theorem wordV_eq (h3 : funct3F w = 0b110#3) {f6 : BitVec 6} (h6 : (imm1F w).toNat = f6.toNat) :
    wordV f6 (vmF w) (rs2F w) (rs1F w) (rdF w) = w := by
  obtain rfl := BitVec.eq_of_toNat_eq h6
  exact wordR_eq hop h3 (congrArg BitVec.toNat (funct7F_eq_vm w)) rfl rfl rfl

end

/-! ## What a row decodes to encodes to its word -/

section

variable {w : InsnWord} {i : Instr} (hop : opcodeF w = 0b0001011#7)

include hop

theorem encode_of_decodeZ (h3 : funct3F w = 0b000#3) (h7 : (funct7F w).toNat = 0b0000000)
    (h1 : rs1F w = 0#5) (hd : rdF w = 0#5) (h : decodeZ w = some i) : encode i = w := by
  unfold decodeZ at h
  split at h <;> rename_i h2 <;> cases h
  all_goals exact wordR_eq hop h3 (by exact h7) (BitVec.eq_of_toNat_eq (by exact h2)) h1 hd

theorem encode_of_decodeA (h3 : funct3F w = 0b000#3) (h7 : (funct7F w).toNat = 0b0000001)
    (hd : rdF w = 0#5) (h : decodeA w = some i) : encode i = w := by
  unfold decodeA at h
  split at h <;> rename_i h2 <;> cases h
  all_goals exact wordR_eq hop h3 (by exact h7) (BitVec.eq_of_toNat_eq (by exact h2)) rfl hd

theorem encode_of_decodeMisc (h3 : funct3F w = 0b000#3) (h : decodeMisc w = some i) : encode i = w := by
  unfold decodeMisc at h
  split at h <;> rename_i h7
  · obtain ⟨⟨h1, hd⟩, h⟩ := Option.ite_none_right_eq_some.1 h
    exact encode_of_decodeZ hop h3 h7 h1 hd h
  · obtain ⟨hd, h⟩ := Option.ite_none_right_eq_some.1 h
    exact encode_of_decodeA hop h3 h7 hd h
  · obtain ⟨hd, h⟩ := Option.ite_none_right_eq_some.1 h
    cases h
    exact wordR_eq hop h3 (by exact h7) rfl rfl hd
  · cases h

theorem encode_of_decodeLoad (h3 : funct3F w = 0b100#3) (h : decodeLoad w = some i) : encode i = w := by
  unfold decodeLoad at h
  split at h <;> rename_i h5 <;> cases h
  all_goals exact wordRS_eq hop h3 (by exact h5)

theorem encode_of_decodeStore (h3 : funct3F w = 0b101#3) (h : decodeStore w = some i) : encode i = w := by
  unfold decodeStore at h
  split at h <;> rename_i h5 <;> cases h
  all_goals exact wordRS_eq hop h3 (by exact h5)

theorem encode_of_decodeFload (h3 : funct3F w = 0b110#3) (h : decodeFload w = some i) : encode i = w := by
  unfold decodeFload at h
  split at h <;> rename_i h5 <;> cases h
  all_goals exact wordRS_eq hop h3 (by exact h5)

theorem encode_of_decodeVdot (h3 : funct3F w = 0b110#3) (h : decodeVdot w = some i) : encode i = w := by
  unfold decodeVdot at h
  split at h <;> rename_i h6 <;> cases h
  all_goals exact wordV_eq hop h3 (by exact h6)

theorem encode_of_decodeFstore (h3 : funct3F w = 0b111#3) (h : decodeFstore w = some i) : encode i = w := by
  unfold decodeFstore at h
  split at h <;> rename_i h5 <;> cases h
  all_goals exact wordRS_eq hop h3 (by exact h5)

theorem encode_of_decodeArith (h3 : funct3F w = 0b001#3) (h : decodeArith w = some i) : encode i = w := by
  unfold decodeArith at h
  split at h <;> rename_i h7
  -- `th.addsl`, its immediate in the low two bits of the seven
  case h_1 | h_2 | h_3 | h_4 =>
    cases h
    exact wordRS_eq hop h3 (by rw [funct5F_toNat, h7]; rfl)
  -- `th.srri` and `th.tst`, a bit of the immediate below the six of the code
  case h_5 | h_6 | h_20 | h_21 =>
    cases h
    exact wordI6_eq hop h3 (by rw [imm1F_toNat, h7]; rfl)
  -- the unary rows
  case h_16 | h_17 | h_18 | h_19 | h_22 | h_23 | h_24 =>
    obtain ⟨h2, h⟩ := Option.ite_none_right_eq_some.1 h
    cases h
    exact wordR_eq hop h3 (by exact h7) h2 rfl rfl
  all_goals cases h
  all_goals exact wordR_eq hop h3 (by exact h7) rfl rfl rfl

/-- Whatever row a word of the opcode is of, it is the word of what the row stands for. -/
theorem encode_of_decodeCustom0 (h : decodeCustom0 w = some i) : encode i = w := by
  unfold decodeCustom0 at h
  split at h
  case h_1 h3 => exact encode_of_decodeMisc hop (BitVec.eq_of_toNat_eq h3) h
  case h_2 h3 => exact encode_of_decodeArith hop (BitVec.eq_of_toNat_eq h3) h
  case h_3 h3 | h_4 h3 =>
    cases h
    exact wordI6_eq hop (BitVec.eq_of_toNat_eq (by exact h3)) (by rfl)
  case h_5 h3 => exact encode_of_decodeLoad hop (BitVec.eq_of_toNat_eq h3) h
  case h_6 h3 => exact encode_of_decodeStore hop (BitVec.eq_of_toNat_eq h3) h
  case h_7 h3 =>
    split at h
    · exact encode_of_decodeVdot hop (BitVec.eq_of_toNat_eq h3) h
    · exact encode_of_decodeFload hop (BitVec.eq_of_toNat_eq h3) h
  case h_8 =>
    have h3 : (funct3F w).toNat = 7 := by
      have := (funct3F w).isLt
      simp only [imp_false] at *
      omega
    exact encode_of_decodeFstore hop (BitVec.eq_of_toNat_eq h3) h

end

theorem decodeWord_eq_ok_iff {w : InsnWord} {i : Instr} :
    decodeWord w = .ok i ↔ opcodeF w = 0b0001011#7 ∧ decodeCustom0 w = some i := by
  unfold decodeWord
  split
  · cases decodeCustom0 w <;> simp [*]
  · simp [*]

/-- Settles O2. -/
theorem encodeOfDecode : Obligations.EncodeOfDecode := by
  unfold Obligations.EncodeOfDecode
  intro w i h
  obtain ⟨hop, hrow⟩ := decodeWord_eq_ok_iff.1 h
  exact encode_of_decodeCustom0 hop hrow

/-! ## An instruction's word decodes to it -/

theorem opcodeF_encode (i : Instr) : opcodeF (encode i) = 0b0001011#7 := by
  cases i <;> exact field_low _ _

/-- `th.addsl` by its five-bit code. -/
theorem decodeArith_addsl {w : InsnWord} (h : (funct5F w).toNat = 0b00000) :
    decodeArith w = some (.addsl (rdF w) (rs1F w) (rs2F w) (imm2F w)) := by
  rw [funct5F_toNat] at h
  obtain h7 | h7 | h7 | h7 : (funct7F w).toNat = 0 ∨ (funct7F w).toNat = 1 ∨ (funct7F w).toNat = 2 ∨
    (funct7F w).toNat = 3 := by omega
  all_goals
    rw [decodeArith, h7]
    rfl

/-- `th.srri` by its six-bit code. -/
theorem decodeArith_srri {w : InsnWord} (h : (imm1F w).toNat = 0b000100) :
    decodeArith w = some (.srri (rdF w) (rs1F w) (imm6F w)) := by
  rw [imm1F_toNat] at h
  obtain h7 | h7 : (funct7F w).toNat = 8 ∨ (funct7F w).toNat = 9 := by omega
  all_goals
    rw [decodeArith, h7]
    rfl

/-- `th.tst` by its six-bit code. -/
theorem decodeArith_tst {w : InsnWord} (h : (imm1F w).toNat = 0b100010) :
    decodeArith w = some (.tst (rdF w) (rs1F w) (imm6F w)) := by
  rw [imm1F_toNat] at h
  obtain h7 | h7 : (funct7F w).toNat = 68 ∨ (funct7F w).toNat = 69 := by omega
  all_goals
    rw [decodeArith, h7]
    rfl

/-- The codes of its row select the row, whose fields are the operands. -/
theorem decodeCustom0_encode (i : Instr) : decodeCustom0 (encode i) = some i := by
  cases i with
  | dcacheCall | dcacheCiall | dcacheIall | icacheIall | icacheIalls | l2cacheCall | l2cacheCiall | l2cacheIall | sync
  | syncS | syncI | syncIs | ipush | ipop =>
    simp [encode, decodeCustom0, decodeMisc, decodeZ, fields_wordR]
  | dcacheCpa | dcacheCipa | dcacheIpa | dcacheCva | dcacheCiva | dcacheIva | dcacheCsw | dcacheCisw | dcacheIsw
  | dcacheCpal1 | dcacheCval1 | icacheIpa | icacheIva =>
    simp [encode, decodeCustom0, decodeMisc, decodeA, fields_wordR]
  | sfenceVmas =>
    simp [encode, decodeCustom0, decodeMisc, fields_wordR]
  | addsl => simp [encode, decodeCustom0, decodeArith_addsl]
  | srri => simp [encode, decodeCustom0, decodeArith_srri]
  | tst => simp [encode, decodeCustom0, decodeArith_tst]
  | srriw | ff0 | ff1 | rev | revw | tstnbz | mveqz | mvnez | mula | mulah | mulaw | muls | mulsh | mulsw | fmvXHw
  | fmvHwX =>
    simp [encode, decodeCustom0, decodeArith, fields_wordR]
  | ext | extu => simp [encode, decodeCustom0]
  | lbia | lbib | lbuia | lbuib | lhia | lhib | lhuia | lhuib | lwia | lwib | lwuia | lwuib | ldia | ldib
  | lrb | lrbu | lrh | lrhu | lrw | lrwu | lrd | lurb | lurbu | lurh | lurhu | lurw | lurwu | lurd
  | ldd | lwd | lwud =>
    simp [encode, decodeCustom0, decodeLoad]
  | sbia | sbib | shia | shib | swia | swib | sdia | sdib | srb | srh | srw | srd | surb | surh | surw | surd
  | sdd | swd =>
    simp [encode, decodeCustom0, decodeStore]
  | flrd | flrw | flurd | flurw => simp [encode, decodeCustom0, decodeFload, msb_eq_funct5F]
  | vmaqaVv | vmaqaVx | vmaqauVv | vmaqauVx | vmaqasuVv | vmaqasuVx | vmaqausVx =>
    simp [encode, decodeCustom0, decodeVdot, msb_eq_imm1F]
  | fsrd | fsrw | fsurd | fsurw => simp [encode, decodeCustom0, decodeFstore]

/-- Settles O1. -/
theorem decodeOfEncode : Obligations.DecodeOfEncode := by
  unfold Obligations.DecodeOfEncode
  intro i rest
  have hword : decodeWord (encode i) = .ok i := decodeWord_eq_ok_iff.2 ⟨opcodeF_encode i, decodeCustom0_encode i⟩
  rw [encodeBytes, decode_bytesOfWord, hword]
  rfl

/-! ## Words that encode nothing -/

/-- Settles O4: such a word does not decode, or it would be the encoding of what it decodes to. -/
theorem unlistedWordsAreIllegal : Obligations.UnlistedWordsAreIllegal := by
  unfold Obligations.UnlistedWordsAreIllegal
  intro w s hnone
  refine ⟨fun hop => ?_, fun hop => ?_⟩
  · have hrow : decodeCustom0 w = none :=
      Option.eq_none_iff_forall_ne_some.2 fun i h => hnone i (encode_of_decodeCustom0 hop h)
    have hword : decodeWord w = .error (.unlisted w) := by rw [decodeWord, if_pos hop, hrow]
    rw [runWord, hword, illegalWord]
  · have hword : decodeWord w = .error (.notCustom0 w) := if_neg hop
    rw [runWord, hword]

/-! ## Instructions that are not available -/

section

variable {i : Instr} {s : State}

/-- Without `i` being available the outcome is the illegal-instruction exception. -/
def IllegalUnlessAvailable (i : Instr) (s : State) (r : Result) : Prop :=
  available s i = false → r = .next (illegal s i)

theorem illegalUnless_available (run : Result) : IllegalUnlessAvailable i s (requireLegal s i (available s i) run) :=
  fun h => by rw [h, requireLegal_false]

/-- An instruction that asks for more than being available. -/
theorem illegalUnless_available_and (ok : Bool) (run : Result) :
    IllegalUnlessAvailable i s (requireLegal s i (available s i && ok) run) :=
  fun h => by rw [h, Bool.false_and, requireLegal_false]

end

theorem exec_illegalUnlessAvailable (i : Instr) (s : State) : IllegalUnlessAvailable i s (exec i s) := by
  cases i with
  | dcacheCall | dcacheCiall | dcacheIall | dcacheCpa | dcacheCipa | dcacheIpa | dcacheCva | dcacheCiva | dcacheIva
  | dcacheCsw | dcacheCisw | dcacheIsw | dcacheCpal1 | dcacheCval1 | icacheIall | icacheIalls | icacheIpa | icacheIva
  | l2cacheCall | l2cacheCiall | l2cacheIall | sfenceVmas | flrd | flrw | flurd | flurw | fsrd | fsrw | fsurd | fsurw
  | fmvXHw | fmvHwX | ipush | ipop
  | vmaqaVv | vmaqaVx | vmaqauVv | vmaqauVx | vmaqasuVv | vmaqasuVx | vmaqausVx =>
    exact illegalUnless_available_and _ _
  | _ => exact illegalUnless_available _

/-- An instruction that is not available raises the illegal-instruction exception and does nothing else. -/
theorem exec_of_unavailable {i : Instr} {s : State} (h : available s i = false) :
    exec i s = .next (trap s 2 false (illegalInfo s.cfg (encode i))) := exec_illegalUnlessAvailable i s h

theorem exec_of_all_unavailable {l : List Instr} {s : State} (h : l.Forall fun i => available s i = false) :
    ∀ i ∈ l, exec i s = .next (trap s 2 false (illegalInfo s.cfg (encode i))) :=
  fun i hi => exec_of_unavailable (List.forall_iff_forall_mem.1 h i hi)

/-- Every instruction is one of an extension, and needs it enabled. -/
theorem unavailable_of_disabled {s : State} (hoff : ∀ e, enabled s e = false) (i : Instr) :
    available s i = false := by
  cases i <;> simp [available, hoff]

theorem enabled_of_gate_closed {s : State} (hg : s.cfg.theadisaeeGated = true) (ho : s.mxstatus.theadisaee = false)
    (e : Ext) : enabled s e = false := by simp [enabled, hg, ho]

/-- Settles O11. -/
theorem unavailableIsIllegal : Obligations.UnavailableIsIllegal := by
  unfold Obligations.UnavailableIsIllegal
  intro s isIllegal
  refine ⟨fun i => exec_of_unavailable, fun hg ho i =>
    exec_of_unavailable (unavailable_of_disabled (enabled_of_gate_closed hg ho) i), fun a b c k m => ?_⟩
  refine ⟨fun hx => exec_of_all_unavailable ?_, fun hx hm => exec_of_unavailable ?_,
    fun hx hu => exec_of_all_unavailable ?_, fun hx => exec_of_all_unavailable ?_,
    fun hd => exec_of_all_unavailable ?_, fun hf => exec_of_all_unavailable ?_⟩
  · have off (b : Bool) : (b && isRv64 s.cfg) = false := by rw [isRv64, hx]; exact Bool.and_false b
    repeat' constructor
    all_goals exact off _
  · simp [available, isRv64, hx, hm]
  · simp [available, isRv64, hx, hu]
  · simp [available, isRv64, hx]
  · simp [available, hd]
  · simp [available, hf]

end Sys2Proof
end

section
/-! SUPPORT. The cache instructions (40 R170 to R174): permission, hardware and operation of all 21 in one shape; the
line of an address and the line at a set and way; and what is illegal for want of a privilege level or of the
floating-point unit. -/

namespace Sys2Proof

open Machine

/-! ## Permission and hardware -/

section

variable {i : Instr} {s : State}

/-- An instruction that asks for `ok` beside being available is illegal without it. -/
theorem exec_of_forbidden {ok : Bool} {run : Result} (hok : ok = false)
    (hi : exec i s = requireLegal s i (available s i && ok) run) : exec i s = .next (illegal s i) := by
  rw [hi, hok, Bool.and_false, requireLegal_false]

/-- A cache instruction that is available and permitted: its work, or no more than `pc + 4` without its hardware. -/
theorem exec_of_cmo {permitted hardware : Bool} {run : Result} (ha : available s i = true) (hp : permitted = true)
    (hi : exec i s = execCmo i permitted hardware s run) :
    exec i s = if hardware then run else .next (advance s) := by
  rw [hi, execCmo, ha, hp, Bool.and_self, requireLegal_true]

theorem exec_of_hardware {permitted hardware : Bool} {run : Result} (ha : available s i = true)
    (hp : permitted = true) (hh : hardware = true) (hi : exec i s = execCmo i permitted hardware s run) :
    exec i s = run := by
  rw [exec_of_cmo ha hp hi, if_pos hh]

/-- The outcome is that `pc` goes on to the next word and nothing else changes. -/
def OnlyAdvances (s : State) (r : Result) : Prop := ∃ t, r = .next t ∧ NextInsn s t ∧ RegistersOnly s t []

theorem onlyAdvances_advance (s : State) : OnlyAdvances s (.next (advance s)) :=
  ⟨_, rfl, nextInsn_advance s s rfl rfl, registersOnly_advance s⟩

theorem onlyAdvances_of_missing {permitted hardware : Bool} {run : Result} (ha : available s i = true)
    (hp : permitted = true) (hi : exec i s = execCmo i permitted hardware s run) (hh : hardware = false) :
    OnlyAdvances s (exec i s) := by
  rw [exec_of_cmo ha hp hi, hh]
  exact onlyAdvances_advance s

theorem aboveU_iff : aboveU s = true ↔ s.priv ≠ .u := bne_iff_ne

theorem aboveU_of_u (h : s.priv = .u) : aboveU s = false := by simp [aboveU, h]

theorem uModeOk_iff :
    uModeOk s = true ↔ (s.priv = .u → s.cfg.ucmeGated = true → s.mxstatus.ucme = true) := by
  unfold uModeOk
  cases s.priv <;> cases s.cfg.ucmeGated <;> simp

theorem uModeOk_of_closed (h : s.priv = .u) (hg : s.cfg.ucmeGated = true) (hc : s.mxstatus.ucme = false) :
    uModeOk s = false := by simp [uModeOk, h, hg, hc]

theorem fpOn_of_off (hg : s.cfg.fsGated = true) (hf : s.mstatus.fs = 0) : fpOn s = false := by
  simp [fpOn, unitOff, hg, hf]

end

/-- Settles O12: each of these instructions asks for a level or for the unit beside being available. -/
theorem notPermittedIsIllegal : Obligations.NotPermittedIsIllegal := by
  unfold Obligations.NotPermittedIsIllegal
  intro s a b c k isIllegal
  refine ⟨fun hu => ?above, fun hu hg hc => ?gate, fun hm => ?machine, fun hg hf => ?float⟩ <;>
    refine List.forall_iff_forall_mem.1 ?_
  case above =>
    repeat' apply And.intro
    all_goals exact exec_of_forbidden (aboveU_of_u hu) rfl
  case gate =>
    repeat' apply And.intro
    all_goals exact exec_of_forbidden (uModeOk_of_closed hu hg hc) rfl
  case machine =>
    have hok : (s.priv == .m) = false := beq_eq_false_iff_ne.2 hm
    repeat' apply And.intro
    all_goals exact exec_of_forbidden hok rfl
  case float =>
    repeat' apply And.intro
    all_goals exact exec_of_forbidden (fpOn_of_off hg hf) rfl

/-- Settles O52. -/
theorem cacheMissingHardware : Obligations.CacheMissingHardware := by
  unfold Obligations.CacheMissingHardware
  intro s a he onlyAdvances
  refine ⟨fun hu => ?above, fun hok => ?gate⟩ <;> refine List.forall_iff_forall_mem.1 ?_
  case above =>
    repeat' apply And.intro
    all_goals exact onlyAdvances_of_missing he (aboveU_iff.2 hu) rfl
  case gate =>
    repeat' apply And.intro
    all_goals exact onlyAdvances_of_missing he (uModeOk_iff.2 hok) rfl

/-! ## All lines of a cache -/

/-- Invalidating all lines leaves none. -/
theorem cacheLines_invalidate_allLines (s : State) (c : CacheId) :
    cacheLines (cacheOp .invalidate s c (allLines s c)) c = [] := by
  rw [cacheOp, invalidateLines, cacheLines_setLines_filter, List.filter_eq_nil_iff]
  intro ln hln
  have hmem : ln.addr ∈ allLines s c := List.mem_map_of_mem hln
  simpa using hmem

/-- Settles O53. -/
theorem cacheWholeOperations : Obligations.CacheWholeOperations := by
  unfold Obligations.CacheWholeOperations
  intro s he hu
  have habove := aboveU_iff.2 hu
  refine ⟨List.forall_iff_forall_mem.1 ?_, fun hic hmc => ?_⟩
  · repeat' apply And.intro
    all_goals exact fun hh => exec_of_hardware he habove hh rfl
  · have hh : (s.cfg.hasICache && s.cfg.multicore) = true := by rw [hic, hmc]; rfl
    exact ⟨_, exec_of_hardware he habove hh rfl, nextInsn_advance _ _ rfl rfl,
      cacheLines_invalidate_allLines (broadcast s .invalidateICache) .ic, rfl, rfl⟩

/-! ## The line of an address -/

/-- The state in which an operation on the line of an address has been applied: to that of one cache, and where the
instruction reaches `L2` and the hardware lets it to that of `L2` (20 R97, decision D34). -/
def lineOpAt (s : State) (op : CacheOp) (c : CacheId) (reaches : Bool) (pa : Nat) : State :=
  if reaches = true ∧ s.cfg.dcacheOpsReachL2 = true
    then advance (cacheOp op (cacheOp op s c (lineAt s c pa)) .l2 (lineAt s .l2 pa))
    else advance (cacheOp op s c (lineAt s c pa))

theorem lineOpAt_here (s : State) (op : CacheOp) (c : CacheId) (pa : Nat) :
    lineOpAt s op c false pa = advance (cacheOp op s c (lineAt s c pa)) := if_neg (by simp)

theorem lineOpAt_reaches (s : State) (op : CacheOp) (pa : Nat) :
    lineOpAt s op .dc true pa = advance (dcacheAtPa op s pa) := by
  unfold lineOpAt dcacheAtPa
  by_cases h : s.cfg.dcacheOpsReachL2 = true <;> simp [h]

section

variable {i : Instr} {s : State} {a : Reg} {permitted hardware : Bool} {k : Nat → Result} {result : Nat → State}

/-- A cache instruction with a physical address, `result` being what it does at one (40 R173; 93 U9). -/
theorem exec_of_pa (ha : available s i = true) (hp : permitted = true)
    (hi : exec i s = execCmo i permitted hardware s (withPa s a k)) (hk : ∀ pa, k pa = .next (result pa))
    (hh : hardware = true) :
    ((readX s a).toNat < 2 ^ s.cfg.palen → exec i s = .next (result (readX s a).toNat)) ∧
    (2 ^ s.cfg.palen ≤ (readX s a).toNat → exec i s = .refused .paTooWide) := by
  rw [exec_of_hardware ha hp hh hi, ← hk, withPa]
  exact ⟨fun hlt => if_pos hlt, fun hge => if_neg (Nat.not_lt.2 hge)⟩

/-- A cache instruction with a virtual address, `result` being what it does at its translation (40 R173, decision
D35). -/
theorem exec_of_va (ha : available s i = true) (hmmu : mmuForVa s.cfg = true)
    (hi : exec i s = execCmo i permitted (hardware && mmuForVa s.cfg) s (withVa s a k))
    (hk : ∀ pa, k pa = .next (result pa)) (hh : (hardware && permitted) = true) :
    (∀ pa, translateForCache s (readX s a) = some pa → exec i s = .next (result pa)) ∧
    (translateForCache s (readX s a) = none → exec i s = .next (advance s)) := by
  obtain ⟨hhw, hp⟩ := Bool.and_eq_true_iff.1 hh
  rw [exec_of_hardware ha hp (by rw [hhw, hmmu]; rfl) hi, withVa]
  exact ⟨fun pa hpa => by rw [hpa, ← hk], fun hnone => by rw [hnone]⟩

end

/-- Settles O54. -/
theorem cacheAddressOperations : Obligations.CacheAddressOperations := by
  unfold Obligations.CacheAddressOperations
  intro s a he lineOf result
  have both (op : CacheOp) (pa : Nat) :
      (.next (advance (dcacheAtPa op s pa)) : Result) = .next (result op .dc true pa) :=
    congrArg Host.Outcome.next (lineOpAt_reaches s op pa).symm
  have one (op : CacheOp) (c : CacheId) (pa : Nat) :
      finishCache op s c (lineAt s c pa) = .next (result op c false pa) :=
    congrArg Host.Outcome.next (lineOpAt_here s op c pa).symm
  refine ⟨fun hu => List.forall_iff_forall_mem.1 ?_, fun hmmu => List.forall_iff_forall_mem.1 ?_⟩
  · have habove := aboveU_iff.2 hu
    exact ⟨exec_of_pa he habove rfl (both .clean), exec_of_pa he habove rfl (both .cleanInvalidate),
      exec_of_pa he habove rfl (both .invalidate), exec_of_pa he habove rfl (one .clean .dc),
      exec_of_pa he habove rfl (one .invalidate .ic)⟩
  · exact ⟨exec_of_va he hmmu rfl (both .clean), exec_of_va he hmmu rfl (both .cleanInvalidate),
      exec_of_va he hmmu rfl (both .invalidate), exec_of_va he hmmu rfl (one .clean .dc),
      exec_of_va he hmmu rfl (one .invalidate .ic)⟩

/-! ## The line at a set and way -/

theorem setWayLevel_eq (v : Word) : setWayLevel v = v.toNat / 2 % 8 := by
  simp [setWayLevel, BitVec.extractLsb'_toNat, Nat.shiftRight_eq_div_pow]

theorem setWayLevel_lt (v : Word) : setWayLevel v < 8 := (v.extractLsb' 1 3).isLt

theorem setWayCache_zero {v : Word} (h : setWayLevel v = 0) : setWayCache v = some .dc := by simp [setWayCache, h]

theorem setWayCache_one {v : Word} (h : setWayLevel v = 1) : setWayCache v = some .l2 := by simp [setWayCache, h]

theorem setWayCache_none {v : Word} (h : 2 ≤ setWayLevel v) : setWayCache v = none := by
  unfold setWayCache
  split
  · omega
  · omega
  · rfl

/-- The reserved bits are zero where the operand is a way, a set and a level and nothing else (40 R172). -/
theorem setWayReservedZero_iff {g : CacheGeom} {v : Word} (hg : geomWf g = true) :
    setWayReservedZero g v = true ↔
      ∃ way set, way < 2 ^ g.w ∧ set < 2 ^ g.s ∧
        v.toNat = way * 2 ^ (32 - g.w) + set * 2 ^ g.l + setWayLevel v * 2 := by
  rw [setWayReservedZero, beq_iff_eq]
  constructor
  · intro h
    obtain ⟨hway, hset⟩ := setWay_lt g v hg
    exact ⟨_, _, hway, hset, h⟩
  · rintro ⟨way, set, hway, hset, h⟩
    obtain ⟨e1, e2, -⟩ := setWay_fields g v way set _ hg hway hset (setWayLevel_lt v) h
    rw [e1, e2]
    exact h

/-- The line held at a set and way is the one the operand selects: a place holds one line. -/
theorem lineAtSetWay_of_held {s : State} {c : CacheId} (h : CachesInv s) {ln : Line} (hln : ln ∈ cacheLines s c) :
    lineAtSetWay s c (setIndex (cacheGeom s.cfg c) ln.addr) ln.way = [ln.addr] := by
  unfold lineAtSetWay
  cases ho : occupant s c (setIndex (cacheGeom s.cfg c) ln.addr) ln.way with
  | none => exact absurd ⟨rfl, rfl⟩ (occupant_none ho ln hln)
  | some l =>
    obtain ⟨hl, hset, hway⟩ := occupant_mem ho
    rw [(h.lines c).eq_of_place hl hln hset hway]

theorem lineAtSetWay_of_empty {s : State} {c : CacheId} {set way : Nat}
    (h : ∀ ln ∈ cacheLines s c, setIndex (cacheGeom s.cfg c) ln.addr = set → ln.way ≠ way) :
    lineAtSetWay s c set way = [] := by
  unfold lineAtSetWay
  cases ho : occupant s c set way with
  | none => rfl
  | some l =>
    obtain ⟨hl, hset, hway⟩ := occupant_mem ho
    exact absurd hway (h l hl hset)

theorem setLines_storedLines (s : State) (c : CacheId) : setLines s c (storedLines s c) = s := by
  cases c <;> rfl

/-- An operation on no line changes nothing. -/
theorem cacheOp_nil (op : CacheOp) {s : State} {c : CacheId} (hc : cachePresent s.cfg c = true) :
    cacheOp op s c [] = s := by
  have hinvalidate : invalidateLines s c [] = s := by
    simp [invalidateLines, cacheLines, hc, setLines_storedLines]
  cases op
  · rfl
  · exact hinvalidate
  · exact hinvalidate

section

variable {i : Instr} {op : CacheOp} {a : Reg} {s : State} {c : CacheId} (ha : available s i = true)
  (hp : aboveU s = true) (hd : s.cfg.hasDCache = true) (hi : exec i s = execSetWay i op a s)

include ha hp hd hi

/-- A level that has no cache selects nothing, whatever other bits are set. -/
theorem exec_setWay_of_noCache (hnone : ∀ c, setWayCache (readX s a) = some c → cachePresent s.cfg c = false) :
    exec i s = .next (advance s) := by
  rw [exec_of_hardware ha hp hd hi]
  cases hc : setWayCache (readX s a) with
  | none => rfl
  | some c => simp [hnone c hc]

variable (hc : setWayCache (readX s a) = some c) (hpresent : cachePresent s.cfg c = true)

include hc hpresent

theorem exec_setWay_of_reserved (hz : setWayReservedZero (cacheGeom s.cfg c) (readX s a) = false) :
    exec i s = .refused .setWayReserved := by
  rw [exec_of_hardware ha hp hd hi, hc]
  simp [hpresent, hz]

/-- At a level with a cache the operation is applied to the line at the way and set that make up the operand with its
level. -/
theorem exec_setWay_at (hg : geomWf (cacheGeom s.cfg c) = true) {way set : Nat}
    (hway : way < 2 ^ (cacheGeom s.cfg c).w) (hset : set < 2 ^ (cacheGeom s.cfg c).s)
    (hv : (readX s a).toNat =
      way * 2 ^ (32 - (cacheGeom s.cfg c).w) + set * 2 ^ (cacheGeom s.cfg c).l + setWayLevel (readX s a) * 2) :
    exec i s = .next (advance (cacheOp op s c (lineAtSetWay s c set way))) := by
  have hz := (setWayReservedZero_iff hg).2 ⟨way, set, hway, hset, hv⟩
  obtain ⟨e1, e2, -⟩ := setWay_fields _ _ way set _ hg hway hset (setWayLevel_lt _) hv
  rw [exec_of_hardware ha hp hd hi, hc]
  simp [hpresent, hz, e1, e2, finishCache]

end

/-- Settles O55: the operand's level names a cache or none, and its way and set the line that `lineAtSetWay` finds. -/
theorem setWayOperations : Obligations.SetWayOperations := by
  unfold Obligations.SetWayOperations
  intro s a he hu hd hinv p hp
  have habove := aboveU_iff.2 hu
  obtain ⟨ha, hi⟩ : available s p.1 = true ∧ exec p.1 s = execSetWay p.1 p.2 a s := by
    revert p
    exact List.forall_iff_forall_mem.1 ⟨⟨he, rfl⟩, ⟨he, rfl⟩, ⟨he, rfl⟩⟩
  rw [← setWayLevel_eq]
  refine ⟨fun q hq hpresent hg hlevel => ?_, fun hlevel => ?_⟩
  · have hc : setWayCache (readX s a) = some q.2 := by
      revert q
      exact List.forall_iff_forall_mem.1 ⟨fun _ _ h => setWayCache_zero h, fun _ _ h => setWayCache_one h⟩
    rw [← hlevel]
    refine ⟨fun way set hway hset hv => ?_, fun hreserved => ?_⟩
    · have hrun := exec_setWay_at ha habove hd hi hc hpresent hg hway hset hv
      refine ⟨fun ln hln hlnset hlnway => ?_, fun hempty => ?_⟩
      · rw [hrun, ← hlnset, ← hlnway, lineAtSetWay_of_held hinv.caches hln]
      · rw [hrun, lineAtSetWay_of_empty hempty, cacheOp_nil _ hpresent]
        exact onlyAdvances_advance s
    · refine exec_setWay_of_reserved ha habove hd hi hc hpresent (Bool.eq_false_iff.2 fun hz => ?_)
      obtain ⟨way, set, hway, hset, hv⟩ := (setWayReservedZero_iff hg).1 hz
      exact hreserved way set hway hset hv
  · rw [exec_setWay_of_noCache ha habove hd hi fun c hc => ?_]
    · exact onlyAdvances_advance s
    · obtain hbeyond | ⟨hone, hl2⟩ := hlevel
      · rw [setWayCache_none hbeyond] at hc
        cases hc
      · rw [setWayCache_one hone] at hc
        cases hc
        exact hl2

end Sys2Proof
end

section
/-! SUPPORT. XTheadSync (41 R211 to R216): the TLB invalidation and its broadcast; what a barrier leaves of every hart,
and with `SYNC_I_SUFFICIENT` what it makes visible to fetches (20 R103). -/

namespace Sys2Proof

open Machine

/-! ## `th.sfence.vmas` -/

/-- The hart after its TLB invalidation, the request on its way to every other hart; as it was without an MMU. -/
def sfenced (s : State) (va asid : Word) : State :=
  if s.cfg.hasMmu then broadcast { s with tlb := tlbWithout s.cfg va asid s.tlb } (.invalidateTlb va asid) else s

theorem sfenced_of_mmu {s : State} (h : s.cfg.hasMmu = true) (va asid : Word) :
    sfenced s va asid = broadcast { s with tlb := tlbWithout s.cfg va asid s.tlb } (.invalidateTlb va asid) :=
  if_pos h

theorem sfenced_of_noMmu {s : State} (h : s.cfg.hasMmu = false) (va asid : Word) : sfenced s va asid = s :=
  if_neg (by simp [h])

theorem sfenced_rest (s : State) (va asid : Word) :
    { sfenced s va asid with tlb := s.tlb, others := s.others } = s := by
  unfold sfenced
  split <;> rfl

theorem exec_sfenceVmas {s : State} (he : enabled s .xTheadSync = true) (hp : s.priv ≠ .u) (rs1 rs2 : Reg) :
    exec (.sfenceVmas rs1 rs2) s = .next (advance (sfenced s (readX s rs1) (readX s rs2))) := by
  have hok : (available s (.sfenceVmas rs1 rs2) && aboveU s) = true := Bool.and_eq_true_iff.2 ⟨he, aboveU_iff.2 hp⟩
  show execSfenceVmas rs1 rs2 s = _
  unfold execSfenceVmas
  rw [hok]
  rfl

/-- Settles O59. -/
theorem sfenceResult : Obligations.SfenceResult := by
  unfold Obligations.SfenceResult
  intro s rs1 rs2 he hp
  have hrest := sfenced_rest s (readX s rs1) (readX s rs2)
  refine ⟨_, exec_sfenceVmas he hp rs1 rs2,
    nextInsn_advance _ _ (congrArg State.cfg hrest :) (congrArg (·.pc) hrest :),
    (congrArg (fun t : State => { t with pc := s.pc }) hrest :), fun hno => ?_, fun hmmu => ?_⟩
  · rw [sfenced_of_noMmu hno]
    exact ⟨rfl, rfl⟩
  · rw [sfenced_of_mmu hmmu]
    exact ⟨mem_tlbWithout s.cfg (readX s rs1) (readX s rs2) s.tlb, rfl⟩

/-! ## What writing lines to the next level leaves

Without any invariant: only the marks of D-cache lines, `L2` and `MEM` change. -/

/-- Lines of a D-cache, dirty or clean alike. -/
def unmarked (ls : List Line) : List Line := ls.map fun ln => { ln with dirty := false }

/-- A hart but for the marks of the lines of its D-cache. -/
def unmarkedHart (h : Hart) : Hart := { h with dc := unmarked h.dc }

/-- The machine but for `L2`, `MEM` and the marks of the lines of every hart's D-cache. -/
def unmarkedState (s : State) : State :=
  { s with toHart := unmarkedHart s.toHart, others := s.others.map unmarkedHart, mem := [], l2 := [] }

theorem unmarked_map {f : Line → Line} (hf : ∀ ln, { f ln with dirty := false } = { ln with dirty := false })
    (ls : List Line) : unmarked (ls.map f) = unmarked ls := by
  unfold unmarked
  rw [List.map_map]
  exact List.map_congr_left fun ln _ => hf ln

theorem unmarkedState_of_dc {s t : State} (h : OnlyCache .dc s t) (hdc : unmarked t.dc = unmarked s.dc) :
    unmarkedState t = unmarkedState s := by
  calc unmarkedState t = { unmarkedState { t with dc := s.dc } with dc := unmarked t.dc } := rfl
    _ = { unmarkedState s with dc := unmarked s.dc } := by rw [hdc, show { t with dc := s.dc } = s from h]
    _ = unmarkedState s := rfl

theorem unmarkedState_of_l2 {s t : State} (h : OnlyCacheAndBelow .l2 s t) : unmarkedState t = unmarkedState s :=
  (congrArg unmarkedState h :)

theorem onlyBelow_evictL2 (s : State) (a : Nat) : OnlyCacheAndBelow .l2 s (evictL2 s a) :=
  (onlyCacheAndBelow_writeback s .l2 a).trans (onlyCache_setLines _ .l2 _).below

theorem onlyBelow_fillL2 (s : State) (a way : Nat) : OnlyCacheAndBelow .l2 s (fillL2 s a way) := by
  unfold fillL2
  split
  · exact (onlyBelow_evictL2 s _).trans (onlyCache_setLines _ .l2 _).below
  · exact (onlyCache_setLines s .l2 _).below

theorem onlyBelow_writeL2 (s : State) (pa : Nat) (b : Byte) : OnlyCacheAndBelow .l2 s (writeL2 s pa b) := by
  unfold writeL2
  dsimp only
  split
  · exact (onlyCache_setLines s .l2 _).below
  · exact (onlyBelow_fillL2 s _ _).trans (onlyCache_setLines _ .l2 _).below

theorem onlyBelow_nextLevelSet (s : State) (a : Nat) (bs : List Byte) :
    OnlyCacheAndBelow .l2 s (nextLevelSet s a bs) := by
  induction bs generalizing s a with
  | nil => exact .refl .l2 s
  | cons b bs ih =>
    refine OnlyCacheAndBelow.trans ?_ (ih _ _)
    split
    · exact onlyBelow_writeL2 s a b
    · rfl

theorem cacheLines_dc {s : State} (h : s.cfg.hasDCache = true) : cacheLines s .dc = s.dc := if_pos h

theorem unmarkedState_markClean {s : State} (h : s.cfg.hasDCache = true) (a : Nat) :
    unmarkedState (markClean s .dc a) = unmarkedState s := by
  refine unmarkedState_of_dc (onlyCache_setLines s .dc _) ?_
  unfold markClean
  rw [cacheLines_dc h]
  exact unmarked_map (fun ln => by split <;> rfl) s.dc

theorem unmarkedState_writeback (s : State) (a : Nat) : unmarkedState (writeback s .dc a) = unmarkedState s := by
  unfold writeback
  dsimp only
  split
  · next ln hd =>
    have hpresent : s.cfg.hasDCache = true := by
      obtain ⟨hm, _⟩ := dirtyLine_mem hd
      by_contra hno
      rw [cacheLines_of_absent s .dc (Bool.not_eq_true _ ▸ hno)] at hm
      exact List.not_mem_nil hm
    have hcfg := (sameButData_nextLevelSet s a ln.data).cfg
    exact (unmarkedState_markClean (hcfg ▸ hpresent) a).trans
      (unmarkedState_of_l2 (onlyBelow_nextLevelSet s a ln.data))
  · rfl

theorem unmarkedState_cleanLines (s : State) (as : List Nat) :
    unmarkedState (cleanLines s .dc as) = unmarkedState s := by
  induction as generalizing s with
  | nil => rfl
  | cons a as ih => exact (ih _).trans (unmarkedState_writeback s a)

theorem unmarkedState_dirtied (s : State) : unmarkedState (dirtied s) = unmarkedState s := by
  have hdc := unmarked_map (f := fun ln => { ln with dirty := true }) (fun _ => rfl) s.dc
  exact unmarkedState_of_dc rfl hdc

theorem unmarkedState_writeAllLines (s : State) : unmarkedState (writeAllLines s) = unmarkedState s :=
  (unmarkedState_cleanLines (dirtied s) _).trans (unmarkedState_dirtied s)

theorem unmarkedState_switchTo (k : Nat) (s : State) :
    unmarkedState (switchTo k s) = switchTo k (unmarkedState s) := by
  have hothers : (unmarkedState s).others[k]? = s.others[k]?.map unmarkedHart := List.getElem?_map
  unfold switchTo
  rw [hothers]
  cases s.others[k]? with
  | none => rfl
  | some q => simp [unmarkedState, List.map_set]

theorem unmarkedState_onHart (k : Nat) {f : State → State} (hf : ∀ u, unmarkedState (f u) = unmarkedState u)
    (s : State) : unmarkedState (onHart (some k) f s) = unmarkedState s := by
  show unmarkedState (switchTo k (f (switchTo k s))) = _
  rw [unmarkedState_switchTo, hf, unmarkedState_switchTo, switchTo_switchTo]

theorem unmarkedState_writeOthersLines (n : Nat) (s : State) :
    unmarkedState (writeOthersLines n s) = unmarkedState s := by
  induction n with
  | zero => rfl
  | succ n ih => exact (unmarkedState_onHart n unmarkedState_writeAllLines _).trans ih

theorem unmarkedState_writeVisible (s : State) : unmarkedState (writeVisible s) = unmarkedState s := by
  unfold writeVisible
  split
  · exact (unmarkedState_writeOthersLines _ _).trans (unmarkedState_writeAllLines s)
  · exact unmarkedState_cleanLines s _

/-- From `s` to `t` no more has changed than `L2`, `MEM`, this hart's instruction cache and the marks of D-cache
lines. -/
def LinesWritten (s t : State) : Prop := unmarkedState { t with ic := s.ic } = unmarkedState s

theorem linesWritten_of_unmarked {s t : State} (h : unmarkedState t = unmarkedState s) : LinesWritten s t :=
  (congrArg (fun u : State => { u with ic := s.ic }) h :)

theorem linesWritten_syncFetch (s : State) : LinesWritten s (syncFetch s) := by
  unfold syncFetch
  split
  · have hvisible : LinesWritten s (writeVisible s) := linesWritten_of_unmarked (unmarkedState_writeVisible s)
    exact hvisible
  · rfl

section

variable {s t : State} (h : LinesWritten s t)

include h

theorem LinesWritten.rest :
    { t with others := s.others, mem := s.mem, dc := s.dc, ic := s.ic, l2 := s.l2 } = s :=
  (congrArg (fun u : State => { u with others := s.others, mem := s.mem, dc := s.dc, l2 := s.l2 }) h :)

theorem LinesWritten.dc : unmarked t.dc = unmarked s.dc := (congrArg (fun u : State => u.dc) h :)

theorem LinesWritten.others : t.others.map unmarkedHart = s.others.map unmarkedHart := (congrArg State.others h :)

theorem LinesWritten.others_length : t.others.length = s.others.length := by
  simpa using congrArg List.length h.others

theorem LinesWritten.other (k : Nat) (hs : k < s.others.length) (ht : k < t.others.length) :
    unmarkedHart t.others[k] = unmarkedHart s.others[k] := by
  simpa [hs, ht] using congrArg (·[k]?) h.others

end

/-! ## What is visible to fetches -/

/-- The D-cache of a hart has a line that says what byte `a` is. -/
def HasLine (c : Config) (h : Hart) (a : Nat) : Prop := ∃ ln ∈ h.dc, ln.addr = lineAddr c.dcGeom a

theorem hasLine_unmarkedHart (c : Config) (h : Hart) (a : Nat) : HasLine c (unmarkedHart h) a ↔ HasLine c h a := by
  simp [HasLine, unmarkedHart, unmarked]

section

variable {s : State} (h : StorageInv s) (hdc : s.cfg.hasDCache = true)

include h hdc

/-- A byte reads below the D-cache as a data access reads it once the lines of the D-cache are written, if one of them
has it or it did so before. -/
theorem lowerByte_writeAllLines {a : Nat} (hsaid : HasLine s.cfg s.toHart a ∨ lowerByte s a = dataByte s a) :
    lowerByte (writeAllLines s) a = dataByte s a := by
  obtain ⟨_, _, hbytes⟩ := writeAllLines_spec h
  obtain ⟨_, hlower⟩ := hbytes a
  rw [hlower, cacheLines_dc hdc]
  split
  · rfl
  · next hno => exact hsaid.resolve_left fun ⟨ln, hln, e⟩ => hno ⟨ln, hln, e.symm⟩

variable (hco : s.cfg.dcacheCoherent = true)

include hco

/-- The same of another hart's D-cache, whose accesses read what this hart's do. -/
theorem writeAllLines_onHart (k a : Nat) :
    dataByte (onHart (some k) writeAllLines s) a = dataByte s a ∧
    ((∃ hk : k < s.others.length, HasLine s.cfg s.others[k] a) ∨ lowerByte s a = dataByte s a →
      lowerByte (onHart (some k) writeAllLines s) a = dataByte s a) := by
  have hk := h.switchTo k
  have hread : dataByte (switchTo k s) a = dataByte s a := coherentCachesAgree s k a h hco
  obtain ⟨hinv, hsame, hbytes⟩ := writeAllLines_spec hk
  have hcoThere : (writeAllLines (switchTo k s)).cfg.dcacheCoherent = true := by rwa [hsame.cfg, switchTo_cfg]
  refine ⟨(coherentCachesAgree _ k a hinv hcoThere).trans ((hbytes a).1.trans hread), fun hsaid => ?_⟩
  show lowerByte (switchTo k (writeAllLines (switchTo k s))) a = _
  rw [lowerByte_switchTo, ← hread]
  refine lowerByte_writeAllLines hk (by rwa [switchTo_cfg]) (hsaid.imp (fun ⟨hlt, hline⟩ => ?_) fun hlow => ?_)
  · rw [lowerByte_switchTo, hread, hlow]
  · obtain ⟨_, hthere, _⟩ := switchTo_spec k s hlt
    rw [switchTo_cfg, hthere]
    exact hline

/-- The same of the first `n` other harts' D-caches, one after another. -/
theorem writeOthersLines_spec (n a : Nat) :
    dataByte (writeOthersLines n s) a = dataByte s a ∧
    ((∃ k < n, ∃ hk : k < s.others.length, HasLine s.cfg s.others[k] a) ∨ lowerByte s a = dataByte s a →
      lowerByte (writeOthersLines n s) a = dataByte s a) := by
  induction n with
  | zero => exact ⟨rfl, fun hsaid => hsaid.resolve_left fun ⟨_, hk, _⟩ => absurd hk (Nat.not_lt_zero _)⟩
  | succ n ih =>
    obtain ⟨ihdata, ihlower⟩ := ih
    have hmarks := unmarkedState_writeOthersLines n s
    have hcfg : (writeOthersLines n s).cfg = s.cfg := (congrArg State.cfg hmarks :)
    have hwritten := linesWritten_of_unmarked hmarks
    obtain ⟨hdata, hlower⟩ := writeAllLines_onHart (h.writeOthersLines n) (by rwa [hcfg]) (by rwa [hcfg]) n a
    rw [ihdata] at hdata hlower
    refine ⟨hdata, fun hsaid => hlower ?_⟩
    rcases hsaid with ⟨k, hkn, hk, hline⟩ | hlow
    · rcases Nat.lt_succ_iff_lt_or_eq.1 hkn with hlt | rfl
      · exact .inr (ihlower (.inl ⟨k, hlt, hk, hline⟩))
      · have hlen := hwritten.others_length
        refine .inl ⟨hlen ▸ hk, ?_⟩
        rw [hcfg, ← hasLine_unmarkedHart, hwritten.other k hk (hlen ▸ hk), hasLine_unmarkedHart]
        exact hline
    · exact .inr (ihlower (.inr hlow))

end

/-- With `DCACHE_COHERENT` what this hart's data accesses read is below the D-caches then, whichever hart had it. -/
theorem writeVisible_coherent {s : State} (h : StorageInv s) (hco : s.cfg.dcacheCoherent = true) (a : Nat) :
    dataByte (writeVisible s) a = dataByte s a ∧ lowerByte (writeVisible s) a = dataByte s a := by
  obtain ⟨_, hnoCopy⟩ := dataByte_coherent h hco a
  unfold writeVisible
  cases hdc : s.cfg.hasDCache with
  | false =>
    have hnone : cacheLines s .dc = [] := cacheLines_of_absent s .dc hdc
    rw [hco, if_neg (by simp), allLines, hnone]
    exact ⟨rfl, (hnoCopy fun ln hcopy => by simp [CopyOf, hdc] at hcopy).symm⟩
  | true =>
    rw [hco, if_pos (by rfl)]
    obtain ⟨hinv, hsame, hbytes⟩ := writeAllLines_spec h
    have hown := hsame.cfg
    obtain ⟨hdata, hlower⟩ := writeOthersLines_spec hinv (by rwa [hown]) (by rwa [hown]) s.others.length a
    rw [(hbytes a).1] at hdata hlower
    refine ⟨hdata, hlower ?_⟩
    by_cases hex : ∃ ln, CopyOf s a ln
    · obtain ⟨ln, _, q, hq, hln, e⟩ := hex
      rcases List.mem_cons.1 hq with rfl | hq
      · exact .inr (lowerByte_writeAllLines h hdc (.inl ⟨ln, hln, e⟩))
      · obtain ⟨k, hk, rfl⟩ := List.mem_iff_getElem.1 hq
        refine .inl ⟨k, hk, ?_⟩
        simp only [hsame.others, hown]
        exact ⟨hk, ln, hln, e⟩
    · exact .inr (lowerByte_writeAllLines h hdc (.inr (hnoCopy (not_exists.1 hex)).symm))

/-- Without it, where the hart's own line is clean, the next level says what it said (20 R103). -/
theorem writeVisible_incoherent {s : State} (h : StorageInv s) (hco : s.cfg.dcacheCoherent = false) (a : Nat) :
    dataByte (writeVisible s) a = dataByte s a ∧ lowerByte (writeVisible s) a =
      if ∃ ln ∈ cacheLines s .dc, lineAddr s.cfg.dcGeom a = ln.addr ∧ ln.dirty = false
        then lowerByte s a else dataByte s a := by
  obtain ⟨hdata, hlower⟩ := lowerByte_cleanLines h (allLines s .dc) a
  unfold writeVisible
  rw [hco, if_neg (by simp)]
  refine ⟨hdata, hlower.trans ?_⟩
  by_cases hheld : ∃ ln ∈ cacheLines s .dc, lineAddr s.cfg.dcGeom a = ln.addr
  · obtain ⟨ln, hln, e⟩ := hheld
    have honly : ∀ m ∈ cacheLines s .dc, lineAddr s.cfg.dcGeom a = m.addr → m = ln := fun m hm em =>
      (h.caches.lines .dc).eq_of_addr hm hln (em.symm.trans e)
    cases hd : ln.dirty with
    | true =>
      rw [if_pos ⟨ln, hln, List.mem_map_of_mem hln, hd, e⟩, if_neg]
      rintro ⟨m, hm, em, hclean⟩
      rw [honly m hm em, hd] at hclean
      cases hclean
    | false =>
      rw [if_neg, if_pos ⟨ln, hln, e, hd⟩]
      rintro ⟨m, hm, _, hdirty, em⟩
      rw [honly m hm em, hd] at hdirty
      cases hdirty
  · have hbelow : dataByte s a = lowerByte s a := by
      rw [dataByte_eq, belowByte_of_incoherent hco]
      cases hv : heldLine s .dc a with
      | none => rw [viewByte, hv]; rfl
      | some ln =>
        obtain ⟨hm, e⟩ := heldLine_mem hv
        exact absurd ⟨ln, hm, e.symm⟩ hheld
    rw [hbelow, ite_self, ite_self]

/-- The instruction cache emptied: fetches read the next level, and data accesses read as before. -/
theorem emptied_ic (s : State) (a : Nat) :
    dataByte (cacheOp .invalidate s .ic (allLines s .ic)) a = dataByte s a ∧
    fetchByte (cacheOp .invalidate s .ic (allLines s .ic)) a = lowerByte s a := by
  have hlower : lowerByte (cacheOp .invalidate s .ic (allLines s .ic)) a = lowerByte s a :=
    lowerByte_invalidateLines_of_ne s (by decide) _ a
  have hview : viewByte (cacheOp .invalidate s .ic (allLines s .ic)) .dc a = viewByte s .dc a :=
    viewByte_invalidateLines_of_ne s (by decide) _ a
  have hpeer : peerByte (cacheOp .invalidate s .ic (allLines s .ic)) a = peerByte s a := peerByte_setLines s .ic _ a
  constructor
  · rw [dataByte_views, dataByte_views, hview, hpeer, hlower]
  · rw [fetchByte_eq, viewByte, heldLine, cacheLines_invalidate_allLines, hlower]
    rfl

/-! ## The barriers -/

/-- A barrier's work before its fetches are seen to: the broadcasts performed, and with a flush the pipeline emptied
(41 R213, R215). -/
def settled (flush : Bool) (s : State) : State :=
  if flush then flushPipeline (completeAllPending s) else completeAllPending s

/-- A barrier's work (41 R213 to R216). -/
def barrierWork (flush : Bool) (s : State) : State :=
  if flush then syncFetch (settled flush s) else settled flush s

theorem settled_eq (flush : Bool) (s : State) :
    settled flush s = { s with others := s.others.map (completeFrom s.cfg s.mhartid)
                               pipeline := if flush then [] else s.pipeline } := by
  cases flush <;> rfl

theorem exec_barrier {s : State} (he : enabled s .xTheadSync = true) :
    ∀ p ∈ [(Instr.sync, false), (.syncS, false), (.syncI, true), (.syncIs, true)],
      exec p.1 s = .next (advance (barrierWork p.2 s)) := by
  simp only [List.forall_mem_cons, List.not_mem_nil, false_implies, implies_true, and_true]
  refine ⟨?_, ?_, ?_, ?_⟩ <;> exact if_pos he

theorem linesWritten_barrierWork (flush : Bool) (s : State) : LinesWritten (settled flush s) (barrierWork flush s) := by
  cases flush with
  | false => rfl
  | true => exact linesWritten_syncFetch _

theorem syncFetch_of_insufficient {s : State} (h : s.cfg.syncISufficient = false) : syncFetch s = s :=
  if_neg (by simp [h])

theorem barrierWork_of_insufficient {flush : Bool} {s : State} (h : flush = false ∨ s.cfg.syncISufficient = false) :
    barrierWork flush s = settled flush s := by
  cases flush with
  | false => rfl
  | true => exact syncFetch_of_insufficient (h.resolve_left (by decide))

/-- Without `DCACHE_COHERENT` only this hart's own lines are written. -/
theorem syncFetch_others_of_incoherent {s : State} (h : s.cfg.dcacheCoherent = false) :
    (syncFetch s).others = s.others := by
  have hvisible : (writeVisible s).others = s.others := by
    unfold writeVisible
    rw [h, if_neg (by simp)]
    exact (sameButLines_cacheOp .clean s .dc _).others
  unfold syncFetch
  split
  · exact hvisible
  · rfl

theorem barrierWork_others {flush : Bool} {s : State}
    (h : flush = false ∨ s.cfg.syncISufficient = false ∨ s.cfg.dcacheCoherent = false) :
    (barrierWork flush s).others = s.others.map (completeFrom s.cfg s.mhartid) := by
  rcases or_assoc.2 h with hquiet | hco
  · rw [barrierWork_of_insufficient hquiet, settled_eq]
  · cases flush with
    | false => rfl
    | true => exact syncFetch_others_of_incoherent (s := settled true s) hco

/-- What a barrier leaves alone: all but the other harts, the pipeline and storage. -/
theorem barrierWork_rest (flush : Bool) (s : State) :
    { barrierWork flush s with others := s.others, pipeline := s.pipeline, mem := s.mem, dc := s.dc, ic := s.ic,
                               l2 := s.l2 } = s := by
  have hrest := (linesWritten_barrierWork flush s).rest
  rw [settled_eq] at hrest
  exact (congrArg (fun t : State => { t with others := s.others, pipeline := s.pipeline }) hrest :)

theorem barrierWork_pipeline (flush : Bool) (s : State) :
    (barrierWork flush s).pipeline = if flush then [] else s.pipeline := by
  have hrest := (linesWritten_barrierWork flush s).rest
  rw [settled_eq] at hrest
  exact (congrArg (·.pipeline) hrest :)

theorem barrierWork_dc (flush : Bool) (s : State) : unmarked (barrierWork flush s).dc = unmarked s.dc := by
  have hdc := (linesWritten_barrierWork flush s).dc
  rwa [settled_eq] at hdc

theorem barrierWork_others_length (flush : Bool) (s : State) :
    (barrierWork flush s).others.length = s.others.length := by
  have hlen := (linesWritten_barrierWork flush s).others_length
  rwa [settled_eq, List.length_map] at hlen

section

variable (flush : Bool) (s : State) (k : Nat) (hs : k < s.others.length)
  (ht : k < (barrierWork flush s).others.length)

theorem barrierWork_other :
    unmarkedHart (barrierWork flush s).others[k] = unmarkedHart (completeFrom s.cfg s.mhartid s.others[k]) := by
  have hother := (linesWritten_barrierWork flush s).other k (by rwa [settled_eq, List.length_map]) ht
  simpa [settled_eq] using hother

/-- Another hart after a barrier: the sender's broadcasts performed on it, its D-cache's lines in their places
(41 R211, R213). -/
theorem barrierWork_other_spec :
    let h := s.others[k]
    let h' := (barrierWork flush s).others[k]
    { h' with pending := h.pending, ic := h.ic, tlb := h.tlb, dc := h.dc } = h ∧ unmarked h'.dc = unmarked h.dc ∧
    h'.pending = h.pending.filter (·.sender != s.mhartid) ∧
    h'.ic = (if ⟨s.mhartid, .invalidateICache⟩ ∈ h.pending then [] else h.ic) ∧
    ∀ e, e ∈ h'.tlb ↔ e ∈ h.tlb ∧
      ∀ va asid, ⟨s.mhartid, .invalidateTlb va asid⟩ ∈ h.pending → tlbHit s.cfg va asid e = false := by
  intro h h'
  have hmarks : unmarkedHart h' = unmarkedHart (completeFrom s.cfg s.mhartid h) := barrierWork_other flush s k hs ht
  obtain ⟨hpending, hic, htlb, hrest⟩ := completeFrom_spec s.cfg s.mhartid h
  have hpending' : h'.pending = (completeFrom s.cfg s.mhartid h).pending := (congrArg Hart.pending hmarks :)
  have hic' : h'.ic = (completeFrom s.cfg s.mhartid h).ic := (congrArg Hart.ic hmarks :)
  have htlb' : h'.tlb = (completeFrom s.cfg s.mhartid h).tlb := (congrArg Hart.tlb hmarks :)
  have hdc' : unmarked h'.dc = unmarked (completeFrom s.cfg s.mhartid h).dc := (congrArg Hart.dc hmarks :)
  have hdc : (completeFrom s.cfg s.mhartid h).dc = h.dc := (congrArg Hart.dc hrest :)
  refine ⟨?_, hdc ▸ hdc', hpending'.trans hpending, hic'.trans hic, htlb' ▸ htlb⟩
  calc { h' with pending := h.pending, ic := h.ic, tlb := h.tlb, dc := h.dc }
      = { completeFrom s.cfg s.mhartid h with pending := h.pending, ic := h.ic, tlb := h.tlb, dc := h.dc } :=
        (congrArg (fun q : Hart => { q with pending := h.pending, ic := h.ic, tlb := h.tlb, dc := h.dc }) hmarks :)
    _ = h := (congrArg (fun q : Hart => { q with dc := h.dc }) hrest :)

theorem barrierWork_other_dc (h : flush = false ∨ s.cfg.syncISufficient = false ∨ s.cfg.dcacheCoherent = false) :
    (barrierWork flush s).others[k].dc = s.others[k].dc := by
  obtain ⟨_, _, _, hrest⟩ := completeFrom_spec s.cfg s.mhartid s.others[k]
  have hk : (barrierWork flush s).others[k] = completeFrom s.cfg s.mhartid s.others[k] := by
    simp [barrierWork_others h]
  rw [hk]
  exact (congrArg Hart.dc hrest :)

end

/-- What fetches see after a flush with `SYNC_I_SUFFICIENT` (20 R103; decision D40). -/
structure FetchesSee (s t : State) : Prop where
  inv : StorageInv t
  data : ∀ a, dataByte t a = dataByte s a
  coherent : s.cfg.dcacheCoherent = true → ∀ a, fetchByte t a = dataByte s a
  incoherent : s.cfg.dcacheCoherent = false → ∀ a, fetchByte t a =
    if ∃ ln ∈ cacheLines s .dc, lineAddr s.cfg.dcGeom a = ln.addr ∧ ln.dirty = false
      then lowerByte s a else dataByte s a

theorem fetchesSee_syncFetch {s : State} (h : StorageInv s) (hs : s.cfg.syncISufficient = true) :
    FetchesSee s (syncFetch s) := by
  have hinv := h.syncFetch
  have heq : syncFetch s = cacheOp .invalidate (writeVisible s) .ic (allLines (writeVisible s) .ic) := if_pos hs
  have hempty := emptied_ic (writeVisible s)
  rw [← heq] at hempty
  refine ⟨hinv, fun a => (hempty a).1.trans ?_, fun hco a => (hempty a).2.trans (writeVisible_coherent h hco a).2,
    fun hco a => (hempty a).2.trans (writeVisible_incoherent h hco a).2⟩
  cases hco : s.cfg.dcacheCoherent with
  | true => exact (writeVisible_coherent h hco a).1
  | false => exact (writeVisible_incoherent h hco a).1

theorem map_completeFrom_dc (c : Config) (id : Word) (l : List Hart) :
    (l.map (completeFrom c id)).map Hart.dc = l.map Hart.dc := by
  rw [List.map_map]
  refine List.map_congr_left fun h _ => ?_
  obtain ⟨_, _, _, hrest⟩ := completeFrom_spec c id h
  exact (congrArg Hart.dc hrest :)

theorem fetchesSee_barrierWork {s : State} (h : StorageInv s) (hs : s.cfg.syncISufficient = true) :
    FetchesSee s (barrierWork true s) := by
  have hinv : StorageInv (settled true s) := h.completeAllPending.of_part (storagePart_flushPipeline _)
  obtain ⟨inv, data, coherent, incoherent⟩ := fetchesSee_syncFetch hinv hs
  have hsame (a : Nat) : SameBytes s (settled true s) a :=
    SameBytes.congr (s := s) (t := settled true s) rfl rfl rfl rfl rfl (map_completeFrom_dc s.cfg s.mhartid s.others) a
  have hread (a : Nat) : lowerByte (settled true s) a = lowerByte s a ∧
      dataByte (settled true s) a = dataByte s a := by
    obtain ⟨_, hlower, hdata, _, _⟩ := hsame a
    exact ⟨hlower, hdata⟩
  simp only [hread] at data coherent incoherent
  exact ⟨inv, data, coherent, incoherent⟩

/-- Settles O60. -/
theorem barrierResults : Obligations.BarrierResults := by
  unfold Obligations.BarrierResults
  refine ⟨by decide, by decide, by decide, by decide, fun s he p hp => ?_⟩
  have hrest := barrierWork_rest p.2 s
  refine ⟨_, exec_barrier he p hp, nextInsn_advance _ _ (congrArg State.cfg hrest :) (congrArg (·.pc) hrest :),
    (congrArg (fun t : State => { t with pc := s.pc }) hrest :), fun hquiet => ?quiet, barrierWork_dc p.2 s,
    fun hflush hs hinv => ?fetches, barrierWork_pipeline p.2 s, barrierWork_others_length p.2 s,
    fun k hs ht => ?other⟩
  case quiet =>
    rw [barrierWork_of_insufficient hquiet, settled_eq]
    exact ⟨rfl, rfl, rfl, rfl⟩
  case fetches =>
    rw [hflush]
    obtain ⟨inv, data, coherent, incoherent⟩ := fetchesSee_barrierWork hinv hs
    exact ⟨inv.of_part (storagePart_advance _), data, coherent, incoherent⟩
  case other =>
    obtain ⟨hrest, hlines, hpending, hic, htlb⟩ := barrierWork_other_spec p.2 s k hs ht
    exact ⟨hrest, hlines, barrierWork_other_dc p.2 s k hs ht, hpending, hic, htlb⟩

end Sys2Proof
end

section
/-! SUPPORT. Register arithmetic and conditional moves (42 R230 to R243): the bits and bytes of what the functions of
the ALU compute, the outcomes of the bit-field and conditional forms, and the statements put together from them. -/

namespace Sys2Proof

open Machine

/-! ## Bits of a value at `XLEN` -/

theorem xlenBits_le (c : Config) : xlenBits c ≤ 64 := by
  rcases xlenBits_cases c with h | h <;> omega

theorem truncX_lt (c : Config) (v : Word) : (truncX c v).toNat < 2 ^ xlenBits c := by
  rw [truncX_toNat]
  exact Nat.mod_lt _ (by positivity)

theorem truncX_of_lt {c : Config} {v : Word} (h : v.toNat < 2 ^ xlenBits c) : truncX c v = v :=
  BitVec.eq_of_toNat_eq ((truncX_toNat c v).trans (Nat.mod_eq_of_lt h))

theorem truncX_ofNat_toNat {c : Config} {n : Nat} (h : n ≤ xlenBits c) :
    (truncX c (BitVec.ofNat 64 n)).toNat = n := by
  rw [truncX_toNat, BitVec.toNat_ofNat]
  rcases xlenBits_cases c with hc | hc <;> rw [hc] at h ⊢ <;> omega

/-- Above its width a sign-extended value repeats its top bit. -/
theorem getLsbD_truncX_sextX (c : Config) {w : Nat} (v : BitVec w) {k : Nat} (hk : k < xlenBits c) :
    (truncX c (sextX c v)).getLsbD k = v.getLsbD (min k (w - 1)) := by
  have h64 : k < 64 := lt_of_lt_of_le hk (xlenBits_le c)
  rw [sextX, truncX_truncX, truncX_getLsbD, BitVec.getLsbD_signExtend]
  simp only [hk, h64, decide_true, Bool.true_and]
  split
  · rw [min_eq_left (by omega)]
  · rw [min_eq_right (by omega), BitVec.msb_eq_getLsbD_last]

theorem getLsbD_truncX_zextX (c : Config) {w : Nat} (v : BitVec w) {k : Nat} (hk : k < xlenBits c) :
    (truncX c (zextX c v)).getLsbD k = v.getLsbD k := by
  have h64 : k < 64 := lt_of_lt_of_le hk (xlenBits_le c)
  rw [zextX, truncX_truncX, truncX_getLsbD, BitVec.getLsbD_setWidth]
  simp [hk, h64]

theorem getLsbD_rotateRight_eq_mod {w : Nat} (v : BitVec w) (r : Nat) {k : Nat} (hk : k < w) :
    (v.rotateRight r).getLsbD k = v.getLsbD ((k + r) % w) := by
  have hr : r % w < w := Nat.mod_lt r (Nat.zero_lt_of_lt hk)
  rw [BitVec.getLsbD_rotateRight, Nat.add_mod k r w, Nat.mod_eq_of_lt hk]
  by_cases hin : k < w - r % w
  · rw [Nat.mod_eq_of_lt (show k + r % w < w by omega), Nat.add_comm k]
    simp [hin]
  · have hwrap : (k + r % w) % w = k - (w - r % w) := by
      rw [Nat.mod_eq_sub_mod (show w ≤ k + r % w by omega), Nat.mod_eq_of_lt (by omega)]
      omega
    simp [hwrap, hin, hk]

/-! ## Bytes of a value -/

/-- Byte `k` of a little-endian value is byte `k` of the list. -/
theorem leValue_extractLsb' (bs : List Byte) (k : Nat) (hk : k < bs.length) (h8 : bs.length ≤ 8) :
    (leValue bs).extractLsb' (8 * k) 8 = bs[k] := by
  induction bs generalizing k with
  | nil => simp at hk
  | cons b bs ih =>
    rw [List.length_cons] at hk h8
    apply BitVec.eq_of_getLsbD_eq
    intro i hi
    rw [leValue, BitVec.getLsbD_extractLsb', BitVec.getLsbD_or, BitVec.getLsbD_setWidth, BitVec.getLsbD_shiftLeft]
    cases k with
    | zero => simp [hi, show i < 64 by omega]
    | succ k =>
      have hrest := congrArg (·.getLsbD i) (ih k (by omega) (by omega))
      simp only [BitVec.getLsbD_extractLsb', hi, decide_true, Bool.true_and] at hrest
      rw [BitVec.getLsbD_of_ge b _ (by omega), List.getElem_cons_succ, ← hrest,
        show 8 * (k + 1) + i - 8 = 8 * k + i by omega]
      simp [hi, show 8 * (k + 1) + i < 64 by omega, show ¬ 8 * (k + 1) + i < 8 by omega]

/-- A value of `XLEN`/8 bytes lies within `XLEN` bits. -/
theorem truncX_leValue {c : Config} {bs : List Byte} (h : bs.length = xlenBits c / 8) :
    truncX c (leValue bs) = leValue bs := by
  have hlen : bs.length ≤ 8 := h ▸ Nat.div_le_div_right (xlenBits_le c)
  have hpow : 256 ^ (xlenBits c / 8) = 2 ^ xlenBits c := by
    rcases xlenBits_cases c with hc | hc <;> rw [hc] <;> norm_num
  exact truncX_of_lt (by rw [← hpow, ← h]; exact (leValue_toNat bs hlen).2)

theorem reverseBytes_extractLsb' {n : Nat} (a : Word) {k : Nat} (hk : k < n) (h8 : n ≤ 8) :
    (reverseBytes n a).extractLsb' (8 * k) 8 = a.extractLsb' (8 * (n - 1 - k)) 8 := by
  rw [reverseBytes, leValue_extractLsb' _ k (by simpa [leBytes_length]) (by simpa [leBytes_length])]
  simp [leBytes]

/-- The bytes in reverse order, the bits within each as they were. -/
theorem reverseBytes_getLsbD {n : Nat} (a : Word) {i : Nat} (hi : i < 8 * n) (h8 : n ≤ 8) :
    (reverseBytes n a).getLsbD i = a.getLsbD (8 * (n - 1 - i / 8) + i % 8) := by
  have hbyte := congrArg (·.getLsbD (i % 8)) (reverseBytes_extractLsb' a (k := i / 8) (by omega) h8)
  simpa [BitVec.getLsbD_extractLsb', Nat.mod_lt, Nat.div_add_mod] using hbyte

/-! ## What the instructions compute -/

theorem addslValue_toNat (c : Config) (a b : Word) (imm2 : BitVec 2) :
    (truncX c (addslValue a b imm2)).toNat = (a.toNat + b.toNat * 2 ^ imm2.toNat) % 2 ^ xlenBits c := by
  rw [truncX_toNat, addslValue, BitVec.toNat_add, BitVec.toNat_shiftLeft, Nat.shiftLeft_eq, Nat.add_mod_mod,
    truncX_add_mod]

theorem srriValue_getLsbD (c : Config) (a : Word) (imm6 : BitVec 6) (k : Nat) :
    (truncX c (srriValue c a imm6)).getLsbD k =
      (decide (k < xlenBits c) && a.getLsbD ((k + imm6.toNat) % xlenBits c)) := by
  rw [truncX_getLsbD]
  by_cases hk : k < xlenBits c
  · simp only [hk, decide_true, Bool.true_and]
    unfold xlenBits at hk ⊢
    unfold srriValue atXlen
    cases hc : c.xlen <;> simp only [hc] at hk ⊢
    · rw [BitVec.getLsbD_setWidth, getLsbD_rotateRight_eq_mod _ _ hk, Nat.add_mod_mod, BitVec.getLsbD_setWidth]
      simp [show k < 64 by omega, Nat.mod_lt]
    · exact getLsbD_rotateRight_eq_mod _ _ hk
  · simp [hk]

theorem srriwValue_getLsbD {c : Config} (hc : c.xlen = .rv64) (a : Word) (imm5 : BitVec 5) {k : Nat} (hk : k < 64) :
    (truncX c (srriwValue c a imm5)).getLsbD k = a.getLsbD ((min k 31 + imm5.toNat) % 32) := by
  rw [srriwValue, getLsbD_truncX_sextX c _ (by rwa [(xlenBits_eq_64 c).2 hc]),
    getLsbD_rotateRight_eq_mod _ _ (by omega), BitVec.getLsbD_setWidth]
  simp [Nat.mod_lt]

theorem revwValue_getLsbD {c : Config} (hc : c.xlen = .rv64) (a : Word) {k : Nat} (hk : k < 64) :
    (truncX c (revwValue c a)).getLsbD k = a.getLsbD (8 * (3 - min k 31 / 8) + min k 31 % 8) := by
  have hlow : min k 31 < 32 := by omega
  rw [revwValue, getLsbD_truncX_sextX c _ (by rwa [(xlenBits_eq_64 c).2 hc]), BitVec.getLsbD_setWidth,
    reverseBytes_getLsbD a (by omega) (by norm_num)]
  simp [hlow]

theorem fieldOf_getLsbD (a : Word) (hi lo : BitVec 6) (j : Nat) :
    (fieldOf a hi lo).getLsbD j = (decide (lo.toNat + j ≤ hi.toNat) && a.getLsbD (lo.toNat + j)) := by
  rw [fieldOf, BitVec.getLsbD_extractLsb']
  congr 1
  exact decide_eq_decide.2 (by omega)

theorem sextX_fieldOf_getLsbD (c : Config) (a : Word) {hi lo : BitVec 6} (h : lo.toNat ≤ hi.toNat) {k : Nat}
    (hk : k < xlenBits c) :
    (truncX c (sextX c (fieldOf a hi lo))).getLsbD k = a.getLsbD (min (lo.toNat + k) hi.toNat) := by
  rw [getLsbD_truncX_sextX c _ hk, fieldOf_getLsbD,
    show lo.toNat + min k (hi.toNat + 1 - lo.toNat - 1) = min (lo.toNat + k) hi.toNat by omega]
  simp

theorem zextX_fieldOf_getLsbD (c : Config) (a : Word) (hi lo : BitVec 6) {k : Nat} (hk : k < xlenBits c) :
    (truncX c (zextX c (fieldOf a hi lo))).getLsbD k =
      (decide (lo.toNat + k ≤ hi.toNat) && a.getLsbD (lo.toNat + k)) := by
  rw [getLsbD_truncX_zextX c _ hk, fieldOf_getLsbD]

/-- A leading run of the bits other than `b` counts up to the first bit that is `b`. -/
theorem leadingRun_findsFirst (c : Config) (a : Word) (b : Bool) {v : Word}
    (hv : v = truncX c (BitVec.ofNat 64 (leadingRun a (!b) (xlenBits c)))) :
    v.toNat ≤ xlenBits c ∧ (∀ k < v.toNat, a.getLsbD (xlenBits c - 1 - k) ≠ b) ∧
      (v.toNat < xlenBits c → a.getLsbD (xlenBits c - 1 - v.toNat) = b) := by
  obtain ⟨hle, hrun, hend⟩ := leadingRun_spec a (!b) (xlenBits c)
  rw [hv, truncX_ofNat_toNat hle]
  exact ⟨hle, fun k hk => by simp [hrun k hk], fun hlt => by simpa using hend hlt⟩

theorem revValue_extractLsb' (c : Config) (a : Word) {k : Nat} (hk : k < xlenBits c / 8) :
    (truncX c (revValue c a)).extractLsb' (8 * k) 8 = a.extractLsb' (8 * (xlenBits c / 8 - 1 - k)) 8 := by
  have h8 : xlenBits c / 8 ≤ 8 := Nat.div_le_div_right (xlenBits_le c)
  rw [show truncX c (revValue c a) = revValue c a from truncX_leValue (by simp [leBytes_length])]
  exact reverseBytes_extractLsb' a hk h8

theorem tstnbzValue_extractLsb' (c : Config) (a : Word) {k : Nat} (hk : k < xlenBits c / 8) :
    (truncX c (tstnbzValue c a)).extractLsb' (8 * k) 8 = if a.extractLsb' (8 * k) 8 = 0 then 0xff else 0 := by
  have h8 : xlenBits c / 8 ≤ 8 := Nat.div_le_div_right (xlenBits_le c)
  rw [tstnbzValue, truncX_leValue (by simp [leBytes_length]),
    leValue_extractLsb' _ k (by simpa [leBytes_length]) (by simpa [leBytes_length])]
  simp [leBytes]

theorem tstValue_toNat (c : Config) (a : Word) (imm6 : BitVec 6) :
    (truncX c (tstValue a imm6)).toNat = a.toNat / 2 ^ imm6.toNat % 2 := by
  have hbit : (a.getLsbD imm6.toNat).toNat = a.toNat / 2 ^ imm6.toNat % 2 := Nat.toNat_testBit ..
  rw [truncX_toNat, tstValue, BitVec.toNat_setWidth, BitVec.toNat_ofBool, hbit]
  rcases xlenBits_cases c with h | h <;> rw [h] <;> omega

/-! ## Outcomes of the forms with a condition -/

/-- The three outcomes of an available bit-field extraction (42 R234; decisions D14, D15). -/
theorem execExtract_eq {s : State} {i : Instr} (ha : available s i = true) (rd : Reg) (imm1 imm2 : BitVec 6)
    (v : Word) : execExtract i rd imm1 imm2 v s =
      if imm1.toNat < imm2.toNat then .refused .reservedField
      else if xlenBits s.cfg ≤ imm1.toNat then .refused .reservedBitIndex
      else finishX s rd v := by
  simp [execExtract, ha, fieldOk, indexOk]

/-- The two outcomes of an available bit test (42 R241; decision D15). -/
theorem exec_tst {s : State} (he : enabled s .xTheadBs = true) (rd rs1 : Reg) (imm6 : BitVec 6) :
    exec (.tst rd rs1 imm6) s =
      if xlenBits s.cfg ≤ imm6.toNat then .refused .reservedBitIndex
      else finishX s rd (tstValue (readX s rs1) imm6) := by
  have ha : available s (.tst rd rs1 imm6) = true := he
  show execTst rd rs1 imm6 s = _
  simp [execTst, ha, indexOk]

theorem execMove_spec {s : State} {i : Instr} (ha : available s i = true) (rd rs1 : Reg) (cond : Bool) :
    ∃ t, execMove i rd rs1 cond s = .next t ∧ NextInsn s t ∧ RegistersOnly s t (if cond then [rd] else []) ∧
      (rd ≠ 0 → readX t rd = if cond then readX s rs1 else readX s rd) := by
  unfold execMove
  rw [ha, requireLegal_true]
  cases cond with
  | false => exact ⟨_, rfl, nextInsn_advance s s rfl rfl, registersOnly_advance s, fun _ => rfl⟩
  | true => simpa using finishX_spec s rd (readX s rs1)

/-! ## The statements -/

/-- Settles O21. -/
theorem addslResult : Obligations.AddslResult := by
  unfold Obligations.AddslResult
  refine fun s rd rs1 rs2 imm2 => ⟨rfl, fun he => ?_⟩
  obtain ⟨t, hexec, hnext, hframe, hvalue⟩ := execArith_spec (.addsl rd rs1 rs2 imm2) rd
    (addslValue (readX s rs1) (readX s rs2) imm2) s he
  refine ⟨t, hexec, hnext, hframe, fun h0 => ?_⟩
  rw [hvalue h0, addslValue_toNat]

/-- Settles O22. -/
theorem srriResult : Obligations.SrriResult := by
  unfold Obligations.SrriResult
  refine fun s rd rs1 imm6 => ⟨rfl, fun he => ?_⟩
  obtain ⟨t, hexec, hnext, hframe, hvalue⟩ := execArith_spec (.srri rd rs1 imm6) rd
    (srriValue s.cfg (readX s rs1) imm6) s he
  refine ⟨t, hexec, hnext, hframe, fun h0 k _ => ?_⟩
  rw [hvalue h0, srriValue_getLsbD]

/-- Settles O23. -/
theorem wordResults : Obligations.WordResults := by
  unfold Obligations.WordResults
  intro s rd rs1 imm5 he h64
  have ha : (enabled s .xTheadBb && isRv64 s.cfg) = true := by simp [he, isRv64, h64]
  refine ⟨?srriw, ?revw⟩
  case srriw =>
    obtain ⟨t, hexec, hnext, hframe, hvalue⟩ := execArith_spec (.srriw rd rs1 imm5) rd
      (srriwValue s.cfg (readX s rs1) imm5) s ha
    refine ⟨t, hexec, hnext, hframe, fun h0 k hk => ?_⟩
    rw [hvalue h0, srriwValue_getLsbD h64 _ _ hk]
  case revw =>
    obtain ⟨t, hexec, hnext, hframe, hvalue⟩ := execArith_spec (.revw rd rs1) rd
      (revwValue s.cfg (readX s rs1)) s ha
    refine ⟨t, hexec, hnext, hframe, fun h0 k hk => ?_⟩
    rw [hvalue h0, revwValue_getLsbD h64 _ hk]

/-- Settles O24. -/
theorem extractResults : Obligations.ExtractResults := by
  unfold Obligations.ExtractResults
  intro s rd rs1 imm1 imm2 he
  have hext : exec (.ext rd rs1 imm1 imm2) s = _ := execExtract_eq (i := .ext rd rs1 imm1 imm2) he ..
  have hextu : exec (.extu rd rs1 imm1 imm2) s = _ := execExtract_eq (i := .extu rd rs1 imm1 imm2) he ..
  refine ⟨fun hfield hindex => ?inside, fun hfield => ?noField, fun hfield hindex => ?noBit⟩
  case inside =>
    rw [if_neg (by omega), if_neg (by omega)] at hext hextu
    rw [hext, hextu]
    constructor
    · obtain ⟨t, hexec, hnext, hframe, hvalue⟩ := finishX_spec s rd (sextX s.cfg (fieldOf (readX s rs1) imm1 imm2))
      refine ⟨t, hexec, hnext, hframe, fun h0 k hk => ?_⟩
      rw [hvalue h0, sextX_fieldOf_getLsbD _ _ hfield hk]
    · obtain ⟨t, hexec, hnext, hframe, hvalue⟩ := finishX_spec s rd (zextX s.cfg (fieldOf (readX s rs1) imm1 imm2))
      refine ⟨t, hexec, hnext, hframe, fun h0 k hk => ?_⟩
      rw [hvalue h0, zextX_fieldOf_getLsbD _ _ _ _ hk]
  case noField =>
    rw [if_pos hfield] at hext hextu
    simp [hext, hextu]
  case noBit =>
    rw [if_neg (by omega), if_pos hindex] at hext hextu
    simp [hext, hextu]

/-- Settles O25. -/
theorem findFirstResults : Obligations.FindFirstResults := by
  unfold Obligations.FindFirstResults
  refine fun s rd rs1 => ⟨rfl, rfl, fun he => List.forall_mem_cons.2 ⟨?ff0, List.forall_mem_singleton.2 ?ff1⟩⟩
  case ff0 =>
    obtain ⟨t, hexec, hnext, hframe, hvalue⟩ := execArith_spec (.ff0 rd rs1) rd (ff0Value s.cfg (readX s rs1)) s he
    exact ⟨t, hexec, hnext, hframe, fun h0 => leadingRun_findsFirst s.cfg _ false (hvalue h0)⟩
  case ff1 =>
    obtain ⟨t, hexec, hnext, hframe, hvalue⟩ := execArith_spec (.ff1 rd rs1) rd (ff1Value s.cfg (readX s rs1)) s he
    exact ⟨t, hexec, hnext, hframe, fun h0 => leadingRun_findsFirst s.cfg _ true (hvalue h0)⟩

/-- Settles O26. -/
theorem byteResults : Obligations.ByteResults := by
  unfold Obligations.ByteResults
  refine fun s rd rs1 => ⟨rfl, rfl, fun he => ⟨?rev, ?tstnbz⟩⟩
  case rev =>
    obtain ⟨t, hexec, hnext, hframe, hvalue⟩ := execArith_spec (.rev rd rs1) rd (revValue s.cfg (readX s rs1)) s he
    refine ⟨t, hexec, hnext, hframe, fun h0 => ?_⟩
    rw [hvalue h0]
    exact ⟨truncX_lt .., fun k hk => revValue_extractLsb' _ _ hk⟩
  case tstnbz =>
    obtain ⟨t, hexec, hnext, hframe, hvalue⟩ := execArith_spec (.tstnbz rd rs1) rd
      (tstnbzValue s.cfg (readX s rs1)) s he
    refine ⟨t, hexec, hnext, hframe, fun h0 => ?_⟩
    rw [hvalue h0]
    exact ⟨truncX_lt .., fun k hk => tstnbzValue_extractLsb' _ _ hk⟩

/-- Settles O27. -/
theorem tstResult : Obligations.TstResult := by
  unfold Obligations.TstResult
  refine fun s rd rs1 imm6 he => ⟨fun hindex => ?_, fun hindex => by rw [exec_tst he, if_pos hindex]⟩
  rw [exec_tst he, if_neg (by omega)]
  obtain ⟨t, hexec, hnext, hframe, hvalue⟩ := finishX_spec s rd (tstValue (readX s rs1) imm6)
  refine ⟨t, hexec, hnext, hframe, fun h0 => ?_⟩
  rw [hvalue h0, tstValue_toNat]

/-- Settles O28. -/
theorem conditionalMoves : Obligations.ConditionalMoves := by
  unfold Obligations.ConditionalMoves
  refine fun s rd rs1 rs2 => ⟨rfl, rfl, fun he =>
    List.forall_mem_cons.2 ⟨?mveqz, List.forall_mem_singleton.2 ?mvnez⟩⟩
  case mveqz => exact execMove_spec (i := .mveqz rd rs1 rs2) he rd rs1 (readX s rs2 == 0)
  case mvnez =>
    have hcond : (readX s rs2 != 0) = decide (readX s rs2 ≠ 0) := by rw [bne, decide_not]; rfl
    rw [← hcond]
    exact execMove_spec (i := .mvnez rd rs1 rs2) he rd rs1 (readX s rs2 != 0)

end Sys2Proof
end

section
/-! SUPPORT. The increment forms of XTheadMemIdx (43 R260 to R284) and the operands and frames that are refused by name:
all forms of a kind in one shape, and what each outcome of that shape is. -/

namespace Sys2Proof

open Machine

/-! ## The forms -/

section

variable {mk : Reg → Reg → BitVec 5 → BitVec 2 → Instr}
  {run : Instr → Reg → Reg → BitVec 5 → BitVec 2 → State → Result} {n : Nat} {rv64Only : Bool}

/-- What the increment forms have in common: `mk` runs as `run` does, belongs to XTheadMemIdx, on RV64 alone or on
both widths (00 R7), and accesses `n` bytes, no more than a register has. -/
structure IncrementForm (mk : Reg → Reg → BitVec 5 → BitVec 2 → Instr)
    (run : Instr → Reg → Reg → BitVec 5 → BitVec 2 → State → Result) (n : Nat) (rv64Only : Bool) : Prop where
  exec_eq : ∀ rd rs1 imm5 imm2 s,
    exec (mk rd rs1 imm5 imm2) s = run (mk rd rs1 imm5 imm2) rd rs1 imm5 imm2 s
  available_eq : ∀ rd rs1 imm5 imm2 s, available s (mk rd rs1 imm5 imm2) =
    bif rv64Only then enabled s .xTheadMemIdx && isRv64 s.cfg else enabled s .xTheadMemIdx
  width : n ≤ if rv64Only then 8 else 4

theorem IncrementForm.available (h : IncrementForm mk run n rv64Only) {s : State}
    (he : enabled s .xTheadMemIdx = true) (hx : rv64Only = true → s.cfg.xlen = .rv64) (rd rs1 : Reg)
    (imm5 : BitVec 5) (imm2 : BitVec 2) : available s (mk rd rs1 imm5 imm2) = true := by
  rw [h.available_eq]
  cases rv64Only with
  | false => exact he
  | true => simp [he, isRv64, hx rfl]

theorem IncrementForm.fits (h : IncrementForm mk run n rv64Only) {s : State}
    (hx : rv64Only = true → s.cfg.xlen = .rv64) : 8 * n ≤ xlenBits s.cfg := by
  cases rv64Only with
  | false =>
    have hn : n ≤ 4 := h.width
    rcases xlenBits_cases s.cfg with h32 | h64 <;> omega
  | true =>
    have hn : n ≤ 8 := h.width
    have h64 := (xlenBits_eq_64 s.cfg).2 (hx rfl)
    omega

end

/-! ## Outcomes of an available form -/

section

variable {i : Instr} {s : State} {o : When} {e : Extend} {n : Nat} {rd rs1 : Reg} {imm5 : BitVec 5} {imm2 : BitVec 2}
  {pas : List Nat}

theorem execLoadInc_reserved (ha : available s i = true) :
    execLoadInc i o e n rs1 rs1 imm5 imm2 s = .refused .reservedOperands := by
  simp [execLoadInc, ha, incLoadOk]

/-- An increment load that raises nothing (43 R260 to R262). -/
theorem execLoadInc_of_maps (ha : available s i = true) (hn : 8 * n ≤ xlenBits s.cfg) (hne : rd ≠ rs1)
    (hm : AccessMaps s .load (incAddr s o rs1 imm5 imm2) n pas) :
    ∃ t, execLoadInc i o e n rd rs1 imm5 imm2 s = .next t ∧ NextInsn s t ∧ RegistersOnly s t [rd, rs1] ∧
      (rd ≠ 0 → Extends s.cfg e n (loadedNat s pas) (readX t rd)) ∧
      (rs1 ≠ 0 → IncrementedBase s rs1 imm5 imm2 (readX t rs1)) := by
  have h8 : n ≤ 8 := by rcases xlenBits_cases s.cfg with h | h <;> omega
  obtain ⟨v, hrun, hval, hlt⟩ := withLoad_of_maps h8 hm fun s' v =>
    finishX (writeX s' rd (extendLoad s.cfg e n v)) rs1 (newBase s rs1 imm5 imm2)
  refine ⟨_, by simpa [execLoadInc, ha, incLoadOk, hne, finishX] using hrun, nextInsn_advance _ _ (by simp) (by simp),
    registersOnly_writeX_writeX .., fun hd => ?value, fun hb => ?base⟩
  case value =>
    rw [readX_advance, readX_writeX_of_ne _ _ _ _ hne, readX_writeX_self _ _ _ hd, ← hval]
    exact extendLoad_extends _ _ _ _ hlt hn
  case base =>
    rw [readX_advance, readX_writeX_self _ _ _ hb, writeX_cfg, truncX_newBase]
    exact newBase_spec s rs1 imm5 imm2

/-- Decision D16 with `SIB_SAME_REG` = refuse. -/
theorem execStoreInc_refused (ha : available s i = true) (hr : s.cfg.sibSameReg = .refuse) :
    execStoreInc i .before n rs1 rs1 imm5 imm2 s = .refused .sibSameReg := by
  simp [execStoreInc, ha, incStoreValue, hr]

/-- An increment store that raises nothing and is not refused (43 R260 to R262; decision D16). -/
theorem execStoreInc_of_maps (ha : available s i = true)
    (hr : ¬(o = .before ∧ rd = rs1 ∧ s.cfg.sibSameReg = .refuse))
    (hm : AccessMaps s .store (incAddr s o rs1 imm5 imm2) n pas) :
    ∃ t, execStoreInc i o n rd rs1 imm5 imm2 s = .next t ∧ NextInsn s t ∧ StorageFrame s t [rs1] pas ∧
      (rs1 ≠ 0 → IncrementedBase s rs1 imm5 imm2 (readX t rs1)) ∧
      (StorageInv s → pas.Nodup → HoldsBytes t pas
        (if o = .before ∧ rd = rs1 ∧ rs1 ≠ 0 ∧ s.cfg.sibSameReg = .new
          then newBase s rs1 imm5 imm2 else readX s rd)) := by
  have hvalue := incStoreValue_spec s o rd rs1 imm5 imm2 hr
  generalize (if o = .before ∧ rd = rs1 ∧ rs1 ≠ 0 ∧ s.cfg.sibSameReg = .new
    then newBase s rs1 imm5 imm2 else readX s rd) = v at hvalue ⊢
  obtain ⟨u, hrun, hstored⟩ := withStores_of_maps [(⟨incAddr s o rs1 imm5 imm2, n, v⟩, pas)]
    (quiet_single (q := ⟨incAddr s o rs1 imm5 imm2, n, v⟩) hm) (by simpa using hm)
    fun s' => finishX s' rs1 (newBase s rs1 imm5 imm2)
  have hcfg : u.cfg = s.cfg := hstored.only.cfg
  have hpc : u.pc = s.pc := by rw [hstored.only.form]
  refine ⟨_, by simpa [execStoreInc, ha, hvalue, finishX] using hrun,
    nextInsn_advance _ _ (by simp [hcfg]) (by simp [hpc]),
    by simpa using hstored.frame_writeX rs1 (newBase s rs1 imm5 imm2), fun hb => ?base, fun hs hd => ?bytes⟩
  case base =>
    rw [readX_advance, readX_writeX_self _ _ _ hb, hcfg, truncX_newBase]
    exact newBase_spec s rs1 imm5 imm2
  case bytes =>
    have hheld : HoldsBytes u pas v := hstored.holds hs (by simpa using hd) _ List.mem_cons_self
    refine hheld.congr fun a => ?_
    obtain ⟨_, _, hdata, _⟩ := (registersOnly_writeX u rs1 (newBase s rs1 imm5 imm2)).bytes a
    exact hdata

end

/-! ## Other refusals -/

section

variable {i : Instr} {s : State}

/-- A pair load of two equal registers is reserved (45 R341, decision D6). -/
theorem execLoadPair_reserved {e : Extend} {n : Nat} {rd1 rd2 rs1 : Reg} {imm2 : BitVec 2}
    (ha : available s i = true) (hr : rd1 = rd2 ∨ rd1 = rs1 ∨ rd2 = rs1) :
    execLoadPair i e n rd1 rd2 rs1 imm2 s = .refused .reservedOperands := by
  have hbad : pairLoadOk rd1 rd2 rs1 = false := by
    rcases hr with rfl | rfl | rfl <;> simp [pairLoadOk]
  simp [execLoadPair, ha, hbad]

/-- The interrupt frame on RV64 without `XTHEADINT_ON_RV64` (48 R402, decision D19). -/
theorem execInM_refused {run : Result} (ha : available s i = true) (hm : s.priv = .m) (hx : s.cfg.xlen = .rv64)
    (hno : s.cfg.xtheadintOnRv64 = false) : execInM i s run = .refused .rv64Frame := by
  simp [execInM, ha, hm, isRv64, hx, hno]

end

/-! ## The statements -/

/-- Settles O33. -/
theorem incrementLoads : Obligations.IncrementLoads := by
  unfold Obligations.IncrementLoads
  intro ⟨mk, o, e, n, rv64Only⟩ hp s rd rs1 imm5 imm2 pas he hx hne hm
  have form : IncrementForm mk (execLoadInc · o e n) n rv64Only := by
    fin_cases hp <;> exact ⟨fun _ _ _ _ _ => rfl, fun _ _ _ _ _ => rfl, by decide⟩
  rw [form.exec_eq]
  exact execLoadInc_of_maps (form.available he hx ..) (form.fits hx) hne hm

/-- Settles O34. -/
theorem incrementStores : Obligations.IncrementStores := by
  unfold Obligations.IncrementStores
  intro ⟨mk, o, n, rv64Only⟩ hp s rd rs1 imm5 imm2 pas he hx
  have form : IncrementForm mk (execStoreInc · o n) n rv64Only := by
    fin_cases hp <;> exact ⟨fun _ _ _ _ _ => rfl, fun _ _ _ _ _ => rfl, by decide⟩
  have ha := form.available he hx rd rs1 imm5 imm2
  rw [form.exec_eq]
  refine ⟨?refused, fun hr hm => execStoreInc_of_maps ha hr hm⟩
  rintro ⟨rfl, rfl, hr⟩
  exact execStoreInc_refused ha hr

/-- Settles O45. -/
theorem reservedIsRefused : Obligations.ReservedIsRefused := by
  unfold Obligations.ReservedIsRefused
  intro s a b c m k
  refine ⟨fun i hi ha => ?increment, fun hr i hi ha => ?pair, fun hm hx hno i hi ha => ?frame⟩
  case increment => fin_cases hi <;> exact execLoadInc_reserved ha
  case pair => fin_cases hi <;> exact execLoadPair_reserved ha hr
  case frame => fin_cases hi <;> exact execInM_refused ha hm hx hno

end Sys2Proof
end

section
/-! SUPPORT. The register-indexed forms of XTheadMemIdx (44 R300 to R323): what an available load or store of that shape
does when its access maps. -/

namespace Sys2Proof

open Machine

/-! ## Outcomes of an available form -/

section

variable {i : Instr} {s : State} {k : Index} {e : Extend} {n : Nat} {rd rs1 rs2 : Reg} {imm2 : BitVec 2}
  {pas : List Nat}

/-- A register-indexed load that raises nothing (44 R300, R301). -/
theorem execLoadIdx_of_maps (ha : available s i = true) (hn : 8 * n ≤ xlenBits s.cfg)
    (hm : AccessMaps s .load (indexedAddr s k rs1 rs2 imm2) n pas) :
    ∃ t, execLoadIdx i k e n rd rs1 rs2 imm2 s = .next t ∧ NextInsn s t ∧ RegistersOnly s t [rd] ∧
      (rd ≠ 0 → Extends s.cfg e n (loadedNat s pas) (readX t rd)) := by
  have h8 : n ≤ 8 := by have := xlenBits_le s.cfg; omega
  obtain ⟨v, hrun, hval, hlt⟩ := withLoad_of_maps h8 hm fun s' v => finishX s' rd (extendLoad s.cfg e n v)
  obtain ⟨t, hfinish, hnext, hframe, hvalue⟩ := finishX_spec s rd (extendLoad s.cfg e n v)
  have hexec : execLoadIdx i k e n rd rs1 rs2 imm2 s = .next t := by
    rw [execLoadIdx, ha, requireLegal_true, hrun, hfinish]
  refine ⟨t, hexec, hnext, hframe, fun hd => ?_⟩
  rw [hvalue hd, ← hval]
  exact extendLoad_extends _ _ _ _ hlt hn

/-- A register-indexed store that raises nothing (44 R300, R301). -/
theorem execStoreIdx_of_maps (ha : available s i = true)
    (hm : AccessMaps s .store (indexedAddr s k rs1 rs2 imm2) n pas) :
    ∃ t, execStoreIdx i k n rd rs1 rs2 imm2 s = .next t ∧ NextInsn s t ∧ StorageFrame s t [] pas ∧
      (StorageInv s → pas.Nodup → HoldsBytes t pas (readX s rd)) := by
  obtain ⟨u, hrun, hstored⟩ := withStores_of_maps [(⟨indexedAddr s k rs1 rs2 imm2, n, readX s rd⟩, pas)]
    (quiet_single (q := ⟨indexedAddr s k rs1 rs2 imm2, n, readX s rd⟩) hm) (by simpa using hm)
    fun s' => .next (advance s')
  have hexec : execStoreIdx i k n rd rs1 rs2 imm2 s = .next (advance u) := by
    rw [execStoreIdx, ha, requireLegal_true]
    exact hrun
  have hpc : u.pc = s.pc := by rw [hstored.only.form]
  refine ⟨_, hexec, nextInsn_advance _ _ hstored.only.cfg hpc, by simpa using hstored.frame, fun hs hd => ?_⟩
  have hheld : HoldsBytes u pas (readX s rd) := hstored.holds hs (by simpa using hd) _ List.mem_cons_self
  exact hheld.congr fun _ => rfl

end

/-! ## The statements -/

/-- Settles O35. A register number and an `imm5` are both five bits, so `IncrementForm` says what the indexed forms have
in common too. -/
theorem indexedLoads : Obligations.IndexedLoads := by
  unfold Obligations.IndexedLoads
  intro ⟨mk, k, e, n, rv64Only⟩ hp s rd rs1 rs2 imm2 pas he hx hm
  have form : IncrementForm mk (execLoadIdx · k e n) n rv64Only := by
    fin_cases hp <;> exact ⟨fun _ _ _ _ _ => rfl, fun _ _ _ _ _ => rfl, by decide⟩
  rw [form.exec_eq]
  exact execLoadIdx_of_maps (form.available he hx ..) (form.fits hx) hm

/-- Settles O36. -/
theorem indexedStores : Obligations.IndexedStores := by
  unfold Obligations.IndexedStores
  intro ⟨mk, k, n, rv64Only⟩ hp s rd rs1 rs2 imm2 pas he hx hm
  have form : IncrementForm mk (execStoreIdx · k n) n rv64Only := by
    fin_cases hp <;> exact ⟨fun _ _ _ _ _ => rfl, fun _ _ _ _ _ => rfl, by decide⟩
  rw [form.exec_eq]
  exact execStoreIdx_of_maps (form.available he hx ..) hm

end Sys2Proof
end

section
/-! SUPPORT. The pair forms of XTheadMemPair (45 R340 to R346) with nothing between their two accesses: what an available
pair does when both halves map, and when one or both raise an exception. -/

namespace Sys2Proof

open Machine

/-! ## The forms -/

/-- Accesses of 4 bytes fit in an integer register, and of 8 bytes on RV64. -/
theorem fits_of_width {c : Config} {n : Nat} (h : n ≤ 4 ∨ n ≤ 8 ∧ isRv64 c = true) : 8 * n ≤ xlenBits c := by
  rcases h with h | ⟨h, hx⟩
  · rcases xlenBits_cases c with h32 | h64 <;> omega
  · have h64 := (xlenBits_eq_64 c).2 (by simpa [isRv64] using hx)
    omega

section

variable {mk : Reg → Reg → Reg → BitVec 2 → Instr}
  {run : Instr → Reg → Reg → Reg → BitVec 2 → State → Result} {n : Nat} {rv64Only : Bool}

/-- What the pair forms have in common: `mk` runs as `run` does, belongs to XTheadMemPair, on RV64 alone or on both
widths (00 R7), and has elements of 8 bytes in the first case and of 4 in the second. -/
structure PairForm (mk : Reg → Reg → Reg → BitVec 2 → Instr)
    (run : Instr → Reg → Reg → Reg → BitVec 2 → State → Result) (n : Nat) (rv64Only : Bool) : Prop where
  exec_eq : ∀ rd1 rd2 rs1 imm2 s, exec (mk rd1 rd2 rs1 imm2) s = run (mk rd1 rd2 rs1 imm2) rd1 rd2 rs1 imm2 s
  available_eq : ∀ rd1 rd2 rs1 imm2 s, available s (mk rd1 rd2 rs1 imm2) =
    bif rv64Only then enabled s .xTheadMemPair && isRv64 s.cfg else enabled s .xTheadMemPair
  width : n = bif rv64Only then 8 else 4

theorem PairForm.available (h : PairForm mk run n rv64Only) {s : State} (he : enabled s .xTheadMemPair = true)
    (hx : rv64Only = true → s.cfg.xlen = .rv64) (rd1 rd2 rs1 : Reg) (imm2 : BitVec 2) :
    available s (mk rd1 rd2 rs1 imm2) = true := by
  rw [h.available_eq]
  cases rv64Only with
  | false => exact he
  | true => simp [he, isRv64, hx rfl]

theorem PairForm.fits (h : PairForm mk run n rv64Only) {s : State} (hx : rv64Only = true → s.cfg.xlen = .rv64) :
    8 * n ≤ xlenBits s.cfg := by
  have hn := h.width
  cases rv64Only with
  | false => exact fits_of_width (.inl hn.le)
  | true => exact fits_of_width (.inr ⟨hn.le, by simp [isRv64, hx rfl]⟩)

theorem PairForm.element (h : PairForm mk run n rv64Only) : n = 4 ∨ n = 8 := by
  have hn := h.width
  cases rv64Only with
  | false => exact .inl hn
  | true => exact .inr hn

end

theorem pairForm_ldd : PairForm .ldd (execLoadPair · .sign 8) 8 true := ⟨fun _ _ _ _ _ => rfl, fun _ _ _ _ _ => rfl, rfl⟩

theorem pairForm_lwd : PairForm .lwd (execLoadPair · .sign 4) 4 false := ⟨fun _ _ _ _ _ => rfl, fun _ _ _ _ _ => rfl, rfl⟩

theorem pairForm_lwud : PairForm .lwud (execLoadPair · .zero 4) 4 false :=
  ⟨fun _ _ _ _ _ => rfl, fun _ _ _ _ _ => rfl, rfl⟩

theorem pairForm_sdd : PairForm .sdd (execStorePair · 8) 8 true := ⟨fun _ _ _ _ _ => rfl, fun _ _ _ _ _ => rfl, rfl⟩

theorem pairForm_swd : PairForm .swd (execStorePair · 4) 4 false := ⟨fun _ _ _ _ _ => rfl, fun _ _ _ _ _ => rfl, rfl⟩

/-! ## The end of an instruction after its accesses -/

/-- An instruction that goes on from where agents left the machine goes on from where it was. -/
theorem AgentsOnly.nextInsn {s u t : State} (h : AgentsOnly s u) (hn : NextInsn u t) : NextInsn s t := by
  obtain ⟨hcfg, hpc, _⟩ := h.same
  unfold NextInsn at hn ⊢
  rw [hn, hcfg, hpc]

/-- Completing with values for two registers. -/
theorem finishX_writeX_spec (s : State) {rd q : Reg} (hne : rd ≠ q) (v w : Word) :
    ∃ t, finishX (writeX s rd v) q w = .next t ∧ NextInsn s t ∧ RegistersOnly s t [rd, q] ∧
      (rd ≠ 0 → readX t rd = truncX s.cfg v) ∧ (q ≠ 0 → readX t q = truncX s.cfg w) := by
  refine ⟨_, rfl, nextInsn_advance _ _ (by simp) (by simp), registersOnly_writeX_writeX .., fun hd => ?_, fun hq => ?_⟩
  · rw [readX_advance, readX_writeX_of_ne _ _ _ _ hne, readX_writeX_self _ _ _ hd]
  · rw [readX_advance, readX_writeX_self _ _ _ hq, writeX_cfg]

/-- What a pair load does with its two values (45 R340). -/
def finishPair (s : State) (e : Extend) (n : Nat) (rd1 rd2 : Reg) (u : State) (vs : List Word) : Result :=
  finishX (writeX u rd1 (extendLoad s.cfg e n (vs.getD 0 0))) rd2 (extendLoad s.cfg e n (vs.getD 1 0))

/-- A pair load completes in the state the agents left, with its two values extended. -/
theorem finishPair_spec {s u : State} {e : Extend} {n : Nat} {rd1 rd2 : Reg} {vs : List Word} (hu : AgentsOnly s u)
    (hn : 8 * n ≤ xlenBits s.cfg) (hne : rd1 ≠ rd2) (h0 : (vs.getD 0 0).toNat < 256 ^ n)
    (h1 : (vs.getD 1 0).toNat < 256 ^ n) :
    ∃ t, finishPair s e n rd1 rd2 u vs = .next t ∧ NextInsn s t ∧ RegistersOnly u t [rd1, rd2] ∧
      (rd1 ≠ 0 → Extends s.cfg e n (vs.getD 0 0).toNat (readX t rd1)) ∧
      (rd2 ≠ 0 → Extends s.cfg e n (vs.getD 1 0).toNat (readX t rd2)) := by
  obtain ⟨t, hrun, hnext, hframe, hr1, hr2⟩ := finishX_writeX_spec u hne (extendLoad s.cfg e n (vs.getD 0 0))
    (extendLoad s.cfg e n (vs.getD 1 0))
  obtain ⟨hcfg, _⟩ := hu.same
  refine ⟨t, hrun, hu.nextInsn hnext, hframe, fun hd => ?_, fun hd => ?_⟩
  · rw [hr1 hd, hcfg]; exact extendLoad_extends _ _ _ _ h0 hn
  · rw [hr2 hd, hcfg]; exact extendLoad_extends _ _ _ _ h1 hn

/-! ## Outcomes of an available form -/

section

variable {i : Instr} {s : State} {e : Extend} {n : Nat} {rd1 rd2 rs1 : Reg} {imm2 : BitVec 2} {pas1 pas2 : List Nat}

theorem execLoadPair_eq (ha : available s i = true) (h12 : rd1 ≠ rd2) (h1s : rd1 ≠ rs1) (h2s : rd2 ≠ rs1) :
    execLoadPair i e n rd1 rd2 rs1 imm2 s =
      withLoads s [⟨pairAddr s n rs1 imm2, n, 0⟩, ⟨pairAddr2 s n rs1 imm2, n, 0⟩] (finishPair s e n rd1 rd2) := by
  have hok : pairLoadOk rd1 rd2 rs1 = true := by simp [pairLoadOk, h12, h1s, h2s]
  rw [execLoadPair, ha, requireLegal_true, hok]
  rfl

theorem execStorePair_eq (ha : available s i = true) :
    execStorePair i n rd1 rd2 rs1 imm2 s =
      withStores s [⟨pairAddr s n rs1 imm2, n, readX s rd1⟩, ⟨pairAddr2 s n rs1 imm2, n, readX s rd2⟩]
        fun u => .next (advance u) := by
  simp [execStorePair, ha]

/-- A pair load of which both halves map (45 R340, R341). -/
theorem execLoadPair_of_maps (ha : available s i = true) (hn : 8 * n ≤ xlenBits s.cfg) (hg : s.inter.gaps = [])
    (h12 : rd1 ≠ rd2) (h1s : rd1 ≠ rs1) (h2s : rd2 ≠ rs1)
    (hm1 : AccessMaps s .load (pairAddr s n rs1 imm2) n pas1)
    (hm2 : AccessMaps s .load (pairAddr2 s n rs1 imm2) n pas2) :
    ∃ t, execLoadPair i e n rd1 rd2 rs1 imm2 s = .next t ∧ NextInsn s t ∧ RegistersOnly s t [rd1, rd2] ∧
      (rd1 ≠ 0 → Extends s.cfg e n (loadedNat s pas1) (readX t rd1)) ∧
      (rd2 ≠ 0 → Extends s.cfg e n (loadedNat s pas2) (readX t rd2)) := by
  have h8 : n ≤ 8 := by have := xlenBits_le s.cfg; omega
  obtain ⟨hv1, hlt1⟩ := leValue_loaded s pas1 n hm1.length h8
  obtain ⟨hv2, hlt2⟩ := leValue_loaded s pas2 n hm2.length h8
  have hrun := withLoads_of_maps [(⟨pairAddr s n rs1 imm2, n, 0⟩, pas1), (⟨pairAddr2 s n rs1 imm2, n, 0⟩, pas2)]
    (.inl hg) (by simpa using ⟨hm1, hm2⟩) (finishPair s e n rd1 rd2)
  obtain ⟨t, hfinish, hspec⟩ := finishPair_spec (e := e) (.refl s) hn h12
    (vs := [leValue (pas1.map (dataByte s)), leValue (pas2.map (dataByte s))]) hlt1 hlt2
  refine ⟨t, ?_, by simpa [hv1, hv2] using hspec⟩
  rw [execLoadPair_eq ha h12 h1s h2s]
  exact hrun.trans hfinish

/-- A pair store of which both halves map (45 R340). -/
theorem execStorePair_of_maps (ha : available s i = true) (hg : s.inter.gaps = [])
    (hm1 : AccessMaps s .store (pairAddr s n rs1 imm2) n pas1)
    (hm2 : AccessMaps s .store (pairAddr2 s n rs1 imm2) n pas2) :
    ∃ t, execStorePair i n rd1 rd2 rs1 imm2 s = .next t ∧ NextInsn s t ∧ StorageFrame s t [] (pas1 ++ pas2) ∧
      (StorageInv s → (pas1 ++ pas2).Nodup →
        HoldsBytes t pas1 (readX s rd1) ∧ HoldsBytes t pas2 (readX s rd2)) := by
  obtain ⟨u, hrun, hstored⟩ := withStores_of_maps
    [(⟨pairAddr s n rs1 imm2, n, readX s rd1⟩, pas1), (⟨pairAddr2 s n rs1 imm2, n, readX s rd2⟩, pas2)]
    (.inl hg) (by simpa using ⟨hm1, hm2⟩) fun u => .next (advance u)
  have hpc : u.pc = s.pc := by rw [hstored.only.form]
  refine ⟨advance u, (execStorePair_eq ha).trans hrun, nextInsn_advance _ _ hstored.only.cfg hpc,
    by simpa using hstored.frame, fun hs hd => ?_⟩
  have hheld := hstored.holds hs (by simpa using hd)
  simp only [List.forall_mem_cons] at hheld
  obtain ⟨hheld1, hheld2, _⟩ := hheld
  exact ⟨hheld1.congr fun _ => rfl, hheld2.congr fun _ => rfl⟩

end

/-! ## The statements without an exception -/

/-- Settles O37. -/
theorem pairLoads : Obligations.PairLoads := by
  unfold Obligations.PairLoads
  intro ⟨mk, e, n, rv64Only⟩ hp s rd1 rd2 rs1 imm2 pas1 pas2 he hx hg h12 h1s h2s hm1 hm2
  have form : PairForm mk (execLoadPair · e n) n rv64Only := by
    fin_cases hp
    · exact pairForm_ldd
    · exact pairForm_lwd
    · exact pairForm_lwud
  rw [form.exec_eq]
  exact execLoadPair_of_maps (form.available he hx ..) (form.fits hx) hg h12 h1s h2s hm1 hm2

/-- Settles O38. -/
theorem pairStores : Obligations.PairStores := by
  unfold Obligations.PairStores
  intro ⟨mk, n, rv64Only⟩ hp s rd1 rd2 rs1 imm2 pas1 pas2 he hx hg hm1 hm2
  have form : PairForm mk (execStorePair · n) n rv64Only := by
    fin_cases hp
    · exact pairForm_sdd
    · exact pairForm_swd
  rw [form.exec_eq]
  exact execStorePair_of_maps (form.available he hx ..) hg hm1 hm2

end Sys2Proof
end

section
/-! SUPPORT. Pairs of which a half raises an exception (45 R340; 60 R455; decision D44), with nothing between the two
accesses: which exception is taken, and what a pair store leaves. -/

namespace Sys2Proof

open Machine

/-! ## The exception of a pair -/

theorem AccessMaps.not_raisesAt {s : State} {k : AccessKind} {va : Word} {n : Nat} {pas : List Nat}
    (hm : AccessMaps s k va n pas) (code : Nat) (info : Word) : ¬ RaisesAt s k va n code info := by
  intro hr
  obtain ⟨p, hp, herror⟩ := (raisesAt_iff (q := ⟨va, n, 0⟩) 0).1 hr
  obtain ⟨pa, hok, _⟩ := (partsOf_of_maps (q := ⟨va, n, 0⟩) (j := 0) hm).1 p hp
  rw [hok] at herror
  cases herror

/-- Of the accesses at two addresses one at the lower of those that raise an exception raises this one (60 R455). -/
def LowerRaises (s : State) (k : AccessKind) (va1 va2 : Word) (n code : Nat) (info : Word) : Prop :=
  ∃ va ∈ [va1, va2], RaisesAt s k va n code info ∧
    ∀ va' ∈ [va1, va2], (∃ c i, RaisesAt s k va' n c i) → va.toNat ≤ va'.toNat

theorem LowerRaises.symm {s : State} {k : AccessKind} {va1 va2 : Word} {n code : Nat} {info : Word}
    (h : LowerRaises s k va1 va2 n code info) : LowerRaises s k va2 va1 n code info := by
  have hmem : ∀ va, va ∈ [va2, va1] ↔ va ∈ [va1, va2] := fun va => by simp [or_comm]
  simpa only [LowerRaises, hmem] using h

/-- Where the second access maps, the exception is the first one's. -/
theorem LowerRaises.of_maps {s : State} {k : AccessKind} {va1 va2 : Word} {n code : Nat} {info : Word} {pas : List Nat}
    (h : LowerRaises s k va1 va2 n code info) (hm : AccessMaps s k va2 n pas) : RaisesAt s k va1 n code info := by
  obtain ⟨va, hva, hr, _⟩ := h
  simp only [List.mem_cons, List.not_mem_nil, or_false] at hva
  rcases hva with rfl | rfl
  · exact hr
  · exact absurd hr (hm.not_raisesAt code info)

/-- Where both accesses raise an exception, it is that of the one at the lower address. -/
theorem LowerRaises.lower {s : State} {k : AccessKind} {va1 va2 : Word} {n code : Nat} {info : Word}
    (h : LowerRaises s k va1 va2 n code info) (h1 : ∃ c i, RaisesAt s k va1 n c i)
    (h2 : ∃ c i, RaisesAt s k va2 n c i) :
    RaisesAt s k (if va2.toNat < va1.toNat then va2 else va1) n code info := by
  obtain ⟨va, hva, hr, hmin⟩ := h
  have hle1 := hmin va1 (by simp) h1
  have hle2 := hmin va2 (by simp) h2
  simp only [List.mem_cons, List.not_mem_nil, or_false] at hva
  rcases hva with rfl | rfl
  · rwa [if_neg (by omega)]
  · by_cases hlt : va.toNat < va1.toNat
    · rwa [if_pos hlt]
    · rw [if_neg hlt, BitVec.eq_of_toNat_eq (by omega : va1.toNat = va.toNat)]
      exact hr

/-! ## What a pair leaves -/

/-- A store to these addresses has been performed whole or not at all, and nothing else has been written. -/
structure StoredOrNot (s u : State) (pas : List Nat) (v : Word) : Prop where
  frame : ∀ a, a ∉ pas → SameBytes s u a
  bytes : (∀ a, SameBytes s u a) ∨ (StorageInv s → pas.Nodup → HoldsBytes u pas v)

theorem StoredOrNot.refl (s : State) (pas : List Nat) (v : Word) : StoredOrNot s s pas v :=
  ⟨fun a _ => .refl s a, .inl (.refl s)⟩

theorem StoredOrNot.of_frame {s u : State} {pas : List Nat} {v : Word} (hf : ∀ a, a ∉ pas → SameBytes s u a)
    (h : StorageInv s → pas.Nodup → (∀ a ∈ pas, SameBytes s u a) ∨ HoldsBytes u pas v) : StoredOrNot s u pas v := by
  refine ⟨hf, ?_⟩
  by_cases hall : ∀ a ∈ pas, SameBytes s u a
  · exact .inl fun a => if ha : a ∈ pas then hall a ha else hf a ha
  · exact .inr fun hs hd => (h hs hd).resolve_left hall

/-- What holds of a pair of accesses, of the values `v1` and `v2` if they store, of which one or both raise an exception:
the exception that `run` takes and the state `u` it takes it in. -/
structure PairTrapSpec (s : State) (k : AccessKind) (va1 va2 v1 v2 : Word) (n : Nat) (whole : Prop) (run : Result)
    (u : State) : Prop where
  takes : (∃ va ∈ [va1, va2], ∃ c i, RaisesAt s k va n c i) →
    ∃ code info, LowerRaises s k va1 va2 n code info ∧ run = .next (trap u code false info)
  of_load : k = .load → u = s
  partly : PartlyStored s u [va1, va2] n
  first_raises : whole → (∃ c i, RaisesAt s k va1 n c i) → ∀ pas, AccessMaps s k va2 n pas → StoredOrNot s u pas v2
  second_raises : whole → (∃ c i, RaisesAt s k va2 n c i) → ∀ pas, AccessMaps s k va1 n pas → StoredOrNot s u pas v1
  both_raise : whole → (∃ c i, RaisesAt s k va1 n c i) → (∃ c i, RaisesAt s k va2 n c i) → u = s

section

variable {i : Instr} {s : State} {e : Extend} {n : Nat} {rd1 rd2 rs1 : Reg} {imm2 : BitVec 2}

/-- A pair load that raises an exception changes nothing. -/
theorem execLoadPair_traps (ha : available s i = true) (hg : s.inter.gaps = []) (h12 : rd1 ≠ rd2) (h1s : rd1 ≠ rs1)
    (h2s : rd2 ≠ rs1) (v1 v2 : Word) (whole : Prop) :
    PairTrapSpec s .load (pairAddr s n rs1 imm2) (pairAddr2 s n rs1 imm2) v1 v2 n whole
      (execLoadPair i e n rd1 rd2 rs1 imm2 s) s where
  takes hr := by
    obtain ⟨q, hq, code, info, hraises, hmin, hrun⟩ := withLoads_raises
      (qs := [⟨pairAddr s n rs1 imm2, n, 0⟩, ⟨pairAddr2 s n rs1 imm2, n, 0⟩]) (.inl hg) (by simpa using hr)
      (finishPair s e n rd1 rd2)
    refine ⟨code, info, ⟨q.va, ?_, ?_, by simpa using hmin⟩, (execLoadPair_eq ha h12 h1s h2s).trans hrun⟩
    all_goals
      simp only [List.mem_cons, List.not_mem_nil, or_false] at hq
      rcases hq with rfl | rfl
    · simp
    · simp
    · exact hraises
    · exact hraises
  of_load _ := rfl
  partly := ⟨rfl, .refl s, fun a _ => .refl s a⟩
  first_raises _ _ pas _ := .refl s pas v2
  second_raises _ _ pas _ := .refl s pas v1
  both_raise _ _ _ := rfl

/-- What two stores one of which raises an exception leave, where they are stored whole or not at all. -/
theorem partialStore_pair {q1 q2 : Req} {pas1 pas2 : List Nat} (hg : s.inter.gaps = []) (hw : WholeStores s [q1, q2])
    (h1 : AccessMaps s .store q1.va q1.n pas1 ∨ (∃ c i, RaisesAt s .store q1.va q1.n c i) ∧ pas1 = [])
    (h2 : AccessMaps s .store q2.va q2.n pas2 ∨ (∃ c i, RaisesAt s .store q2.va q2.n c i) ∧ pas2 = []) :
    let u := partialStore s [q1, q2] (storeOutcomes s [q1, q2])
    (∀ a, a ∉ pas1 ++ pas2 → SameBytes s u a) ∧
    (StorageInv s → (pas1 ++ pas2).Nodup →
      ((∀ a ∈ pas1, SameBytes s u a) ∨ HoldsBytes u pas1 q1.value) ∧
        ((∀ a ∈ pas2, SameBytes s u a) ∨ HoldsBytes u pas2 q2.value)) ∧
    ((∃ c i, RaisesAt s .store q1.va q1.n c i) → (∃ c i, RaisesAt s .store q2.va q2.n c i) → u = s) := by
  have h := partialStore_whole [(q1, pas1), (q2, pas2)] (.inl hg) hw (by simpa using ⟨h1, h2⟩)
  simpa only [List.flatMap_cons, List.flatMap_nil, List.append_nil, List.forall_mem_cons, List.map_cons, List.map_nil,
    List.not_mem_nil, false_imp_iff, implies_true, forall_const, and_true, and_imp] using h

/-- A pair store that raises an exception. -/
theorem execStorePair_traps (ha : available s i = true) (hg : s.inter.gaps = []) (hn : n = 4 ∨ n = 8) :
    ∃ u, PairTrapSpec s .store (pairAddr s n rs1 imm2) (pairAddr2 s n rs1 imm2) (readX s rd1) (readX s rd2) n
      (s.cfg.misalignedPartial = false ∨ (pairAddr s n rs1 imm2).toNat % n = 0)
      (execStorePair i n rd1 rd2 rs1 imm2 s) u := by
  let q1 : Req := ⟨pairAddr s n rs1 imm2, n, readX s rd1⟩
  let q2 : Req := ⟨pairAddr2 s n rs1 imm2, n, readX s rd2⟩
  have hwhole : (s.cfg.misalignedPartial = false ∨ (pairAddr s n rs1 imm2).toNat % n = 0) → WholeStores s [q1, q2] := by
    rintro (hp | hal)
    · exact .inl hp
    · refine .inr fun q hq => .inl ?_
      simp only [List.mem_cons, List.not_mem_nil, or_false] at hq
      rcases hq with rfl | rfl
      · exact hal
      · exact (pairAddr2_mod s n rs1 imm2 hn).trans hal
  refine ⟨partialStore s [q1, q2] (storeOutcomes s [q1, q2]), fun hr => ?takes, nofun,
    partlyStored_of_raises (qs := [q1, q2]) (.inl hg) (by simp [q1, q2]), fun hw hr pas hm => ?first,
    fun hw hr pas hm => ?second, fun hw hr1 hr2 => ?both⟩
  case takes =>
    obtain ⟨q, hq, code, info, hraises, hmin, hrun⟩ := withStores_raises (qs := [q1, q2]) (.inl hg)
      (by simpa [q1, q2] using hr) fun u => .next (advance u)
    refine ⟨code, info, ⟨q.va, ?_, ?_, by simpa [q1, q2] using hmin⟩, (execStorePair_eq ha).trans hrun⟩
    all_goals
      simp only [List.mem_cons, List.not_mem_nil, or_false] at hq
      rcases hq with rfl | rfl
    · simp [q1]
    · simp [q2]
    · exact hraises
    · exact hraises
  case first =>
    obtain ⟨hframe, hbytes, _⟩ := partialStore_pair hg (hwhole hw) (.inr ⟨hr, rfl⟩) (.inl hm)
    exact .of_frame hframe fun hs hd => (hbytes hs hd).2
  case second =>
    obtain ⟨hframe, hbytes, _⟩ := partialStore_pair hg (hwhole hw) (.inl hm) (.inr ⟨hr, rfl⟩)
    rw [List.append_nil] at hframe hbytes
    exact .of_frame hframe fun hs hd => (hbytes hs hd).1
  case both =>
    obtain ⟨_, _, hnone⟩ := partialStore_pair hg (hwhole hw) (.inr ⟨hr1, rfl⟩) (.inr ⟨hr2, rfl⟩)
    exact hnone hr1 hr2

end

/-! ## The statement -/

/-- Settles O39. -/
theorem pairTraps : Obligations.PairTraps := by
  unfold Obligations.PairTraps
  intro ⟨mk, kind, n, rv64Only⟩ hp s rd1 rd2 rs1 imm2 he hx hg hd va1 va2 whole
  have traps : ∃ u, PairTrapSpec s kind va1 va2 (readX s rd1) (readX s rd2) n whole (exec (mk rd1 rd2 rs1 imm2) s) u := by
    have load : ∀ e, kind = .load → PairForm mk (execLoadPair · e n) n rv64Only →
        ∃ u, PairTrapSpec s kind va1 va2 (readX s rd1) (readX s rd2) n whole (exec (mk rd1 rd2 rs1 imm2) s) u := by
      rintro e rfl form
      obtain ⟨h12, h1s, h2s⟩ := hd rfl
      rw [form.exec_eq]
      exact ⟨s, execLoadPair_traps (form.available he hx ..) hg h12 h1s h2s ..⟩
    have store : kind = .store → PairForm mk (execStorePair · n) n rv64Only →
        ∃ u, PairTrapSpec s kind va1 va2 (readX s rd1) (readX s rd2) n whole (exec (mk rd1 rd2 rs1 imm2) s) u := by
      rintro rfl form
      have hwhole : whole ↔ s.cfg.misalignedPartial = false ∨ va1.toNat % n = 0 := by simp [whole]
      rw [form.exec_eq, hwhole]
      exact execStorePair_traps (form.available he hx ..) hg form.element
    fin_cases hp
    · exact load .sign rfl pairForm_ldd
    · exact load .sign rfl pairForm_lwd
    · exact load .zero rfl pairForm_lwud
    · exact store rfl pairForm_sdd
    · exact store rfl pairForm_swd
  obtain ⟨u, htraps⟩ := traps
  refine ⟨?one, fun hr1 hr2 => ?both⟩
  case one =>
    refine List.forall_mem_cons.2 ⟨fun pas hr hm => ?first, List.forall_mem_singleton.2 fun pas hr hm => ?second⟩
    case first =>
      obtain ⟨code, info, hlower, hrun⟩ := htraps.takes ⟨va1, by simp, hr⟩
      refine ⟨u, code, info, hlower.of_maps hm, hrun, htraps.of_load, htraps.partly, fun hw => ?_⟩
      obtain ⟨hframe, hbytes⟩ := htraps.first_raises hw hr pas hm
      exact ⟨hframe, hbytes⟩
    case second =>
      obtain ⟨code, info, hlower, hrun⟩ := htraps.takes ⟨va2, by simp, hr⟩
      refine ⟨u, code, info, hlower.symm.of_maps hm, hrun, htraps.of_load, htraps.partly, fun hw => ?_⟩
      obtain ⟨hframe, hbytes⟩ := htraps.second_raises hw hr pas hm
      exact ⟨hframe, hbytes⟩
  case both =>
    obtain ⟨code, info, hlower, hrun⟩ := htraps.takes ⟨va1, by simp, hr1⟩
    exact ⟨u, code, info, hlower.lower hr1 hr2, hrun, fun hw => htraps.both_raise hw hr1 hr2, htraps.partly⟩

end Sys2Proof
end

section
/-! SUPPORT. An aligned pair with other agents acting between its two accesses (45 R340; 70 R535): the access performed
first meets the state before, the other one what the agents then leave. -/

namespace Sys2Proof

open Machine

/-! ## The order of two accesses -/

/-- `qa`, the `ja`th of the accesses `q1` and `q2` of an instruction, is performed before `qb`, the `jb`th. -/
inductive PairOrder (s : State) (q1 q2 : Req) : Req → Nat → Req → Nat → Prop where
  | listed (h : s.inter.order.find? (· < 2) ≠ some 1) : PairOrder s q1 q2 q1 0 q2 1
  | swapped (h : s.inter.order.find? (· < 2) = some 1) : PairOrder s q1 q2 q2 1 q1 0

/-- What the agents make of a state in the first gap between the accesses of an instruction that starts in `s`. -/
def inGap (s u : State) : State := applyActs u (s.inter.gaps.headD [])

theorem agentsOnly_inGap (s u : State) : AgentsOnly u (inGap s u) := agentsOnly_applyActs u _

/-- What the first access has stored changes nothing about where the second one goes. -/
theorem resolvePart_inGap {s u : State} (h : StoresOnly s u) (k : AccessKind) (p : Part) :
    resolvePart (inGap s u) k p = resolvePart (inGap s s) k p :=
  (SameMaps.of_control (control_applyActs h.control _)).resolvePart k p

section

variable {s : State} {q1 q2 qa qb : Req} {ja jb : Nat}

theorem PairOrder.performAccesses_eq (order : PairOrder s q1 q2 qa ja qb jb) (hqa : qa.va.toNat % qa.n = 0)
    (hqb : qb.va.toNat % qb.n = 0) (f : State → Part → Except AccessFault (List Byte) × State) :
    performAccesses f s [q1, q2] =
      ([(wholePart qa ja, (f s (wholePart qa ja)).1),
        (wholePart qb jb, (f (inGap s (f s (wholePart qa ja)).2) (wholePart qb jb)).1)],
        (f (inGap s (f s (wholePart qa ja)).2) (wholePart qb jb)).2) := by
  cases order with
  | listed h =>
    obtain ⟨a, b, hab, hrun⟩ := performAccesses_pair f s q1 q2 hqa hqb
    rw [if_neg h] at hab
    cases hab
    exact hrun
  | swapped h =>
    obtain ⟨a, b, hab, hrun⟩ := performAccesses_pair f s q1 q2 hqb hqa
    rw [if_pos h] at hab
    cases hab
    exact hrun

/-- Of two exceptions the one of the second access is reported if its address is the lower one (60 R455). -/
theorem lowestFault_pair (a b : Part) (code1 code2 : Nat) (va1 va2 : Word) :
    lowestFault [(a, .error ⟨code1, va1, va1⟩), (b, .error ⟨code2, va2, va2⟩)] =
      some (if va2.toNat < va1.toNat then ⟨code2, va2, va2⟩ else ⟨code1, va1, va1⟩) := rfl

/-! ## Loads -/

theorem readPart_state (u : State) (p : Part) : (readPart u p).2 = u := by
  unfold readPart; split <;> rfl

theorem readPart_whole_maps {u : State} {q : Req} {pas : List Nat} (j : Nat) (ha : q.va.toNat % q.n = 0)
    (hm : AccessMaps u .load q.va q.n pas) :
    ∃ pa, pas = (List.range q.n).map (pa + ·) ∧
      (readPart u (wholePart q j)).1 = .ok ((List.range q.n).map fun k => dataByte u (pa + k)) := by
  obtain ⟨pa, hok, hpas⟩ := resolvePart_whole_maps (j := j) ha hm
  exact ⟨pa, hpas, by rw [readPart, hok]; rfl⟩

theorem readPart_whole_raises {u : State} {q : Req} {code : Nat} (j : Nat) (ha : q.va.toNat % q.n = 0)
    (hr : AccessRaises u .load q.va q.n code) : (readPart u (wholePart q j)).1 = .error ⟨code, q.va, q.va⟩ := by
  rw [readPart, resolvePart_whole_raises ha hr]

/-- The two reads of a pair: what came of each, and what is done with it. -/
theorem PairOrder.withLoads_eq (order : PairOrder s q1 q2 qa ja qb jb) (hqa : qa.va.toNat % qa.n = 0)
    (hqb : qb.va.toNat % qb.n = 0) (k : State → List Word → Result) :
    let outs := [(wholePart qa ja, (readPart s (wholePart qa ja)).1),
      (wholePart qb jb, (readPart (inGap s s) (wholePart qb jb)).1)]
    (lowestFault outs = none →
      withLoads s [q1, q2] k = k (inGap s s) [loadedValue outs 0 q1.n, loadedValue outs 1 q2.n]) ∧
    ∀ e, lowestFault outs = some e → withLoads s [q1, q2] k = .next (accessTrap (inGap s s) e) := by
  intro outs
  have hrun : performAccesses readPart s [q1, q2] = (outs, inGap s s) := by
    rw [order.performAccesses_eq hqa hqb, readPart_state, readPart_state]
  unfold withLoads loadAll
  rw [hrun]
  exact ⟨fun h => by simp only [h]; rfl, fun e h => by simp only [h]⟩

/-- Both map: each value is the one its access reads at its moment. -/
theorem PairOrder.withLoads_of_maps (order : PairOrder s q1 q2 qa ja qb jb) (hqa : qa.va.toNat % qa.n = 0)
    (hqb : qb.va.toNat % qb.n = 0) {pasa pasb : List Nat} (hma : AccessMaps s .load qa.va qa.n pasa)
    (hmb : AccessMaps (inGap s s) .load qb.va qb.n pasb) (k : State → List Word → Result) :
    ∃ v w, withLoads s [q1, q2] k = k (inGap s s) [v, w] ∧
      [v, w].getD ja 0 = leValue (pasa.map (dataByte s)) ∧
      [v, w].getD jb 0 = leValue (pasb.map (dataByte (inGap s s))) := by
  obtain ⟨pa, rfl, hra⟩ := readPart_whole_maps ja hqa hma
  obtain ⟨pb, rfl, hrb⟩ := readPart_whole_maps jb hqb hmb
  have hrun := (order.withLoads_eq hqa hqb k).1 (by rw [hra, hrb]; rfl)
  rw [hra, hrb] at hrun
  refine ⟨_, _, hrun, ?first, ?second⟩
  case first => cases order <;> exact loadedValue_pair _ (by simp [wholePart]) _ (.inl rfl)
  case second => cases order <;> exact loadedValue_pair _ (by simp [wholePart]) _ (.inr rfl)

theorem PairOrder.withLoads_first_raises (order : PairOrder s q1 q2 qa ja qb jb) (hqa : qa.va.toNat % qa.n = 0)
    (hqb : qb.va.toNat % qb.n = 0) {code : Nat} {pasb : List Nat} (hra : AccessRaises s .load qa.va qa.n code)
    (hmb : AccessMaps (inGap s s) .load qb.va qb.n pasb) (k : State → List Word → Result) :
    withLoads s [q1, q2] k = .next (trap (inGap s s) code false qa.va) := by
  obtain ⟨pb, rfl, hrb⟩ := readPart_whole_maps jb hqb hmb
  exact (order.withLoads_eq hqa hqb k).2 ⟨code, qa.va, qa.va⟩ (by rw [readPart_whole_raises ja hqa hra, hrb]; rfl)

theorem PairOrder.withLoads_second_raises (order : PairOrder s q1 q2 qa ja qb jb) (hqa : qa.va.toNat % qa.n = 0)
    (hqb : qb.va.toNat % qb.n = 0) {code : Nat} {pasa : List Nat} (hma : AccessMaps s .load qa.va qa.n pasa)
    (hrb : AccessRaises (inGap s s) .load qb.va qb.n code) (k : State → List Word → Result) :
    withLoads s [q1, q2] k = .next (trap (inGap s s) code false qb.va) := by
  obtain ⟨pa, rfl, hra⟩ := readPart_whole_maps ja hqa hma
  exact (order.withLoads_eq hqa hqb k).2 ⟨code, qb.va, qb.va⟩ (by rw [hra, readPart_whole_raises jb hqb hrb]; rfl)

theorem PairOrder.withLoads_both_raise (order : PairOrder s q1 q2 qa ja qb jb) (hqa : qa.va.toNat % qa.n = 0)
    (hqb : qb.va.toNat % qb.n = 0) {code1 code2 : Nat} (hra : AccessRaises s .load qa.va qa.n code1)
    (hrb : AccessRaises (inGap s s) .load qb.va qb.n code2) (k : State → List Word → Result) :
    withLoads s [q1, q2] k = .next (if qb.va.toNat < qa.va.toNat then trap (inGap s s) code2 false qb.va
      else trap (inGap s s) code1 false qa.va) := by
  rw [(order.withLoads_eq hqa hqb k).2 _ (by
    rw [readPart_whole_raises ja hqa hra, readPart_whole_raises jb hqb hrb, lowestFault_pair])]
  split <;> rfl

/-! ## Stores -/

/-- What a part stores as a whole. -/
theorem stored_wholePart (u : State) (q : Req) (j pa : Nat) :
    Stored u (dataSetAll u (partCells (wholePart q j) pa)) [(q, (List.range q.n).map (pa + ·))] := by
  have hfst : (partCells (wholePart q j) pa).map Prod.fst = (List.range q.n).map (pa + ·) := by
    unfold partCells
    rw [List.map_fst_zip (by simp [leBytes_length])]
    rfl
  refine ⟨storesOnly_dataSetAll u _, fun a ha => sameBytes_dataSetAll u _ a ?_, fun hs hd p hp => ?_,
    fun hs => hs.dataSetAll _⟩
  · rw [hfst]; simpa using ha
  · exact holdsBytes_dataSetAll hs [(q, (List.range q.n).map (pa + ·))] _ (by simp [partCells, wholePart]) (by simp)
      hd p hp

/-- The frame of stores before the instruction goes on. -/
theorem Stored.frame_here {u t : State} {ps : List (Req × List Nat)} (h : Stored u t ps) :
    StorageFrame u t [] (ps.flatMap Prod.snd) where
  rest := by rw [h.only.form]
  others := h.only.others
  regs r _ := by apply readX_congr <;> rw [h.only.form]
  zero := rfl
  bytes := h.bytes

theorem StorageFrame.refl (u : State) (pas : List Nat) : StorageFrame u u [] pas :=
  ⟨rfl, .refl u, fun _ _ => rfl, rfl, fun a _ => .refl u a⟩

/-- The two writes of a pair, if `w` has them performed. -/
theorem PairOrder.performAccesses_write (order : PairOrder s q1 q2 qa ja qb jb) (hqa : qa.va.toNat % qa.n = 0)
    (hqb : qb.va.toNat % qb.n = 0) (w : Part → Bool) :
    let u := dataSetAll s (cellsOf w s (wholePart qa ja))
    performAccesses (writePart w) s [q1, q2] =
      ([(wholePart qa ja, outcomeOf s (wholePart qa ja)), (wholePart qb jb, outcomeOf (inGap s s) (wholePart qb jb))],
        dataSetAll (inGap s u) (cellsOf w (inGap s u) (wholePart qb jb))) := by
  intro u
  have hout : outcomeOf (inGap s u) (wholePart qb jb) = outcomeOf (inGap s s) (wholePart qb jb) := by
    rw [outcomeOf, outcomeOf, resolvePart_inGap (storesOnly_dataSetAll s _)]
  simp only [order.performAccesses_eq hqa hqb, writePart_eq]
  rw [← hout]

/-- What comes of stores, by what comes of their parts. -/
theorem withStores_of_outcomes {qs : List Req} {outs : List PartOutcome} {u : State}
    (h : performAccesses (writePart fun _ => true) s qs = (outs, u)) (k : State → Result) :
    (lowestFault outs = none → withStores s qs k = k u) ∧
    ∀ e, lowestFault outs = some e → withStores s qs k = .next (accessTrap (partialStore s qs outs) e) := by
  unfold withStores storeAll
  rw [h]
  exact ⟨fun h => by simp only [h], fun e h => by simp only [h]⟩

theorem partialStore_eq (s : State) (qs : List Req) (outs : List PartOutcome) :
    ∃ f, partialStore s qs outs = { (performAccesses (writePart (remains s outs)) s qs).2 with freeCount := f } := by
  unfold partialStore
  dsimp only
  split <;> exact ⟨_, rfl⟩

theorem cellsOf_ok {w : Part → Bool} {u : State} {p : Part} {pa : Nat} (h : resolvePart u .store p = .ok pa) :
    cellsOf w u p = if w p then partCells p pa else [] := by
  rw [cellsOf, h]

theorem cellsOf_error {u : State} {p : Part} {e : AccessFault} (w : Part → Bool)
    (h : resolvePart u .store p = .error e) : cellsOf w u p = [] := by
  rw [cellsOf, h]

theorem outcomeOf_ok {u : State} {p : Part} {pa : Nat} (h : resolvePart u .store p = .ok pa) :
    outcomeOf u p = .ok [] := by
  rw [outcomeOf, h]; rfl

/-- The access performed first maps: it stores its bytes, and the other one meets what the agents make of that. -/
theorem PairOrder.withStores_first_maps (order : PairOrder s q1 q2 qa ja qb jb) (hqa : qa.va.toNat % qa.n = 0)
    (hqb : qb.va.toNat % qb.n = 0) {pasa : List Nat} (hma : AccessMaps s .store qa.va qa.n pasa) (k : State → Result) :
    ∃ u, Stored s u [(qa, pasa)] ∧
      (∀ pasb, AccessMaps (inGap s u) .store qb.va qb.n pasb →
        ∃ t, withStores s [q1, q2] k = k t ∧ Stored (inGap s u) t [(qb, pasb)]) ∧
      (∀ code, AccessRaises (inGap s u) .store qb.va qb.n code → ∃ x f, (x = s ∨ x = u) ∧
        withStores s [q1, q2] k = .next (trap { inGap s x with freeCount := f } code false qb.va)) := by
  obtain ⟨pa, hoka, rfl⟩ := resolvePart_whole_maps (j := ja) hqa hma
  have hrun := order.performAccesses_write hqa hqb
  simp only [cellsOf_ok hoka, outcomeOf_ok hoka] at hrun
  have hstored := stored_wholePart s qa ja pa
  refine ⟨_, hstored, fun pasb hmb => ?maps, fun code hrb => ?raises⟩
  case maps =>
    obtain ⟨pb, hokb, rfl⟩ := resolvePart_whole_maps (j := jb) hqb hmb
    have hall := hrun fun _ => true
    simp only [if_true, cellsOf_ok hokb] at hall
    rw [resolvePart_inGap hstored.only] at hokb
    exact ⟨_, (withStores_of_outcomes hall k).1 (by rw [outcomeOf_ok hokb]; rfl), stored_wholePart _ qb jb pb⟩
  case raises =>
    have herror := resolvePart_whole_raises (j := jb) hqb hrb
    rw [resolvePart_inGap hstored.only] at herror
    have htrap := (withStores_of_outcomes (hrun fun _ => true) k).2 _ (by rw [outcomeOf_error.2 herror]; rfl)
    obtain ⟨f, hpartial⟩ := partialStore_eq s [q1, q2]
      [(wholePart qa ja, .ok []), (wholePart qb jb, outcomeOf (inGap s s) (wholePart qb jb))]
    generalize remains s _ = w at hpartial
    rw [hrun w, cellsOf_error w (by rw [resolvePart_inGap (storesOnly_dataSetAll s _)]; exact herror)] at hpartial
    rw [hpartial] at htrap
    cases hw : w (wholePart qa ja) with
    | true =>
      rw [hw] at htrap
      exact ⟨_, f, .inr rfl, htrap⟩
    | false =>
      rw [hw] at htrap
      exact ⟨_, f, .inl rfl, htrap⟩

/-- The access performed first raises an exception: the other one may or may not have stored its bytes. -/
theorem PairOrder.withStores_first_raises (order : PairOrder s q1 q2 qa ja qb jb) (hqa : qa.va.toNat % qa.n = 0)
    (hqb : qb.va.toNat % qb.n = 0) {code : Nat} {pasb : List Nat} (hra : AccessRaises s .store qa.va qa.n code)
    (hmb : AccessMaps (inGap s s) .store qb.va qb.n pasb) (k : State → Result) :
    ∃ t f, withStores s [q1, q2] k = .next (trap { t with freeCount := f } code false qa.va) ∧
      (t = inGap s s ∨ Stored (inGap s s) t [(qb, pasb)]) := by
  have herror := resolvePart_whole_raises (j := ja) hqa hra
  obtain ⟨pb, hokb, rfl⟩ := resolvePart_whole_maps (j := jb) hqb hmb
  have hrun (w : Part → Bool) : performAccesses (writePart w) s [q1, q2] = _ := order.performAccesses_write hqa hqb w
  simp only [cellsOf_error _ herror, outcomeOf_error.2 herror, dataSetAll, cellsOf_ok hokb, outcomeOf_ok hokb] at hrun
  have htrap := (withStores_of_outcomes (hrun fun _ => true) k).2 _ rfl
  obtain ⟨f, hpartial⟩ := partialStore_eq s [q1, q2]
    [(wholePart qa ja, .error ⟨code, qa.va, qa.va⟩), (wholePart qb jb, .ok [])]
  generalize remains s _ = w at hpartial
  rw [hrun w] at hpartial
  rw [hpartial] at htrap
  refine ⟨_, f, htrap, ?_⟩
  cases hw : w (wholePart qb jb) with
  | true => exact .inr (by simpa using stored_wholePart (inGap s s) qb jb pb)
  | false => exact .inl rfl

/-- Both raise an exception: nothing is stored. -/
theorem PairOrder.withStores_both_raise (order : PairOrder s q1 q2 qa ja qb jb) (hqa : qa.va.toNat % qa.n = 0)
    (hqb : qb.va.toNat % qb.n = 0) {code1 code2 : Nat} (hra : AccessRaises s .store qa.va qa.n code1)
    (hrb : AccessRaises (inGap s s) .store qb.va qb.n code2) (k : State → Result) :
    withStores s [q1, q2] k = .next (if qb.va.toNat < qa.va.toNat then trap (inGap s s) code2 false qb.va
      else trap (inGap s s) code1 false qa.va) := by
  have herrora := resolvePart_whole_raises (j := ja) hqa hra
  have herrorb := resolvePart_whole_raises (j := jb) hqb hrb
  have hrun (w : Part → Bool) : performAccesses (writePart w) s [q1, q2] = _ := order.performAccesses_write hqa hqb w
  simp only [cellsOf_error _ herrora, outcomeOf_error.2 herrora, dataSetAll, cellsOf_error _ herrorb,
    outcomeOf_error.2 herrorb] at hrun
  have hnone : partialStore s [q1, q2] [(wholePart qa ja, .error ⟨code1, qa.va, qa.va⟩),
      (wholePart qb jb, .error ⟨code2, qb.va, qb.va⟩)] = inGap s s := by
    simp [partialStore, anyRemain, hrun]
  rw [(withStores_of_outcomes (hrun fun _ => true) k).2 _ (lowestFault_pair ..), hnone]
  split <;> rfl

end

end Sys2Proof
end

section
/-! SUPPORT. The pair forms of XTheadMemPair, aligned, with other agents acting between the two accesses
(45 R340; 60 R455). -/

namespace Sys2Proof

open Machine

/-- An order that the inputs give to the halves of a pair, `f` being the values of the accesses: the first of them
goes to the register of its half, and so does the second. -/
theorem exists_pairOrder {s : State} {lower upper : Word × Reg} {va1 va2 : Word} {r1 r2 : Reg} (n : Nat) (f : Reg → Word)
    (hfirst : (if s.inter.order.find? (· < 2) = some 1 then upper else lower) = (va1, r1))
    (hsecond : (if s.inter.order.find? (· < 2) = some 1 then lower else upper) = (va2, r2)) :
    ∃ ja jb, PairOrder s ⟨lower.1, n, f lower.2⟩ ⟨upper.1, n, f upper.2⟩ ⟨va1, n, f r1⟩ ja ⟨va2, n, f r2⟩ jb ∧
      (ja, r1) ∈ [(0, lower.2), (1, upper.2)] ∧ (jb, r2) ∈ [(0, lower.2), (1, upper.2)] := by
  by_cases hswap : s.inter.order.find? (· < 2) = some 1
  · rw [if_pos hswap] at hfirst hsecond
    subst hfirst hsecond
    exact ⟨1, 0, .swapped hswap, by simp, by simp⟩
  · rw [if_neg hswap] at hfirst hsecond
    subst hfirst hsecond
    exact ⟨0, 1, .listed hswap, by simp, by simp⟩

/-- What holds of both accesses of a pair holds of them in any order. -/
theorem PairOrder.both {s : State} {q1 q2 qa qb : Req} {ja jb : Nat} (order : PairOrder s q1 q2 qa ja qb jb)
    {P : Req → Prop} (h1 : P q1) (h2 : P q2) : P qa ∧ P qb := by
  cases order with
  | listed => exact ⟨h1, h2⟩
  | swapped => exact ⟨h2, h1⟩

section

variable {i : Instr} {s : State} {e : Extend} {n : Nat} {rd1 rd2 rs1 : Reg} {imm2 : BitVec 2} {va1 va2 : Word} {r1 r2 : Reg}

/-- An aligned pair load, whatever the agents do between its accesses. -/
theorem execLoadPair_interleaved (ha : available s i = true) (hn : 8 * n ≤ xlenBits s.cfg) (hel : n = 4 ∨ n = 8)
    (h12 : rd1 ≠ rd2) (h1s : rd1 ≠ rs1) (h2s : rd2 ≠ rs1) (hal : (pairAddr s n rs1 imm2).toNat % n = 0)
    (hfirst : (if s.inter.order.find? (· < 2) = some 1 then (pairAddr2 s n rs1 imm2, rd2)
      else (pairAddr s n rs1 imm2, rd1)) = (va1, r1))
    (hsecond : (if s.inter.order.find? (· < 2) = some 1 then (pairAddr s n rs1 imm2, rd1)
      else (pairAddr2 s n rs1 imm2, rd2)) = (va2, r2)) :
    (∀ pas1 pas2, AccessMaps s .load va1 n pas1 → AccessMaps (inGap s s) .load va2 n pas2 →
      ∃ t, execLoadPair i e n rd1 rd2 rs1 imm2 s = .next t ∧ NextInsn s t ∧
        RegistersOnly (inGap s s) t [rd1, rd2] ∧ (r1 ≠ 0 → Extends s.cfg e n (loadedNat s pas1) (readX t r1)) ∧
        (r2 ≠ 0 → Extends s.cfg e n (loadedNat (inGap s s) pas2) (readX t r2))) ∧
    (∀ code pas2, AccessRaises s .load va1 n code → AccessMaps (inGap s s) .load va2 n pas2 →
      execLoadPair i e n rd1 rd2 rs1 imm2 s = .next (trap (inGap s s) code false va1)) ∧
    (∀ code pas1, AccessMaps s .load va1 n pas1 → AccessRaises (inGap s s) .load va2 n code →
      execLoadPair i e n rd1 rd2 rs1 imm2 s = .next (trap (inGap s s) code false va2)) ∧
    (∀ code1 code2, AccessRaises s .load va1 n code1 → AccessRaises (inGap s s) .load va2 n code2 →
      execLoadPair i e n rd1 rd2 rs1 imm2 s = .next (if va2.toNat < va1.toNat then trap (inGap s s) code2 false va2
        else trap (inGap s s) code1 false va1)) := by
  obtain ⟨ja, jb, order, hja, hjb⟩ := exists_pairOrder n (fun _ => 0) hfirst hsecond
  obtain ⟨hqa, hqb⟩ := order.both (P := fun q => q.va.toNat % q.n = 0) hal
    ((pairAddr2_mod s n rs1 imm2 hel).trans hal)
  rw [execLoadPair_eq ha h12 h1s h2s]
  refine ⟨fun pas1 pas2 hma hmb => ?maps, fun _ _ hra hmb => order.withLoads_first_raises hqa hqb hra hmb _,
    fun _ _ hma hrb => order.withLoads_second_raises hqa hqb hma hrb _,
    fun _ _ hra hrb => order.withLoads_both_raise hqa hqb hra hrb _⟩
  case maps =>
    have h8 : n ≤ 8 := by omega
    obtain ⟨hva, hlta⟩ := leValue_loaded s pas1 n hma.length h8
    obtain ⟨hvb, hltb⟩ := leValue_loaded (inGap s s) pas2 n hmb.length h8
    obtain ⟨v, w, hrun, hv, hw⟩ := order.withLoads_of_maps hqa hqb hma hmb (finishPair s e n rd1 rd2)
    rw [← hv] at hlta
    rw [← hw] at hltb
    obtain ⟨hltv, hltw⟩ : v.toNat < 256 ^ n ∧ w.toNat < 256 ^ n := by
      cases order with
      | listed => exact ⟨hlta, hltb⟩
      | swapped => exact ⟨hltb, hlta⟩
    obtain ⟨t, hfinish, hnext, hframe, hval1, hval2⟩ := finishPair_spec (e := e) (vs := [v, w]) (agentsOnly_inGap s s) hn
      h12 hltv hltw
    have hval : ∀ j r, (j, r) ∈ [(0, rd1), (1, rd2)] → r ≠ 0 →
        Extends s.cfg e n ([v, w].getD j 0).toNat (readX t r) := by
      intro j r hjr hr
      simp only [List.mem_cons, List.not_mem_nil, or_false, Prod.mk.injEq] at hjr
      rcases hjr with ⟨rfl, rfl⟩ | ⟨rfl, rfl⟩
      · exact hval1 hr
      · exact hval2 hr
    refine ⟨t, hrun.trans hfinish, hnext, hframe, fun hr => ?_, fun hr => ?_⟩
    · rw [← hva, ← hv]; exact hval ja r1 hja hr
    · rw [← hvb, ← hw]; exact hval jb r2 hjb hr

/-- An aligned pair store, whatever the agents do between its accesses. -/
theorem execStorePair_interleaved (ha : available s i = true) (hel : n = 4 ∨ n = 8)
    (hal : (pairAddr s n rs1 imm2).toNat % n = 0)
    (hfirst : (if s.inter.order.find? (· < 2) = some 1 then (pairAddr2 s n rs1 imm2, rd2)
      else (pairAddr s n rs1 imm2, rd1)) = (va1, r1))
    (hsecond : (if s.inter.order.find? (· < 2) = some 1 then (pairAddr s n rs1 imm2, rd1)
      else (pairAddr2 s n rs1 imm2, rd2)) = (va2, r2)) :
    ((∀ pas1, AccessMaps s .store va1 n pas1 →
        ∃ u, u.pc = s.pc ∧ StorageFrame s u [] pas1 ∧ (StorageInv s → pas1.Nodup → HoldsBytes u pas1 (readX s r1)) ∧
          (∀ pas2, AccessMaps (inGap s u) .store va2 n pas2 →
            ∃ t, execStorePair i n rd1 rd2 rs1 imm2 s = .next t ∧ NextInsn s t ∧ StorageFrame (inGap s u) t [] pas2 ∧
              (StorageInv s → pas2.Nodup → HoldsBytes t pas2 (readX s r2))) ∧
          (∀ code, AccessRaises (inGap s u) .store va2 n code → ∃ x f, (x = s ∨ x = u) ∧
            execStorePair i n rd1 rd2 rs1 imm2 s = .next (trap { inGap s x with freeCount := f } code false va2))) ∧
      (∀ code pas2, AccessRaises s .store va1 n code → AccessMaps (inGap s s) .store va2 n pas2 →
        ∃ t f, execStorePair i n rd1 rd2 rs1 imm2 s = .next (trap { t with freeCount := f } code false va1) ∧
          t.pc = s.pc ∧ StorageFrame (inGap s s) t [] pas2 ∧
          (t = inGap s s ∨ (StorageInv s → pas2.Nodup → HoldsBytes t pas2 (readX s r2))))) ∧
    (∀ code1 code2, AccessRaises s .store va1 n code1 → AccessRaises (inGap s s) .store va2 n code2 →
      execStorePair i n rd1 rd2 rs1 imm2 s = .next (if va2.toNat < va1.toNat then trap (inGap s s) code2 false va2
        else trap (inGap s s) code1 false va1)) := by
  obtain ⟨ja, jb, order, _, _⟩ := exists_pairOrder n (readX s) hfirst hsecond
  obtain ⟨hqa, hqb⟩ := order.both (P := fun q => q.va.toNat % q.n = 0) hal
    ((pairAddr2_mod s n rs1 imm2 hel).trans hal)
  rw [execStorePair_eq ha]
  refine ⟨⟨fun pas1 hma => ?maps, fun code pas2 hra hmb => ?raises⟩,
    fun _ _ hra hrb => order.withStores_both_raise hqa hqb hra hrb _⟩
  case maps =>
    obtain ⟨u, hstored, hmaps, hraises⟩ := order.withStores_first_maps hqa hqb hma fun u => .next (advance u)
    have hpc : u.pc = s.pc := by rw [hstored.only.form]
    obtain ⟨hgcfg, hgpc, _⟩ := (agentsOnly_inGap s u).same
    refine ⟨u, hpc, by simpa using hstored.frame_here,
      fun hs hd => hstored.holds hs (by simpa using hd) _ List.mem_cons_self, fun pas2 hmb => ?_, hraises⟩
    obtain ⟨t, hrun, hstored2⟩ := hmaps pas2 hmb
    have hcfg2 : t.cfg = s.cfg := by rw [hstored2.only.cfg, hgcfg, hstored.only.cfg]
    have hpc2 : t.pc = s.pc := by rw [hstored2.only.form]; exact hgpc.trans hpc
    refine ⟨advance t, hrun, nextInsn_advance _ _ hcfg2 hpc2, by simpa using hstored2.frame, fun hs hd => ?_⟩
    have hheld := hstored2.holds ((hstored.inv hs).applyActs _) (by simpa using hd) _ List.mem_cons_self
    exact hheld.congr fun _ => rfl
  case raises =>
    obtain ⟨t, f, hrun, hstored⟩ := order.withStores_first_raises hqa hqb hra hmb fun u => .next (advance u)
    obtain ⟨_, hgpc, _⟩ := (agentsOnly_inGap s s).same
    refine ⟨t, f, hrun, ?_⟩
    rcases hstored with rfl | hstored
    · exact ⟨hgpc, .refl _ _, .inl rfl⟩
    · exact ⟨by rw [hstored.only.form]; exact hgpc, by simpa using hstored.frame_here,
        .inr fun hs hd => hstored.holds (hs.applyActs _) (by simpa using hd) _ List.mem_cons_self⟩

end

end Sys2Proof
end

section
/-! SUPPORT. The instructions that load or store, with other agents acting between any two pieces of their accesses, in
any order of them (20 R88, R92; 45 R340; 70 R535; decision D21): for each shape of meaning what it makes of the values
its pieces read, or does after its pieces are stored. -/

namespace Sys2Proof

open Machine

/-! ## What is the same after the agents -/

theorem AgentsOnly.readX_eq {s u : State} (h : AgentsOnly s u) (r : Reg) : readX u r = readX s r := by
  obtain ⟨hcfg, _, hx, _⟩ := h.same
  exact readX_congr hx hcfg r

theorem readIntSp_congr {s u : State} (hc : u.cfg = s.cfg) (hx : u.x = s.x) (hi : u.intSp = s.intSp) :
    readIntSp u = readIntSp s := by
  unfold readIntSp
  rw [hc, hi]
  simp only [readX_congr hx hc]

theorem AgentsOnly.readIntSp_eq {s u : State} (h : AgentsOnly s u) : readIntSp u = readIntSp s := by
  obtain ⟨hcfg, _, hx, _, _, hsp, _⟩ := h.same
  exact readIntSp_congr hcfg hx hsp

/-- An instruction that does no more than go on after its stores. -/
theorem advance_after_agents {s w : State} (h : AgentsOnly s w) :
    NextInsn s (advance w) ∧ RegistersOnly w (advance w) [] :=
  ⟨h.nextInsn (nextInsn_advance w w rfl rfl), registersOnly_advance w⟩

/-! ## Integer loads and stores -/

section

variable {i : Instr} {s : State} {o : When} {x : Index} {e : Extend} {n : Nat} {rd rd2 rs1 rs2 : Reg} {imm5 : BitVec 5}
  {imm2 : BitVec 2}

/-- The increment loads (43 R260 to R262). -/
theorem execLoadInc_inTurn (hex : exec i s = execLoadInc i o e n rd rs1 imm5 imm2 s) (ha : available s i = true)
    (h0 : 0 < n) (hn : 8 * n ≤ xlenBits s.cfg) (hne : rd ≠ rs1) :
    LoadsInTurn i s [⟨incAddr s o rs1 imm5 imm2, n, 0⟩] fun u num t =>
      NextInsn s t ∧ RegistersOnly u t [rd, rs1] ∧ (rd ≠ 0 → Extends s.cfg e n (num 0) (readX t rd)) ∧
        (rs1 ≠ 0 → IncrementedBase s rs1 imm5 imm2 (readX t rs1)) := by
  have h8 : n ≤ 8 := by have := xlenBits_le s.cfg; omega
  have hloads : exec i s = withLoads s [⟨incAddr s o rs1 imm5 imm2, n, 0⟩] fun u vs =>
      finishX (writeX u rd (extendLoad s.cfg e n (vs.getD 0 0))) rs1 (newBase s rs1 imm5 imm2) := by
    rw [hex, execLoadInc, ha, requireLegal_true, incLoadOk, bne_iff_ne.2 hne]
    rfl
  refine loadsInTurn_of_exec (by simp [h0, h8]) hloads fun u vs hu hlt => ?_
  obtain ⟨hcfg, _⟩ := hu.same
  obtain ⟨t, hrun, hnext, hframe, hval, hbase⟩ := finishX_writeX_spec u hne (extendLoad s.cfg e n (vs.getD 0 0))
    (newBase s rs1 imm5 imm2)
  refine ⟨t, hrun, hu.nextInsn hnext, hframe, fun hd => ?_, fun hb => ?_⟩
  · rw [hval hd, hcfg]; exact extendLoad_extends _ _ _ _ (hlt 0 (by simp)) hn
  · rw [hbase hb, hcfg, truncX_newBase]; exact newBase_spec s rs1 imm5 imm2

/-- The register-indexed loads (44 R300, R301). -/
theorem execLoadIdx_inTurn (hex : exec i s = execLoadIdx i x e n rd rs1 rs2 imm2 s) (ha : available s i = true)
    (h0 : 0 < n) (hn : 8 * n ≤ xlenBits s.cfg) :
    LoadsInTurn i s [⟨indexedAddr s x rs1 rs2 imm2, n, 0⟩] fun u num t =>
      NextInsn s t ∧ RegistersOnly u t [rd] ∧ (rd ≠ 0 → Extends s.cfg e n (num 0) (readX t rd)) := by
  have h8 : n ≤ 8 := by have := xlenBits_le s.cfg; omega
  have hloads : exec i s = withLoads s [⟨indexedAddr s x rs1 rs2 imm2, n, 0⟩] fun u vs =>
      finishX u rd (extendLoad s.cfg e n (vs.getD 0 0)) := by
    rw [hex, execLoadIdx, ha, requireLegal_true]
    rfl
  refine loadsInTurn_of_exec (by simp [h0, h8]) hloads fun u vs hu hlt => ?_
  obtain ⟨hcfg, _⟩ := hu.same
  obtain ⟨t, hrun, hnext, hframe, hval⟩ := finishX_spec u rd (extendLoad s.cfg e n (vs.getD 0 0))
  refine ⟨t, hrun, hu.nextInsn hnext, hframe, fun hd => ?_⟩
  rw [hval hd, hcfg]; exact extendLoad_extends _ _ _ _ (hlt 0 (by simp)) hn

/-- The pair loads (45 R340, R341). -/
theorem execLoadPair_inTurn (hex : exec i s = execLoadPair i e n rd rd2 rs1 imm2 s) (ha : available s i = true)
    (h0 : 0 < n) (hn : 8 * n ≤ xlenBits s.cfg) (h12 : rd ≠ rd2) (h1s : rd ≠ rs1) (h2s : rd2 ≠ rs1) :
    LoadsInTurn i s [⟨pairAddr s n rs1 imm2, n, 0⟩, ⟨pairAddr2 s n rs1 imm2, n, 0⟩] fun u num t =>
      NextInsn s t ∧ RegistersOnly u t [rd, rd2] ∧ (rd ≠ 0 → Extends s.cfg e n (num 0) (readX t rd)) ∧
        (rd2 ≠ 0 → Extends s.cfg e n (num 1) (readX t rd2)) := by
  have h8 : n ≤ 8 := by have := xlenBits_le s.cfg; omega
  refine loadsInTurn_of_exec (by simp [h0, h8]) (hex.trans (execLoadPair_eq ha h12 h1s h2s)) fun u vs hu hlt => ?_
  exact finishPair_spec hu hn h12 (hlt 0 (by simp)) (hlt 1 (by simp))

/-- The increment stores (43 R260 to R262; decision D16). -/
theorem execStoreInc_inTurn (hex : exec i s = execStoreInc i o n rd rs1 imm5 imm2 s) (ha : available s i = true)
    (hr : ¬(o = .before ∧ rd = rs1 ∧ s.cfg.sibSameReg = .refuse)) :
    StoresInTurn i s [⟨incAddr s o rs1 imm5 imm2, n, if o = .before ∧ rd = rs1 ∧ rs1 ≠ 0 ∧ s.cfg.sibSameReg = .new
        then newBase s rs1 imm5 imm2 else readX s rd⟩] fun w t =>
      NextInsn s t ∧ RegistersOnly w t [rs1] ∧ (rs1 ≠ 0 → IncrementedBase s rs1 imm5 imm2 (readX t rs1)) := by
  refine storesInTurn_of_exec (k := fun w => finishX w rs1 (newBase s rs1 imm5 imm2)) ?_ fun w hw => ?_
  · rw [hex, execStoreInc, ha, requireLegal_true, incStoreValue_spec s o rd rs1 imm5 imm2 hr]
  · obtain ⟨hcfg, _⟩ := hw.same
    obtain ⟨t, hrun, hnext, hframe, hval⟩ := finishX_spec w rs1 (newBase s rs1 imm5 imm2)
    refine ⟨t, hrun, hw.nextInsn hnext, hframe, fun hb => ?_⟩
    rw [hval hb, hcfg, truncX_newBase]; exact newBase_spec s rs1 imm5 imm2

/-- The register-indexed stores (44 R300, R301). -/
theorem execStoreIdx_inTurn (hex : exec i s = execStoreIdx i x n rd rs1 rs2 imm2 s) (ha : available s i = true) :
    StoresInTurn i s [⟨indexedAddr s x rs1 rs2 imm2, n, readX s rd⟩] fun w t => NextInsn s t ∧ RegistersOnly w t [] := by
  refine storesInTurn_of_exec (k := fun w => .next (advance w)) ?_ fun w hw => ⟨_, rfl, advance_after_agents hw⟩
  rw [hex, execStoreIdx, ha, requireLegal_true]

/-- The pair stores (45 R340). -/
theorem execStorePair_inTurn (hex : exec i s = execStorePair i n rd rd2 rs1 imm2 s) (ha : available s i = true) :
    StoresInTurn i s [⟨pairAddr s n rs1 imm2, n, readX s rd⟩, ⟨pairAddr2 s n rs1 imm2, n, readX s rd2⟩] fun w t =>
      NextInsn s t ∧ RegistersOnly w t [] :=
  storesInTurn_of_exec (hex.trans (execStorePair_eq ha)) fun _ hw => ⟨_, rfl, advance_after_agents hw⟩

/-! ## Floating-point loads and stores -/

theorem fpOn_of_on (h : s.cfg.fsGated = true → s.mstatus.fs ≠ 0) : fpOn s = true := by
  cases hg : s.cfg.fsGated with
  | false => simp [fpOn, hg]
  | true => simpa [fpOn, hg, unitOff] using h hg

/-- The register value of a floating-point load: the number loaded, under ones where the register has 64 bits and the
access 4 bytes (46 R368, R370). -/
theorem truncF_loaded {c : Config} {v : Word} (hv : v.toNat < 256 ^ n)
    (hu : n = 8 ∧ c.hasD = true ∨ n = 4 ∧ c.hasF = true) :
    (truncF c (if n = 4 then onesF c v else v)).toNat =
      v.toNat + if n = 4 ∧ c.hasD = true then 2 ^ 64 - 2 ^ 32 else 0 := by
  rcases hu with ⟨rfl, hd⟩ | ⟨rfl, hf⟩
  · simp [truncF, hd]
  · have hv32 : v.toNat < 2 ^ 32 := hv
    cases hd : c.hasD with
    | false => simp [truncF, onesF, hd, hf]; omega
    | true =>
      simp only [truncF, onesF, hd, if_true, and_self, BitVec.toNat_append, BitVec.toNat_setWidth]
      rw [Nat.mod_eq_of_lt hv32, Nat.shiftLeft_eq, Nat.mul_comm, ← Nat.two_pow_add_eq_or_of_lt hv32]
      simp
      omega

/-- The floating-point loads (46 R368, R370, R371). -/
theorem execFload_inTurn (hex : exec i s = execFload i x n rd rs1 rs2 imm2 s) (ha : available s i = true)
    (hon : s.cfg.fsGated = true → s.mstatus.fs ≠ 0) (hu : n = 8 ∧ s.cfg.hasD = true ∨ n = 4 ∧ s.cfg.hasF = true) :
    LoadsInTurn i s [⟨indexedAddr s x rs1 rs2 imm2, n, 0⟩] fun u num t =>
      NextInsn s t ∧ FloatOnly u t rd ∧
        (readF t rd).toNat = num 0 + (if n = 4 ∧ s.cfg.hasD = true then 2 ^ 64 - 2 ^ 32 else 0) := by
  have hloads : exec i s = withLoads s [⟨indexedAddr s x rs1 rs2 imm2, n, 0⟩] fun u vs =>
      .next (advance (markFpDirty (writeF u rd (if n = 4 then onesF s.cfg (vs.getD 0 0) else vs.getD 0 0)))) := by
    rw [hex, execFload, ha, fpOn_of_on hon]
    rfl
  have hwidth : 0 < n ∧ n ≤ 8 := by omega
  refine loadsInTurn_of_exec (by simpa using hwidth) hloads fun u vs hag hlt => ?_
  obtain ⟨hcfg, _⟩ := hag.same
  refine ⟨_, rfl, hag.nextInsn (nextInsn_advance _ _ (markFp_cfg ..) (markFp_pc ..)), floatOnly_write .., ?_⟩
  rw [readF_finish, hcfg]
  exact truncF_loaded (hlt 0 (by simp)) hu

/-- The floating-point stores (46 R368, R371). -/
theorem execFstore_inTurn (hex : exec i s = execFstore i x n rd rs1 rs2 imm2 s) (ha : available s i = true)
    (hon : s.cfg.fsGated = true → s.mstatus.fs ≠ 0) :
    StoresInTurn i s [⟨indexedAddr s x rs1 rs2 imm2, n, readF s rd⟩] fun w t => NextInsn s t ∧ RegistersOnly w t [] := by
  refine storesInTurn_of_exec (k := fun w => .next (advance w)) ?_ fun w hw => ⟨_, rfl, advance_after_agents hw⟩
  rw [hex, execFstore, ha, fpOn_of_on hon, Bool.and_self, requireLegal_true]

end

/-! ## The interrupt frame -/

/-- Item `j` of a popped frame, extended to `XLEN` bits (48 R405). -/
def popItem (c : Config) (vs : List Word) (j : Nat) : Word := sextX c ((vs.getD j 0).setWidth 32)

theorem truncX_popItem (c : Config) (vs : List Word) (j : Nat) : truncX c (popItem c vs j) = popItem c vs j :=
  truncX_truncX ..

theorem popItem_extends (c : Config) (vs : List Word) (j : Nat) (h : (vs.getD j 0).toNat < 256 ^ 4) :
    Extends c .sign 4 (vs.getD j 0).toNat (popItem c vs j) := by
  rw [← truncX_popItem]
  exact extendLoad_extends c .sign 4 _ h (fits_of_width (.inl (by omega)))

theorem popFrame_mcause (s : State) (vs : List Word) :
    (popItem s.cfg vs 0 ∈ legalCauses s.cfg → (popFrame s vs).mcause = popItem s.cfg vs 0) ∧
    (legalCauses s.cfg ≠ [] → (popFrame s vs).mcause ∈ legalCauses s.cfg) := by
  have hspec := writeMcause_spec s (popItem s.cfg vs 0)
  rw [truncX_popItem] at hspec
  rw [popFrame_spec]
  exact hspec

theorem popFrame_mepc (s : State) (vs : List Word) :
    (popFrame s vs).mepc.toNat = (popItem s.cfg vs 1).toNat / pcAlign s.cfg * pcAlign s.cfg := by
  have hmepc : (popFrame s vs).mepc = mepcValue s.cfg (popItem s.cfg vs 1) := by rw [popFrame_spec]; rfl
  have hlt : (popItem s.cfg vs 1).toNat < 2 ^ xlenBits s.cfg := by
    rw [← truncX_popItem, truncX_toNat]; exact Nat.mod_lt _ (by positivity)
  rw [hmepc, mepcValue_toNat]
  exact Nat.mod_eq_of_lt (lt_of_le_of_lt (Nat.div_mul_le_self _ _) hlt)

/-- The return at the end of a pop (48 R405; 60 R472). -/
theorem popFrame_return (s : State) (vs : List Word) :
    (popFrame s vs).pc = (popFrame s vs).mepc ∧ (popFrame s vs).priv = s.mstatus.mpp ∧
    (popFrame s vs).mstatus = { s.mstatus with
      mie := s.mstatus.mpie, mpie := true, mpp := if s.cfg.hasU then .u else .m,
      mprv := s.mstatus.mprv && s.mstatus.mpp == .m } := by
  rw [popFrame_spec]
  refine ⟨mepcValue_mepcValue .., rfl, ?_⟩
  show (mret s).mstatus = _
  unfold mret
  cases s.mstatus.mpp <;> simp

theorem popFrame_rest (s : State) (vs : List Word) :
    { popFrame s vs with x := s.x, pc := s.pc, priv := s.priv, mstatus := s.mstatus, mcause := s.mcause,
                         mepc := s.mepc, intSp := s.intSp, freeCount := s.freeCount } = s := by
  rw [popFrame_spec]

theorem sameBytes_popFrame (s : State) (vs : List Word) (a : Nat) : SameBytes s (popFrame s vs) a := by
  apply SameBytes.congr <;> rw [popFrame_spec]

/-- `th.ipop` (48 R403, R405). -/
theorem execIpop_eq {s : State} (ha : available s .ipop = true) (hp : s.priv = .m)
    (hx : s.cfg.xlen = .rv64 → s.cfg.xtheadintOnRv64 = true) :
    exec .ipop s = withLoads s (frameLoads s (readIntSp s + 72)) fun u vs => .next (popFrame u vs) :=
  execInM_run ha hp hx

/-- `th.ipush` (48 R403, R404). -/
theorem execIpush_eq {s : State} (ha : available s .ipush = true) (hp : s.priv = .m)
    (hx : s.cfg.xlen = .rv64 → s.cfg.xtheadintOnRv64 = true) :
    exec .ipush s = withStores s ((frameItems s).zipIdx.map fun p => ⟨slotAddr s (readIntSp s) p.2, 4, p.1⟩) fun w =>
      .next (advance (pushMie (writeIntSp w (readIntSp s - 72)))) := by
  rw [← frameStores_eq]
  exact execInM_run ha hp hx

/-- What a push does after its stores (48 R404, decision D23). -/
theorem pushEnd_spec {s w : State} (hw : AgentsOnly s w) :
    let t := advance (pushMie (writeIntSp w (readIntSp s - 72)))
    NextInsn s t ∧ { t with x := w.x, pc := w.pc, intSp := w.intSp, mstatus := w.mstatus } = w ∧
      t.mstatus = { s.mstatus with mie := s.mstatus.mie || s.cfg.ipushSetsMie } ∧
      (s.cfg.intSpReg ≠ .gpr 0 →
        ((readIntSp t).toNat : Int) = ((readIntSp s).toNat - 72 : Int) % 2 ^ xlenBits s.cfg) ∧
      (∀ r, s.cfg.intSpReg ≠ .gpr r → readX t r = readX s r) ∧ (∀ a, SameBytes w t a) := by
  intro t
  obtain ⟨hcfg, hpc, hx, _, hms, _⟩ := hw.same
  have ht : t = advance (pushMie (writeIntSp w (readIntSp s - 72))) := rfl
  have htx : t.x = (writeIntSp w (readIntSp s - 72)).x := by simp [ht]
  have htcfg : t.cfg = (writeIntSp w (readIntSp s - 72)).cfg := by simp [ht]
  refine ⟨nextInsn_advance _ _ (by simp [hcfg]) (by simp [hpc]), ?rest, ?mstatus, fun hsp => ?intSp, fun r hr => ?regs,
    fun a => ?bytes⟩
  case rest =>
    rw [ht, writeIntSp_form]
    unfold pushMie
    split <;> rfl
  case mstatus =>
    rw [ht, advance_mstatus, ← hms]
    unfold pushMie
    cases hset : s.cfg.ipushSetsMie <;> simp [hcfg, hset]
  case intSp =>
    have hread : readIntSp t = readIntSp (writeIntSp w (readIntSp s - 72)) :=
      readIntSp_congr htcfg htx (by simp [ht])
    rw [hread, readIntSp_writeIntSp _ _ (by rwa [hcfg]), hcfg, truncX_toNat, BitVec.toNat_sub]
    have hlt := readIntSp_lt s
    rcases xlenBits_cases s.cfg with h | h <;> rw [h] at hlt ⊢ <;> simp <;> omega
  case regs =>
    rw [readX_congr htx htcfg r, readX_writeIntSp _ _ _ (by rwa [hcfg])]
    exact hw.readX_eq r
  case bytes =>
    exact .congr (by simp [ht]) (by simp [ht]) (by simp [ht]) (by simp [ht]) (by simp [ht]) (by simp [ht]) a

end Sys2Proof
end

section
/-! SUPPORT. Other agents between the accesses of every instruction that loads or stores (20 R88, R92; 45 R340; 60 R455;
70 R535; decisions D21, D44): the statement, from the shapes of the meanings. -/

namespace Sys2Proof

open Machine

/-- Settles O40. -/
theorem accessInterleaving : Obligations.AccessInterleaving := by
  unfold Obligations.AccessInterleaving
  refine ⟨?pairs, perm_iff_arrange, fun s a b c m k => ⟨fun hne => ?incLoads, ?idxLoads, fun hon => ?floatLoads,
    fun hab hac hbc => ?pairLoads, fun ha hp hx => ?pop, ?incStores, ?idxStores, fun hon => ?floatStores, ?pairStores,
    fun ha hp hx => ?push⟩⟩
  case pairs =>
    intro ⟨mk, kind, e, n, rv64Only⟩ hp s rd1 rd2 rs1 imm2 he hx hal lower upper swap
    have form : kind = .load ∧ PairForm mk (execLoadPair · e n) n rv64Only ∨
        kind = .store ∧ PairForm mk (execStorePair · n) n rv64Only := by
      fin_cases hp
      · exact .inl ⟨rfl, pairForm_ldd⟩
      · exact .inl ⟨rfl, pairForm_lwd⟩
      · exact .inl ⟨rfl, pairForm_lwud⟩
      · exact .inr ⟨rfl, pairForm_sdd⟩
      · exact .inr ⟨rfl, pairForm_swd⟩
    generalize hfirst : (if swap then upper else lower) = first
    generalize hsecond : (if swap then lower else upper) = second
    obtain ⟨va1, r1⟩ := first
    obtain ⟨va2, r2⟩ := second
    rcases form with ⟨rfl, form⟩ | ⟨rfl, form⟩
    · have pair (h12 : rd1 ≠ rd2) (h1s : rd1 ≠ rs1) (h2s : rd2 ≠ rs1) := execLoadPair_interleaved (e := e)
        (form.available he hx rd1 rd2 rs1 imm2) (form.fits hx) form.element h12 h1s h2s hal hfirst hsecond
      rw [form.exec_eq]
      refine ⟨fun _ h12 h1s h2s => ?_, nofun, fun code1 code2 hd => ?_⟩
      · obtain ⟨hmaps, hfirstRaises, hsecondRaises, _⟩ := pair h12 h1s h2s
        exact ⟨hmaps, hfirstRaises, hsecondRaises⟩
      · obtain ⟨h12, h1s, h2s⟩ := hd rfl
        obtain ⟨_, _, _, hboth⟩ := pair h12 h1s h2s
        exact hboth code1 code2
    · obtain ⟨hstores, hboth⟩ := execStorePair_interleaved (form.available he hx rd1 rd2 rs1 imm2) form.element hal
        hfirst hsecond
      rw [form.exec_eq]
      exact ⟨nofun, fun _ => hstores, fun code1 code2 _ => hboth code1 code2⟩
  case incLoads =>
    intro ⟨i, o, e, n⟩ hi ha
    have hex : exec i s = execLoadInc i o e n a b m k s := by fin_cases hi <;> rfl
    obtain ⟨h0, hn⟩ : 0 < n ∧ (n ≤ 4 ∨ n ≤ 8 ∧ isRv64 s.cfg = true) := by fin_cases hi <;> simp_all [available]
    exact execLoadInc_inTurn hex ha h0 (fits_of_width hn) hne
  case idxLoads =>
    intro ⟨i, x, e, n⟩ hi ha
    have hex : exec i s = execLoadIdx i x e n a b c k s := by fin_cases hi <;> rfl
    obtain ⟨h0, hn⟩ : 0 < n ∧ (n ≤ 4 ∨ n ≤ 8 ∧ isRv64 s.cfg = true) := by fin_cases hi <;> simp_all [available]
    exact execLoadIdx_inTurn hex ha h0 (fits_of_width hn)
  case floatLoads =>
    intro ⟨i, x, n⟩ hi ha
    have hex : exec i s = execFload i x n a b c k s := by fin_cases hi <;> rfl
    have hu : n = 8 ∧ s.cfg.hasD = true ∨ n = 4 ∧ s.cfg.hasF = true := by fin_cases hi <;> simp_all [available]
    exact execFload_inTurn hex ha hon hu
  case pairLoads =>
    intro ⟨i, e, n⟩ hi ha
    have hex : exec i s = execLoadPair i e n a b c k s := by fin_cases hi <;> rfl
    obtain ⟨h0, hn⟩ : 0 < n ∧ (n ≤ 4 ∨ n ≤ 8 ∧ isRv64 s.cfg = true) := by fin_cases hi <;> simp_all [available]
    exact execLoadPair_inTurn hex ha h0 (fits_of_width hn) hab hac hbc
  case pop =>
    refine loadsInTurn_of_exec (by simp) (execIpop_eq ha hp hx) fun u vs hu hlt => ?_
    obtain ⟨hcfg, _, _, _, hms, _⟩ := hu.same
    obtain ⟨hcause, hlegal⟩ := popFrame_mcause u vs
    obtain ⟨hpc, hpriv, hmstatus⟩ := popFrame_return u vs
    rw [hcfg] at hcause hlegal hmstatus
    rw [hms] at hpriv hmstatus
    refine ⟨_, rfl, popItem s.cfg vs, fun j hj => ?item, popFrame_rest u vs, hcause, hlegal, ?mepc, fun j hj hr => ?saved,
      fun r hr hsp => ?kept, fun hsp => ?intSp, hpc, hpriv, hmstatus, sameBytes_popFrame u vs⟩
    case item => exact popItem_extends s.cfg vs j (by simpa using hlt j (by simpa using hj))
    case mepc => rw [popFrame_mepc, hcfg]
    case saved =>
      rw [(readX_popFrame u vs _ (by rwa [hcfg])).1 j hj rfl, hcfg]
      rfl
    case kept =>
      rw [(readX_popFrame u vs r (by rwa [hcfg])).2 hr]
      exact hu.readX_eq r
    case intSp => rw [readIntSp_popFrame u vs (by rwa [hcfg]), hu.readIntSp_eq, hcfg]
  case incStores =>
    intro ⟨i, o, n⟩ hi ha hr
    have hex : exec i s = execStoreInc i o n a b m k s := by fin_cases hi <;> rfl
    exact execStoreInc_inTurn hex ha hr
  case idxStores =>
    intro ⟨i, x, n⟩ hi ha
    have hex : exec i s = execStoreIdx i x n a b c k s := by fin_cases hi <;> rfl
    exact execStoreIdx_inTurn hex ha
  case floatStores =>
    intro ⟨i, x, n⟩ hi ha
    have hex : exec i s = execFstore i x n a b c k s := by fin_cases hi <;> rfl
    exact execFstore_inTurn hex ha hon
  case pairStores =>
    intro ⟨i, n⟩ hi ha
    have hex : exec i s = execStorePair i n a b c k s := by fin_cases hi <;> rfl
    exact execStorePair_inTurn hex ha
  case push =>
    exact storesInTurn_of_exec (execIpush_eq ha hp hx) fun w hw => ⟨_, rfl, pushEnd_spec hw⟩

end Sys2Proof
end

section
/-! SUPPORT. The floating-point forms of XTheadFMemIdx (46 R360 to R371): what an available load or store of that shape
does with the unit on when its access maps. -/

namespace Sys2Proof

open Machine

/-! ## The forms -/

section

variable {mk : Reg → Reg → Reg → BitVec 2 → Instr}
  {run : Instr → Reg → Reg → Reg → BitVec 2 → State → Result} {n : Nat} {unsignedForm : Bool}

/-- What the indexed floating-point forms have in common: `mk` runs as `run` does, belongs to XTheadFMemIdx, with a
zero-extended index on RV64 or under `FMEMIDX_U_ON_RV32`, and accesses 8 bytes with D or 4 bytes with F (46 R369). -/
structure FloatForm (mk : Reg → Reg → Reg → BitVec 2 → Instr)
    (run : Instr → Reg → Reg → Reg → BitVec 2 → State → Result) (n : Nat) (unsignedForm : Bool) : Prop where
  exec_eq : ∀ rd rs1 rs2 imm2 s, exec (mk rd rs1 rs2 imm2) s = run (mk rd rs1 rs2 imm2) rd rs1 rs2 imm2 s
  available_eq : ∀ rd rs1 rs2 imm2 s, available s (mk rd rs1 rs2 imm2) =
    ((bif unsignedForm then enabled s .xTheadFMemIdx && (isRv64 s.cfg || s.cfg.fmemidxUOnRv32)
      else enabled s .xTheadFMemIdx) && bif n == 8 then s.cfg.hasD else s.cfg.hasF)
  element : n = 8 ∨ n = 4

theorem FloatForm.available (h : FloatForm mk run n unsignedForm) {s : State} (he : enabled s .xTheadFMemIdx = true)
    (hu : unsignedForm = true → s.cfg.xlen = .rv64 ∨ s.cfg.fmemidxUOnRv32 = true)
    (hfd : if n = 8 then s.cfg.hasD = true else s.cfg.hasF = true) (rd rs1 rs2 : Reg) (imm2 : BitVec 2) :
    available s (mk rd rs1 rs2 imm2) = true := by
  have hunit : (bif n == 8 then s.cfg.hasD else s.cfg.hasF) = true := by
    rcases h.element with rfl | rfl <;> exact hfd
  rw [h.available_eq, hunit]
  cases unsignedForm with
  | false => simp [he]
  | true => simpa [he, isRv64] using hu rfl

theorem FloatForm.register (h : FloatForm mk run n unsignedForm) {c : Config}
    (hfd : if n = 8 then c.hasD = true else c.hasF = true) : n = 8 ∧ c.hasD = true ∨ n = 4 ∧ c.hasF = true := by
  rcases h.element with rfl | rfl
  · exact .inl ⟨rfl, hfd⟩
  · exact .inr ⟨rfl, hfd⟩

end

/-! ## Outcomes of an available form -/

section

variable {i : Instr} {s : State} {k : Index} {n : Nat} {rd rs1 rs2 : Reg} {imm2 : BitVec 2} {pas : List Nat}

/-- An instruction that does no more than store one value and go on, when the store raises nothing. -/
theorem withStores_advance_of_maps {va v : Word} (hm : AccessMaps s .store va n pas) :
    ∃ t, withStores s [⟨va, n, v⟩] (fun s' => .next (advance s')) = .next t ∧ NextInsn s t ∧
      StorageFrame s t [] pas ∧ (StorageInv s → pas.Nodup → HoldsBytes t pas v) := by
  obtain ⟨u, hrun, hstored⟩ := withStores_of_maps [(⟨va, n, v⟩, pas)] (quiet_single (q := ⟨va, n, v⟩) hm)
    (by simpa using hm) fun s' => .next (advance s')
  have hpc : u.pc = s.pc := by rw [hstored.only.form]
  refine ⟨_, hrun, nextInsn_advance _ _ hstored.only.cfg hpc, by simpa using hstored.frame, fun hs hd => ?_⟩
  have hheld : HoldsBytes u pas v := hstored.holds hs (by simpa using hd) _ List.mem_cons_self
  exact hheld.congr fun _ => rfl

/-- A floating-point load that raises nothing (46 R368, R370). -/
theorem execFload_of_maps (ha : available s i = true) (hon : s.cfg.fsGated = true → s.mstatus.fs ≠ 0)
    (hu : n = 8 ∧ s.cfg.hasD = true ∨ n = 4 ∧ s.cfg.hasF = true)
    (hm : AccessMaps s .load (indexedAddr s k rs1 rs2 imm2) n pas) :
    ∃ t, execFload i k n rd rs1 rs2 imm2 s = .next t ∧ NextInsn s t ∧ FloatOnly s t rd ∧
      (readF t rd).toNat = loadedNat s pas + (if n = 4 ∧ s.cfg.hasD = true then 2 ^ 64 - 2 ^ 32 else 0) := by
  obtain ⟨v, hrun, hval, hlt⟩ := withLoad_of_maps (by omega) hm fun s' v =>
    .next (advance (markFpDirty (writeF s' rd (if n = 4 then onesF s.cfg v else v))))
  refine ⟨_, by rw [execFload, ha, fpOn_of_on hon, Bool.and_self, requireLegal_true, hrun],
    nextInsn_advance _ _ (markFp_cfg ..) (markFp_pc ..), floatOnly_write .., ?_⟩
  rw [readF_finish, ← hval]
  exact truncF_loaded hlt hu

/-- A floating-point store that raises nothing (46 R368, R370). -/
theorem execFstore_of_maps (ha : available s i = true) (hon : s.cfg.fsGated = true → s.mstatus.fs ≠ 0)
    (hm : AccessMaps s .store (indexedAddr s k rs1 rs2 imm2) n pas) :
    ∃ t, execFstore i k n rd rs1 rs2 imm2 s = .next t ∧ NextInsn s t ∧ StorageFrame s t [] pas ∧
      (StorageInv s → pas.Nodup → HoldsBytes t pas (readF s rd)) := by
  rw [execFstore, ha, fpOn_of_on hon, Bool.and_self, requireLegal_true]
  exact withStores_advance_of_maps hm

end

/-! ## The statements -/

/-- Settles O41. -/
theorem floatLoads : Obligations.FloatLoads := by
  unfold Obligations.FloatLoads
  intro ⟨mk, k, n, unsignedForm⟩ hp s rd rs1 rs2 imm2 pas he hu hfd hon hm
  have form : FloatForm mk (execFload · k n) n unsignedForm := by
    fin_cases hp <;> exact ⟨fun _ _ _ _ _ => rfl, fun _ _ _ _ _ => rfl, by decide⟩
  rw [form.exec_eq]
  exact execFload_of_maps (form.available he hu hfd ..) hon (form.register hfd) hm

/-- Settles O42. -/
theorem floatStores : Obligations.FloatStores := by
  unfold Obligations.FloatStores
  intro ⟨mk, k, n, unsignedForm⟩ hp s rd rs1 rs2 imm2 pas he hu hfd hon hm
  have form : FloatForm mk (execFstore · k n) n unsignedForm := by
    fin_cases hp <;> exact ⟨fun _ _ _ _ _ => rfl, fun _ _ _ _ _ => rfl, by decide⟩
  rw [form.exec_eq]
  exact execFstore_of_maps (form.available he hu hfd ..) hon hm

end Sys2Proof
end

section
/-! SUPPORT. The multiply-accumulate instructions (47 R380 to R386): the values they compute as exact integer
expressions, and what an available one of them does. -/

namespace Sys2Proof

open Machine

/-! ## The accumulator as an integer -/

/-- The factor with which the product enters the accumulator (47 R380). -/
def accSign : AccOp → Int
  | .add => 1
  | .sub => -1

theorem accumulate_toInt {w : Nat} (op : AccOp) (acc product : BitVec w) :
    (accumulate op acc product).toInt = Int.bmod (acc.toInt + accSign op * product.toInt) (2 ^ w) := by
  cases op with
  | add => rw [accumulate, BitVec.toInt_add, accSign, one_mul]
  | sub => rw [accumulate, BitVec.toInt_sub, accSign, neg_one_mul, sub_eq_add_neg]

theorem accumulate_toNat {w : Nat} (op : AccOp) (acc product : BitVec w) :
    ((accumulate op acc product).toNat : Int) = (acc.toNat + accSign op * product.toNat) % 2 ^ w := by
  cases op with
  | add => rw [accumulate, BitVec.toNat_add, accSign, one_mul]; norm_cast
  | sub =>
    have hle := product.isLt.le
    rw [accumulate, BitVec.toNat_sub, accSign, neg_one_mul, ← Int.add_emod_left (2 ^ w)]
    push_cast [hle]
    congr 1
    ring

/-- In a sum modulo `m` the added product may be reduced first. -/
theorem bmod_add_mul_bmod (x k y : Int) (m : Nat) : Int.bmod (x + k * Int.bmod y m) m = Int.bmod (x + k * y) m := by
  rw [← Int.add_bmod_bmod, Int.mul_bmod_bmod, Int.add_bmod_bmod]

/-- A 32-bit accumulation of factors known as integers, sign-extended to `XLEN`. -/
theorem sextX_accumulate_toNat (c : Config) (op : AccOp) (acc : Word) (a b : BitVec 32) :
    ((truncX c (sextX c (accumulate op (acc.setWidth 32) (a * b)))).toNat : Int) =
      Int.bmod (acc.toNat + accSign op * (a.toInt * b.toInt)) (2 ^ 32) % 2 ^ xlenBits c := by
  rw [sextX_toNat, accumulate_toInt, BitVec.toInt_setWidth, BitVec.toInt_mul, Int.bmod_add_bmod, bmod_add_mul_bmod]

/-! ## The values at `XLEN` -/

theorem macValue_toNat (c : Config) (op : AccOp) (acc a b : Word) :
    ((truncX c (macValue op acc a b)).toNat : Int) =
      (acc.toNat + accSign op * (a.toNat * b.toNat)) % 2 ^ xlenBits c := by
  have hdvd : (2 ^ xlenBits c : Int) ∣ 2 ^ 64 := pow_dvd_pow 2 (xlenBits_le c)
  have hproduct : ((a * b).toNat : Int) ≡ a.toNat * b.toNat [ZMOD 2 ^ xlenBits c] := by
    rw [BitVec.toNat_mul]
    push_cast
    exact (Int.mod_modEq _ _).of_dvd hdvd
  rw [truncX_toNat, macValue]
  push_cast
  rw [accumulate_toNat, Int.emod_emod_of_dvd _ hdvd]
  exact (hproduct.mul_left _).add_left _

theorem macwValue_toNat (c : Config) (op : AccOp) (acc a b : Word) :
    ((truncX c (macwValue c op acc a b)).toNat : Int) =
      Int.bmod (acc.toNat + accSign op * ((a.setWidth 32).toInt * (b.setWidth 32).toInt)) (2 ^ 32) %
        2 ^ xlenBits c :=
  sextX_accumulate_toNat c op acc _ _

theorem machValue_toNat (c : Config) (op : AccOp) (acc a b : Word) :
    ((truncX c (machValue c op acc a b)).toNat : Int) =
      Int.bmod (acc.toNat + accSign op * ((a.setWidth 16).toInt * (b.setWidth 16).toInt)) (2 ^ 32) %
        2 ^ xlenBits c := by
  rw [machValue, sextX_accumulate_toNat, BitVec.toInt_signExtend_of_le (by decide),
    BitVec.toInt_signExtend_of_le (by decide)]

/-! ## Outcomes of an available form -/

/-- An available multiply-accumulate whose value at `XLEN` is `n` (47 R380). -/
theorem execMac_spec {s : State} {i : Instr} (ha : available s i = true) (rd : Reg) {v : Word} {n : Int}
    (hv : ((truncX s.cfg v).toNat : Int) = n) :
    ∃ t, execMac i rd v s = .next t ∧ NextInsn s t ∧ RegistersOnly s t [rd] ∧
      (rd ≠ 0 → ((readX t rd).toNat : Int) = n) := by
  obtain ⟨t, hexec, hnext, hframe, hvalue⟩ := finishX_spec s rd v
  refine ⟨t, ?_, hnext, hframe, fun h0 => by rw [hvalue h0, hv]⟩
  rw [execMac, ha, requireLegal_true, hexec]

/-! ## The statements -/

/-- Settles O29: the 64-bit accumulation, reduced to `XLEN` bits by the write. -/
theorem wholeMultiplyAccumulate : Obligations.WholeMultiplyAccumulate := by
  unfold Obligations.WholeMultiplyAccumulate
  refine fun s rd rs1 rs2 => ⟨rfl, rfl, fun he =>
    List.forall_mem_cons.2 ⟨?mula, List.forall_mem_singleton.2 ?muls⟩⟩
  case mula => exact execMac_spec (i := .mula rd rs1 rs2) he rd (macValue_toNat s.cfg .add ..)
  case muls => exact execMac_spec (i := .muls rd rs1 rs2) he rd (macValue_toNat s.cfg .sub ..)

/-- Settles O30: the halfwords keep their integer values in the 32-bit product. -/
theorem halfMultiplyAccumulate : Obligations.HalfMultiplyAccumulate := by
  unfold Obligations.HalfMultiplyAccumulate
  refine fun s rd rs1 rs2 => ⟨rfl, rfl, fun he =>
    List.forall_mem_cons.2 ⟨?mulah, List.forall_mem_singleton.2 ?mulsh⟩⟩
  case mulah => exact execMac_spec (i := .mulah rd rs1 rs2) he rd (machValue_toNat s.cfg .add ..)
  case mulsh => exact execMac_spec (i := .mulsh rd rs1 rs2) he rd (machValue_toNat s.cfg .sub ..)

/-- Settles O31: each form is available under its condition on `XLEN` (decision D30). -/
theorem wordMultiplyAccumulate : Obligations.WordMultiplyAccumulate := by
  unfold Obligations.WordMultiplyAccumulate
  refine fun s rd rs1 rs2 he => List.forall_mem_cons.2 ⟨fun hx => ?mulaw,
    List.forall_mem_singleton.2 fun hx => ?mulsw⟩
  case mulaw =>
    have ha : available s (.mulaw rd rs1 rs2) = true := by simpa [available, isRv64, he] using hx
    exact execMac_spec ha rd (macwValue_toNat s.cfg .add ..)
  case mulsw =>
    have ha : available s (.mulsw rd rs1 rs2) = true := by simpa [available, isRv64, he] using hx
    exact execMac_spec ha rd (macwValue_toNat s.cfg .sub ..)

end Sys2Proof
end

section
/-! SUPPORT. Words the rules print (30 R120), the exceptions of the fetch (60 R454), which interrupt a boundary takes
(60 R456, R475), and what trap entry and return write (60 R470, R472). -/

namespace Sys2Proof

open Machine

/-! ## Words -/

/-- A word that the encoder writes decodes to the instruction it was written for. -/
theorem decodeWord_of_encode {w : InsnWord} {i : Instr} (h : encode i = w) : decodeWord w = .ok i :=
  decodeWord_eq_ok_iff.2 (h ▸ ⟨opcodeF_encode i, decodeCustom0_encode i⟩)

/-- Settles O3. -/
theorem decodesPrintedWords : Obligations.DecodesPrintedWords := by
  unfold Obligations.DecodesPrintedWords
  refine ⟨?_, ?_, ?_, ?_, ?_, ?_, ?_, ?_, ?_, ?_, ?_, ?_, ?_, ?_⟩ <;> exact decodeWord_of_encode rfl

/-! ## Fetch exceptions -/

section

variable {s : State} {access va : Word}

theorem fetchParcel_of_unmapped (ht : translate s s.priv .fetch va = none) :
    fetchParcel s access va = .error ⟨12, va, access⟩ := by
  simp only [fetchParcel, resolve, ht, pageFaultCode]

theorem fetchParcel_of_inaccessible {pa : Nat} (ht : translate s s.priv .fetch va = some pa)
    (ha : accessible s.cfg pa 2 .fetch = false) : fetchParcel s access va = .error ⟨1, va, access⟩ := by
  simp only [fetchParcel, resolve, ht, ha, Bool.false_eq_true, if_false, accessFaultCode]

theorem readInsn_of_low_fault {e : AccessFault} (h : fetchParcel s va va = .error e) : readInsn s va = .fault e := by
  unfold readInsn
  rw [h]

theorem readInsn_of_high_fault {b0 b1 : Byte} {e : AccessFault} (hlo : fetchParcel s va va = .ok (b1 ++ b0))
    (hlong : b0.toNat % 4 = 3) (hhi : fetchParcel s va (byteVa s va 2) = .error e) : readInsn s va = .fault e := by
  unfold readInsn
  rw [hlo]
  dsimp only
  rw [if_pos ((parcel_is_long_iff b1 b0).2 hlong), hhi]

theorem runNext_of_fault {code : Nat} {info : Word} (hpc : s.pc.toNat % pcAlign s.cfg = 0)
    (hahead : fetchedAhead s s.pc = none) (h : readInsn s s.pc = .fault ⟨code, info, access⟩) :
    runNext s = .next (trap s code false info) := by
  unfold runNext fetch
  rw [if_neg (not_not.2 hpc), hahead]
  dsimp only
  rw [h]
  rfl

theorem runNext_of_misaligned (hpc : s.pc.toNat % pcAlign s.cfg ≠ 0) : runNext s = .fault .pcMisaligned := by
  unfold runNext fetch
  rw [if_pos hpc]

end

/-- Settles O6: each half that faults gives its exception to the fetch, and the fetch to the step. -/
theorem fetchFaults : Obligations.FetchFaults := by
  unfold Obligations.FetchFaults
  intro s b hb hcfg hirq hahead
  rw [step_eq_runNext hcfg hirq, ← hb]
  refine ⟨fun hpc ht => ?lowUnmapped, fun pa hpc ht => ⟨fun ha => ?lowInaccessible, fun ha hlong => ?high⟩,
    runNext_of_misaligned⟩
  case lowUnmapped => exact runNext_of_fault hpc hahead (readInsn_of_low_fault (fetchParcel_of_unmapped ht))
  case lowInaccessible =>
    exact runNext_of_fault hpc hahead (readInsn_of_low_fault (fetchParcel_of_inaccessible ht ha))
  case high =>
    have hlo := fetchParcel_of_maps (access := b.pc) ht ha
    refine ⟨fun ht' => ?unmapped, fun pa' ht' ha' => ?inaccessible⟩
    case unmapped =>
      exact runNext_of_fault hpc hahead (readInsn_of_high_fault hlo hlong (fetchParcel_of_unmapped ht'))
    case inaccessible =>
      exact runNext_of_fault hpc hahead (readInsn_of_high_fault hlo hlong (fetchParcel_of_inaccessible ht' ha'))

/-! ## Interrupts -/

/-- The interrupts of this boundary that may be taken (60 R475). -/
def enabledIrqs (s : State) : List Nat := (takeSlot s).1.irqs.filter (interruptible (background s))

theorem takenInterrupt_eq (s : State) : takenInterrupt s = firstInterrupt (enabledIrqs s) := rfl

theorem mem_enabledIrqs {s : State} {c : Nat} :
    c ∈ enabledIrqs s ↔ c ∈ (takeSlot s).1.irqs ∧
      ((background s).priv ≠ .m ∨ (background s).mstatus.mie = true) ∧
      (xlenBits (background s).cfg ≤ c ∨ (background s).mie.getLsbD c = true) := by
  simp [enabledIrqs, interruptible, mieAllows]

/-- An interrupt is found exactly when there is one, and it is one of those. -/
theorem firstInterrupt_cases (l : List Nat) :
    (l = [] ∧ firstInterrupt l = none) ∨ ∃ c ∈ l, firstInterrupt l = some c := by
  cases hf : firstInterrupt l with
  | none =>
    refine .inl ⟨List.eq_nil_iff_forall_not_mem.2 fun c hc => ?_, rfl⟩
    have hnone := List.find?_eq_none.1 hf c (List.mem_append_right _ hc)
    simp [hc] at hnone
  | some c => exact .inr ⟨c, by simpa using List.find?_some hf, rfl⟩

/-- The order external, software, timer, before every other cause (60 R456; notes/assumptions/48.md). -/
theorem firstInterrupt_order (l : List Nat) :
    (11 ∈ l → firstInterrupt l = some 11) ∧ (3 ∈ l → 11 ∉ l → firstInterrupt l = some 3) ∧
      (7 ∈ l → 11 ∉ l → 3 ∉ l → firstInterrupt l = some 7) := by
  unfold firstInterrupt interruptOrder
  exact ⟨fun h11 => by simp [h11], fun h3 h11 => by simp [h3, h11], fun h7 h11 h3 => by simp [h7, h11, h3]⟩

theorem step_of_interrupt {s : State} {c : Nat} (hcfg : configWf s.cfg = true)
    (h : firstInterrupt (enabledIrqs s) = some c) : step s = .next (trap (background s) c true 0) := by
  unfold step
  rw [if_pos hcfg, takenInterrupt_eq, h]

/-- Settles O8. -/
theorem interruptTakenOrMasked : Obligations.InterruptTakenOrMasked := by
  unfold Obligations.InterruptTakenOrMasked
  rintro s b rfl hcfg ok
  have hok : ∀ c, ok c ↔ c ∈ enabledIrqs s := fun c => mem_enabledIrqs.symm
  simp only [hok]
  obtain ⟨h11, h3, h7⟩ := firstInterrupt_order (enabledIrqs s)
  refine ⟨fun hnone => ?none, fun ⟨c, hc⟩ => ?some, fun h => step_of_interrupt hcfg (h11 h),
    fun h h' => step_of_interrupt hcfg (h3 h h'), fun h h' h'' => step_of_interrupt hcfg (h7 h h' h'')⟩
  case none =>
    have hnil : enabledIrqs s = [] := List.eq_nil_iff_forall_not_mem.2 hnone
    exact step_eq_runNext hcfg (by rw [takenInterrupt_eq, hnil]; rfl)
  case some =>
    obtain ⟨hnil, _⟩ | ⟨c', hc', hfirst⟩ := firstInterrupt_cases (enabledIrqs s)
    · rw [hnil] at hc
      cases hc
    · exact ⟨c', hc', step_of_interrupt hcfg hfirst⟩

/-! ## Trap entry and return -/

/-- The mode bits of `mtvec` as a number. -/
theorem extractLsb'_low_two_iff (v : Word) : v.extractLsb' 0 2 = 1#2 ↔ v.toNat % 4 = 1 := by
  rw [← BitVec.toNat_inj, BitVec.extractLsb'_toNat, Nat.shiftRight_zero]
  rfl

/-- Where a trap goes: the base of `mtvec`, and in vectored mode an interrupt as many words on as its code
(60 R470). -/
theorem trap_pc_toNat (s : State) (code : Nat) (irq : Bool) (info : Word) :
    (trap s code irq info).pc.toNat =
      (s.mtvec.toNat / 4 * 4 + (if s.mtvec.toNat % 4 = 1 ∧ irq = true then 4 * code else 0))
        % 2 ^ xlenBits s.cfg := by
  have hbase : (s.mtvec &&& ~~~3#64).toNat = s.mtvec.toNat / 4 * 4 := land_not_low_toNat s.mtvec 2
  show (truncX s.cfg _).toNat = _
  rw [truncX_toNat]
  simp only [extractLsb'_low_two_iff]
  split
  · rw [BitVec.toNat_add, hbase, BitVec.toNat_ofNat, Nat.add_mod_mod, truncX_add_mod]
  · rw [hbase, Nat.add_zero]

/-- Settles O9. -/
theorem trapEntry : Obligations.TrapEntry := by
  unfold Obligations.TrapEntry
  rintro s t code irq info rfl
  refine ⟨rfl, fun hpc hwidth => ?mepc, causeWord_toNat s.cfg irq code, truncX_toNat s.cfg info, rfl, rfl,
    trap_pc_toNat s code irq info⟩
  exact (mepcValue_of_aligned s.cfg s.pc hpc).trans hwidth

theorem mret_mprv (s : State) : (mret s).mstatus.mprv = (s.mstatus.mprv && s.mstatus.mpp == .m) := by
  unfold mret
  cases s.mstatus.mpp <;> simp

/-- Settles O10. -/
theorem trapReturn : Obligations.TrapReturn := by
  unfold Obligations.TrapReturn
  rintro s t rfl
  refine ⟨rfl, mepcValue_aligned s.cfg s.mepc, fun hmepc => ?target, rfl, ?status⟩
  case target =>
    show (mepcValue s.cfg s.mepc).toNat = _
    rw [mepcValue_of_aligned s.cfg s.mepc hmepc, truncX_toNat]
  case status =>
    rw [← mret_mprv]
    rfl

end Sys2Proof
end

section
/-! SUPPORT. A single access that raises an exception (60 R452, R455; 20 R88): the trap it ends in and what it leaves,
and for each shape of a meaning with one access that it is of this kind. -/

namespace Sys2Proof

open Machine

/-! ## One access -/

/-- Nothing lies between the parts of an access: it is performed as a whole, or its boundary has no gaps. -/
theorem quiet_of_whole_or_gaps {s : State} (q : Req)
    (h : q.va.toNat % q.n ≠ 0 → s.cfg.misaligned = .emulate → s.inter.gaps = []) : Quiet s [q] := by
  by_cases hw : q.va.toNat % q.n = 0 ∨ s.cfg.misaligned = .trap
  · obtain ⟨p, hp, _⟩ := partsOf_whole 0 hw
    exact .inr (by simp [allParts, hp])
  · obtain ⟨ha, hm⟩ := not_or.1 hw
    refine .inl (h ha ?_)
    cases hc : s.cfg.misaligned with
    | trap => exact absurd hc hm
    | emulate => rfl

/-- The outcome of an instruction whose one access raises an exception: the trap, in a state that no more than storage
the access touches distinguishes from the one before, and nothing where the access stores as a whole or not at all. -/
def AccessTraps (s : State) (kind : AccessKind) (va : Word) (n : Nat) (run : Result) : Prop :=
  ∃ u code info, RaisesAt s kind va n code info ∧ run = .next (trap u code false info) ∧
    PartlyStored s u [va] n ∧
    (kind = .load ∨ va.toNat % n = 0 ∨ s.cfg.misaligned = .trap ∨ s.cfg.misalignedPartial = false → u = s)

section

variable {s : State} {va : Word} {n : Nat}

theorem withLoad_traps (hq : va.toNat % n ≠ 0 → s.cfg.misaligned = .emulate → s.inter.gaps = [])
    (hr : ∃ code info, RaisesAt s .load va n code info) (k : State → Word → Result) :
    AccessTraps s .load va n (withLoad s va n k) := by
  obtain ⟨q, hmem, code, info, hraises, _, hrun⟩ := withLoads_raises (qs := [⟨va, n, 0⟩])
    (quiet_of_whole_or_gaps ⟨va, n, 0⟩ hq) (by simpa using hr) fun u vs => k u (vs.getD 0 0)
  obtain rfl := List.mem_singleton.1 hmem
  exact ⟨s, code, info, hraises, hrun, ⟨rfl, .refl s, fun a _ => .refl s a⟩, fun _ => rfl⟩

theorem withStores_traps (v : Word) (hq : va.toNat % n ≠ 0 → s.cfg.misaligned = .emulate → s.inter.gaps = [])
    (hr : ∃ code info, RaisesAt s .store va n code info) (k : State → Result) :
    AccessTraps s .store va n (withStores s [⟨va, n, v⟩] k) := by
  have hquiet := quiet_of_whole_or_gaps ⟨va, n, v⟩ hq
  obtain ⟨q, hmem, code, info, hraises, _, hrun⟩ := withStores_raises hquiet (by simpa using hr) k
  obtain rfl := List.mem_singleton.1 hmem
  refine ⟨_, code, info, hraises, hrun, partlyStored_of_raises hquiet (by simp), fun hw => ?whole⟩
  have hwhole : WholeStores s [⟨va, n, v⟩] := by
    rcases hw with hkind | halign | htrap | hpartial
    · cases hkind
    · exact .inr (by simpa using .inl halign)
    · exact .inr (by simpa using .inr htrap)
    · exact .inl hpartial
  obtain ⟨_, _, hnone⟩ := partialStore_whole [(⟨va, n, v⟩, [])] hquiet hwhole (by simpa using .inr hr)
  exact hnone (by simpa using hr)

end

/-! ## The shapes of a meaning with one access -/

section

variable {i : Instr} {s : State} {o : When} {x : Index} {e : Extend} {n : Nat} {rd rs1 rs2 : Reg} {imm5 : BitVec 5}
  {imm2 : BitVec 2}

theorem execLoadInc_traps (ha : available s i = true) (hne : rd ≠ rs1)
    (hq : (incAddr s o rs1 imm5 imm2).toNat % n ≠ 0 → s.cfg.misaligned = .emulate → s.inter.gaps = [])
    (hr : ∃ code info, RaisesAt s .load (incAddr s o rs1 imm5 imm2) n code info) :
    AccessTraps s .load (incAddr s o rs1 imm5 imm2) n (execLoadInc i o e n rd rs1 imm5 imm2 s) := by
  have hok : incLoadOk rd rs1 = true := bne_iff_ne.2 hne
  rw [execLoadInc, ha, requireLegal_true, hok, Bool.not_true, if_neg Bool.false_ne_true]
  exact withLoad_traps hq hr _

theorem execStoreInc_traps (ha : available s i = true) (hok : ¬(o = .before ∧ rd = rs1 ∧ s.cfg.sibSameReg = .refuse))
    (hq : (incAddr s o rs1 imm5 imm2).toNat % n ≠ 0 → s.cfg.misaligned = .emulate → s.inter.gaps = [])
    (hr : ∃ code info, RaisesAt s .store (incAddr s o rs1 imm5 imm2) n code info) :
    AccessTraps s .store (incAddr s o rs1 imm5 imm2) n (execStoreInc i o n rd rs1 imm5 imm2 s) := by
  rw [execStoreInc, ha, requireLegal_true, incStoreValue_spec s o rd rs1 imm5 imm2 hok]
  exact withStores_traps _ hq hr _

theorem execLoadIdx_traps (ha : available s i = true)
    (hq : (indexedAddr s x rs1 rs2 imm2).toNat % n ≠ 0 → s.cfg.misaligned = .emulate → s.inter.gaps = [])
    (hr : ∃ code info, RaisesAt s .load (indexedAddr s x rs1 rs2 imm2) n code info) :
    AccessTraps s .load (indexedAddr s x rs1 rs2 imm2) n (execLoadIdx i x e n rd rs1 rs2 imm2 s) := by
  rw [execLoadIdx, ha, requireLegal_true]
  exact withLoad_traps hq hr _

theorem execStoreIdx_traps (ha : available s i = true)
    (hq : (indexedAddr s x rs1 rs2 imm2).toNat % n ≠ 0 → s.cfg.misaligned = .emulate → s.inter.gaps = [])
    (hr : ∃ code info, RaisesAt s .store (indexedAddr s x rs1 rs2 imm2) n code info) :
    AccessTraps s .store (indexedAddr s x rs1 rs2 imm2) n (execStoreIdx i x n rd rs1 rs2 imm2 s) := by
  rw [execStoreIdx, ha, requireLegal_true]
  exact withStores_traps _ hq hr _

theorem execFload_traps (ha : available s i = true) (hon : s.cfg.fsGated = true → s.mstatus.fs ≠ 0)
    (hq : (indexedAddr s x rs1 rs2 imm2).toNat % n ≠ 0 → s.cfg.misaligned = .emulate → s.inter.gaps = [])
    (hr : ∃ code info, RaisesAt s .load (indexedAddr s x rs1 rs2 imm2) n code info) :
    AccessTraps s .load (indexedAddr s x rs1 rs2 imm2) n (execFload i x n rd rs1 rs2 imm2 s) := by
  rw [execFload, ha, fpOn_of_on hon, Bool.and_self, requireLegal_true]
  exact withLoad_traps hq hr _

theorem execFstore_traps (ha : available s i = true) (hon : s.cfg.fsGated = true → s.mstatus.fs ≠ 0)
    (hq : (indexedAddr s x rs1 rs2 imm2).toNat % n ≠ 0 → s.cfg.misaligned = .emulate → s.inter.gaps = [])
    (hr : ∃ code info, RaisesAt s .store (indexedAddr s x rs1 rs2 imm2) n code info) :
    AccessTraps s .store (indexedAddr s x rs1 rs2 imm2) n (execFstore i x n rd rs1 rs2 imm2 s) := by
  rw [execFstore, ha, fpOn_of_on hon, Bool.and_self, requireLegal_true]
  exact withStores_traps _ hq hr _

end

/-! ## The statement -/

/-- Settles O44: every form is of one of six shapes. -/
theorem accessExceptions : Obligations.AccessExceptions := by
  unfold Obligations.AccessExceptions
  intro s a b c m k raises
  refine ⟨fun hne p hp => ?incLoads, fun p hp hok => ?incStores, fun p hp => ?indexed, fun hon p hp => ?floats⟩
  case incLoads =>
    intro ha hq hr
    have shape : ∃ e, exec p.1 s = execLoadInc p.1 p.2.1 e p.2.2 a b m k s := by fin_cases hp <;> exact ⟨_, rfl⟩
    obtain ⟨e, hexec⟩ := shape
    rw [hexec]
    exact execLoadInc_traps ha hne hq hr
  case incStores =>
    intro ha hq hr
    have hexec : exec p.1 s = execStoreInc p.1 p.2.1 p.2.2 a b m k s := by fin_cases hp <;> rfl
    rw [hexec]
    exact execStoreInc_traps ha (fun ⟨ho, hab, hrefuse⟩ => hok ho hab hrefuse) hq hr
  case indexed =>
    intro ha hq hr
    cases hkind : p.2.1 with
    | load =>
      have shape : ∃ e, exec p.1 s = execLoadIdx p.1 p.2.2.1 e p.2.2.2 a b c k s := by
        fin_cases hp <;> cases hkind <;> exact ⟨_, rfl⟩
      obtain ⟨e, hexec⟩ := shape
      rw [hexec]
      exact execLoadIdx_traps ha hq (hkind ▸ hr)
    | store =>
      have hexec : exec p.1 s = execStoreIdx p.1 p.2.2.1 p.2.2.2 a b c k s := by
        fin_cases hp <;> cases hkind <;> rfl
      rw [hexec]
      exact execStoreIdx_traps ha hq (hkind ▸ hr)
    | fetch => fin_cases hp <;> cases hkind
  case floats =>
    intro ha hq hr
    cases hkind : p.2.1 with
    | load =>
      have hexec : exec p.1 s = execFload p.1 p.2.2.1 p.2.2.2 a b c k s := by
        fin_cases hp <;> cases hkind <;> rfl
      rw [hexec]
      exact execFload_traps ha hon hq (hkind ▸ hr)
    | store =>
      have hexec : exec p.1 s = execFstore p.1 p.2.2.1 p.2.2.2 a b c k s := by
        fin_cases hp <;> cases hkind <;> rfl
      rw [hexec]
      exact execFstore_traps ha hon hq (hkind ▸ hr)
    | fetch => fin_cases hp <;> cases hkind

end Sys2Proof
end

section
/-! SUPPORT. XTheadFmv (48 R400, R401): the moves of the upper half of a floating-point register. -/

namespace Sys2Proof

open Machine

/-! ## The upper half of a floating-point register -/

/-- The upper half of a register fits an integer register of every width. -/
theorem truncX_upper_half (c : Config) (v : Word) : (truncX c (v >>> 32)).toNat = v.toNat / 2 ^ 32 := by
  rw [truncX_toNat, BitVec.toNat_ushiftRight, Nat.shiftRight_eq_div_pow]
  have := v.isLt
  rcases xlenBits_cases c with h | h <;> rw [h] <;> omega

theorem append_halves_toNat (hi lo : Word) (hhi : hi.toNat < 2 ^ 32) :
    (hi.setWidth 32 ++ lo.setWidth 32 : Word).toNat = hi.toNat * 2 ^ 32 + lo.toNat % 2 ^ 32 := by
  rw [BitVec.toNat_append, ← Nat.shiftLeft_add_eq_or_of_lt (lo.setWidth 32).isLt, Nat.shiftLeft_eq,
    BitVec.toNat_setWidth, BitVec.toNat_setWidth, Nat.mod_eq_of_lt hhi]

/-- Settles O43. -/
theorem floatMoves : Obligations.FloatMoves := by
  unfold Obligations.FloatMoves
  intro s rd fs1 he hx hd hon
  refine ⟨?toInteger, fun fr xr hregs => ?toFloat⟩
  case toInteger =>
    have ha : available s (.fmvXHw rd fs1) = true := by simp [available, he, isRv64, hx, hd]
    obtain ⟨t, hrun, hnext, hframe, hval⟩ := finishX_spec s rd (readF s fs1 >>> 32)
    have hexec : exec (.fmvXHw rd fs1) s = .next t := by
      show execFmvXHw rd fs1 s = _
      rw [execFmvXHw, ha, fpOn_of_on hon, Bool.and_self, requireLegal_true, hrun]
    exact ⟨t, hexec, hnext, hframe, fun h0 => by rw [hval h0, truncX_upper_half]⟩
  case toFloat =>
    have ha : available s (.fmvHwX rd fs1) = true := by simp [available, he, isRv64, hx, hd]
    have hexec : exec (.fmvHwX rd fs1) s = .next (advance (markFpDirty
        (writeF s fr ((readX s xr).setWidth 32 ++ (readF s fr).setWidth 32)))) := by
      show execFmvHwX rd fs1 s = _
      rw [execFmvHwX, fmvHwXRegs, ← hregs]
      dsimp only
      rw [ha, fpOn_of_on hon, Bool.and_self, requireLegal_true]
    have hlt : (readX s xr).toNat < 2 ^ 32 := by simpa [xlenBits, hx] using readX_lt s xr
    refine ⟨_, hexec, nextInsn_advance _ _ (markFp_cfg ..) (markFp_pc ..), floatOnly_write .., ?_⟩
    rw [readF_finish, truncF, if_pos hd, append_halves_toNat _ _ hlt]

end Sys2Proof
end

section
/-! SUPPORT. XTheadInt (48 R402 to R406) with nothing between the accesses: the interrupt frame pushed, popped, and cut
short by a slot that raises an exception. -/

namespace Sys2Proof

open Machine

/-! ## The slots of a frame -/

/-- Slots lie a multiple of four bytes apart. -/
theorem slotAddr_mod (s : State) (top : Word) (k : Nat) :
    (slotAddr s top k).toNat % 4 = (slotAddr s top 0).toNat % 4 := by
  have hk := slotAddr_toNat s top k
  have h0 := slotAddr_toNat s top 0
  rcases xlenBits_cases s.cfg with h | h <;> rw [h] at hk h0 <;> omega

theorem frameItems_length (s : State) : (frameItems s).length = 18 := rfl

theorem frameStores_va (s : State) (top : Word) :
    (frameStores s top 0 (frameItems s)).map Req.va = (List.range 18).map (slotAddr s top) := rfl

theorem frameLoads_va (s : State) (top : Word) :
    (frameLoads s top).map Req.va = (List.range 18).map (slotAddr s top) := rfl

theorem frameStores_n {s : State} {top : Word} {k : Nat} {vs : List Word} {q : Req}
    (h : q ∈ frameStores s top k vs) : q.n = 4 := by
  rw [frameStores_eq] at h
  obtain ⟨p, _, rfl⟩ := List.mem_map.1 h
  rfl

theorem frameLoads_n {s : State} {top : Word} {q : Req} (h : q ∈ frameLoads s top) : q.n = 4 := by
  obtain ⟨k, _, rfl⟩ := List.mem_map.1 h
  rfl

/-- The accesses of a frame, whatever their values, are of four bytes at its slots. -/
structure FrameAccesses (s : State) (top : Word) (qs : List Req) : Prop where
  va : qs.map Req.va = (List.range 18).map (slotAddr s top)
  n : ∀ q ∈ qs, q.n = 4

theorem frameStores_accesses (s : State) (top : Word) : FrameAccesses s top (frameStores s top 0 (frameItems s)) :=
  ⟨frameStores_va s top, fun _ => frameStores_n⟩

theorem frameLoads_accesses (s : State) (top : Word) : FrameAccesses s top (frameLoads s top) :=
  ⟨frameLoads_va s top, fun _ => frameLoads_n⟩

/-- Every access is at a slot. -/
theorem FrameAccesses.slot_of_mem {s : State} {top : Word} {qs : List Req} (h : FrameAccesses s top qs) {q : Req}
    (hq : q ∈ qs) : ∃ k < 18, q.va = slotAddr s top k := by
  have hva : q.va ∈ (List.range 18).map (slotAddr s top) := h.va ▸ List.mem_map_of_mem hq
  obtain ⟨k, hk, heq⟩ := List.mem_map.1 hva
  exact ⟨k, List.mem_range.1 hk, heq.symm⟩

/-- Every slot has an access. -/
theorem FrameAccesses.mem_of_slot {s : State} {top : Word} {qs : List Req} (h : FrameAccesses s top qs) {k : Nat}
    (hk : k < 18) : ∃ q ∈ qs, q.va = slotAddr s top k := by
  have hva : slotAddr s top k ∈ qs.map Req.va := h.va ▸ List.mem_map_of_mem (List.mem_range.2 hk)
  exact List.mem_map.1 hva

/-! ## Pushing -/

/-- An item that is cut to `XLEN` bits has the same four bytes. -/
theorem HoldsBytes.of_truncX {t : State} {c : Config} {pas : List Nat} {v : Word} (hl : pas.length = 4)
    (h : HoldsBytes t pas (truncX c v)) : HoldsBytes t pas v := by
  intro k hk
  rw [h k hk, truncX_toNat]
  have hk4 : k < 4 := hl ▸ hk
  rcases xlenBits_cases c with h | h <;> rw [h] <;> interval_cases k <;> omega

/-- Settles O46. -/
theorem pushFrame : Obligations.PushFrame := by
  unfold Obligations.PushFrame
  intro s pas he hp hx hg hmaps
  obtain ⟨u, hexec, hstored⟩ := execIpush_of_maps s pas he hp hx hg hmaps
  obtain ⟨hnext, hrest, hmstatus, hsp, hregs, hsame⟩ := pushEnd_spec hstored.only.agents
  generalize ht : advance (pushMie (writeIntSp u (readIntSp s - 72))) = t at *
  refine ⟨t, hexec, hnext, ?rest, ?others, hmstatus, hsp, hregs, fun a ha => ?frame, fun hs hd => ?bytes⟩
  case rest =>
    calc { t with x := s.x, pc := s.pc, intSp := s.intSp, mstatus := s.mstatus, mem := s.mem, dc := s.dc, l2 := s.l2,
                  others := s.others }
        = { ({ t with x := u.x, pc := u.pc, intSp := u.intSp, mstatus := u.mstatus } : State) with
            x := s.x, pc := s.pc, intSp := s.intSp, mstatus := s.mstatus, mem := s.mem, dc := s.dc, l2 := s.l2,
            others := s.others } := rfl
      _ = { ({ u with mem := s.mem, dc := s.dc, l2 := s.l2, others := s.others } : State) with
            x := s.x, pc := s.pc, intSp := s.intSp, mstatus := s.mstatus } := by rw [hrest]
      _ = s := by rw [hstored.only.rest]
  case others =>
    have hothers : t.others = u.others := by have h := congrArg State.others hrest; exact h
    exact ⟨by rw [hothers]; exact hstored.only.others.rest,
      fun hc => hothers.trans (hstored.only.others.incoherent hc)⟩
  case frame => exact (hstored.bytes a (by rwa [pushCells_snd])).trans (hsame a)
  case bytes =>
    have hheld : ∀ k (hk : k < 18), HoldsBytes t (pas k) (frameItems s)[k] := fun k hk => by
      have hu := hstored.holds hs (by rwa [pushCells_snd]) _ ((mem_pushCells s pas _).2 ⟨k, hk, rfl⟩)
      refine hu.congr fun a => ?_
      obtain ⟨_, _, hdata, _⟩ := hsame a
      exact hdata
    refine ⟨(hheld 0 (by decide)).of_truncX (hmaps 0 (by decide)).length, hheld 1 (by decide), fun k hk => ?_⟩
    have hk16 : k < 16 := hk
    simpa [frameItems] using hheld (k + 2) (by omega)

/-! ## Popping -/

/-- The loads of a pop with the addresses `pas k` of each slot. -/
def popCells (s : State) (pas : Nat → List Nat) : List (Req × List Nat) :=
  (List.range 18).map fun k => (⟨slotAddr s (readIntSp s + 72) k, 4, 0⟩, pas k)

theorem popCells_fst (s : State) (pas : Nat → List Nat) :
    (popCells s pas).map Prod.fst = frameLoads s (readIntSp s + 72) := rfl

/-- The words a pop loads, by slot. -/
theorem popCells_word (s : State) (pas : Nat → List Nat) {k : Nat} (hk : k < 18) :
    ((popCells s pas).map fun p => leValue (p.2.map (dataByte s))).getD k 0 = leValue ((pas k).map (dataByte s)) := by
  simp [popCells, List.getD_eq_getElem?_getD, hk]

/-- A pop whose loads raise nothing. -/
theorem execIpop_of_maps {s : State} {pas : Nat → List Nat} (he : enabled s .xTheadInt = true) (hp : s.priv = .m)
    (hx : s.cfg.xlen = .rv64 → s.cfg.xtheadintOnRv64 = true) (hg : s.inter.gaps = [])
    (hmaps : ∀ k < 18, AccessMaps s .load (slotAddr s (readIntSp s + 72) k) 4 (pas k)) :
    ∃ vs, exec .ipop s = .next (popFrame s vs) ∧
      ∀ k < 18, (vs.getD k 0).toNat = loadedNat s (pas k) ∧ (vs.getD k 0).toNat < 256 ^ 4 := by
  have ha : available s .ipop = true := he
  have hcells : ∀ p ∈ popCells s pas, AccessMaps s .load p.1.va p.1.n p.2 := by
    intro p hmem
    obtain ⟨k, hk, rfl⟩ := List.mem_map.1 hmem
    exact hmaps k (List.mem_range.1 hk)
  have hrun := withLoads_of_maps (popCells s pas) (.inl hg) hcells fun u vs => .next (popFrame u vs)
  rw [popCells_fst] at hrun
  refine ⟨_, (execIpop_eq ha hp hx).trans hrun, fun k hk => ?_⟩
  rw [popCells_word s pas hk]
  exact leValue_loaded s (pas k) 4 (hmaps k hk).length (by decide)

/-- Settles O47. -/
theorem popFrame : Obligations.PopFrame := by
  unfold Obligations.PopFrame
  intro s pas he hp hx hg hmaps
  obtain ⟨vs, hexec, hwords⟩ := execIpop_of_maps he hp hx hg hmaps
  obtain ⟨hcause, hlegal⟩ := popFrame_mcause s vs
  obtain ⟨hpc, hpriv, hmstatus⟩ := popFrame_return s vs
  refine ⟨_, popItem s.cfg vs, hexec, fun k hk => ?item, popFrame_rest s vs, hcause, hlegal, popFrame_mepc s vs,
    fun k hk hr => ?saved, fun r hr hsp => ?kept, readIntSp_popFrame s vs, hpc, hpriv, hmstatus,
    sameBytes_popFrame s vs⟩
  case item =>
    obtain ⟨hval, hlt⟩ := hwords k hk
    rw [← hval]
    exact popItem_extends s.cfg vs k hlt
  case saved =>
    obtain ⟨hread, _⟩ := readX_popFrame s vs _ hr
    exact hread k hk rfl
  case kept =>
    obtain ⟨_, hread⟩ := readX_popFrame s vs r hsp
    exact hread hr

/-! ## A slot that raises an exception -/

section

variable {s : State} {top : Word} {qs : List Req}

/-- A slot raises an exception exactly when its access does. -/
theorem FrameAccesses.raises (h : FrameAccesses s top qs) {kind : AccessKind}
    (hr : ∃ k < 18, ∃ code info, RaisesAt s kind (slotAddr s top k) 4 code info) :
    ∃ q ∈ qs, ∃ code info, RaisesAt s kind q.va q.n code info := by
  obtain ⟨k, hk, hr⟩ := hr
  obtain ⟨q, hq, hva⟩ := h.mem_of_slot hk
  exact ⟨q, hq, by rwa [hva, h.n q hq]⟩

/-- An access at the lowest address of those that raise is at the lowest such slot (decision D44). -/
theorem FrameAccesses.lowest (h : FrameAccesses s top qs) {kind : AccessKind} {q : Req} (hq : q ∈ qs) {code : Nat}
    {info : Word} (hr : RaisesAt s kind q.va q.n code info)
    (hmin : ∀ q' ∈ qs, (∃ c i, RaisesAt s kind q'.va q'.n c i) → q.va.toNat ≤ q'.va.toNat) :
    ∃ k < 18, RaisesAt s kind (slotAddr s top k) 4 code info ∧
      ∀ j < 18, (∃ c i, RaisesAt s kind (slotAddr s top j) 4 c i) →
        (slotAddr s top k).toNat ≤ (slotAddr s top j).toNat := by
  obtain ⟨k, hk, hva⟩ := h.slot_of_mem hq
  rw [hva, h.n q hq] at hr
  refine ⟨k, hk, hr, fun j hj hrj => ?_⟩
  obtain ⟨q', hq', hva'⟩ := h.mem_of_slot hj
  rw [← hva, ← hva']
  exact hmin q' hq' (by rwa [hva', h.n q' hq'])

end

/-- A pop of which a slot raises an exception. -/
theorem execIpop_traps {s : State} (he : enabled s .xTheadInt = true) (hp : s.priv = .m)
    (hx : s.cfg.xlen = .rv64 → s.cfg.xtheadintOnRv64 = true) (hg : s.inter.gaps = [])
    (hr : ∃ k < 18, ∃ code info, RaisesAt s .load (slotAddr s (readIntSp s + 72) k) 4 code info) :
    ∃ k < 18, ∃ code info, RaisesAt s .load (slotAddr s (readIntSp s + 72) k) 4 code info ∧
      (∀ j < 18, (∃ c i, RaisesAt s .load (slotAddr s (readIntSp s + 72) j) 4 c i) →
        (slotAddr s (readIntSp s + 72) k).toNat ≤ (slotAddr s (readIntSp s + 72) j).toNat) ∧
      exec .ipop s = .next (trap s code false info) := by
  have ha : available s .ipop = true := he
  have hacc := frameLoads_accesses s (readIntSp s + 72)
  obtain ⟨q, hq, code, info, hraises, hmin, hrun⟩ := withLoads_raises (.inl hg) (hacc.raises hr)
    fun u vs => .next (Machine.popFrame u vs)
  obtain ⟨k, hk, hraises, hmin⟩ := hacc.lowest hq hraises hmin
  exact ⟨k, hk, code, info, hraises, hmin, (execIpop_eq ha hp hx).trans hrun⟩

/-- What the stores of a push leave of which a slot raises an exception (notes/assumptions/46.md). -/
def pushRemains (s : State) : State :=
  partialStore s (frameStores s (readIntSp s) 0 (frameItems s))
    (storeOutcomes s (frameStores s (readIntSp s) 0 (frameItems s)))

/-- A push of which a slot raises an exception. -/
theorem execIpush_traps {s : State} (he : enabled s .xTheadInt = true) (hp : s.priv = .m)
    (hx : s.cfg.xlen = .rv64 → s.cfg.xtheadintOnRv64 = true) (hg : s.inter.gaps = [])
    (hr : ∃ k < 18, ∃ code info, RaisesAt s .store (slotAddr s (readIntSp s) k) 4 code info) :
    ∃ k < 18, ∃ code info, RaisesAt s .store (slotAddr s (readIntSp s) k) 4 code info ∧
      (∀ j < 18, (∃ c i, RaisesAt s .store (slotAddr s (readIntSp s) j) 4 c i) →
        (slotAddr s (readIntSp s) k).toNat ≤ (slotAddr s (readIntSp s) j).toNat) ∧
      exec .ipush s = .next (trap (pushRemains s) code false info) := by
  have ha : available s .ipush = true := he
  have hacc := frameStores_accesses s (readIntSp s)
  obtain ⟨q, hq, code, info, hraises, hmin, hrun⟩ := withStores_raises (.inl hg) (hacc.raises hr)
    fun u => .next (advance (pushMie (writeIntSp u (readIntSp s - 72))))
  obtain ⟨k, hk, hraises, hmin⟩ := hacc.lowest hq hraises hmin
  exact ⟨k, hk, code, info, hraises, hmin, (execInM_run (i := .ipush) ha hp hx).trans hrun⟩

theorem partlyStored_pushRemains {s : State} (hg : s.inter.gaps = []) :
    PartlyStored s (pushRemains s) ((List.range 18).map (slotAddr s (readIntSp s))) 4 := by
  have hacc := frameStores_accesses s (readIntSp s)
  rw [← hacc.va]
  exact partlyStored_of_raises (.inl hg) hacc.n

/-- Where single bytes of a slot cannot stay, each slot is left whole or untouched. -/
theorem pushRemains_whole {s : State} (hg : s.inter.gaps = [])
    (hw : s.cfg.misalignedPartial = false ∨ (slotAddr s (readIntSp s) 0).toNat % 4 = 0) (pas : Nat → List Nat)
    (h : ∀ j < 18, AccessMaps s .store (slotAddr s (readIntSp s) j) 4 (pas j) ∨
      (∃ code info, RaisesAt s .store (slotAddr s (readIntSp s) j) 4 code info) ∧ pas j = []) :
    (∀ a, a ∉ (List.range 18).flatMap pas → SameBytes s (pushRemains s) a) ∧
    (StorageInv s → ((List.range 18).flatMap pas).Nodup → ∀ j (hj : j < (frameItems s).length),
      (∀ a ∈ pas j, SameBytes s (pushRemains s) a) ∨ HoldsBytes (pushRemains s) (pas j) (frameItems s)[j]) := by
  have hwhole : WholeStores s (frameStores s (readIntSp s) 0 (frameItems s)) := by
    refine hw.imp_right fun halign q hq => .inl ?_
    have hacc := frameStores_accesses s (readIntSp s)
    obtain ⟨k, _, hva⟩ := hacc.slot_of_mem hq
    rw [hva, hacc.n q hq, slotAddr_mod, halign]
  rw [← pushCells_fst s pas] at hwhole
  obtain ⟨hframe, hbytes, _⟩ := partialStore_whole (pushCells s pas) (.inl hg) hwhole fun p hp => by
    obtain ⟨k, hk, rfl⟩ := (mem_pushCells s pas p).1 hp
    exact h k hk
  rw [pushCells_snd, pushCells_fst] at hframe hbytes
  exact ⟨hframe, fun hs hd j hj => hbytes hs hd _ ((mem_pushCells s pas _).2 ⟨j, hj, rfl⟩)⟩

/-- Settles O48. -/
theorem frameTraps : Obligations.FrameTraps := by
  unfold Obligations.FrameTraps
  intro s he hp hx hg
  refine List.forall_mem_cons.2 ⟨fun hr => ?push, List.forall_mem_singleton.2 fun hr => ?pop⟩
  case push =>
    obtain ⟨k, hk, code, info, hraises, hmin, hexec⟩ := execIpush_traps he hp hx hg hr
    exact ⟨pushRemains s, k, code, info, hk, hraises, hmin, hexec, nofun,
      fun _ => ⟨partlyStored_pushRemains hg, fun hw pas h => pushRemains_whole hg hw pas h⟩⟩
  case pop =>
    obtain ⟨k, hk, code, info, hraises, hmin, hexec⟩ := execIpop_traps he hp hx hg hr
    exact ⟨s, k, code, info, hk, hraises, hmin, hexec, fun _ => rfl, nofun⟩

end Sys2Proof
end

section
/-! SUPPORT. A push followed by a pop on RV32 (48 R408): the pop meets the frame where the push left it and reads back
the items. -/

namespace Sys2Proof

open Machine

/-! ## Items on RV32 -/

/-- A word loaded from bytes that hold an item of 32 bits is the item. -/
theorem item_of_holds {t : State} {c : Config} {pas : List Nat} {v w : Word} (hx : c.xlen = .rv32)
    (hl : pas.length = 4) (hv : v.toNat < 2 ^ 32) (hheld : HoldsBytes t pas v)
    (hw : Extends c .sign 4 (loadedNat t pas) w) : w = v := by
  have hval : (w.toNat : Int) = Int.bmod (loadedNat t pas) (2 ^ (8 * 4)) % 2 ^ xlenBits c := hw
  rw [loadedNat_of_holds hl hheld, xlenBits, hx, Nat.mod_eq_of_lt hv] at hval
  refine BitVec.eq_of_toNat_eq (Int.ofNat.inj ?_)
  have hmod : Int.bmod (v.toNat : Int) (2 ^ (8 * 4)) % 2 ^ 32 = (v.toNat : Int) := by
    rw [show (2 : Int) ^ 32 = ((2 ^ (8 * 4) : Nat) : Int) by norm_num, Int.bmod_emod]
    omega
  exact hval.trans hmod

theorem legalCause_lt {c : Config} {v : Word} (h : v ∈ legalCauses c) : v.toNat < 2 ^ xlenBits c := by
  have cause : ∀ irq code, (causeWord c irq code).toNat < 2 ^ xlenBits c := by
    intro irq code
    rw [causeWord_toNat]
    rcases xlenBits_cases c with h | h <;> rw [h] <;> split <;> omega
  rw [legalCauses, List.mem_append] at h
  rcases h with h | h <;> obtain ⟨code, _, rfl⟩ := List.mem_map.1 h <;> exact cause _ code

theorem readMepc_lt (s : State) : (readMepc s).toNat < 2 ^ xlenBits s.cfg := by
  rw [readMepc, ← truncX_mepcValue, truncX_toNat]
  exact Nat.mod_lt _ (by positivity)

/-- Where `int_sp` is an integer register it reads as this one. -/
theorem readIntSp_of_gpr {s : State} {r : Reg} (h : s.cfg.intSpReg = .gpr r) : readIntSp s = readX s r := by
  rw [readIntSp, h]

/-! ## Where the pop looks -/

/-- Moved down by 72 and up again the top of the frame is the same, so its slots are. -/
theorem slotAddr_after_push {s t : State} (hcfg : t.cfg = s.cfg)
    (hsp : ((readIntSp t).toNat : Int) = ((readIntSp s).toNat - 72 : Int) % 2 ^ xlenBits s.cfg) (k : Nat) :
    slotAddr t (readIntSp t + 72) k = slotAddr s (readIntSp s) k := by
  refine BitVec.eq_of_toNat_eq (Int.ofNat.inj ?_)
  have ht := slotAddr_toNat t (readIntSp t + 72) k
  have hs := slotAddr_toNat s (readIntSp s) k
  rw [BitVec.toNat_add, hcfg] at ht
  show ((slotAddr t (readIntSp t + 72) k).toNat : Int) = (slotAddr s (readIntSp s) k).toNat
  rw [ht, hs]
  have h72 : (72#64).toNat = 72 := rfl
  rcases xlenBits_cases s.cfg with h | h <;> rw [h] at hsp ⊢ <;> push_cast <;> omega

/-- What a push leaves of a state: all but registers, status and storage. -/
structure AfterPush (s t : State) : Prop where
  maps : SameMaps s t
  inter : t.inter = s.inter
  mxstatus : t.mxstatus = s.mxstatus

theorem AfterPush.of_rest {s t : State}
    (hrest : { t with x := s.x, pc := s.pc, intSp := s.intSp, mstatus := s.mstatus,
                      mem := s.mem, dc := s.dc, l2 := s.l2, others := s.others } = s)
    (hms : t.mstatus = s.mstatus) : AfterPush s t where
  maps := by
    have h := fun {α : Type} (f : State → α) => congrArg f hrest
    exact ⟨h State.cfg, h (·.priv), by rw [hms], by rw [hms], h (·.xlateOn), h (·.tlb), h (·.pageMap), h (·.asid)⟩
  inter := by have h := congrArg State.inter hrest; exact h
  mxstatus := by have h := congrArg (·.mxstatus) hrest; exact h

/-- Settles O49: the pop of the state after the push reads what `HoldsBytes` says the push has written. -/
theorem pushThenPop : Obligations.PushThenPop := by
  unfold Obligations.PushThenPop
  intro s pas he hp hx hs hmie hg hsp hcause hmepc hmaps hd
  have hx64 : s.cfg.xlen = .rv64 → s.cfg.xtheadintOnRv64 = true := fun h => by rw [hx] at h; cases h
  have hsp0 : s.cfg.intSpReg ≠ .gpr 0 := hsp 0 (by decide)
  obtain ⟨t, hpush, _, hrest, _, hms, hspt, hregst, _, hheld⟩ :=
    pushFrame s pas he hp hx64 hg fun k hk => (hmaps k hk).1
  have hspt := hspt hsp0
  obtain ⟨hheld0, hheld1, hheldR⟩ := hheld hs hd
  rw [hmie, Bool.or_false] at hms
  have hms : t.mstatus = s.mstatus := hms
  have after := AfterPush.of_rest hrest hms
  have hcfg := after.maps.cfg
  have hmapst : ∀ k < 18, AccessMaps t .load (slotAddr t (readIntSp t + 72) k) 4 (pas k) := fun k hk => by
    rw [slotAddr_after_push hcfg hspt]
    exact (hmaps k hk).2.congr after.maps after.inter
  obtain ⟨u, item, hpop, hitem, hrestu, hcauseu, _, hmepcu, hregsu, hkeptu, hspu, hpcu, hprivu, hmsu, _⟩ :=
    popFrame t pas (by simpa [enabled, hcfg, after.mxstatus] using he) (by rw [after.maps.priv, hp])
      (by rwa [hcfg]) (by rw [after.inter, hg]) hmapst
  rw [hcfg] at hitem hcauseu hmepcu hregsu hkeptu hspu hmsu
  rw [hms] at hprivu hmsu
  have hlen : ∀ k < 18, (pas k).length = 4 := fun k hk => (hmaps k hk).1.length
  have hxl : xlenBits s.cfg = 32 := by simp [xlenBits, hx]
  have hitem : ∀ k < 18, ∀ v : Word, v.toNat < 2 ^ xlenBits s.cfg → HoldsBytes t (pas k) v → item k = v :=
    fun k hk v hv hheld => item_of_holds hx (hlen k hk) (by rwa [hxl] at hv) hheld (hitem k hk)
  have item0 : item 0 = s.mcause := hitem 0 (by decide) _ (legalCause_lt hcause) hheld0
  have item1 : item 1 = s.mepc := (hitem 1 (by decide) _ (readMepc_lt s) hheld1).trans hmepc
  have hspu : readIntSp u = readIntSp s := by
    refine BitVec.eq_of_toNat_eq (hspu hsp0 |>.trans ?_)
    have hlt := readIntSp_lt s
    rw [hxl] at hspt hlt ⊢
    omega
  have hmepcu : u.mepc = s.mepc := by
    have halign : s.mepc.toNat % pcAlign s.cfg = 0 := hmepc ▸ mepcValue_aligned s.cfg s.mepc
    refine BitVec.eq_of_toNat_eq (hmepcu.trans ?_)
    rw [item1, Nat.div_mul_cancel (Nat.dvd_of_mod_eq_zero halign)]
  refine ⟨t, u, hpush, hpop, hspu, ?cause, hmepcu, fun r => ?regs, hpcu.trans hmepcu, hprivu, hmsu⟩
  case cause => rw [hcauseu (item0 ▸ hcause), item0]
  case regs =>
    by_cases hframe : r ∈ frameRegs
    · obtain ⟨k, hk, rfl⟩ := List.getElem_of_mem hframe
      have hk16 : k < 16 := hk
      rw [hregsu k hk (hsp _ (List.mem_cons_of_mem _ hframe))]
      exact hitem (k + 2) (by omega) _ (readX_lt s _) (hheldR k hk)
    by_cases hr : s.cfg.intSpReg = .gpr r
    · have hcfgu : u.cfg = s.cfg := by have h := congrArg State.cfg hrestu; exact h.trans hcfg
      rw [← readIntSp_of_gpr (hcfgu ▸ hr), hspu, readIntSp_of_gpr hr]
    · rw [hkeptu r hframe hr, hregst r hr]

end Sys2Proof
end

section
/-! SUPPORT. XTheadVdot (49 R420 to R429): the elements of a group after an instruction has replaced them, and what a
dot product does where the vector base allows it and where it does not. -/

namespace Sys2Proof

open Machine

/-! ## The elements of a group -/

/-- The four values of `LMUL` (10 R48). -/
theorem lmul_cases (vtype : Word) : lmul vtype = 1 ∨ lmul vtype = 2 ∨ lmul vtype = 4 ∨ lmul vtype = 8 := by
  unfold lmul vlmulLog
  have hlog := (vtype.extractLsb' 0 2).isLt
  interval_cases (vtype.extractLsb' 0 2).toNat <;> simp

/-- A group that starts at a multiple of `LMUL` ends within the 32 registers. -/
theorem group_fits {v : Reg} {m : Nat} (hm : m = 1 ∨ m = 2 ∨ m = 4 ∨ m = 8) (h : v.toNat % m = 0) :
    v.toNat + m ≤ 32 := by
  have hlt := v.isLt
  rcases hm with rfl | rfl | rfl | rfl <;> omega

theorem elem_index_lt {s : State} {v : Reg} {i : Nat} (h : v.toNat % lmul s.vtype = 0) (hi : i < vlmax s) :
    v.toNat * elemsPerReg s.cfg + i < 32 * elemsPerReg s.cfg := by
  calc v.toNat * elemsPerReg s.cfg + i < v.toNat * elemsPerReg s.cfg + elemsPerReg s.cfg * lmul s.vtype :=
        Nat.add_lt_add_left hi _
    _ = (v.toNat + lmul s.vtype) * elemsPerReg s.cfg := by ring
    _ ≤ 32 * elemsPerReg s.cfg := Nat.mul_le_mul_right _ (group_fits (lmul_cases _) h)

section

variable {s : State} {vd : Reg} {new active : Nat → BitVec 32} {i : Nat}

/-- An element of a group whose elements have been replaced. -/
theorem elem32_setElems (hlen : s.vregs.length = 32 * elemsPerReg s.cfg) (h : vd.toNat % lmul s.vtype = 0)
    (hi : i < vlmax s) : elem32 (setElems s vd new) vd i = new i := by
  have hlt : vd.toNat * elemsPerReg s.cfg + i < s.vregs.length := hlen ▸ elem_index_lt h hi
  simp [elem32, setElems, List.getD_eq_getElem?_getD, List.getElem?_mapIdx, List.getElem?_eq_getElem hlt, hi]

/-- A word outside the group. -/
theorem vregs_setElems_outside {k : Nat}
    (h : k < vd.toNat * elemsPerReg s.cfg ∨ vd.toNat * elemsPerReg s.cfg + vlmax s ≤ k) :
    (setElems s vd new).vregs[k]? = s.vregs[k]? := by
  have hout : ¬(vd.toNat * elemsPerReg s.cfg ≤ k ∧ k < vd.toNat * elemsPerReg s.cfg + vlmax s) := by omega
  simp [setElems, List.getElem?_mapIdx, hout]

/-! ## The new elements -/

theorem newElem_active (hlo : s.vstart.toNat ≤ i) (hhi : i < s.vl.toNat) : newElem s active vd i = active i := by
  rw [newElem, if_neg (by omega), if_pos hhi]

/-- The elements that are left alone (49 R428; notes/assumptions/35.md). -/
theorem newElem_kept (h : i < s.vstart.toNat ∨ s.vl.toNat ≤ s.vstart.toNat ∨
    s.vl.toNat ≤ i ∧ s.cfg.vdotTail = .undisturbed) : newElem s active vd i = elem32 s vd i := by
  unfold newElem
  by_cases hlo : i < s.vstart.toNat
  · rw [if_pos hlo]
  have hhi : ¬ i < s.vl.toNat := by omega
  rw [if_neg hlo, if_neg hhi]
  by_cases hnone : s.vl.toNat ≤ s.vstart.toNat
  · rw [if_pos hnone]
  · have htail : s.cfg.vdotTail = .undisturbed := by tauto
    rw [if_neg hnone, htail]

/-- The tail where there is an active element, under two values of `VDOT_TAIL` (49 R428; decision D32). -/
theorem newElem_tail (hsome : s.vstart.toNat < s.vl.toNat) (hi : s.vl.toNat ≤ i) :
    (s.cfg.vdotTail = .zero → newElem s active vd i = 0) ∧
      (s.cfg.vdotTail = .ones → newElem s active vd i = BitVec.allOnes 32) := by
  rw [newElem, if_neg (by omega), if_neg (by omega), if_neg (by omega)]
  exact ⟨fun h => by rw [h], fun h => by rw [h]⟩

end

/-! ## The end of a vector instruction -/

theorem finishVector_rest (s : State) :
    { finishVector s with vstart := s.vstart, mstatus := s.mstatus } = s := by
  unfold finishVector
  split <;> rfl

theorem finishVector_status (s : State) :
    (finishVector s).vstart = 0 ∧
      (finishVector s).mstatus = { s.mstatus with vs := if s.cfg.vsGated then 3 else s.mstatus.vs } := by
  unfold finishVector
  cases hv : s.cfg.vsGated <;> exact ⟨rfl, rfl⟩

/-- An instruction that replaces the elements of a group changes no more than the group and the bookkeeping. -/
theorem vectorOnly_setElems (s : State) (vd : Reg) (new : Nat → BitVec 32) :
    VectorOnly s (advance (finishVector (setElems s vd new))) vd where
  rest := by
    have hrest := finishVector_rest (setElems s vd new)
    calc { advance (finishVector (setElems s vd new)) with
            vregs := s.vregs, vstart := s.vstart, mstatus := s.mstatus, pc := s.pc }
        = { ({ finishVector (setElems s vd new) with
                vstart := (setElems s vd new).vstart, mstatus := (setElems s vd new).mstatus } : State) with
            vregs := s.vregs, pc := s.pc } := rfl
      _ = s := by rw [hrest]; rfl
  words k hk := by
    rw [advance_vregs, finishVector_vregs]
    exact vregs_setElems_outside hk
  start := (finishVector_status (setElems s vd new)).1
  status := (finishVector_status (setElems s vd new)).2
  bytes a := .congr (by simp) (by simp) (by simp) (by simp) (by simp) (by simp) a

/-! ## Outcomes of a dot product -/

section

variable {i : Instr} {s : State} {vm : Bool} {qa qb : Factor} {first : Nat → BitVec 32} {vd vs2 : Reg}
  {groups : List Reg}

/-- The elements of a group after a dot product has run. -/
theorem execVdot_runs (ha : available s i = true) (hruns : VdotRuns s vm vd groups) (hvd : vd ∈ groups)
    (hlen : s.vregs.length = 32 * elemsPerReg s.cfg) :
    ∃ t, execVdot i vm qa qb first vd vs2 groups s = .next t ∧ NextInsn s t ∧ VectorOnly s t vd ∧
      ∀ e < vlmax s, elem32 t vd e = newElem s
        (fun e => dot qa qb (productOn s vm e) (first e) (elem32 s vs2 e) (elem32 s vd e)) vd e := by
  refine ⟨_, by rw [execVdot, ha, (vdotLegal_iff ..).2 hruns, Bool.and_self, requireLegal_true],
    nextInsn_advance _ _ (by simp) (by simp), vectorOnly_setElems .., fun e he => ?_⟩
  refine Eq.trans ?_ (elem32_setElems hlen (hruns.aligned vd hvd) he)
  simp [elem32]

theorem execVdot_illegal (h : ¬ VdotRuns s vm vd groups) :
    execVdot i vm qa qb first vd vs2 groups s = .next (trap s 2 false (illegalInfo s.cfg (encode i))) := by
  have hlegal : vdotLegal s vm vd groups = false := Bool.eq_false_iff.2 (mt (vdotLegal_iff ..).1 h)
  rw [execVdot, hlegal, Bool.and_false, requireLegal_false]
  rfl

/-- Which products take part, by where the mask bits lie (49 R428 c). -/
theorem productOn_eq {on : Nat → Nat → Bool} (hon : ∀ i k, on i k = true ↔ vm = true ∨
    (s.vregs.getD (maskAt s (4 * i + k) / 32) 0).getLsbD (maskAt s (4 * i + k) % 32) = true) :
    productOn s vm = on := by
  funext i k
  rw [Bool.eq_iff_iff, hon, ← maskBit_eq, productOn, Bool.or_eq_true]

end

/-! ## The statements -/

/-- Settles O50: the seven are one dot product, with their factors and their first operand. -/
theorem vectorDotProducts : Obligations.VectorDotProducts := by
  unfold Obligations.VectorDotProducts
  intro s vd v1 vs2 vm he hlen p hp hruns on hon
  have ha : available s p.1 = true := by fin_cases hp <;> exact he
  have hexec : exec p.1 s = execVdot p.1 vm p.2.1 p.2.2.1
      (fun e => if p.2.2.2 then elem32 s v1 e else (readX s v1).setWidth 32) vd vs2
      (if p.2.2.2 then [vd, v1, vs2] else [vd, vs2]) s := by
    fin_cases hp <;> rfl
  have hvd : vd ∈ if p.2.2.2 then [vd, v1, vs2] else [vd, vs2] := by split <;> exact List.mem_cons_self
  obtain ⟨t, hrun, hnext, hframe, helem⟩ := execVdot_runs ha hruns hvd hlen
  refine ⟨t, hexec.trans hrun, hnext, hframe, fun i hi => ⟨fun hlo hhi => ?active, fun hkept => ?kept,
    fun hsome habove => ?above⟩⟩
  case active => rw [helem i hi, newElem_active hlo hhi, dot_toInt, productOn_eq hon]
  case kept => rw [helem i hi, newElem_kept hkept]
  case above =>
    rw [helem i hi]
    exact newElem_tail hsome habove

/-- Settles O51. -/
theorem vectorIllegal : Obligations.VectorIllegal := by
  unfold Obligations.VectorIllegal
  intro s vd v1 vs2 vm p hp hfails
  have shape : ∃ qa qb first, exec p.1 s =
      execVdot p.1 vm qa qb first vd vs2 (if p.2 then [vd, v1, vs2] else [vd, vs2]) s := by
    fin_cases hp <;> exact ⟨_, _, _, rfl⟩
  obtain ⟨qa, qb, first, hexec⟩ := shape
  rw [hexec]
  exact execVdot_illegal hfails

end Sys2Proof
end
